-- ==== Sys2Proof/Word.lean ====
section
/-! DEFINITION. The bit-vector types of the block compressor (10_state.md R37) and nothing else. -/

namespace Sys2Proof

/-- A byte: an element of IN, U, LCOL, MTFLIST and OUT (20_memory.md R70). -/
abbrev Byte := BitVec 8

/-- A 32-bit quantity: a command operand, a CRC, a response value (30_encoding.md R100, R101). -/
abbrev U32 := BitVec 32

/-- A command word `op, a, b` (30_encoding.md R100). -/
abbrev CommandWord := BitVec 72

end Sys2Proof
end

