-- ==== Sys2Proof/Config.lean ====
section
/-! DEFINITION. What is fixed for the hardware: the constants of 00_scope.md R10 and the defaults of the
named parameters of R11. The parameters LOGCAP and IN_SIZE themselves stand in State (log 2), so that a
statement about every state holds for every value of them. -/

namespace Sys2Proof.Config

/-- Default of LOGCAP, the number of records the deferred log can hold (00_scope.md R11). -/
def defaultLogCap : Nat := 1048576

/-- Default of IN_SIZE, the size of the host's input window in bytes (00_scope.md R11). -/
def defaultInSize : Nat := 900000

/-- WMAX: the widest `write_bits` (00_scope.md R10). -/
def maxWidth : Nat := 24

/-- GROUP: symbols per selector group (00_scope.md R10). -/
def groupSize : Nat := 50

/-- LENMAX: the longest code (00_scope.md R10). -/
def maxCodeLength : Nat := 17

/-- ICOST_OUT: the pseudo-length outside a slice; inside it is 0 (00_scope.md R10, 45_huffman.md R283). -/
def pseudoLengthOutside : Nat := 15

/-- RUNMAX: the longest run one RLE1 piece stands for (00_scope.md R10). -/
def maxRun : Nat := 255

/-- AMAX: the largest alphabet, and the row length of FREQ, LEN and CODE (00_scope.md R10, 20_memory.md R70). -/
def maxAlphabet : Nat := 258

/-- CRCPOLY, MSB first (00_scope.md R10). -/
def crcPolynomial : U32 := 0x04C11DB7#32

/-- The two halves of BLOCK_MAGIC 0x314159265359 (00_scope.md R10, 46_closeblock_emit.md R340). -/
def blockMagicHigh : Nat := 0x314159
def blockMagicLow : Nat := 0x265359

/-- The two halves of the end marker 0x177245385090 (30_encoding.md R117). -/
def endMarkerHigh : Nat := 0x177245
def endMarkerLow : Nat := 0x385090

/-- CBS at a level: `100_000·L` (10_state.md R49). -/
def compressBlockSize (level : Nat) : Nat := 100000 * level

/-- RBS at a level: `80_000·L` (10_state.md R49). -/
def readBlockSize (level : Nat) : Nat := 80000 * level

/-- LIMIT at a level: `CBS − 1` (42_rle1.md R202). -/
def blockLimit (level : Nat) : Nat := compressBlockSize level - 1

end Sys2Proof.Config
end

