-- ==== Sys2Proof/Syntax.lean ====
section
/-! DEFINITION. The instructions: one constructor for each row of spec/opcode_table.json, in the table's
order: the 24 commands of the command port (30_encoding.md R102), the 8 stages of BCLOSE
(46_closeblock_emit.md R330) and the 17 fields of the output bitstream (30_encoding.md R110 to R119).

A command's operands are the raw 32-bit words `a`, `b` (R103: never masked), so that an operand outside
its legal range is an instruction too: its meaning rejects it. A stream field carries the value it writes. -/

namespace Sys2Proof

/-- Which field of the output bitstream a run of bits is; the position alone tells (30_encoding.md R118). -/
inductive FieldKind where
  | header | blockMagic | blockCrc | randomized | origPtr | bigMap | groupMap | nTables | nSelectors
  | selector | lenStart | lenDelta | symbol | endMarker | streamCrc | padding | logRecord
  deriving DecidableEq, Repr

/-- The instructions of BZ2-BCD. -/
inductive Instr where
  -- control
  | reset
  | csrw (a b : U32)
  | csrr (a : U32)
  -- the real bit sink
  | wbitsR (w v : U32)
  | wboolR (b : U32)
  | wunaryR (n : U32)
  | wu32R (v : U32)
  | flushR
  -- the deferred bit sink
  | wbitsD (w v : U32)
  | wboolD (b : U32)
  | wunaryD (n : U32)
  | wu32D (v : U32)
  | flushD
  -- the deferred log
  | setcrc (v : U32)
  | replay
  | logclr
  | logrd (i : U32)
  -- the CRC unit
  | crcrst
  | crcupd (x : U32)
  | crcget
  | crcfold (x : U32)
  -- the block of data
  | blkopen (sink : U32)
  | bwrite (off len : U32)
  | bclose
  -- the stages of BCLOSE
  | stRleflush
  | stCrcfin
  | stBwt
  | stSymmap
  | stMtf
  | stHsel
  | stCanon
  | stEmit
  -- the fields of the output bitstream
  | fHeader (level : BitVec 4)
  | fBlockMagic
  | fBlockCrc (crc : U32)
  | fRandomized
  | fOrigPtr (p : BitVec 24)
  | fBigMap (m : BitVec 16)
  | fGroupMap (m : BitVec 16)
  | fNTables (t : BitVec 3)
  | fNSelectors (g : BitVec 15)
  | fSelector (rank : BitVec 3)
  | fLenStart (l : BitVec 5)
  | fLenDelta (down : Bool) (d : BitVec 5)
  | fSymbol (w : BitVec 5) (code : BitVec 17)
  | fEndMarker
  | fStreamCrc (crc : U32)
  | fPadding
  | fLogRecord (w : BitVec 5) (v : BitVec 24)
  deriving DecidableEq, Repr

/-- What can stand at the command port: a command word, or (log 9) one field of the bitstream, as `nbits`
wire bits whose first bit on the wire is the most significant bit of `bits`, or (log 3) the host's writing of
bytes into IN between two commands (70_reset_and_hazards.md R430), which is no instruction. -/
inductive Slot where
  | command (w : CommandWord)
  | field (f : FieldKind) (nbits bits : Nat)
  | input (off : Nat) (bytes : List Byte)
  deriving DecidableEq, Repr

/-- The encoding of an instruction together with the place it is read from: the port, or the register
STAGE while BCLOSE runs (30_encoding.md R104). -/
inductive Code where
  | port (x : Slot)
  | stage (st : BitVec 4)
  deriving DecidableEq, Repr

/-- The reject codes (60_exceptions.md R371). -/
inductive RejectCode where
  | illegalOp
  | badOperand
  | badPhase
  | roCsr
  | halted
  deriving DecidableEq, Repr

/-- The fatal codes a rule raises (60_exceptions.md R372); INTERNAL is raised by none (R379). -/
inductive FatalCode where
  | logOverflow
  | ioError
  deriving DecidableEq, Repr

end Sys2Proof
end

