-- ==== Sys2Proof/WellFormed.lean ====
section
/-! DEFINITION. Which instructions have all their operands in the ranges the spec gives them, as far as the
instruction alone decides it. A command outside these ranges is no malformed term of the model: the hardware
takes it and rejects it with BAD_OPERAND (30_encoding.md R105), and so does its meaning. Two ranges of R105
depend on the state (`BWRITE` against IN_SIZE, `LOGRD` against DS.LOGLEN) and are checked by the meanings only. -/

namespace Sys2Proof

/-- `1 ≤ w ≤ 24` and `v < 2^w`: a legal `write_bits` (30_encoding.md R105). The width is tested first, so the
power is only ever taken of a small width. -/
def bitsInRange (w v : Nat) : Bool :=
  decide (1 ≤ w) && (decide (w ≤ Config.maxWidth) && decide (v < 2 ^ w))

/-- The ranges of the operands (30_encoding.md R105; for the stream fields R111 to R120). -/
def Instr.wf : Instr → Bool
  | .reset => true
  | .csrw a b =>
    decide (a.toNat ≤ 0x14) && (decide (a.toNat ≠ 1) || (decide (1 ≤ b.toNat) && decide (b.toNat ≤ 255)))
  | .csrr a => decide (a.toNat ≤ 0x14)
  | .wbitsR w v => bitsInRange w.toNat v.toNat
  | .wboolR b => decide (b.toNat ≤ 1)
  | .wunaryR _ => true
  | .wu32R _ => true
  | .flushR => true
  | .wbitsD w v => bitsInRange w.toNat v.toNat
  | .wboolD b => decide (b.toNat ≤ 1)
  | .wunaryD _ => true
  | .wu32D _ => true
  | .flushD => true
  | .setcrc _ => true
  | .replay => true
  | .logclr => true
  | .logrd _ => true
  | .crcrst => true
  | .crcupd x => decide (x.toNat ≤ 255)
  | .crcget => true
  | .crcfold _ => true
  | .blkopen sink => decide (sink.toNat ≤ 1)
  | .bwrite _ _ => true
  | .bclose => true
  | .stRleflush => true
  | .stCrcfin => true
  | .stBwt => true
  | .stSymmap => true
  | .stMtf => true
  | .stHsel => true
  | .stCanon => true
  | .stEmit => true
  | .fHeader level => decide (1 ≤ level.toNat) && decide (level.toNat ≤ 9)
  | .fBlockMagic => true
  | .fBlockCrc _ => true
  | .fRandomized => true
  | .fOrigPtr p => decide (p.toNat < 899999)
  | .fBigMap m => decide (m ≠ 0#16)
  | .fGroupMap m => decide (m ≠ 0#16)
  | .fNTables t => decide (2 ≤ t.toNat) && decide (t.toNat ≤ 6)
  | .fNSelectors g => decide (1 ≤ g.toNat) && decide (g.toNat ≤ 18000)
  | .fSelector rank => decide (rank.toNat ≤ 5)
  | .fLenStart l => decide (1 ≤ l.toNat) && decide (l.toNat ≤ Config.maxCodeLength)
  | .fLenDelta down d => decide (d.toNat ≤ 16) && (decide (d.toNat ≠ 0) || !down)
  | .fSymbol w code =>
    decide (1 ≤ w.toNat) && (decide (w.toNat ≤ Config.maxCodeLength) && decide (code.toNat < 2 ^ w.toNat))
  | .fEndMarker => true
  | .fStreamCrc _ => true
  | .fPadding => true
  | .fLogRecord w v => bitsInRange w.toNat v.toNat

end Sys2Proof
end

