-- ==== Sys2Proof/Decode.lean ====
section
/-! DEFINITION. Reading an instruction from its bits, and writing it. A command word is read by its opcode
(30_encoding.md R100, R102) and its unused operands must be zero (R106); a stage is read from the register
STAGE (R104); a stream field is read from wire bits at a position that says which field it is (R112, R118).
The operands' RANGES are no matter of decoding: the meanings check them (R103, R105). -/

namespace Sys2Proof

/-! ## Command words -/

/-- `op`, bits 71:64 (30_encoding.md R100). -/
def opOf (w : CommandWord) : BitVec 8 := w.extractLsb' 64 8

/-- `a`, bits 63:32 (30_encoding.md R100). -/
def aOf (w : CommandWord) : U32 := w.extractLsb' 32 32

/-- `b`, bits 31:0 (30_encoding.md R100). -/
def bOf (w : CommandWord) : U32 := w.extractLsb' 0 32

/-- The word `op_a_b` (30_encoding.md R100). -/
def commandWord (op : BitVec 8) (a b : U32) : CommandWord := op ++ a ++ b

/-- An instruction with no operand: both operand fields must be zero (30_encoding.md R106). -/
def noOperand (i : Instr) (a b : U32) : Except RejectCode Instr :=
  if a = 0#32 ∧ b = 0#32 then .ok i else .error .badOperand

/-- An instruction with operand `a` only: `b` must be zero (30_encoding.md R106). -/
def onlyA (i : U32 → Instr) (a b : U32) : Except RejectCode Instr :=
  if b = 0#32 then .ok (i a) else .error .badOperand

/-- An instruction with operand `b` only: `a` must be zero (30_encoding.md R106). -/
def onlyB (i : U32 → Instr) (a b : U32) : Except RejectCode Instr :=
  if a = 0#32 then .ok (i b) else .error .badOperand

/-- The opcode map (30_encoding.md R102); every other opcode is ILLEGAL_OP (R106). -/
def decodeOp (op : Nat) (a b : U32) : Except RejectCode Instr :=
  match op with
  | 0x01 => noOperand .reset a b
  | 0x02 => .ok (.csrw a b)
  | 0x03 => onlyA .csrr a b
  | 0x10 => .ok (.wbitsR a b)
  | 0x11 => onlyB .wboolR a b
  | 0x12 => onlyB .wunaryR a b
  | 0x13 => onlyB .wu32R a b
  | 0x14 => noOperand .flushR a b
  | 0x18 => .ok (.wbitsD a b)
  | 0x19 => onlyB .wboolD a b
  | 0x1A => onlyB .wunaryD a b
  | 0x1B => onlyB .wu32D a b
  | 0x1C => noOperand .flushD a b
  | 0x20 => onlyB .setcrc a b
  | 0x21 => noOperand .replay a b
  | 0x22 => noOperand .logclr a b
  | 0x23 => onlyA .logrd a b
  | 0x28 => noOperand .crcrst a b
  | 0x29 => onlyB .crcupd a b
  | 0x2A => noOperand .crcget a b
  | 0x2B => onlyB .crcfold a b
  | 0x30 => onlyA .blkopen a b
  | 0x31 => .ok (.bwrite a b)
  | 0x32 => noOperand .bclose a b
  | _ => .error .illegalOp

/-- The command a word stands for, or the code with which the port rejects the word. -/
def decodeCommand (w : CommandWord) : Except RejectCode Instr :=
  decodeOp (opOf w).toNat (aOf w) (bOf w)

/-- `RESET` and `CSRR`: the opcodes taken while FATAL = 1 (60_exceptions.md R382). -/
def opActsWhenFatal (w : CommandWord) : Bool := opOf w == 0x01#8 || opOf w == 0x03#8

/-- What the port makes of a word: HALTED comes before ILLEGAL_OP, and both before the operand checks
(60_exceptions.md R373, R382, R385). -/
def acceptCommand (fatal : Bool) (w : CommandWord) : Except RejectCode Instr :=
  if fatal && !opActsWhenFatal w then .error .halted else decodeCommand w

/-! ## Stages -/

/-- The stage a value of STAGE selects (46_closeblock_emit.md R330); 0 and 9 to 15 select none. -/
def decodeStage (st : BitVec 4) : Option Instr :=
  match st.toNat with
  | 1 => some .stRleflush
  | 2 => some .stCrcfin
  | 3 => some .stBwt
  | 4 => some .stSymmap
  | 5 => some .stMtf
  | 6 => some .stHsel
  | 7 => some .stCanon
  | 8 => some .stEmit
  | _ => none

/-! ## Stream fields -/

/-- `r` one bits and a zero bit, as an `(r+1)`-bit number (30_encoding.md R114). -/
def unaryBits (r : Nat) : Nat := 2 ^ (r + 1) - 2

/-- `d` times the pair `p`, then a zero bit, as a `(2d+1)`-bit number (30_encoding.md R115). -/
def pairBits (p : Nat) : Nat → Nat
  | 0 => 0
  | d + 1 => p * 2 ^ (2 * d + 1) + pairBits p d

/-- A fixed field: exactly these bits. -/
def fixedField (i : Instr) (width value nbits bits : Nat) : Option Instr :=
  if nbits = width ∧ bits = value then some i else none

/-- A field of a fixed width that carries a number. -/
def numberField {w : Nat} (i : BitVec w → Instr) (nbits bits : Nat) : Option Instr :=
  if nbits = w ∧ bits < 2 ^ w then some (i (BitVec.ofNat w bits)) else none

/-- F.HEADER: `BZh`, then `0x30 + L` with `L` in four bits (30_encoding.md R111). -/
def decodeHeader (nbits bits : Nat) : Option Instr :=
  if nbits = 32 ∧ bits / 16 = 0x425A683 then some (.fHeader (BitVec.ofNat 4 bits)) else none

/-- F.SELECTOR: the rank in unary (30_encoding.md R114); three bits hold every rank. -/
def decodeSelector (nbits bits : Nat) : Option Instr :=
  if 1 ≤ nbits ∧ nbits ≤ 8 ∧ bits = unaryBits (nbits - 1) then some (.fSelector (BitVec.ofNat 3 (nbits - 1)))
  else none

/-- F.LENDELTA: equal pairs, then a zero (30_encoding.md R115). -/
def decodeLenDelta (nbits bits : Nat) : Option Instr :=
  if nbits % 2 = 1 ∧ nbits ≤ 63 then
    if bits = pairBits 2 (nbits / 2) then some (.fLenDelta false (BitVec.ofNat 5 (nbits / 2)))
    else if bits = pairBits 3 (nbits / 2) then some (.fLenDelta true (BitVec.ofNat 5 (nbits / 2)))
    else none
  else none

/-- F.SYMBOL: a code of 1 to 17 bits (30_encoding.md R116). -/
def decodeSymbol (nbits bits : Nat) : Option Instr :=
  if 1 ≤ nbits ∧ nbits ≤ 17 ∧ bits < 2 ^ nbits then some (.fSymbol (BitVec.ofNat 5 nbits) (BitVec.ofNat 17 bits))
  else none

/-- F.PADDING: fewer than eight zero bits (30_encoding.md R117). -/
def decodePadding (nbits bits : Nat) : Option Instr :=
  if nbits ≤ 7 ∧ bits = 0 then some .fPadding else none

/-- F.LOGRECORD: `{w[4:0], v[23:0]}` (30_encoding.md R119). -/
def decodeLogRecord (nbits bits : Nat) : Option Instr :=
  if nbits = 29 ∧ bits < 2 ^ 29 then some (.fLogRecord (BitVec.ofNat 5 (bits / 2 ^ 24)) (BitVec.ofNat 24 bits))
  else none

/-- The field that `nbits` wire bits are, at a position where field `f` stands (30_encoding.md R112, R118). -/
def decodeField (f : FieldKind) (nbits bits : Nat) : Option Instr :=
  match f with
  | .header => decodeHeader nbits bits
  | .blockMagic => fixedField .fBlockMagic 48 0x314159265359 nbits bits
  | .blockCrc => numberField .fBlockCrc nbits bits
  | .randomized => fixedField .fRandomized 1 0 nbits bits
  | .origPtr => numberField .fOrigPtr nbits bits
  | .bigMap => numberField .fBigMap nbits bits
  | .groupMap => numberField .fGroupMap nbits bits
  | .nTables => numberField .fNTables nbits bits
  | .nSelectors => numberField .fNSelectors nbits bits
  | .selector => decodeSelector nbits bits
  | .lenStart => numberField .fLenStart nbits bits
  | .lenDelta => decodeLenDelta nbits bits
  | .symbol => decodeSymbol nbits bits
  | .endMarker => fixedField .fEndMarker 48 0x177245385090 nbits bits
  | .streamCrc => numberField .fStreamCrc nbits bits
  | .padding => decodePadding nbits bits
  | .logRecord => decodeLogRecord nbits bits

/-- The instruction an encoding stands for, wherever it is read from; bytes for IN are no instruction. -/
def decode : Code → Option Instr
  | .port (.command w) => (decodeCommand w).toOption
  | .port (.field f nbits bits) => decodeField f nbits bits
  | .port (.input _ _) => none
  | .stage st => decodeStage st

/-! ## The encoder -/

/-- A command's encoding (30_encoding.md R100, R102): opcode and operands, unused operands zero. -/
def commandCode (op : BitVec 8) (a b : U32) : Code := .port (.command (commandWord op a b))

/-- A field's encoding. -/
def fieldCode (f : FieldKind) (nbits bits : Nat) : Code := .port (.field f nbits bits)

/-- The encoding of an instruction (30_encoding.md R102, R104, R111 to R119). F.PADDING's own bits depend on
the sink and are none of its encoding (log 11). -/
def encode : Instr → Code
  | .reset => commandCode 0x01#8 0 0
  | .csrw a b => commandCode 0x02#8 a b
  | .csrr a => commandCode 0x03#8 a 0
  | .wbitsR w v => commandCode 0x10#8 w v
  | .wboolR b => commandCode 0x11#8 0 b
  | .wunaryR n => commandCode 0x12#8 0 n
  | .wu32R v => commandCode 0x13#8 0 v
  | .flushR => commandCode 0x14#8 0 0
  | .wbitsD w v => commandCode 0x18#8 w v
  | .wboolD b => commandCode 0x19#8 0 b
  | .wunaryD n => commandCode 0x1A#8 0 n
  | .wu32D v => commandCode 0x1B#8 0 v
  | .flushD => commandCode 0x1C#8 0 0
  | .setcrc v => commandCode 0x20#8 0 v
  | .replay => commandCode 0x21#8 0 0
  | .logclr => commandCode 0x22#8 0 0
  | .logrd i => commandCode 0x23#8 i 0
  | .crcrst => commandCode 0x28#8 0 0
  | .crcupd x => commandCode 0x29#8 0 x
  | .crcget => commandCode 0x2A#8 0 0
  | .crcfold x => commandCode 0x2B#8 0 x
  | .blkopen sink => commandCode 0x30#8 sink 0
  | .bwrite off len => commandCode 0x31#8 off len
  | .bclose => commandCode 0x32#8 0 0
  | .stRleflush => .stage 1#4
  | .stCrcfin => .stage 2#4
  | .stBwt => .stage 3#4
  | .stSymmap => .stage 4#4
  | .stMtf => .stage 5#4
  | .stHsel => .stage 6#4
  | .stCanon => .stage 7#4
  | .stEmit => .stage 8#4
  | .fHeader level => fieldCode .header 32 (0x425A6830 + level.toNat)
  | .fBlockMagic => fieldCode .blockMagic 48 0x314159265359
  | .fBlockCrc crc => fieldCode .blockCrc 32 crc.toNat
  | .fRandomized => fieldCode .randomized 1 0
  | .fOrigPtr p => fieldCode .origPtr 24 p.toNat
  | .fBigMap m => fieldCode .bigMap 16 m.toNat
  | .fGroupMap m => fieldCode .groupMap 16 m.toNat
  | .fNTables t => fieldCode .nTables 3 t.toNat
  | .fNSelectors g => fieldCode .nSelectors 15 g.toNat
  | .fSelector rank => fieldCode .selector (rank.toNat + 1) (unaryBits rank.toNat)
  | .fLenStart l => fieldCode .lenStart 5 l.toNat
  | .fLenDelta down d => fieldCode .lenDelta (2 * d.toNat + 1) (pairBits (if down then 3 else 2) d.toNat)
  | .fSymbol w code => fieldCode .symbol w.toNat code.toNat
  | .fEndMarker => fieldCode .endMarker 48 0x177245385090
  | .fStreamCrc crc => fieldCode .streamCrc 32 crc.toNat
  | .fPadding => fieldCode .padding 0 0
  | .fLogRecord w v => fieldCode .logRecord 29 (w.toNat * 2 ^ 24 + v.toNat)

/-! ## Words as the opcode table numbers them -/

/-- The encoding that a bare number of `nbits` bits is taken for (log 12): 72 bits are a command word; a
shorter width, in the table's own number of bits or in whole bytes, is the row of that width, and where
several rows share it the row whose fixed bits match, else the first of them. -/
def codeOfTableWord (nbits w : Nat) : Code :=
  if nbits = 48 then
    if w = 0x177245385090 then fieldCode .endMarker 48 w else fieldCode .blockMagic 48 w
  else if nbits = 32 then
    if w / 16 = 0x425A683 then fieldCode .header 32 w else fieldCode .blockCrc 32 w
  else if nbits = 29 then fieldCode .logRecord 29 w
  else if nbits = 24 then fieldCode .origPtr 24 w
  else if nbits = 16 then fieldCode .bigMap 16 w
  else if nbits = 15 then fieldCode .nSelectors 15 w
  else if nbits = 5 then fieldCode .lenStart 5 w
  else if nbits = 4 then .stage (BitVec.ofNat 4 w)
  else if nbits = 3 then fieldCode .nTables 3 w
  else if nbits = 1 then fieldCode .randomized 1 w
  else if nbits = 8 then
    if 1 ≤ w ∧ w ≤ 8 then .stage (BitVec.ofNat 4 w)
    else if w = 0 then fieldCode .randomized 1 0
    else fieldCode .lenStart 5 w
  else .port (.command (BitVec.ofNat 72 w))

/-- The instruction the decoder reads from a table row's word. -/
def decodeTableWord (nbits w : Nat) : Option Instr := decode (codeOfTableWord nbits w)

end Sys2Proof
end

