-- ==== Sys2Proof/Machine/State.lean ====
section
/-! DEFINITION. The state of one instance (10_state.md R20 to R55, 20_memory.md R70), with, marked as such,
the model's own fields for what 10_state.md R20 makes arguments of the step: LOGCAP, IN_SIZE, `huff_lengths`,
IN, `out_err`, the command port and the response. Names are the spec's. -/

namespace Sys2Proof.Machine

/-- A memory of `w`-bit elements: (index, element) pairs. Canonical form (`Memory.wf`): indices strictly
rising, no element zero. An index that is not listed reads as 0 (log 1). For `w = 8` these are `Host.Cell`s. -/
abbrev Memory (w : Nat) := List (Nat × BitVec w)

/-- PHASE (10_state.md R40). The reserved value 3 is not a phase (93_implementation_defined.md U8). -/
inductive Phase where
  | idle
  | opened
  | closing
  deriving DecidableEq, Repr

/-- A response word (30_encoding.md R101). -/
structure Response where
  st : BitVec 8
  val : U32
  deriving DecidableEq, Repr

/-- Why the machine stops with a fault. -/
inductive Fault where
  /-- Raised by `step` when PHASE = CLOSING and STAGE is none of 1 to 8. 10_state.md R40 gives such a state no
  meaning and no run reaches it; stopping is safe (log 14). -/
  | noSuchStage
  deriving DecidableEq, Repr

/-- Why the model gives no meaning. -/
inductive Refusal where
  /-- An instruction whose arm of `exec` has no meaning yet; safe. -/
  | notModelled (mnemonic : String)
  /-- Raised by `step` when an item at the port claims to be a stream field and its bits have not that field's
  shape: the spec knows no such item; safe (log 16). -/
  | notAField
  deriving DecidableEq, Repr

/-- The state of one instance. -/
structure State where
  -- the real bit sink (10_state.md R21, R22); OUTLEN is the length of `out` (log 17)
  rsCnt : BitVec 3
  rsPend : BitVec 7
  out : List Byte
  -- the deferred bit sink (10_state.md R23, R24); a record is `w[4:0], v[23:0]` (30_encoding.md R119)
  dsLog : Memory 29
  dsLogLen : Nat
  dsCrc : U32
  dsSealed : Bool
  -- CRCs (10_state.md R25, R26, R30)
  crcAcc : U32
  streamCrc : U32
  blockCrc : U32
  -- RLE1 and the block buffer (10_state.md R27 to R29)
  rlLast : Byte
  rlRun : BitVec 8
  regN : BitVec 20
  rawCnt : U32
  u : Memory 8
  -- the Burrows-Wheeler transformer (10_state.md R31)
  p : Memory 20
  lcol : Memory 8
  origPtr : BitVec 24
  -- symbol map, move-to-front and zero runs (10_state.md R32, R33)
  inUse : Memory 1
  regK : BitVec 9
  mtfList : Memory 8
  sym : Memory 9
  regS : BitVec 20
  zRun : BitVec 20
  -- tables (10_state.md R34, R35); element `[t][v]` of FREQ, LEN, CODE is at index `258·t + v`
  regT : BitVec 3
  regG : BitVec 15
  sel : Memory 3
  freq : Memory 20
  len : Memory 5
  code : Memory 17
  cost : Memory 10
  -- control (10_state.md R36, R40, R42, R44, R45, R47)
  sinkSel : Bool
  level : BitVec 4
  iter : BitVec 8
  phase : Phase
  stage : BitVec 4
  fatal : Bool
  full : Bool
  emitted : Bool
  cause : BitVec 8
  -- the model's own: parameters (00_scope.md R11; log 2), the host's side (70_reset_and_hazards.md R420; log 3,
  -- 4, 6, 13). `outErr` holds the platform's answer to each coming append to OUT, the next first; beyond the
  -- list `out_err` is not asserted. `huffTable` is the parameter `huff_lengths`: the frequency lists on which it
  -- differs from its default, each with its lengths (log 5).
  logCap : Nat
  inSize : Nat
  huffTable : List (List Nat × List Nat)
  inMem : Memory 8
  outErr : List Bool
  port : List Slot
  resp : Option Response
  deriving DecidableEq, Repr

/-- What a meaning answers. -/
abbrev Result := Host.Outcome State Fault Refusal

/-- The state after power-on (10_state.md R55, 70_reset_and_hazards.md R411). Memories list nothing (log 1);
the model's own fields stand at the parameters' defaults and with nothing supplied by the host (log 2, 3, 4,
6, 13). -/
def State.reset : State where
  rsCnt := 0
  rsPend := 0
  out := []
  dsLog := []
  dsLogLen := 0
  dsCrc := 0
  dsSealed := false
  crcAcc := 0xFFFFFFFF#32
  streamCrc := 0
  blockCrc := 0
  rlLast := 0
  rlRun := 0
  regN := 0
  rawCnt := 0
  u := []
  p := []
  lcol := []
  origPtr := 0
  inUse := []
  regK := 0
  mtfList := []
  sym := []
  regS := 0
  zRun := 0
  regT := 0
  regG := 0
  sel := []
  freq := []
  len := []
  code := []
  cost := []
  sinkSel := false
  level := 9
  iter := 4
  phase := .idle
  stage := 0
  fatal := false
  full := false
  emitted := false
  cause := 0
  logCap := Config.defaultLogCap
  inSize := Config.defaultInSize
  huffTable := []
  inMem := []
  outErr := []
  port := []
  resp := none

end Sys2Proof.Machine
end

