-- ==== Sys2Proof/Machine/Ops.lean ====
section
/-! DEFINITION. The shared operations: memories, responses, rejections, taking a fatal fault (this hardware's
only exception) and leaving it, and the two bit sinks. -/

namespace Sys2Proof.Machine

/-! ## Memories (20_memory.md R70, R72) -/

/-- The element at an index; an unlisted index reads as 0 (log 1). -/
def Memory.get {w : Nat} : Memory w → Nat → BitVec w
  | [], _ => 0#w
  | (a, x) :: m, i => if a = i then x else Memory.get m i

/-- Writing one element, in canonical form: a zero is stored by unlisting its index. -/
def Memory.set {w : Nat} : Memory w → Nat → BitVec w → Memory w
  | [], i, v => if v = 0#w then [] else [(i, v)]
  | (a, x) :: m, i, v =>
    if i < a then (if v = 0#w then (a, x) :: m else (i, v) :: (a, x) :: m)
    else if i = a then (if v = 0#w then m else (i, v) :: m)
    else (a, x) :: Memory.set m i v

/-- Writing consecutive elements from an index on. -/
def Memory.writeList {w : Nat} (m : Memory w) (i : Nat) : List (BitVec w) → Memory w
  | [] => m
  | v :: vs => Memory.writeList (Memory.set m i v) (i + 1) vs

/-- The `n` elements from an index on. -/
def Memory.slice {w : Nat} (m : Memory w) (i n : Nat) : List (BitVec w) :=
  (List.range n).map fun j => Memory.get m (i + j)

/-- The canonical form: indices strictly rising, no element zero. -/
def Memory.wf {w : Nat} : Memory w → Bool
  | [] => true
  | [(_, x)] => decide (x ≠ 0#w)
  | (a, x) :: (b, y) :: m => decide (x ≠ 0#w) && (decide (a < b) && Memory.wf ((b, y) :: m))

/-- Where `[t][v]` stands in FREQ, LEN and CODE, each 6 × 258 (20_memory.md R70). -/
def tableIndex (t v : Nat) : Nat := Config.maxAlphabet * t + v

/-! ## Views of registers -/

/-- OUTLEN, 64 bits: the length of OUT (10_state.md R22; log 17). -/
def State.outLen (s : State) : BitVec 64 := BitVec.ofNat 64 s.out.length

/-- CBS (10_state.md R49). -/
def State.cbs (s : State) : Nat := Config.compressBlockSize s.level.toNat

/-- RBS (10_state.md R49). -/
def State.rbs (s : State) : Nat := Config.readBlockSize s.level.toNat

/-- LIMIT (42_rle1.md R202). -/
def State.limit (s : State) : Nat := Config.blockLimit s.level.toNat

/-- `A = K + 2`, the alphabet size (44_symmap_mtf.md R251). -/
def State.alphabet (s : State) : Nat := s.regK.toNat + 2

/-- The symbols of U below N. -/
def State.uList (s : State) : List Byte := Memory.slice s.u 0 s.regN.toNat

/-- LCOL below N. -/
def State.lcolList (s : State) : List Byte := Memory.slice s.lcol 0 s.regN.toNat

/-- INUSE, all 256 entries. -/
def State.inUseList (s : State) : List (BitVec 1) := Memory.slice s.inUse 0 256

/-- SYM below S, as numbers. -/
def State.symList (s : State) : List Nat := (Memory.slice s.sym 0 s.regS.toNat).map BitVec.toNat

/-- SEL below G, as numbers. -/
def State.selList (s : State) : List Nat := (Memory.slice s.sel 0 s.regG.toNat).map BitVec.toNat

/-- `LEN[t][0 .. A)`, as numbers. -/
def State.lenRow (s : State) (t : Nat) : List Nat :=
  (Memory.slice s.len (tableIndex t 0) s.alphabet).map BitVec.toNat

/-- `LEN[t][v]` as a number. -/
def State.lenAt (s : State) (t v : Nat) : Nat := (Memory.get s.len (tableIndex t v)).toNat

/-- `CODE[t][v]` as a number. -/
def State.codeAt (s : State) (t v : Nat) : Nat := (Memory.get s.code (tableIndex t v)).toNat

/-! ## Responses and rejections (30_encoding.md R101, 60_exceptions.md R370, R371) -/

/-- `respond(v)`: the command is done, status 0 (00_scope.md R15). -/
def State.respond (s : State) (v : U32) : State := { s with resp := some ⟨0#8, v⟩ }

/-- The status byte of a rejection (60_exceptions.md R371). -/
def RejectCode.status : RejectCode → BitVec 8
  | .illegalOp => 0x01#8
  | .badOperand => 0x02#8
  | .badPhase => 0x03#8
  | .roCsr => 0x07#8
  | .halted => 0x08#8

/-- `reject <CODE>`: the response, and no change of state (60_exceptions.md R370). -/
def State.reject (s : State) (c : RejectCode) : State := { s with resp := some ⟨RejectCode.status c, 0⟩ }

/-- The command ends with a response value. -/
def done (s : State) (v : U32) : Result := .next (s.respond v)

/-- The command is rejected. -/
def rejected (s : State) (c : RejectCode) : Result := .next (s.reject c)

/-! ## Taking a fatal fault, and the way out of it (60_exceptions.md R380 to R383) -/

/-- The value of CAUSE (60_exceptions.md R372). -/
def FatalCode.cause : FatalCode → BitVec 8
  | .logOverflow => 0x04#8
  | .ioError => 0x05#8

/-- Fatal entry (60_exceptions.md R380, R381): FATAL is set, CAUSE keeps the first code, the response is
`0x80 + code`; a fault inside BCLOSE, that is while PHASE = CLOSING, also ends the closing with EMITTED 0.
Nothing else is saved or changed. -/
def State.takeFatal (s : State) (c : FatalCode) : State :=
  { s with
    fatal := true
    cause := if s.fatal then s.cause else FatalCode.cause c
    phase := if s.phase = .closing then .idle else s.phase
    stage := if s.phase = .closing then 0 else s.stage
    emitted := if s.phase = .closing then false else s.emitted
    resp := some ⟨0x80#8 + FatalCode.cause c, 0⟩ }

/-- RESET, the only way out of a fatal fault (60_exceptions.md R383, 70_reset_and_hazards.md R410): every
register takes its reset value; parameters and the host's side are not the block's (log 20). -/
def State.restart (s : State) : State :=
  { State.reset with
    logCap := s.logCap, inSize := s.inSize, huffTable := s.huffTable, inMem := s.inMem, outErr := s.outErr
    port := s.port, resp := s.resp }

/-! ## Steps that may fault

A sink write may end in a fatal fault after some of its effect (60_exceptions.md R380, R387). -/

/-- The outcome of sink writes: all done, or a fatal fault that left this state. -/
inductive Io where
  | done (s : State)
  | failed (c : FatalCode) (s : State)
  deriving DecidableEq, Repr

/-- Going on after a sink write, unless it faulted. -/
def Io.bind (x : Io) (f : State → Io) : Io :=
  match x with
  | .done s => f s
  | .failed c s => .failed c s

/-- The end of a command that wrote a sink: the response, or the fatal entry. -/
def Io.finish (x : Io) (v : U32) : Result :=
  match x with
  | .done s => .next (s.respond v)
  | .failed c s => .next (s.takeFatal c)

/-! ## The real bit sink (40_bitsink.md R141 to R147) -/

/-- One append to OUT: `out_err` is sampled; asserted, the byte is not counted (40_bitsink.md R147). -/
def appendOut (b : Byte) (s : State) : Io :=
  match s.outErr with
  | [] => .done { s with out := s.out ++ [b] }
  | false :: rest => .done { s with out := s.out ++ [b], outErr := rest }
  | true :: rest => .failed .ioError { s with outErr := rest }

/-- Appends in order, up to the first that fails. -/
def appendAll : List Byte → State → Io
  | [], s => .done s
  | b :: bs, s => (appendOut b s).bind (appendAll bs)

/-- The whole bytes of the `c`-bit number `t`, most significant first (40_bitsink.md R141). -/
def wholeBytes (t c : Nat) : List Byte :=
  (List.range (c / 8)).map fun j => BitVec.ofNat 8 (t / 2 ^ (c - 8 * (j + 1)))

/-- `rs_bits(w, v)` (40_bitsink.md R141, R162): the whole bytes go to OUT, the rest stays pending. If an append
fails, RS.PEND and RS.CNT keep their values (R147). -/
def rsBits (w v : Nat) (s : State) : Io :=
  let t := s.rsPend.toNat * 2 ^ w + v
  let c := s.rsCnt.toNat + w
  (appendAll (wholeBytes t c) s).bind fun s' =>
    .done { s' with rsPend := BitVec.ofNat 7 (t % 2 ^ (c % 8)), rsCnt := BitVec.ofNat 3 (c % 8) }

/-- `n` one bits (40_bitsink.md R143). -/
def rsOnes : Nat → State → Io
  | 0, s => .done s
  | n + 1, s => (rsBits 1 1 s).bind (rsOnes n)

/-- `write_unary(n)` on the real sink (40_bitsink.md R143). -/
def rsUnary (n : Nat) (s : State) : Io := (rsOnes n s).bind (rsBits 1 0)

/-- `write_u32(v)` on the real sink: the high half first (40_bitsink.md R144). -/
def rsU32 (v : Nat) (s : State) : Io := (rsBits 16 (v / 2 ^ 16) s).bind (rsBits 16 (v % 2 ^ 16))

/-- `flush()` on the real sink (40_bitsink.md R145): zero bits up to the byte boundary, if there is a partial
byte at all. -/
def rsFlush (s : State) : Io :=
  if s.rsCnt = 0 then .done s
  else
    (appendOut (BitVec.ofNat 8 (s.rsPend.toNat * 2 ^ (8 - s.rsCnt.toNat))) s).bind fun s' =>
      .done { s' with rsPend := 0, rsCnt := 0 }

/-! ## The deferred bit sink (40_bitsink.md R150 to R158) -/

/-- A record as it stands in DS.LOG: `{w[4:0], v[23:0]}` (30_encoding.md R119). -/
def packRecord (w v : Nat) : BitVec 29 := BitVec.ofNat 5 w ++ BitVec.ofNat 24 v

/-- The width of a record. -/
def recordWidth (r : BitVec 29) : Nat := (r.extractLsb' 24 5).toNat

/-- The value of a record. -/
def recordValue (r : BitVec 29) : Nat := (r.extractLsb' 0 24).toNat

/-- `ds_rec(w, v)` (40_bitsink.md R150, R162): one append to the log, LOG_OVERFLOW if it is full. -/
def dsRec (w v : Nat) (s : State) : Io :=
  if s.dsLogLen = s.logCap then .failed .logOverflow s
  else .done { s with dsLog := Memory.set s.dsLog s.dsLogLen (packRecord w v), dsLogLen := s.dsLogLen + 1 }

/-- `q` records `(8, 0xFF)` (40_bitsink.md R152). -/
def dsOnes : Nat → State → Io
  | 0, s => .done s
  | q + 1, s => (dsRec 8 0xFF s).bind (dsOnes q)

/-- The record of the `r < 8` ones left over (40_bitsink.md R152). -/
def dsRest (r : Nat) (s : State) : Io := if r = 0 then .done s else dsRec r (2 ^ r - 1) s

/-- `write_unary(n)` on the deferred sink (40_bitsink.md R152). -/
def dsUnary (n : Nat) (s : State) : Io :=
  ((dsOnes (n / 8) s).bind (dsRest (n % 8))).bind (dsRec 1 0)

/-- `write_u32(v)` on the deferred sink (40_bitsink.md R153). -/
def dsU32 (v : Nat) (s : State) : Io := (dsRec 16 (v / 2 ^ 16) s).bind (dsRec 16 (v % 2 ^ 16))

/-- The records of the log from index `i` on, `n` of them, written to the real sink in order (40_bitsink.md R157). -/
def replayFrom : Nat → Nat → State → Io
  | _, 0, s => .done s
  | i, n + 1, s =>
    (rsBits (recordWidth (Memory.get s.dsLog i)) (recordValue (Memory.get s.dsLog i)) s).bind (replayFrom (i + 1) n)

/-- A fresh log: empty, CRC slot 0, unsealed (40_bitsink.md R156, 42_rle1.md R201). What DS.LOG then holds beyond
DS.LOGLEN is unspecified; that the old records stay there is the model's choice (log 25). -/
def clearLog (s : State) : State := { s with dsLogLen := 0, dsCrc := 0, dsSealed := false }

/-! ## Writes to either sink (40_bitsink.md R140, R162) -/

/-- One operation of a bit sink. -/
inductive SinkOp where
  | bits (w v : Nat)
  | bool (b : Nat)
  | unary (n : Nat)
  | u32 (v : Nat)
  deriving DecidableEq, Repr

/-- The operation on the real sink. -/
def SinkOp.real : SinkOp → State → Io
  | .bits w v, s => rsBits w v s
  | .bool b, s => rsBits 1 b s
  | .unary n, s => rsUnary n s
  | .u32 v, s => rsU32 v s

/-- The operation on the deferred sink. -/
def SinkOp.deferred : SinkOp → State → Io
  | .bits w v, s => dsRec w v s
  | .bool b, s => dsRec 1 b s
  | .unary n, s => dsUnary n s
  | .u32 v, s => dsU32 v s

/-- `sink_*`: the operation on the bound sink (46_closeblock_emit.md R351). -/
def SinkOp.bound (o : SinkOp) (s : State) : Io := if s.sinkSel then SinkOp.deferred o s else SinkOp.real o s

/-- Operations in order on the real sink, up to the first that faults. -/
def runReal : List SinkOp → State → Io
  | [], s => .done s
  | o :: os, s => (SinkOp.real o s).bind (runReal os)

/-- Operations in order on the deferred sink, up to the first that faults. -/
def runDeferred : List SinkOp → State → Io
  | [], s => .done s
  | o :: os, s => (SinkOp.deferred o s).bind (runDeferred os)

/-- Operations in order on the bound sink, up to the first that faults. -/
def runBound : List SinkOp → State → Io
  | [], s => .done s
  | o :: os, s => (SinkOp.bound o s).bind (runBound os)

end Sys2Proof.Machine
end

