-- ==== Sys2Proof/Machine/Flags.lean ====
section
/-! DEFINITION. The flags and the words that show them: STATUS (10_state.md R42, R46), SEQ and RSSTATE
(10_state.md R43). There are no arithmetic condition codes (R42). -/

namespace Sys2Proof.Machine

/-- A flag as a number. -/
def bitOf (b : Bool) : U32 := if b then 1#32 else 0#32

/-- PHASE as its 2-bit number (10_state.md R40). -/
def Phase.number : Phase → U32
  | .idle => 0#32
  | .opened => 1#32
  | .closing => 2#32

/-- EMPTY, computed at the read: `N = 0` and `RL.RUN = 0` (10_state.md R46). -/
def State.empty (s : State) : Bool := decide (s.regN = 0) && decide (s.rlRun = 0)

/-- STATUS (10_state.md R43): [0] FATAL, [1] FULL, [2] OPEN, [3] EMITTED, [4] SINKSEL, [5] DS.SEALED, [6] EMPTY. -/
def State.statusWord (s : State) : U32 :=
  bitOf s.fatal ||| (bitOf s.full <<< 1) ||| (bitOf (decide (s.phase = .opened)) <<< 2)
    ||| (bitOf s.emitted <<< 3) ||| (bitOf s.sinkSel <<< 4) ||| (bitOf s.dsSealed <<< 5) ||| (bitOf s.empty <<< 6)

/-- SEQ (10_state.md R43): [3:0] STAGE, [5:4] PHASE. -/
def State.seqWord (s : State) : U32 := s.stage.setWidth 32 ||| (Phase.number s.phase <<< 4)

/-- RSSTATE (10_state.md R43): [2:0] RS.CNT, [14:8] RS.PEND. -/
def State.rsStateWord (s : State) : U32 := s.rsCnt.setWidth 32 ||| (s.rsPend.setWidth 32 <<< 8)

end Sys2Proof.Machine
end

