-- ==== Sys2Proof/Machine/Operands.lean ====
section
/-! DEFINITION. Operand forms: the CSR file by number (10_state.md R43), the clamp of LEVEL (R44), the packed
log record (20_memory.md R76), the input window (42_rle1.md R206). -/

namespace Sys2Proof.Machine

/-! ## The CSR file (10_state.md R43) -/

/-- The registers of the CSR file, in the order of their numbers 0x00 to 0x14. -/
inductive Csr where
  | level | iter | status | cause | blockCrc | streamCrc | n | rawCnt | origPtr | nSym | nTables | nSel | nUsed
  | seq | rsState | outLenLo | logLen | logCrc | crcAcc | rbs | cbs
  deriving DecidableEq, Repr

/-- The register a CSR number names; above 0x14 there is none (10_state.md R43). -/
def csrOf (a : U32) : Option Csr :=
  match a.toNat with
  | 0x00 => some .level
  | 0x01 => some .iter
  | 0x02 => some .status
  | 0x03 => some .cause
  | 0x04 => some .blockCrc
  | 0x05 => some .streamCrc
  | 0x06 => some .n
  | 0x07 => some .rawCnt
  | 0x08 => some .origPtr
  | 0x09 => some .nSym
  | 0x0A => some .nTables
  | 0x0B => some .nSel
  | 0x0C => some .nUsed
  | 0x0D => some .seq
  | 0x0E => some .rsState
  | 0x0F => some .outLenLo
  | 0x10 => some .logLen
  | 0x11 => some .logCrc
  | 0x12 => some .crcAcc
  | 0x13 => some .rbs
  | 0x14 => some .cbs
  | _ => none

/-- What a CSR read shows: the register zero-extended to 32 bits (10_state.md R43, R57). -/
def readCsr (c : Csr) (s : State) : U32 :=
  match c with
  | .level => s.level.setWidth 32
  | .iter => s.iter.setWidth 32
  | .status => s.statusWord
  | .cause => s.cause.setWidth 32
  | .blockCrc => s.blockCrc
  | .streamCrc => s.streamCrc
  | .n => s.regN.setWidth 32
  | .rawCnt => s.rawCnt
  | .origPtr => s.origPtr.setWidth 32
  | .nSym => s.regS.setWidth 32
  | .nTables => s.regT.setWidth 32
  | .nSel => s.regG.setWidth 32
  | .nUsed => s.regK.setWidth 32
  | .seq => s.seqWord
  | .rsState => s.rsStateWord
  | .outLenLo => s.outLen.setWidth 32
  | .logLen => BitVec.ofNat 32 s.dsLogLen
  | .logCrc => s.dsCrc
  | .crcAcc => s.crcAcc
  | .rbs => BitVec.ofNat 32 s.rbs
  | .cbs => BitVec.ofNat 32 s.cbs

/-- What a write to LEVEL stores: `min(9, max(1, b))` with `b` read as signed (10_state.md R44). -/
def clampLevel (b : U32) : BitVec 4 := BitVec.ofNat 4 (min 9 (max 1 b.toInt)).toNat

/-- The legal values of ITER (10_state.md R45). -/
def iterInRange (b : U32) : Bool := decide (1 ≤ b.toNat) && decide (b.toNat ≤ 255)

/-! ## Other operands -/

/-- The response value of LOGRD: `{000, w[4:0], v[23:0]}` (20_memory.md R76). -/
def recordResponse (r : BitVec 29) : U32 := r.setWidth 32

/-- IN[off .. off+len) (42_rle1.md R206). -/
def inputBytes (s : State) (off len : Nat) : List Byte := Memory.slice s.inMem off len

end Sys2Proof.Machine
end

