-- ==== Sys2Proof/Machine/Bwt.lean ====
section
/-! DEFINITION. The Burrows-Wheeler transformer, stage 3 of BCLOSE (43_bwt.md R231 to R236). The result is
fixed, the sorting method is free (R232): the definition sorts by insertion. -/

namespace Sys2Proof.Machine

/-- Rotation `a` of U: `rot_a[j] = U[(a + j) mod N]` (43_bwt.md R231, 20_memory.md R90). -/
def rotation (u : List Byte) (a : Nat) : List Byte := u.drop a ++ u.take a

/-- Lexicographic order of symbol sequences, symbols as unsigned numbers (43_bwt.md R231). -/
def compareSymbols : List Byte → List Byte → Ordering
  | [], [] => .eq
  | [], _ :: _ => .lt
  | _ :: _, [] => .gt
  | x :: xs, y :: ys => if x.toNat < y.toNat then .lt else if y.toNat < x.toNat then .gt else compareSymbols xs ys

/-- Rotation `a` comes no later than rotation `b`; fully equal rotations by ascending offset (43_bwt.md R231). -/
def rotationLe (u : List Byte) (a b : Nat) : Bool :=
  match compareSymbols (rotation u a) (rotation u b) with
  | .lt => true
  | .gt => false
  | .eq => decide (a ≤ b)

/-- P: the rotation offsets in ascending order of their rotations (43_bwt.md R232). -/
def rotationOrder (u : List Byte) : List Nat :=
  (List.range u.length).insertionSort fun a b => rotationLe u a b = true

/-- The last symbol of rotation `a` (43_bwt.md R233). -/
def lastSymbol (u : List Byte) (a : Nat) : Byte := u.getD ((a + u.length - 1) % u.length) 0

/-- LCOL (43_bwt.md R233). -/
def lastColumn (u : List Byte) : List Byte := (rotationOrder u).map (lastSymbol u)

/-- ORIG_PTR: the row that holds offset 0 (43_bwt.md R234). -/
def originRow (u : List Byte) : Nat := (rotationOrder u).idxOf 0

/-- ST.BWT (43_bwt.md R236): P, LCOL, ORIG_PTR; U and N are unchanged. -/
def execStBwt (s : State) : Result :=
  .next
    { s with
      p := Memory.writeList s.p 0 ((rotationOrder s.uList).map (BitVec.ofNat 20))
      lcol := Memory.writeList s.lcol 0 (lastColumn s.uList)
      origPtr := BitVec.ofNat 24 (originRow s.uList)
      stage := 4#4 }

end Sys2Proof.Machine
end

