-- ==== Sys2Proof/Machine/Control.lean ====
section
/-! DEFINITION. RESET, CSRW, CSRR (70_reset_and_hazards.md R410, 10_state.md R56, R57). RESET and CSRR act
also while FATAL = 1 (60_exceptions.md R382). -/

namespace Sys2Proof.Machine

/-- RESET (70_reset_and_hazards.md R410). -/
def execReset (s : State) : Result := done s.restart 0

/-- The effect of a CSR write whose checks have passed, by register (10_state.md R44, R45, R56); the last
check, that LEVEL and ITER are written in PHASE IDLE only, is here. -/
def writeCsr (c : Csr) (b : U32) (s : State) : Result :=
  match c with
  | .level => if s.phase ≠ .idle then rejected s .badPhase else done { s with level := clampLevel b } 0
  | .iter =>
    if iterInRange b = false then rejected s .badOperand
    else if s.phase ≠ .idle then rejected s .badPhase
    else done { s with iter := b.setWidth 8 } 0
  | .streamCrc => done { s with streamCrc := b } 0
  | .status | .cause | .blockCrc | .n | .rawCnt | .origPtr | .nSym | .nTables | .nSel | .nUsed
  | .seq | .rsState | .outLenLo | .logLen | .logCrc | .crcAcc | .rbs | .cbs => rejected s .roCsr

/-- CSRW (10_state.md R56), checks in the order of 60_exceptions.md R385. -/
def execCsrw (a b : U32) (s : State) : Result :=
  if s.fatal then rejected s .halted
  else
    match csrOf a with
    | none => rejected s .badOperand
    | some c => writeCsr c b s

/-- CSRR (10_state.md R57): no state changes; accepted also when FATAL = 1. -/
def execCsrr (a : U32) (s : State) : Result :=
  match csrOf a with
  | none => rejected s .badOperand
  | some c => done s (readCsr c s)

end Sys2Proof.Machine
end

