-- ==== Sys2Proof/Machine/DeferredSink.lean ====
section
/-! DEFINITION. The commands of the deferred bit sink and its log (40_bitsink.md R150 to R158). A sealed log
takes no append (R150, R161). -/

namespace Sys2Proof.Machine

/-- WBITS.D (40_bitsink.md R150). -/
def execWbitsD (w v : U32) (s : State) : Result :=
  if s.fatal then rejected s .halted
  else if bitsInRange w.toNat v.toNat = false then rejected s .badOperand
  else if s.dsSealed then rejected s .badPhase
  else (dsRec w.toNat v.toNat s).finish 0

/-- WBOOL.D (40_bitsink.md R151). -/
def execWboolD (b : U32) (s : State) : Result :=
  if s.fatal then rejected s .halted
  else if 1 < b.toNat then rejected s .badOperand
  else if s.dsSealed then rejected s .badPhase
  else (dsRec 1 b.toNat s).finish 0

/-- WUNARY.D (40_bitsink.md R152). -/
def execWunaryD (n : U32) (s : State) : Result :=
  if s.fatal then rejected s .halted
  else if s.dsSealed then rejected s .badPhase
  else (dsUnary n.toNat s).finish 0

/-- WU32.D (40_bitsink.md R153). -/
def execWu32D (v : U32) (s : State) : Result :=
  if s.fatal then rejected s .halted
  else if s.dsSealed then rejected s .badPhase
  else (dsU32 v.toNat s).finish 0

/-- FLUSH.D (40_bitsink.md R154): nothing, whatever DS.SEALED is. -/
def execFlushD (s : State) : Result :=
  if s.fatal then rejected s .halted else done s 0

/-- SETCRC (40_bitsink.md R155): the slot is set, the log sealed. -/
def execSetcrc (v : U32) (s : State) : Result :=
  if s.fatal then rejected s .halted else done { s with dsCrc := v, dsSealed := true } 0

/-- REPLAY (40_bitsink.md R157): every record, in order, on the real sink; the log is not changed. -/
def execReplay (s : State) : Result :=
  if s.fatal then rejected s .halted
  else if s.dsSealed = false then rejected s .badPhase
  else (replayFrom 0 s.dsLogLen s).finish (BitVec.ofNat 32 s.dsLogLen)

/-- LOGCLR (40_bitsink.md R156). -/
def execLogclr (s : State) : Result :=
  if s.fatal then rejected s .halted else done (clearLog s) 0

/-- LOGRD (40_bitsink.md R158): sealed or not. -/
def execLogrd (i : U32) (s : State) : Result :=
  if s.fatal then rejected s .halted
  else if s.dsLogLen ≤ i.toNat then rejected s .badOperand
  else done s (recordResponse (Memory.get s.dsLog i.toNat))

end Sys2Proof.Machine
end

