-- ==== Sys2Proof/Machine/Emit.lean ====
section
/-! DEFINITION. BCLOSE and its last stage, the bit-level emission (46_closeblock_emit.md R330, R340 to R353).
Each field is first given as the sink operations that carry it; the F.* instructions of Machine/Fields.lean
write the same ones. -/

namespace Sys2Proof.Machine

/-! ## The fields as sink operations (46_closeblock_emit.md R340 to R349) -/

/-- Block magic (R340). -/
def magicOps : List SinkOp := [.bits 24 Config.blockMagicHigh, .bits 24 Config.blockMagicLow]

/-- Block CRC (R341). -/
def crcOps (crc : Nat) : List SinkOp := [.u32 crc]

/-- Randomized flag (R342). -/
def randomizedOps : List SinkOp := [.bool 0]

/-- Origin pointer (R343). -/
def origPtrOps (p : Nat) : List SinkOp := [.bits 24 p]

/-- One 16-bit map (R344). -/
def mapOps (m : Nat) : List SinkOp := [.bits 16 m]

/-- Number of tables (R345). -/
def nTablesOps (t : Nat) : List SinkOp := [.bits 3 t]

/-- Number of selectors (R346). -/
def nSelectorsOps (g : Nat) : List SinkOp := [.bits 15 g]

/-- One selector, by its rank (R347). -/
def selectorOps (rank : Nat) : List SinkOp := [.unary rank]

/-- The starting length of a table (R348). -/
def lenStartOps (l : Nat) : List SinkOp := [.bits 5 l]

/-- The steps to the next length, `d` of them, and the terminator (R348): `1,0` is up, `1,1` is down. -/
def lenDeltaOps (down : Bool) (d : Nat) : List SinkOp :=
  List.replicate d (.bits 2 (if down then 3 else 2)) ++ [.bool 0]

/-- One symbol (R349). -/
def symbolOps (w code : Nat) : List SinkOp := [.bits w code]

/-! ## The block of data (46_closeblock_emit.md R344, R347 to R349) -/

/-- Group `g` of INUSE: 16 entries. -/
def mapGroup (m : List (BitVec 1)) (g : Nat) : List (BitVec 1) := (m.drop (16 * g)).take 16

/-- Bits as a number, the first bit most significant. -/
def bitsToNat (bs : List Bool) : Nat := bs.foldl (fun n b => 2 * n + (if b then 1 else 0)) 0

/-- Does group `g` hold a used byte? -/
def groupUsed (m : List (BitVec 1)) (g : Nat) : Bool := (mapGroup m g).contains 1#1

/-- The big map: the first bit on the wire stands for group 0 (R344). -/
def bigMapOf (m : List (BitVec 1)) : Nat := bitsToNat ((List.range 16).map (groupUsed m))

/-- The map of group `g`: the first bit on the wire stands for entry `16g` (R344). -/
def groupMapOf (m : List (BitVec 1)) (g : Nat) : Nat := bitsToNat ((mapGroup m g).map fun b => decide (b = 1#1))

/-- Big map and the maps of the used groups, ascending (R344). -/
def symbolMapOps (m : List (BitVec 1)) : List SinkOp :=
  mapOps (bigMapOf m) ++ ((List.range 16).filter (groupUsed m)).flatMap fun g => mapOps (groupMapOf m g)

/-- The ranks of the selectors in a move-to-front list of table ids (R347). -/
def selectorRanks (ord : List Nat) : List Nat → List Nat
  | [] => []
  | t :: ts => ord.idxOf t :: selectorRanks (t :: ord.erase t) ts

/-- The selector list; the list of table ids starts as `0, …, T−1` (R347). -/
def selectorListOps (tables : Nat) (sels : List Nat) : List SinkOp :=
  (selectorRanks (List.range tables) sels).flatMap selectorOps

/-- The lengths of a table after the running length `c` (R348). -/
def lenDeltasOps (c : Nat) : List Nat → List SinkOp
  | [] => []
  | l :: ls => lenDeltaOps (decide (l < c)) (if l < c then c - l else l - c) ++ lenDeltasOps l ls

/-- The code-length field of one table (R348). -/
def tableOps (lens : List Nat) : List SinkOp := lenStartOps (lens.headD 0) ++ lenDeltasOps (lens.headD 0) lens

/-- The code-length fields of all tables (R348). -/
def tablesOps (s : State) : List SinkOp := (List.range s.regT.toNat).flatMap fun t => tableOps (s.lenRow t)

/-- Symbol `v` number `i` of SYM, under its group's table (R349). -/
def symbolAtOps (s : State) (sels : List Nat) (i v : Nat) : List SinkOp :=
  let t := sels.getD (i / Config.groupSize) 0
  symbolOps (s.lenAt t v) (s.codeAt t v)

/-- The symbol stream (R349). -/
def symbolStreamOps (s : State) : List SinkOp :=
  s.symList.zipIdx.flatMap fun vi => symbolAtOps s s.selList vi.2 vi.1

/-- Everything stage 8 writes, in order (30_encoding.md R112, 46_closeblock_emit.md R340 to R349). No flush (R350). -/
def blockOps (s : State) : List SinkOp :=
  magicOps ++ crcOps s.blockCrc.toNat ++ randomizedOps ++ origPtrOps s.origPtr.toNat ++ symbolMapOps s.inUseList
    ++ nTablesOps s.regT.toNat ++ nSelectorsOps s.regG.toNat ++ selectorListOps s.regT.toNat s.selList
    ++ tablesOps s ++ symbolStreamOps s

/-! ## The command and its last stage -/

/-- BCLOSE (46_closeblock_emit.md R330): the checks, then CLOSING with stage 1 to come. The stages are the
following steps, STAGE being the position; the response comes with the last of them (log 7). -/
def execBclose (s : State) : Result :=
  if s.fatal then rejected s .halted
  else if s.phase ≠ .opened then rejected s .badPhase
  else if s.sinkSel && s.dsSealed then rejected s .badPhase
  else .next { s with phase := .closing, stage := 1#4 }

/-- The end actions (46_closeblock_emit.md R352, R353): the deferred log gets the CRC and the seal. -/
def endClose (s : State) : State :=
  { s with
    emitted := true, phase := .idle, stage := 0
    dsCrc := if s.sinkSel then s.blockCrc else s.dsCrc
    dsSealed := s.sinkSel || s.dsSealed }

/-- ST.EMIT (46_closeblock_emit.md R340 to R353). -/
def execStEmit (s : State) : Result :=
  match runBound (blockOps s) s with
  | .done s' => done (endClose s') s.blockCrc
  | .failed c s' => .next (s'.takeFatal c)

end Sys2Proof.Machine
end

