-- ==== Sys2Proof/Machine/Fields.lean ====
section
/-! DEFINITION. The stream fields as instructions of their own (log 9): the write of one field of the output
bitstream. The fields of a block of data go to the bound sink, as stage 8 writes them (46_closeblock_emit.md
R340 to R349, R351); the host's fields (30_encoding.md R111, R117) and a log record replayed (R119) go to the
real sink. A value outside the field's range (30_encoding.md R120) is rejected as an operand is. -/

namespace Sys2Proof.Machine

/-- A field on the bound sink; a sealed log takes no append (40_bitsink.md R161). -/
def boundField (legal : Bool) (ops : List SinkOp) (s : State) : Result :=
  if s.fatal then rejected s .halted
  else if legal = false then rejected s .badOperand
  else if s.sinkSel && s.dsSealed then rejected s .badPhase
  else (runBound ops s).finish 0

/-- A field on the real sink. -/
def realField (legal : Bool) (ops : List SinkOp) (s : State) : Result :=
  if s.fatal then rejected s .halted
  else if legal = false then rejected s .badOperand
  else (runReal ops s).finish 0

/-- The stream header `BZh`, `0x30 + L`: four byte writes (30_encoding.md R111, R128). -/
def headerOps (level : Nat) : List SinkOp :=
  [.bits 8 0x42, .bits 8 0x5A, .bits 8 0x68, .bits 8 (0x30 + level)]

/-- The end marker: two 24-bit writes (30_encoding.md R117, R128). -/
def endMarkerOps : List SinkOp := [.bits 24 Config.endMarkerHigh, .bits 24 Config.endMarkerLow]

/-- F.HEADER (30_encoding.md R111, R128). -/
def execFHeader (level : BitVec 4) (s : State) : Result :=
  realField (Instr.wf (.fHeader level)) (headerOps level.toNat) s

/-- F.BLOCKMAGIC (46_closeblock_emit.md R340). -/
def execFBlockMagic (s : State) : Result := boundField true magicOps s

/-- F.BLOCKCRC (46_closeblock_emit.md R341). -/
def execFBlockCrc (crc : U32) (s : State) : Result := boundField true (crcOps crc.toNat) s

/-- F.RANDOMIZED (46_closeblock_emit.md R342). -/
def execFRandomized (s : State) : Result := boundField true randomizedOps s

/-- F.ORIGPTR (46_closeblock_emit.md R343). -/
def execFOrigPtr (p : BitVec 24) (s : State) : Result :=
  boundField (Instr.wf (.fOrigPtr p)) (origPtrOps p.toNat) s

/-- F.BIGMAP (46_closeblock_emit.md R344). -/
def execFBigMap (m : BitVec 16) (s : State) : Result := boundField (Instr.wf (.fBigMap m)) (mapOps m.toNat) s

/-- F.GROUPMAP (46_closeblock_emit.md R344). -/
def execFGroupMap (m : BitVec 16) (s : State) : Result := boundField (Instr.wf (.fGroupMap m)) (mapOps m.toNat) s

/-- F.NTABLES (46_closeblock_emit.md R345). -/
def execFNTables (t : BitVec 3) (s : State) : Result := boundField (Instr.wf (.fNTables t)) (nTablesOps t.toNat) s

/-- F.NSELECTORS (46_closeblock_emit.md R346). -/
def execFNSelectors (g : BitVec 15) (s : State) : Result :=
  boundField (Instr.wf (.fNSelectors g)) (nSelectorsOps g.toNat) s

/-- F.SELECTOR (46_closeblock_emit.md R347). -/
def execFSelector (rank : BitVec 3) (s : State) : Result :=
  boundField (Instr.wf (.fSelector rank)) (selectorOps rank.toNat) s

/-- F.LENSTART (46_closeblock_emit.md R348). -/
def execFLenStart (l : BitVec 5) (s : State) : Result :=
  boundField (Instr.wf (.fLenStart l)) (lenStartOps l.toNat) s

/-- F.LENDELTA (46_closeblock_emit.md R348). -/
def execFLenDelta (down : Bool) (d : BitVec 5) (s : State) : Result :=
  boundField (Instr.wf (.fLenDelta down d)) (lenDeltaOps down d.toNat) s

/-- F.SYMBOL (46_closeblock_emit.md R349). -/
def execFSymbol (w : BitVec 5) (code : BitVec 17) (s : State) : Result :=
  boundField (Instr.wf (.fSymbol w code)) (symbolOps w.toNat code.toNat) s

/-- F.ENDMARKER (30_encoding.md R117, R128). -/
def execFEndMarker (s : State) : Result := realField true endMarkerOps s

/-- F.STREAMCRC (30_encoding.md R117). -/
def execFStreamCrc (crc : U32) (s : State) : Result := realField true (crcOps crc.toNat) s

/-- F.PADDING: what FLUSH.R writes, zero bits to the next byte boundary (40_bitsink.md R145; log 11). -/
def execFPadding (s : State) : Result :=
  if s.fatal then rejected s .halted else (rsFlush s).finish 0

/-- F.LOGRECORD: a record means exactly `write_bits(w, v)` on the real sink (30_encoding.md R119; log 10). -/
def execFLogRecord (w : BitVec 5) (v : BitVec 24) (s : State) : Result :=
  realField (Instr.wf (.fLogRecord w v)) [.bits w.toNat v.toNat] s

end Sys2Proof.Machine
end

