-- ==== Sys2Proof/Machine/Huffman.lean ====
section
/-! DEFINITION. Table count, table selection, code lengths (stage 6) and canonical codes (stage 7)
(45_huffman.md R280 to R300). The tables are computed as lists of numbers and then stored. -/

namespace Sys2Proof.Machine

/-! ## The default of the code-length function (45_huffman.md R291 to R293) -/

/-- A code tree. -/
inductive CodeTree where
  | leaf (v : Nat)
  | node (l r : CodeTree)
  deriving DecidableEq, Repr

/-- A node of the construction: `(weight, depth, id)` and the tree below it (45_huffman.md R292). -/
structure HuffNode where
  weight : Nat
  depth : Nat
  id : Nat
  tree : CodeTree
  deriving DecidableEq, Repr

/-- The lexicographic order on `(weight, depth, id)` (45_huffman.md R292). -/
def HuffNode.before (a b : HuffNode) : Bool :=
  decide (a.weight < b.weight)
    || (decide (a.weight = b.weight)
        && (decide (a.depth < b.depth) || (decide (a.depth = b.depth) && decide (a.id ≤ b.id))))

/-- Putting a node into a list kept in that order. -/
def insertNode (a : HuffNode) : List HuffNode → List HuffNode
  | [] => [a]
  | b :: bs => if HuffNode.before a b then a :: b :: bs else b :: insertNode a bs

/-- The leaves `(w[v], 0, v)`, in order. -/
def leafNodes (ws : List Nat) : List HuffNode :=
  (ws.zipIdx.map fun wv => HuffNode.mk wv.1 0 wv.2 (.leaf wv.2)).foldr insertNode []

/-- The parent of the two least nodes. -/
def parentNode (a b : HuffNode) (next : Nat) : HuffNode :=
  ⟨a.weight + b.weight, 1 + max a.depth b.depth, next, .node a.tree b.tree⟩

/-- At most `n` merges of the two least nodes, the new nodes numbered from `next` on (45_huffman.md R292). -/
def mergeNodes : Nat → Nat → List HuffNode → List HuffNode
  | n + 1, next, a :: b :: rest => mergeNodes n (next + 1) (insertNode (parentNode a b next) rest)
  | _, _, l => l

/-- The (symbol, depth) pairs of a tree's leaves, its root at depth `d`. -/
def CodeTree.leaves (d : Nat) : CodeTree → List (Nat × Nat)
  | .leaf v => [(v, d)]
  | .node l r => CodeTree.leaves (d + 1) l ++ CodeTree.leaves (d + 1) r

/-- The finished tree of a weight list; it exists when there is a weight at all. -/
def huffTree (ws : List Nat) : Option CodeTree :=
  (mergeNodes (ws.length - 1) ws.length (leafNodes ws)).head?.map HuffNode.tree

/-- `len[v]` for every symbol: how many ancestors its leaf has (45_huffman.md R292). -/
def treeLengths (ws : List Nat) : List Nat :=
  match huffTree ws with
  | none => []
  | some t => (List.range ws.length).map fun v => ((CodeTree.leaves 0 t).lookup v).getD 0

/-- The length limit: while a length exceeds 17 every weight `w` becomes `1 + w div 2` (45_huffman.md R293). The
first argument bounds the rounds; 45_huffman.md R294 shows that 20 are enough (log 21). -/
def limitLengths : Nat → List Nat → List Nat
  | 0, ws => treeLengths ws
  | fuel + 1, ws =>
    if (treeLengths ws).all fun l => decide (l ≤ Config.maxCodeLength) then treeLengths ws
    else limitLengths fuel (ws.map fun w => 1 + w / 2)

/-- The default of `huff_lengths(f, A)`, with `A` the length of `f` (45_huffman.md R291 to R293). -/
def huffLengths (f : List Nat) : List Nat := limitLengths 20 (f.map fun x => max x 1)

/-! ## The parameter `huff_lengths` (00_scope.md R11, 45_huffman.md R290; log 5) -/

/-- The Kraft sum of a list of lengths, in units of `2^(−n)` (45_huffman.md R290). -/
def kraftSum (n : Nat) (lens : List Nat) : Nat := (lens.map fun l => 2 ^ (n - l)).sum

/-- What the contract asks of the lengths for a frequency list: one for each symbol, 1 to 17, Kraft sum at most 1
(45_huffman.md R290). -/
def lengthsLegal (f lens : List Nat) : Bool :=
  decide (lens.length = f.length)
    && ((lens.all fun l => decide (1 ≤ l) && decide (l ≤ Config.maxCodeLength))
        && decide (kraftSum Config.maxCodeLength lens ≤ 2 ^ Config.maxCodeLength))

/-- The code-length function of a table of choices: the lengths the table gives a frequency list, if they meet the
contract, else the default's. The domain of `huff_lengths` is finite, so every function that meets the contract is
that of some table. -/
def codeLengths (table : List (List Nat × List Nat)) (f : List Nat) : List Nat :=
  match table.lookup f with
  | none => huffLengths f
  | some lens => if lengthsLegal f lens then lens else huffLengths f

/-! ## Stage 6 (45_huffman.md R281 to R289) -/

/-- T from S (45_huffman.md R281). -/
def numTables (n : Nat) : Nat :=
  if n ≤ 200 then 2 else if n ≤ 600 then 3 else if n ≤ 1200 then 4 else if n ≤ 2400 then 5 else 6

/-- G from S (45_huffman.md R282). -/
def numGroups (n : Nat) : Nat := (n + (Config.groupSize - 1)) / Config.groupSize

/-- Group `g` of a symbol stream (45_huffman.md R282). -/
def symbolGroup (ys : List Nat) (g : Nat) : List Nat := (ys.drop (Config.groupSize * g)).take Config.groupSize

/-- How often each symbol below `a` occurs (45_huffman.md R283, R285). -/
def histogram (a : Nat) (ys : List Nat) : List Nat := (List.range a).map fun v => ys.count v

/-- One slice: from `hi` on, symbols are added until their weight `acc` reaches the target or the alphabet ends.
Answers one past the slice's last symbol, and its weight. The first argument bounds the steps
(45_huffman.md R283). -/
def cutSlice (f : List Nat) (a target : Nat) : Nat → Nat → Nat → Nat × Nat
  | 0, hi, acc => (hi, acc)
  | fuel + 1, hi, acc =>
    if acc < target ∧ hi < a then cutSlice f a target fuel (hi + 1) (acc + f.getD hi 0) else (hi, acc)

/-- The pseudo-lengths of one slice `[lo, hi)` (45_huffman.md R283). -/
def sliceLengths (a lo hi : Nat) : List Nat :=
  (List.range a).map fun v => if lo ≤ v ∧ v < hi then 0 else Config.pseudoLengthOutside

/-- The initial tables still to be made: their number, the weight left, the first symbol left (45_huffman.md R283). -/
def initialTables (f : List Nat) (a : Nat) : Nat → Nat → Nat → List (List Nat)
  | 0, _, _ => []
  | left + 1, rem, lo =>
    match cutSlice f a (rem / (left + 1)) a lo 0 with
    | (hi, acc) => sliceLengths a lo hi :: initialTables f a left (rem - acc) hi

/-- COST[t]: the group's length under a table (45_huffman.md R284). -/
def groupCost (table ys : List Nat) : Nat := (ys.map fun v => table.getD v 0).sum

/-- COST for every table. -/
def groupCosts (tables : List (List Nat)) (ys : List Nat) : List Nat := tables.map fun t => groupCost t ys

/-- The least index of a least cost (45_huffman.md R285, R286); the first two arguments are the best so far. -/
def leastFrom (best bestCost : Nat) : Nat → List Nat → Nat
  | _, [] => best
  | i, c :: cs => if c < bestCost then leastFrom i c (i + 1) cs else leastFrom best bestCost (i + 1) cs

/-- The table with the smallest cost, the lowest index on a tie. -/
def cheapest : List Nat → Nat
  | [] => 0
  | c :: cs => leastFrom 0 c 1 cs

/-- What one round leaves (45_huffman.md R285). -/
structure Round where
  lens : List (List Nat)
  sels : List Nat
  freqs : List (List Nat)
  costs : List Nat
  deriving DecidableEq, Repr

/-- The symbols of the groups that selected table `t`. -/
def symbolsOf (groups : List (List Nat)) (sels : List Nat) (t : Nat) : List Nat :=
  ((groups.zip sels).filter fun gs => gs.2 = t).flatMap Prod.fst

/-- One refinement round: every group selects under the tables as they stand, then every table's lengths are
computed anew by the code-length function `huff` (45_huffman.md R285). -/
def refine (huff : List Nat → List Nat) (a : Nat) (groups : List (List Nat)) (tables : List (List Nat)) : Round :=
  let sels := groups.map fun g => cheapest (groupCosts tables g)
  let freqs := (List.range tables.length).map fun t => histogram a (symbolsOf groups sels t)
  ⟨freqs.map huff, sels, freqs, groupCosts tables (groups.getLastD [])⟩

/-- ITER rounds (45_huffman.md R280, R285). -/
def refineTimes (huff : List Nat → List Nat) (a : Nat) (groups : List (List Nat)) : Nat → Round → Round
  | 0, r => r
  | n + 1, r => refineTimes huff a groups n (refine huff a groups r.lens)

/-- The state before the first round: the pseudo-lengths (45_huffman.md R283). -/
def initialRound (a : Nat) (ys : List Nat) : Round :=
  ⟨initialTables (histogram a ys) a (numTables ys.length) ys.length 0, [], [], []⟩

/-- The groups of a symbol stream (45_huffman.md R282). -/
def symbolGroups (ys : List Nat) : List (List Nat) :=
  (List.range (numGroups ys.length)).map (symbolGroup ys)

/-- Stage 6 on a symbol stream, for an alphabet of `a` symbols (45_huffman.md R280). -/
def selectTables (huff : List Nat → List Nat) (a iters : Nat) (ys : List Nat) : Round :=
  refineTimes huff a (symbolGroups ys) iters (initialRound a ys)

/-- Storing table rows, row `t` from element `[t][0]` on. -/
def writeRows {w : Nat} (m : Memory w) (t : Nat) : List (List Nat) → Memory w
  | [] => m
  | row :: rows => writeRows (Memory.writeList m (tableIndex t 0) (row.map (BitVec.ofNat w))) (t + 1) rows

/-- ST.HSEL (45_huffman.md R280). -/
def execStHsel (s : State) : Result :=
  let ys := s.symList
  let r := selectTables (codeLengths s.huffTable) s.alphabet s.iter.toNat ys
  .next
    { s with
      regT := BitVec.ofNat 3 (numTables ys.length)
      regG := BitVec.ofNat 15 (numGroups ys.length)
      sel := Memory.writeList s.sel 0 (r.sels.map (BitVec.ofNat 3))
      freq := writeRows s.freq 0 r.freqs
      len := writeRows s.len 0 r.lens
      cost := Memory.writeList s.cost 0 (r.costs.map (BitVec.ofNat 10))
      stage := 7#4 }

/-! ## Stage 7 (45_huffman.md R300) -/

/-- The symbols of length `n` get consecutive codes from `vec` on, in symbol order; the rest of the list of codes
is kept. Answers the next code and the codes. -/
def assignLength (n vec : Nat) : List Nat → List Nat → Nat × List Nat
  | l :: ls, c :: cs =>
    if l = n then
      match assignLength n (vec + 1) ls cs with
      | (vec', cs') => (vec', vec :: cs')
    else
      match assignLength n vec ls cs with
      | (vec', cs') => (vec', c :: cs')
  | _, cs => (vec, cs)

/-- The lengths `n, n+1, …`, `count` of them, `vec` doubled after each (45_huffman.md R300). -/
def assignLengths (lens : List Nat) : Nat → Nat → Nat → List Nat → List Nat
  | 0, _, _, cs => cs
  | count + 1, n, vec, cs =>
    match assignLength n vec lens cs with
    | (vec', cs') => assignLengths lens count (n + 1) (vec' * 2) cs'

/-- The canonical codes of a table (45_huffman.md R300). -/
def canonicalCodes (lens : List Nat) : List Nat :=
  assignLengths lens (lens.foldr max 0 + 1 - lens.foldr min (lens.foldr max 0)) (lens.foldr min (lens.foldr max 0)) 0
    (lens.map fun _ => 0)

/-- ST.CANON (45_huffman.md R300). -/
def execStCanon (s : State) : Result :=
  .next
    { s with
      code := writeRows s.code 0 ((List.range s.regT.toNat).map fun t => canonicalCodes (s.lenRow t))
      stage := 8#4 }

end Sys2Proof.Machine
end

