-- ==== Sys2Proof/Machine/Mtf.lean ====
section
/-! DEFINITION. Symbol map, move-to-front and zero-run coding, stages 4 and 5 of BCLOSE (44_symmap_mtf.md). -/

namespace Sys2Proof.Machine

/-- INUSE of a symbol sequence: entry `x` is 1 iff `x` occurs (44_symmap_mtf.md R250). -/
def usedMap (u : List Byte) : List (BitVec 1) :=
  (List.range 256).map fun x => if u.contains (BitVec.ofNat 8 x) then 1#1 else 0#1

/-- K: the number of ones in INUSE (44_symmap_mtf.md R250). -/
def usedCount (m : List (BitVec 1)) : Nat := m.count 1#1

/-- ST.SYMMAP (44_symmap_mtf.md R250). -/
def execStSymmap (s : State) : Result :=
  .next
    { s with
      inUse := Memory.writeList s.inUse 0 (usedMap s.uList)
      regK := BitVec.ofNat 9 (usedCount (usedMap s.uList))
      stage := 5#4 }

/-- The initial list: the used byte values in ascending order (44_symmap_mtf.md R255). -/
def initialList (m : List (BitVec 1)) : List Byte :=
  ((List.range 256).filter fun x => m.getD x 0#1 = 1#1).map (BitVec.ofNat 8)

/-- One move-to-front step: the index of `x`, and the list with `x` at the front (44_symmap_mtf.md R256). A symbol
that is not in the list, which LCOL never holds, gets the list's length and moves nothing (log 19). -/
def mtfStep (l : List Byte) (x : Byte) : Nat × List Byte :=
  if l.idxOf x < l.length then (l.idxOf x, x :: l.eraseIdx (l.idxOf x)) else (l.length, l)

/-- The digits of `put_run`: `v mod 2` while `v > 1`, least significant first; the first argument bounds the
number of digits (44_symmap_mtf.md R258). -/
def runDigits : Nat → Nat → List Nat
  | 0, _ => []
  | fuel + 1, v => if v ≤ 1 then [] else v % 2 :: runDigits fuel (v / 2)

/-- `put_run(r)` (44_symmap_mtf.md R258); no symbol for `r = 0`. -/
def putRun (r : Nat) : List Nat := runDigits (r + 1) (r + 1)

/-- The symbols for LCOL from a list and a running zero count on, without EOB, and the final list
(44_symmap_mtf.md R257, R259). -/
def mtfSymbols (l : List Byte) (zrun : Nat) : List Byte → List Nat × List Byte
  | [] => (putRun zrun, l)
  | x :: xs =>
    match mtfStep l x with
    | (0, l') => mtfSymbols l' (zrun + 1) xs
    | (m + 1, l') =>
      match mtfSymbols l' 0 xs with
      | (ys, l'') => (putRun zrun ++ (m + 2) :: ys, l'')

/-- SYM: the symbols and the EOB `K + 1` (44_symmap_mtf.md R257, R260). -/
def symbolStream (l : List Byte) (k : Nat) (lcol : List Byte) : List Nat := (mtfSymbols l 0 lcol).1 ++ [k + 1]

/-- ST.MTF (44_symmap_mtf.md R257); ZRUN is back at 0 at the end of every run. -/
def execStMtf (s : State) : Result :=
  let l := initialList s.inUseList
  let ys := symbolStream l s.regK.toNat s.lcolList
  .next
    { s with
      mtfList := Memory.writeList s.mtfList 0 (mtfSymbols l 0 s.lcolList).2
      sym := Memory.writeList s.sym 0 (ys.map (BitVec.ofNat 9))
      regS := BitVec.ofNat 20 ys.length
      zRun := 0
      stage := 6#4 }

end Sys2Proof.Machine
end

