-- ==== Sys2Proof/Machine/RealSink.lean ====
section
/-! DEFINITION. The commands of the real bit sink (40_bitsink.md R141 to R147). -/

namespace Sys2Proof.Machine

/-- WBITS.R (40_bitsink.md R141). -/
def execWbitsR (w v : U32) (s : State) : Result :=
  if s.fatal then rejected s .halted
  else if bitsInRange w.toNat v.toNat = false then rejected s .badOperand
  else (rsBits w.toNat v.toNat s).finish 0

/-- WBOOL.R (40_bitsink.md R142). -/
def execWboolR (b : U32) (s : State) : Result :=
  if s.fatal then rejected s .halted
  else if 1 < b.toNat then rejected s .badOperand
  else (rsBits 1 b.toNat s).finish 0

/-- WUNARY.R (40_bitsink.md R143): every count is legal. -/
def execWunaryR (n : U32) (s : State) : Result :=
  if s.fatal then rejected s .halted else (rsUnary n.toNat s).finish 0

/-- WU32.R (40_bitsink.md R144). -/
def execWu32R (v : U32) (s : State) : Result :=
  if s.fatal then rejected s .halted else (rsU32 v.toNat s).finish 0

/-- FLUSH.R (40_bitsink.md R145). -/
def execFlushR (s : State) : Result :=
  if s.fatal then rejected s .halted else (rsFlush s).finish 0

end Sys2Proof.Machine
end

