-- ==== Sys2Proof/Machine/Crc.lean ====
section
/-! DEFINITION. The CRC unit (41_crc32.md R180 to R186) and stage 2 of BCLOSE (46_closeblock_emit.md R332). -/

namespace Sys2Proof.Machine

/-- One bit of the update: shift left, xor the polynomial if bit 31 was one (41_crc32.md R181). -/
def crcBit (c : U32) : U32 := if c.msb then (c <<< 1) ^^^ Config.crcPolynomial else c <<< 1

/-- `n` bits of the update. -/
def crcBits : Nat → U32 → U32
  | 0, c => c
  | n + 1, c => crcBits n (crcBit c)

/-- `crc_step(c, x)`: the byte enters at bits 31:24, then eight bits of update (41_crc32.md R181). -/
def crcStep (c : U32) (x : Byte) : U32 := crcBits 8 (c ^^^ (x.setWidth 32 <<< 24))

/-- `rotl1(s) xor x` (41_crc32.md R184, 00_scope.md R13). -/
def crcFold (s x : U32) : U32 := s.rotateLeft 1 ^^^ x

/-- CRCRST (41_crc32.md R180). -/
def execCrcrst (s : State) : Result :=
  if s.fatal then rejected s .halted
  else if s.phase ≠ .idle then rejected s .badPhase
  else done { s with crcAcc := 0xFFFFFFFF#32 } 0

/-- CRCUPD (41_crc32.md R181). -/
def execCrcupd (x : U32) (s : State) : Result :=
  if s.fatal then rejected s .halted
  else if 255 < x.toNat then rejected s .badOperand
  else if s.phase ≠ .idle then rejected s .badPhase
  else done { s with crcAcc := crcStep s.crcAcc (x.setWidth 8) } 0

/-- CRCGET (41_crc32.md R182): the complement is read, the accumulator stays. -/
def execCrcget (s : State) : Result :=
  if s.fatal then rejected s .halted
  else if s.phase ≠ .idle then rejected s .badPhase
  else done s (s.crcAcc ^^^ 0xFFFFFFFF#32)

/-- CRCFOLD (41_crc32.md R184): accepted in IDLE and OPEN. -/
def execCrcfold (x : U32) (s : State) : Result :=
  if s.fatal then rejected s .halted
  else done { s with streamCrc := crcFold s.streamCrc x } (crcFold s.streamCrc x)

/-- ST.CRCFIN (46_closeblock_emit.md R332): BLOCK_CRC is the complement of CRC.ACC, which stays as it is. -/
def execStCrcfin (s : State) : Result :=
  .next { s with blockCrc := s.crcAcc ^^^ 0xFFFFFFFF#32, stage := 3#4 }

end Sys2Proof.Machine
end

