-- ==== Sys2Proof/Machine/Rle.lean ====
section
/-! DEFINITION. Opening a block of data, absorbing bytes, the RLE1 encoder, and stage 1 of BCLOSE
(42_rle1.md R200 to R211, 46_closeblock_emit.md R331). -/

namespace Sys2Proof.Machine

/-- BLKOPEN (42_rle1.md R201, 10_state.md R55). The memories keep what they hold, which R55 leaves unspecified
(log 25). -/
def openBlock (deferred : Bool) (s : State) : State :=
  let s := if deferred then clearLog s else s
  { s with
    phase := .opened, sinkSel := deferred, regN := 0, rawCnt := 0, rlLast := 0, rlRun := 0
    full := false, emitted := false, crcAcc := 0xFFFFFFFF#32, blockCrc := 0, origPtr := 0
    regK := 0, regS := 0, regT := 0, regG := 0, zRun := 0 }

/-- BLKOPEN: checks in the order of 42_rle1.md R201. -/
def execBlkopen (sink : U32) (s : State) : Result :=
  if s.fatal then rejected s .halted
  else if 1 < sink.toNat then rejected s .badOperand
  else if s.phase ≠ .idle then rejected s .badPhase
  else done (openBlock (decide (sink = 1#32)) s) 0

/-- The symbols a run of `r` bytes `x` is written as: up to three copies, or four copies and the count byte
`r − 4` (42_rle1.md R204). -/
def runSymbols (x : Byte) (r : Nat) : List Byte :=
  if r ≤ 3 then List.replicate r x else [x, x, x, x, BitVec.ofNat 8 (r - 4)]

/-- `pc(r)`: how many symbols the pending run will add (42_rle1.md R203). -/
def pendingCost (r : Nat) : Nat := if r ≤ 3 then r else 5

/-- `emit_run(x, r)` (42_rle1.md R204). -/
def emitRun (x : Byte) (r : Nat) (s : State) : State :=
  { s with
    u := Memory.writeList s.u s.regN.toNat (runSymbols x r)
    regN := s.regN + BitVec.ofNat 20 (pendingCost r) }

/-- The candidate of 42_rle1.md R205 for one byte: the run tracker after it, and the length of the pending run
that is written first (0 for none). -/
structure RunStep where
  last : Byte
  run : Nat
  written : Nat
  deriving DecidableEq, Repr

/-- The four cases of `absorb` (42_rle1.md R205). -/
def runStep (last : Byte) (run : Nat) (x : Byte) : RunStep :=
  if run = 0 then ⟨x, 1, 0⟩
  else if x = last then
    if run = Config.maxRun - 1 then ⟨last, 0, Config.maxRun⟩ else ⟨last, run + 1, 0⟩
  else ⟨x, 1, run⟩

/-- `N' + pc(RUN')`: what U would hold if the block were closed right after the byte (42_rle1.md R205). -/
def fillAfter (n : Nat) (c : RunStep) : Nat := n + pendingCost c.written + pendingCost c.run

/-- Writing the run that ended, if one did. -/
def commitRun (c : RunStep) (s : State) : State := if c.written = 0 then s else emitRun s.rlLast c.written s

/-- The commit part of `absorb` (42_rle1.md R205). -/
def takeByte (x : Byte) (c : RunStep) (s : State) : State :=
  let s' := commitRun c s
  { s' with
    rlLast := c.last, rlRun := BitVec.ofNat 8 c.run
    crcAcc := crcStep s'.crcAcc x, rawCnt := s'.rawCnt + 1 }

/-- The run step a byte would make in a state. -/
def State.runStep (s : State) (x : Byte) : RunStep := Machine.runStep s.rlLast s.rlRun.toNat x

/-- `absorb(x)` (42_rle1.md R205): taken or refused, and the state; a refused byte changes nothing but FULL. -/
def absorb (x : Byte) (s : State) : Bool × State :=
  if s.full then (false, s)
  else if s.limit < fillAfter s.regN.toNat (s.runStep x) then (false, { s with full := true })
  else (true, takeByte x (s.runStep x) s)

/-- Bytes in order until one is refused: how many were taken, and the state (42_rle1.md R206). -/
def absorbAll : List Byte → State → Nat × State
  | [], s => (0, s)
  | x :: xs, s =>
    match absorb x s with
    | (false, s') => (0, s')
    | (true, s') =>
      match absorbAll xs s' with
      | (k, t) => (k + 1, t)

/-- BWRITE (42_rle1.md R206). -/
def execBwrite (off len : U32) (s : State) : Result :=
  if s.fatal then rejected s .halted
  else if s.inSize < off.toNat + len.toNat then rejected s .badOperand
  else if s.phase ≠ .opened then rejected s .badPhase
  else
    let r := absorbAll (inputBytes s off.toNat len.toNat) s
    done r.2 (BitVec.ofNat 32 r.1)

/-- The pending run written and forgotten (42_rle1.md R207). -/
def flushRun (s : State) : State :=
  if s.rlRun = 0 then s else { emitRun s.rlLast s.rlRun.toNat s with rlRun := 0 }

/-- The end of the BCLOSE of an empty block of data (46_closeblock_emit.md R331). -/
def closeEmpty (s : State) : Result :=
  done { s with emitted := false, phase := .idle, stage := 0 } 0

/-- ST.RLEFLUSH (42_rle1.md R207); if U is still empty the other stages are skipped (46_closeblock_emit.md R331). -/
def execStRleflush (s : State) : Result :=
  if (flushRun s).regN = 0 then closeEmpty (flushRun s) else .next { flushRun s with stage := 2#4 }

end Sys2Proof.Machine
end

