-- ==== Sys2Proof/Machine/Dispatch.lean ====
section
/-! DEFINITION. The meaning of every instruction: one arm per constructor, each a direct call. -/

namespace Sys2Proof.Machine

def exec (i : Instr) (s : State) : Host.Outcome State Fault Refusal :=
  match i with
  | .reset => Sys2Proof.Machine.execReset s
  | .csrw a b => Sys2Proof.Machine.execCsrw a b s
  | .csrr a => Sys2Proof.Machine.execCsrr a s
  | .wbitsR w v => Sys2Proof.Machine.execWbitsR w v s
  | .wboolR b => Sys2Proof.Machine.execWboolR b s
  | .wunaryR n => Sys2Proof.Machine.execWunaryR n s
  | .wu32R v => Sys2Proof.Machine.execWu32R v s
  | .flushR => Sys2Proof.Machine.execFlushR s
  | .wbitsD w v => Sys2Proof.Machine.execWbitsD w v s
  | .wboolD b => Sys2Proof.Machine.execWboolD b s
  | .wunaryD n => Sys2Proof.Machine.execWunaryD n s
  | .wu32D v => Sys2Proof.Machine.execWu32D v s
  | .flushD => Sys2Proof.Machine.execFlushD s
  | .setcrc v => Sys2Proof.Machine.execSetcrc v s
  | .replay => Sys2Proof.Machine.execReplay s
  | .logclr => Sys2Proof.Machine.execLogclr s
  | .logrd j => Sys2Proof.Machine.execLogrd j s
  | .crcrst => Sys2Proof.Machine.execCrcrst s
  | .crcupd x => Sys2Proof.Machine.execCrcupd x s
  | .crcget => Sys2Proof.Machine.execCrcget s
  | .crcfold x => Sys2Proof.Machine.execCrcfold x s
  | .blkopen sink => Sys2Proof.Machine.execBlkopen sink s
  | .bwrite off len => Sys2Proof.Machine.execBwrite off len s
  | .bclose => Sys2Proof.Machine.execBclose s
  | .stRleflush => Sys2Proof.Machine.execStRleflush s
  | .stCrcfin => Sys2Proof.Machine.execStCrcfin s
  | .stBwt => Sys2Proof.Machine.execStBwt s
  | .stSymmap => Sys2Proof.Machine.execStSymmap s
  | .stMtf => Sys2Proof.Machine.execStMtf s
  | .stHsel => Sys2Proof.Machine.execStHsel s
  | .stCanon => Sys2Proof.Machine.execStCanon s
  | .stEmit => Sys2Proof.Machine.execStEmit s
  | .fHeader level => Sys2Proof.Machine.execFHeader level s
  | .fBlockMagic => Sys2Proof.Machine.execFBlockMagic s
  | .fBlockCrc crc => Sys2Proof.Machine.execFBlockCrc crc s
  | .fRandomized => Sys2Proof.Machine.execFRandomized s
  | .fOrigPtr p => Sys2Proof.Machine.execFOrigPtr p s
  | .fBigMap m => Sys2Proof.Machine.execFBigMap m s
  | .fGroupMap m => Sys2Proof.Machine.execFGroupMap m s
  | .fNTables t => Sys2Proof.Machine.execFNTables t s
  | .fNSelectors g => Sys2Proof.Machine.execFNSelectors g s
  | .fSelector rank => Sys2Proof.Machine.execFSelector rank s
  | .fLenStart l => Sys2Proof.Machine.execFLenStart l s
  | .fLenDelta down d => Sys2Proof.Machine.execFLenDelta down d s
  | .fSymbol w code => Sys2Proof.Machine.execFSymbol w code s
  | .fEndMarker => Sys2Proof.Machine.execFEndMarker s
  | .fStreamCrc crc => Sys2Proof.Machine.execFStreamCrc crc s
  | .fPadding => Sys2Proof.Machine.execFPadding s
  | .fLogRecord w v => Sys2Proof.Machine.execFLogRecord w v s

end Sys2Proof.Machine
end

