-- ==== Sys2Proof/Machine/Fetch.lean ====
section
/-! DEFINITION. How the next instruction is found (10_state.md R40, R41, 70_reset_and_hazards.md R441): while
PHASE = CLOSING it is the stage that STAGE selects and the port is held; otherwise it is the oldest item at
the port, and with nothing there the block waits (log 8). The host writes IN between commands, so its bytes for IN
come through the port too (log 3). -/

namespace Sys2Proof.Machine

/-- What a step does next. -/
inductive Fetched where
  /-- Nothing is presented: wait. -/
  | wait
  /-- The host has written IN (log 3): no instruction runs. -/
  | supplied (s : State)
  /-- Run this instruction in this state. -/
  | run (i : Instr) (s : State)
  /-- The word at the port is rejected. -/
  | bad (c : RejectCode) (s : State)
  /-- CLOSING with a STAGE that selects nothing. -/
  | noStage
  /-- An item at the port that is no stream field. -/
  | noField
  deriving DecidableEq, Repr

/-- The oldest item leaves the port; its response is still to come (log 6). -/
def State.taken (s : State) (rest : List Slot) : State := { s with port := rest, resp := none }

/-- The host writes bytes into IN from an index on; IN ends at IN_SIZE (20_memory.md R70, 70_reset_and_hazards.md
R430; log 3). -/
def State.supply (s : State) (off : Nat) (bytes : List Byte) : State :=
  { s with inMem := Memory.writeList s.inMem off (bytes.take (s.inSize - off)) }

/-- The item at the port, read; `rest` is what stands behind it. -/
def fetchSlot (x : Slot) (rest : List Slot) (s : State) : Fetched :=
  match x with
  | .command w =>
    match acceptCommand s.fatal w with
    | .ok i => .run i (s.taken rest)
    | .error c => .bad c (s.taken rest)
  | .field f nbits bits =>
    match decodeField f nbits bits with
    | some i => .run i (s.taken rest)
    | none => .noField
  | .input off bytes => .supplied { s.supply off bytes with port := rest }

/-- The stage STAGE selects, or the oldest item at the port. -/
def fetch (s : State) : Fetched :=
  if s.phase = .closing then
    match decodeStage s.stage with
    | some i => .run i s
    | none => .noStage
  else
    match s.port with
    | [] => .wait
    | x :: rest => fetchSlot x rest s

/-- The port accepts again: CLOSING left, if it was there. -/
def acceptPort (s : State) : State :=
  { s with
    phase := if s.phase = .closing then .idle else s.phase
    stage := if s.phase = .closing then 0 else s.stage }

/-- An encoding stored where the next step reads its instruction (log 13). -/
def placeCode (s : State) : Code → State
  | .port x => { acceptPort s with port := x :: s.port }
  | .stage st => { s with phase := .closing, stage := st }

end Sys2Proof.Machine
end

