-- ==== Sys2Proof/Machine/Step.lean ====
section
/-! DEFINITION. One step of the block: find the next instruction, run it. -/

namespace Sys2Proof.Machine

/-- One step (10_state.md R41, 60_exceptions.md R385, 70_reset_and_hazards.md R441). -/
def step (s : State) : Host.Outcome State Fault Refusal :=
  match fetch s with
  | .wait => .next s
  | .supplied s' => .next s'
  | .run i s' => exec i s'
  | .bad c s' => rejected s' c
  | .noStage => .fault .noSuchStage
  | .noField => .refused .notAField

/-- `s` with a table row's instruction stored where `step` reads its next instruction: a command or a field at
the head of the port, a stage in STAGE with PHASE = CLOSING (log 12, 13). -/
def State.withFetchWord (s : State) (nbits w : Nat) : State := placeCode s (codeOfTableWord nbits w)

end Sys2Proof.Machine
end

