-- ==== Sys2Proof/Safety.lean ====
section
/-! DEFINITION. The terms claims are made in: the bit sequence of a sink (20_memory.md R73, 40_bitsink.md R146),
the records of the log, the inverse of RLE1 (42_rle1.md R212), what a write may change, and the invariant of
the block. Nothing here is used by the machine. -/

namespace Sys2Proof.Machine

/-! ## Bits -/

/-- The `w` bits of `v` in wire order, the most significant first (20_memory.md R73). -/
def wireBits (w v : Nat) : List Bool := (List.range w).map fun j => v.testBit (w - 1 - j)

/-- All bits written to the real sink so far: OUT, then the pending bits (40_bitsink.md R146). -/
def State.bitSeq (s : State) : List Bool :=
  (s.out.flatMap fun b => wireBits 8 b.toNat) ++ wireBits s.rsCnt.toNat s.rsPend.toNat

/-- The bits a sink operation stands for (30_encoding.md R128). -/
def SinkOp.wire : SinkOp → List Bool
  | .bits w v => wireBits w v
  | .bool b => wireBits 1 b
  | .unary n => List.replicate n true ++ [false]
  | .u32 v => wireBits 32 v

/-- The operand ranges of a sink operation (30_encoding.md R105). -/
def SinkOp.legal : SinkOp → Bool
  | .bits w v => bitsInRange w v
  | .bool b => decide (b ≤ 1)
  | .unary _ => true
  | .u32 v => decide (v < 2 ^ 32)

/-- The records the deferred sink makes of an operation (40_bitsink.md R150 to R153). -/
def SinkOp.records : SinkOp → List (BitVec 29)
  | .bits w v => [packRecord w v]
  | .bool b => [packRecord 1 b]
  | .unary n =>
    List.replicate (n / 8) (packRecord 8 0xFF)
      ++ (if n % 8 = 0 then [] else [packRecord (n % 8) (2 ^ (n % 8) - 1)]) ++ [packRecord 1 0]
  | .u32 v => [packRecord 16 (v / 2 ^ 16), packRecord 16 (v % 2 ^ 16)]

/-- The valid records of the log (10_state.md R23). -/
def State.logList (s : State) : List (BitVec 29) := Memory.slice s.dsLog 0 s.dsLogLen

/-- The bits a record stands for (30_encoding.md R119). -/
def recordWire (r : BitVec 29) : List Bool := wireBits (recordWidth r) (recordValue r)

/-- A record `(w, v)` with `1 ≤ w ≤ 24` and `v < 2^w` (30_encoding.md R119). -/
abbrev recordLegal (r : BitVec 29) : Prop := bitsInRange (recordWidth r) (recordValue r) = true

/-- The bits of an encoded field. -/
def fieldWire : Code → List Bool
  | .port (.field _ nbits bits) => wireBits nbits bits
  | .port (.command _) => []
  | .port (.input _ _) => []
  | .stage _ => []

/-! ## What a write changes -/

/-- The platform asserts `out_err` against no coming append (40_bitsink.md R147; 93_implementation_defined.md P5). -/
abbrev State.quiet (s : State) : Prop := ∀ b ∈ s.outErr, b = false

/-- Nothing but the real sink differs, and one answer of the platform is used up for each byte appended. -/
abbrev State.onlyRealSink (s t : State) : Prop :=
  t = { s with
    out := t.out, outErr := s.outErr.drop (t.out.length - s.out.length), rsPend := t.rsPend, rsCnt := t.rsCnt }

/-- The command wrote these bits to the real sink, changed nothing else, and is done with this response. -/
abbrev State.wroteReal (s t : State) (bits : List Bool) (v : U32) : Prop :=
  t.bitSeq = s.bitSeq ++ bits ∧ t.rsPend.toNat < 2 ^ t.rsCnt.toNat
    ∧ t = { s with
        out := t.out, outErr := s.outErr.drop (t.out.length - s.out.length), rsPend := t.rsPend, rsCnt := t.rsCnt
        resp := some ⟨0#8, v⟩ }

/-- These records were appended to the log, which is otherwise the same. -/
abbrev State.loggedOnly (s t : State) (rs : List (BitVec 29)) : Prop :=
  t.logList = s.logList ++ rs ∧ t.dsLogLen = s.dsLogLen + rs.length
    ∧ ∀ j, j < s.dsLogLen ∨ t.dsLogLen ≤ j → Memory.get t.dsLog j = Memory.get s.dsLog j

/-- The command appended these records to the log, changed nothing else, and is done with response 0. -/
abbrev State.wroteLog (s t : State) (rs : List (BitVec 29)) : Prop :=
  s.loggedOnly t rs ∧ t = { s with dsLog := t.dsLog, dsLogLen := t.dsLogLen, resp := some ⟨0#8, 0#32⟩ }

/-- The command appended the records that still fitted, and took LOG_OVERFLOW at the first that did not
(60_exceptions.md R377, R380). -/
abbrev State.overflowedLog (s t : State) (rs : List (BitVec 29)) : Prop :=
  s.loggedOnly t (rs.take (s.logCap - s.dsLogLen)) ∧ t.dsLogLen = s.logCap
    ∧ t = { s with
        dsLog := t.dsLog, dsLogLen := t.dsLogLen, fatal := true, cause := 4#8, resp := some ⟨0x84#8, 0#32⟩ }

/-- The command is done with this response, in this state otherwise (30_encoding.md R101). -/
abbrev State.doneWith (s : State) (v : U32) : Result := .next { s with resp := some ⟨0#8, v⟩ }

/-- The command is rejected with this status, and nothing else differs (60_exceptions.md R370). -/
abbrev State.rejectedWith (s : State) (st : BitVec 8) : Result := .next { s with resp := some ⟨st, 0#32⟩ }

/-- The command took a fatal fault outside BCLOSE, FATAL having been 0 (60_exceptions.md R380). -/
abbrev State.fatalWith (s : State) (cause : BitVec 8) : Result :=
  .next { s with fatal := true, cause := cause, resp := some ⟨0x80#8 + cause, 0#32⟩ }

/-! ## Which instructions are commands -/

/-- The 24 commands of the port (30_encoding.md R104). -/
def isCommand : Instr → Bool
  | .reset | .csrw _ _ | .csrr _ | .wbitsR _ _ | .wboolR _ | .wunaryR _ | .wu32R _ | .flushR | .wbitsD _ _
  | .wboolD _ | .wunaryD _ | .wu32D _ | .flushD | .setcrc _ | .replay | .logclr | .logrd _ | .crcrst | .crcupd _
  | .crcget | .crcfold _ | .blkopen _ | .bwrite _ _ | .bclose => true
  | .stRleflush | .stCrcfin | .stBwt | .stSymmap | .stMtf | .stHsel | .stCanon | .stEmit | .fHeader _
  | .fBlockMagic | .fBlockCrc _ | .fRandomized | .fOrigPtr _ | .fBigMap _ | .fGroupMap _ | .fNTables _
  | .fNSelectors _ | .fSelector _ | .fLenStart _ | .fLenDelta _ _ | .fSymbol _ _ | .fEndMarker | .fStreamCrc _
  | .fPadding | .fLogRecord _ _ => false

/-! ## The stream fields as sink operations -/

/-- The sink operations that carry a field of a block of data (46_closeblock_emit.md R340 to R349); none for the
other instructions. -/
def blockFieldOps : Instr → Option (List SinkOp)
  | .fBlockMagic => some [.bits 24 0x314159, .bits 24 0x265359]
  | .fBlockCrc crc => some [.u32 crc.toNat]
  | .fRandomized => some [.bool 0]
  | .fOrigPtr p => some [.bits 24 p.toNat]
  | .fBigMap m => some [.bits 16 m.toNat]
  | .fGroupMap m => some [.bits 16 m.toNat]
  | .fNTables t => some [.bits 3 t.toNat]
  | .fNSelectors g => some [.bits 15 g.toNat]
  | .fSelector rank => some [.unary rank.toNat]
  | .fLenStart l => some [.bits 5 l.toNat]
  | .fLenDelta down d => some (List.replicate d.toNat (.bits 2 (if down then 3 else 2)) ++ [.bool 0])
  | .fSymbol w code => some [.bits w.toNat code.toNat]
  | .reset | .csrw _ _ | .csrr _ | .wbitsR _ _ | .wboolR _ | .wunaryR _ | .wu32R _ | .flushR | .wbitsD _ _
  | .wboolD _ | .wunaryD _ | .wu32D _ | .flushD | .setcrc _ | .replay | .logclr | .logrd _ | .crcrst | .crcupd _
  | .crcget | .crcfold _ | .blkopen _ | .bwrite _ _ | .bclose | .stRleflush | .stCrcfin | .stBwt | .stSymmap
  | .stMtf | .stHsel | .stCanon | .stEmit | .fHeader _ | .fEndMarker | .fStreamCrc _ | .fPadding
  | .fLogRecord _ _ => none

/-! ## A block of data as a list of fields (30_encoding.md R112) -/

/-- A 16-bit map: bit `15 − g` tells about number `g` (30_encoding.md R113). -/
def mapField (f : Nat → Bool) : BitVec 16 :=
  BitVec.ofNat 16 ((List.range 16).map fun g => if f g then 2 ^ (15 - g) else 0).sum

/-- Is the byte value `x` marked in INUSE? -/
def State.used (s : State) (x : Nat) : Bool := decide (Memory.get s.inUse x = 1#1)

/-- Is one of the 16 byte values of group `g` marked? -/
def State.usedGroup (s : State) (g : Nat) : Bool := (List.range 16).any fun j => s.used (16 * g + j)

/-- The length steps of a table after the running length `c` (30_encoding.md R115). -/
def lenDeltaFields (c : Nat) : List Nat → List Instr
  | [] => []
  | l :: ls => .fLenDelta (decide (l < c)) (BitVec.ofNat 5 (if l < c then c - l else l - c)) :: lenDeltaFields l ls

/-- The code-length field of one table (30_encoding.md R115). -/
def tableFields (lens : List Nat) : List Instr :=
  .fLenStart (BitVec.ofNat 5 (lens.headD 0)) :: lenDeltaFields (lens.headD 0) lens

/-- The table of the group symbol number `i` belongs to. -/
def State.tableOf (s : State) (i : Nat) : Nat := s.selList.getD (i / 50) 0

/-- The fields of a block of data, in emission order (30_encoding.md R112 to R116). -/
def blockFields (s : State) : List Instr :=
  [.fBlockMagic, .fBlockCrc s.blockCrc, .fRandomized, .fOrigPtr s.origPtr, .fBigMap (mapField s.usedGroup)]
    ++ ((List.range 16).filter s.usedGroup).map (fun g => .fGroupMap (mapField fun j => s.used (16 * g + j)))
    ++ [.fNTables s.regT, .fNSelectors s.regG]
    ++ (selectorRanks (List.range s.regT.toNat) s.selList).map (fun r => .fSelector (BitVec.ofNat 3 r))
    ++ (List.range s.regT.toNat).flatMap (fun t => tableFields (s.lenRow t))
    ++ s.symList.zipIdx.map fun vi =>
        .fSymbol (BitVec.ofNat 5 (s.lenAt (s.tableOf vi.2) vi.1)) (BitVec.ofNat 17 (s.codeAt (s.tableOf vi.2) vi.1))

/-! ## Several instructions -/

/-- These instructions, one after the other; none if one of them stops. -/
def runAll : List Instr → State → Option State
  | [], s => some s
  | i :: is, s =>
    match exec i s with
    | .next t => runAll is t
    | .fault _ => none
    | .refused _ => none

/-! ## The order of rotations -/

/-- Rotation `a` of the `n` symbols `u` comes before rotation `b`: at the first position where they differ its
symbol is smaller, or they are equal throughout and `a < b` (43_bwt.md R231). -/
abbrev rotationBefore (u : Nat → Nat) (n a b : Nat) : Prop :=
  (∃ j, j < n ∧ (∀ i, i < j → u ((a + i) % n) = u ((b + i) % n)) ∧ u ((a + j) % n) < u ((b + j) % n))
    ∨ ((∀ j, j < n → u ((a + j) % n) = u ((b + j) % n)) ∧ a < b)

/-! ## Inverses and sums -/

/-- The table numbers that ranks stand for in a list whose entries move to the front as they are named
(46_closeblock_emit.md R347); a rank beyond the list names none. -/
def rankDecode (ord : List Nat) : List Nat → List Nat
  | [] => []
  | r :: rs =>
    match ord[r]? with
    | none => []
    | some t => t :: rankDecode (t :: ord.eraseIdx r) rs

/-- Reading a symbol stream back: run symbols collect a run of the list's first byte, worth `acc` so far, the next
one worth `(y + 1)·place`; symbol `y` from 2 on is the byte at index `y − 1`, which moves to the front; `eob` ends
(44_symmap_mtf.md R256 to R260). -/
def mtfDecode (eob : Nat) : List Byte → Nat → Nat → List Nat → Option (List Byte)
  | _, _, _, [] => none
  | l, acc, place, y :: ys =>
    if y ≤ 1 then mtfDecode eob l (acc + (y + 1) * place) (2 * place) ys
    else if y = eob then (if ys = [] then some (List.replicate acc (l.headD 0)) else none)
    else
      match l[y - 1]? with
      | none => none
      | some x =>
        (mtfDecode eob (x :: l.eraseIdx (y - 1)) 0 1 ys).map fun zs => List.replicate acc (l.headD 0) ++ x :: zs

/-- The canonical code of symbol `v`: what the shorter codes leave free, then one per earlier symbol of the same
length (45_huffman.md R300). -/
def canonicalCode (lens : List Nat) (v : Nat) : Nat :=
  ((lens.filter fun l => decide (l < lens.getD v 0)).map fun l => 2 ^ (lens.getD v 0 - l)).sum
    + (lens.take v).count (lens.getD v 0)

/-- The inverse of RLE1 (42_rle1.md R212): `n` is how many equal symbols `last` have just been read; after four
the next symbol is a count. -/
def rleDecode (last : Byte) (n : Nat) : List Byte → List Byte
  | [] => []
  | x :: xs =>
    if n = 4 then List.replicate x.toNat last ++ rleDecode last 0 xs
    else if n ≠ 0 ∧ x = last then x :: rleDecode last (n + 1) xs
    else x :: rleDecode x 1 xs

/-- The run length that digits stand for: `sum of (d_p + 1)·2^p` (44_symmap_mtf.md R258). -/
def runValue : List Nat → Nat
  | [] => 0
  | d :: ds => d + 1 + 2 * runValue ds

/-- The changes of length from symbol to symbol, from a running length on: the `|Δ|` of 46_closeblock_emit.md R354. -/
def lengthSteps (c : Nat) : List Nat → List Nat
  | [] => []
  | l :: ls => (if l < c then c - l else l - c) :: lengthSteps l ls

/-! ## The invariant of the block -/

/-- Every memory is in canonical form. -/
abbrev State.memoriesWf (s : State) : Prop :=
  Memory.wf s.dsLog = true ∧ Memory.wf s.u = true ∧ Memory.wf s.p = true ∧ Memory.wf s.lcol = true
    ∧ Memory.wf s.inUse = true ∧ Memory.wf s.mtfList = true ∧ Memory.wf s.sym = true ∧ Memory.wf s.sel = true
    ∧ Memory.wf s.freq = true ∧ Memory.wf s.len = true ∧ Memory.wf s.code = true ∧ Memory.wf s.cost = true
    ∧ Memory.wf s.inMem = true

/-- The real sink: `RS.PEND < 2^RS.CNT` (10_state.md R21, 40_bitsink.md R146). -/
abbrev State.sinkOk (s : State) : Prop := s.rsPend.toNat < 2 ^ s.rsCnt.toNat

/-- The log holds at most LOGCAP records (10_state.md R37). -/
abbrev State.logOk (s : State) : Prop := s.dsLogLen ≤ s.logCap

/-- LEVEL in 1 to 9, ITER at least 1 (10_state.md R44, R45). -/
abbrev State.configOk (s : State) : Prop := 1 ≤ s.level.toNat ∧ s.level.toNat ≤ 9 ∧ 1 ≤ s.iter.toNat

/-- STAGE is 1 to 8 while CLOSING and 0 otherwise (10_state.md R40). -/
abbrev State.seqOk (s : State) : Prop :=
  (s.phase = .closing ∧ 1 ≤ s.stage.toNat ∧ s.stage.toNat ≤ 8) ∨ (s.phase ≠ .closing ∧ s.stage = 0)

/-- CAUSE is 0 exactly while FATAL is 0, and FATAL never stands while CLOSING (10_state.md R47, 60_exceptions.md
R372, R380). -/
abbrev State.causeOk (s : State) : Prop :=
  (s.fatal = false ∧ s.cause = 0) ∨ (s.fatal = true ∧ (s.cause = 4#8 ∨ s.cause = 5#8) ∧ s.phase ≠ .closing)

/-- The block buffer never exceeds LIMIT, the pending run included (42_rle1.md R208, 46_closeblock_emit.md R333). -/
abbrev State.fillOk (s : State) : Prop :=
  (s.phase = .opened ∨ (s.phase = .closing ∧ s.stage = 1) →
      s.regN.toNat + pendingCost s.rlRun.toNat ≤ s.limit ∧ s.rlRun.toNat ≤ 254)
    ∧ (s.phase = .closing ∧ s.stage ≠ 1 → 1 ≤ s.regN.toNat ∧ s.regN.toNat ≤ s.limit ∧ s.rlRun = 0)

/-- A block of data is never closed into a sealed log (46_closeblock_emit.md R330). -/
abbrev State.sealOk (s : State) : Prop := s.phase = .closing → s.sinkSel = true → s.dsSealed = false

/-- Bounds of the block's registers that hold in every PHASE: N with the pending run, RL.RUN, ORIG_PTR, K, S, T, G;
ZRUN is 0 between steps. For N and ORIG_PTR they are those of the largest block, wider than 10_state.md R37's. -/
abbrev State.rangesOk (s : State) : Prop :=
  s.regN.toNat + pendingCost s.rlRun.toNat ≤ 899999 ∧ s.rlRun.toNat ≤ 254 ∧ s.origPtr.toNat ≤ 899998
    ∧ s.regK.toNat ≤ 256 ∧ s.regS.toNat ≤ 900000 ∧ s.regT.toNat ≤ 6 ∧ s.regT.toNat ≠ 1 ∧ s.regG.toNat ≤ 18000
    ∧ s.zRun = 0

/-- RAWCNT in the form a step keeps: a symbol of U stands for at most 51 raw bytes, and the pending run for its own
(10_state.md R38). -/
abbrev State.rawOk (s : State) : Prop := s.rawCnt.toNat ≤ 51 * s.regN.toNat + s.rlRun.toNat

/-- The invariant. -/
abbrev State.inv (s : State) : Prop :=
  s.memoriesWf ∧ s.sinkOk ∧ s.logOk ∧ s.configOk ∧ s.seqOk ∧ s.causeOk ∧ s.fillOk ∧ s.sealOk ∧ s.rangesOk ∧ s.rawOk

/-- A safe step: the block goes on, and keeps its invariant. -/
def State.safeStep (s : State) : Prop := ∃ t, step s = .next t ∧ t.inv

end Sys2Proof.Machine
end

