-- ==== Sys2Proof/Certificates/Slice0/Obligations.lean ====
section
/-! DEFINITION. The statements. A statement about `exec` gives the whole next state, so that its frame (everything
the equation does not name is as before) is part of it; where a memory is written, the elements outside the
written ones are said to be as before. `st`s are response status bytes (30_encoding.md R101).

The statements speak of the spec's arguments of the step as the model holds them: the response in `resp` (log 6), the
platform's answers to coming appends in `outErr`, each append using one up (log 4), the port (log 13), the stages of
BCLOSE as steps (log 7). -/

open Sys2Proof Sys2Proof.Machine

/-! ## Encoding and decoding -/

/-- Every command, with any operands, and every other instruction whose operands are in range, is what its own
encoding decodes to (30_encoding.md R100, R102, R104, R111 to R119). -/
def Obligations.DecodeEncodeAgree : Prop :=
  ∀ i : Instr, isCommand i = true ∨ i.wf = true → decode (encode i) = some i

/-- An encoding that decodes is the one its instruction encodes to, so no two encodings share a meaning; only the
padding, which is zero to seven bits, has several (30_encoding.md R106, R117). -/
def Obligations.EveryEncodingHasOneReading : Prop :=
  ∀ (c : Code) (i : Instr), decode c = some i → i ≠ .fPadding → encode i = c

/-- The sink operations that carry a field write exactly the bits of the field's encoding (30_encoding.md R111 to
R117, 46_closeblock_emit.md R340 to R349). -/
def Obligations.EmittedFieldsAreTheirEncodings : Prop :=
  (∀ (i : Instr) (ops : List SinkOp), blockFieldOps i = some ops →
      ops.flatMap SinkOp.wire = fieldWire (encode i))
  ∧ (∀ level : BitVec 4, (headerOps level.toNat).flatMap SinkOp.wire = fieldWire (encode (.fHeader level)))
  ∧ endMarkerOps.flatMap SinkOp.wire = fieldWire (encode .fEndMarker)
  ∧ (∀ crc : U32, (crcOps crc.toNat).flatMap SinkOp.wire = fieldWire (encode (.fStreamCrc crc)))
  ∧ (∀ (w : BitVec 5) (v : BitVec 24), fieldWire (encode (.fLogRecord w v)) = wireBits 5 w.toNat ++ wireBits 24 v.toNat)

/-- Words written out from 30_encoding.md R100 and R102 decode to the commands they stand for. -/
def Obligations.SampleWordsDecode : Prop :=
  decodeCommand 0x010000000000000000#72 = .ok .reset
  ∧ decodeCommand 0x02000000000000000A#72 = .ok (.csrw 0 10)
  ∧ decodeCommand 0x100000001800314159#72 = .ok (.wbitsR 24 0x314159)
  ∧ decodeCommand 0x1A0000000000000013#72 = .ok (.wunaryD 19)
  ∧ decodeCommand 0x230000000200000000#72 = .ok (.logrd 2)
  ∧ decodeCommand 0x2B0000000019939B6B#72 = .ok (.crcfold 0x19939B6B)
  ∧ decodeCommand 0x310000000100000001#72 = .ok (.bwrite 1 1)
  ∧ decodeStage 3#4 = some .stBwt
  ∧ decodeField .header 32 0x425A6839 = some (.fHeader 9)
  ∧ decodeField .lenDelta 5 0b11110 = some (.fLenDelta true 2)

/-! ## The step -/

/-- A step runs the command that stands at the port, which leaves the port as it does, or, while CLOSING, the
stage STAGE names (10_state.md R41, 46_closeblock_emit.md R330). The other two clauses are the model's choice: a field of
the bitstream that stands at the port is run as an instruction (log 9; the port itself is log 13), and the host's bytes
for IN that stand there change IN and nothing else, no instruction being run (log 3). -/
def Obligations.StepRunsTheDecodedInstruction : Prop :=
  (∀ (s : State) (w : CommandWord) (rest : List Slot) (i : Instr),
      s.phase ≠ .closing → s.port = .command w :: rest → decode (.port (.command w)) = some i →
      (s.fatal = false ∨ opOf w = 0x01#8 ∨ opOf w = 0x03#8) →
      step s = exec i { s with port := rest, resp := none })
  ∧ (∀ (s : State) (f : FieldKind) (nbits bits : Nat) (rest : List Slot) (i : Instr),
      s.phase ≠ .closing → s.port = .field f nbits bits :: rest → decode (.port (.field f nbits bits)) = some i →
      step s = exec i { s with port := rest, resp := none })
  ∧ (∀ (s : State) (i : Instr), s.phase = .closing → decode (.stage s.stage) = some i → step s = exec i s)
  ∧ (∀ (s : State) (off : Nat) (bytes : List Byte) (rest : List Slot),
      s.phase ≠ .closing → s.port = .input off bytes :: rest → Memory.wf s.inMem = true →
      ∃ m, step s = .next { s with port := rest, inMem := m }
        ∧ Memory.wf m = true
        ∧ ∀ j, Memory.get m j =
            if off ≤ j ∧ j < off + bytes.length ∧ j < s.inSize then bytes.getD (j - off) 0 else Memory.get s.inMem j)

/-- While CLOSING the port is held: what stands there has no effect on the step and stays; after CLOSING the oldest
command is examined under the state BCLOSE left (70_reset_and_hazards.md R441). -/
def Obligations.PortHeldWhileClosing : Prop :=
  (∀ (s t : State) (q : List Slot), s.phase = .closing → step s = .next t →
      step { s with port := q } = .next { t with port := q } ∧ t.port = s.port)
  ∧ (∀ (s : State) (w : CommandWord) (rest : List Slot), s.phase ≠ .closing → s.port = .command w :: rest →
      step s =
        match acceptCommand s.fatal w with
        | .ok i => exec i { s with port := rest, resp := none }
        | .error c => rejected { s with port := rest, resp := none } c)

/-- Every opcode outside the map is rejected with ILLEGAL_OP, and a command with a non-zero operand field it does
not use with BAD_OPERAND; nothing else changes (30_encoding.md R106). -/
def Obligations.ReservedWordsAreRejected : Prop :=
  ∀ (s : State) (w : CommandWord) (rest : List Slot),
    s.phase ≠ .closing → s.fatal = false → s.port = .command w :: rest →
    ((opOf w).toNat ∉
        [0x01, 0x02, 0x03, 0x10, 0x11, 0x12, 0x13, 0x14, 0x18, 0x19, 0x1A, 0x1B, 0x1C, 0x20, 0x21, 0x22, 0x23, 0x28,
          0x29, 0x2A, 0x2B, 0x30, 0x31, 0x32] →
      step s = ({ s with port := rest } : State).rejectedWith 0x01#8)
    ∧ ((opOf w).toNat ∈ [0x01, 0x14, 0x1C, 0x21, 0x22, 0x28, 0x2A, 0x32] → aOf w ≠ 0 ∨ bOf w ≠ 0 →
      step s = ({ s with port := rest } : State).rejectedWith 0x02#8)
    ∧ ((opOf w).toNat ∈ [0x03, 0x23, 0x30] → bOf w ≠ 0 →
      step s = ({ s with port := rest } : State).rejectedWith 0x02#8)
    ∧ ((opOf w).toNat ∈ [0x11, 0x12, 0x13, 0x19, 0x1A, 0x1B, 0x20, 0x29, 0x2B] → aOf w ≠ 0 →
      step s = ({ s with port := rest } : State).rejectedWith 0x02#8)

/-- While FATAL = 1 every word but RESET and CSRR is rejected with HALTED before any other check and changes nothing;
CSRR reads as ever (60_exceptions.md R382). -/
def Obligations.HaltedAfterFatalFault : Prop :=
  (∀ (s : State) (w : CommandWord) (rest : List Slot),
      s.phase ≠ .closing → s.fatal = true → s.port = .command w :: rest → opOf w ≠ 0x01#8 → opOf w ≠ 0x03#8 →
      step s = ({ s with port := rest } : State).rejectedWith 0x08#8)
  ∧ (∀ (s : State) (i : Instr), s.fatal = true → isCommand i = true → i ≠ .reset → (∀ a, i ≠ .csrr a) →
      exec i s = s.rejectedWith 0x08#8)
  ∧ (∀ (s : State) (a : U32), s.fatal = true → a.toNat ≤ 0x14 → ∃ v, exec (.csrr a) s = s.doneWith v)

/-! ## Outcomes -/

/-- A response is one of three: done; a rejection, value 0, no other change of state; a fatal fault, value 0, FATAL
set and the code in CAUSE (60_exceptions.md R370). -/
def Obligations.EveryResponseHasItsClass : Prop :=
  ∀ (i : Instr) (s t : State) (r : Response), s.resp = none → exec i s = .next t → t.resp = some r →
    r.st = 0#8
    ∨ (r.val = 0#32 ∧ r.st ∈ [0x01#8, 0x02#8, 0x03#8, 0x07#8, 0x08#8] ∧ t = { s with resp := some r })
    ∨ (r.val = 0#32 ∧ r.st ∈ [0x84#8, 0x85#8] ∧ t.fatal = true ∧ (s.fatal = false → t.cause = r.st - 0x80#8))

/-- Fatal entry: FATAL and CAUSE are set and the response is 0x80 + code; inside BCLOSE the closing ends with EMITTED
0, elsewhere PHASE stays; nothing else changes but the sinks, to which bytes and records were only added. A later
fault never changes CAUSE, and only RESET clears FATAL (60_exceptions.md R380, R381, R383). -/
def Obligations.FatalEntry : Prop :=
  (∀ (i : Instr) (s t : State), s.fatal = false → exec i s = .next t → t.fatal = true →
      (t.cause = 4#8 ∨ t.cause = 5#8)
      ∧ (s.phase = .closing → t.phase = .idle ∧ t.stage = 0#4 ∧ t.emitted = false)
      ∧ (s.phase ≠ .closing → t.phase = s.phase ∧ t.stage = s.stage ∧ t.emitted = s.emitted)
      ∧ t = { s with
          fatal := true, cause := t.cause, phase := t.phase, stage := t.stage, emitted := t.emitted
          resp := some ⟨0x80#8 + t.cause, 0#32⟩, rsCnt := t.rsCnt, rsPend := t.rsPend, out := t.out
          outErr := t.outErr, dsLog := t.dsLog, dsLogLen := t.dsLogLen }
      ∧ s.out <+: t.out ∧ s.dsLogLen ≤ t.dsLogLen
      ∧ (∀ j, j < s.dsLogLen → Memory.get t.dsLog j = Memory.get s.dsLog j))
  ∧ (∀ (i : Instr) (s t : State), s.fatal = true → exec i s = .next t → i ≠ .reset →
      t.fatal = true ∧ t.cause = s.cause)

/-! ## Reset and the CSR file -/

/-- RESET and power-on give the same registers, those of 10_state.md R55; RESET is accepted
while FATAL = 1, is the only instruction that clears FATAL, and waits at the port while CLOSING
(70_reset_and_hazards.md R410, R411). -/
def Obligations.ResetRestoresEveryRegister : Prop :=
  (∀ s : State, ∃ t, exec .reset s = .next t
    ∧ t.resp = some ⟨0#8, 0#32⟩
    ∧ ∀ r ∈ [t, State.reset],
      r.phase = .idle ∧ r.stage = 0 ∧ r.fatal = false ∧ r.full = false ∧ r.emitted = false ∧ r.cause = 0
      ∧ r.level = 9 ∧ r.iter = 4 ∧ r.rsCnt = 0 ∧ r.rsPend = 0 ∧ r.out = [] ∧ r.outLen = 0
      ∧ r.dsLogLen = 0 ∧ r.dsCrc = 0 ∧ r.dsSealed = false ∧ r.crcAcc = 0xFFFFFFFF#32 ∧ r.streamCrc = 0
      ∧ r.blockCrc = 0 ∧ r.rlLast = 0 ∧ r.rlRun = 0 ∧ r.regN = 0 ∧ r.rawCnt = 0 ∧ r.origPtr = 0 ∧ r.regK = 0
      ∧ r.regS = 0 ∧ r.regT = 0 ∧ r.regG = 0 ∧ r.zRun = 0 ∧ r.sinkSel = false)
  ∧ (∀ (i : Instr) (s t : State), exec i s = .next t → s.fatal = true → t.fatal = false → i = .reset)
  ∧ (∀ s t : State, s.phase = .closing → step s = .next t → t.port = s.port)

/-- CSRW: the checks in order, then the write; no other state changes. LEVEL takes its operand as signed and clamps it
to 1 to 9, ITER takes 1 to 255, STREAM_CRC anything; every other register is read-only (10_state.md R56, R44, R45,
60_exceptions.md R376). -/
def Obligations.CsrwChecksAndWrites : Prop :=
  (∀ (s : State) (a b : U32), s.fatal = false →
    exec (.csrw a b) s =
      if 0x14 < a.toNat then s.rejectedWith 0x02#8
      else if a.toNat = 1 ∧ ¬(1 ≤ b.toNat ∧ b.toNat ≤ 255) then s.rejectedWith 0x02#8
      else if a.toNat ≠ 0 ∧ a.toNat ≠ 1 ∧ a.toNat ≠ 5 then s.rejectedWith 0x07#8
      else if a.toNat ≠ 5 ∧ s.phase ≠ .idle then s.rejectedWith 0x03#8
      else if a.toNat = 0 then
        ({ s with level := BitVec.ofNat 4 (min 9 (max 1 b.toInt)).toNat } : State).doneWith 0
      else if a.toNat = 1 then ({ s with iter := BitVec.ofNat 8 b.toNat } : State).doneWith 0
      else ({ s with streamCrc := b } : State).doneWith 0)
  ∧ (∀ b : U32, 1 ≤ (min 9 (max 1 b.toInt)).toNat ∧ (min 9 (max 1 b.toInt)).toNat ≤ 9)
  ∧ State.reset.level = 9 ∧ State.reset.iter = 4

/-- CSRR answers the register of the CSR file, zero-extended, whatever FATAL and PHASE are, and changes nothing; a
number above 0x14 is BAD_OPERAND (10_state.md R57, R43, R46). OUTLEN is the length of OUT (log 17), LOGLEN a count
(log 18). -/
def Obligations.CsrrReadsTheFile : Prop :=
  ∀ s : State,
    (∀ a : U32, 0x14 < a.toNat → exec (.csrr a) s = s.rejectedWith 0x02#8)
    ∧ exec (.csrr 0x00) s = s.doneWith (BitVec.ofNat 32 s.level.toNat)
    ∧ exec (.csrr 0x01) s = s.doneWith (BitVec.ofNat 32 s.iter.toNat)
    ∧ exec (.csrr 0x02) s = s.doneWith
        (BitVec.ofNat 32
          ((if s.fatal then 1 else 0) + (if s.full then 2 else 0) + (if s.phase = .opened then 4 else 0)
            + (if s.emitted then 8 else 0) + (if s.sinkSel then 16 else 0) + (if s.dsSealed then 32 else 0)
            + (if s.regN = 0 ∧ s.rlRun = 0 then 64 else 0)))
    ∧ exec (.csrr 0x03) s = s.doneWith (BitVec.ofNat 32 s.cause.toNat)
    ∧ exec (.csrr 0x04) s = s.doneWith s.blockCrc
    ∧ exec (.csrr 0x05) s = s.doneWith s.streamCrc
    ∧ exec (.csrr 0x06) s = s.doneWith (BitVec.ofNat 32 s.regN.toNat)
    ∧ exec (.csrr 0x07) s = s.doneWith s.rawCnt
    ∧ exec (.csrr 0x08) s = s.doneWith (BitVec.ofNat 32 s.origPtr.toNat)
    ∧ exec (.csrr 0x09) s = s.doneWith (BitVec.ofNat 32 s.regS.toNat)
    ∧ exec (.csrr 0x0A) s = s.doneWith (BitVec.ofNat 32 s.regT.toNat)
    ∧ exec (.csrr 0x0B) s = s.doneWith (BitVec.ofNat 32 s.regG.toNat)
    ∧ exec (.csrr 0x0C) s = s.doneWith (BitVec.ofNat 32 s.regK.toNat)
    ∧ exec (.csrr 0x0D) s = s.doneWith
        (BitVec.ofNat 32
          (s.stage.toNat + 16 * (match s.phase with | .idle => 0 | .opened => 1 | .closing => 2)))
    ∧ exec (.csrr 0x0E) s = s.doneWith (BitVec.ofNat 32 (s.rsCnt.toNat + 256 * s.rsPend.toNat))
    ∧ exec (.csrr 0x0F) s = s.doneWith (BitVec.ofNat 32 s.out.length)
    ∧ exec (.csrr 0x10) s = s.doneWith (BitVec.ofNat 32 s.dsLogLen)
    ∧ exec (.csrr 0x11) s = s.doneWith s.dsCrc
    ∧ exec (.csrr 0x12) s = s.doneWith s.crcAcc
    ∧ exec (.csrr 0x13) s = s.doneWith (BitVec.ofNat 32 (80000 * s.level.toNat))
    ∧ exec (.csrr 0x14) s = s.doneWith (BitVec.ofNat 32 (100000 * s.level.toNat))

/-! ## The real bit sink -/

/-- WBITS.R: a width outside 1 to 24 or a value that does not fit is BAD_OPERAND; else the pending bits and the value
make a number `t` of `c` bits, whose whole bytes are appended to OUT, most significant first, and whose rest stays
pending. Nothing else changes but the platform's answers used up, the model's own field (log 4; 40_bitsink.md R141). -/
def Obligations.WbitsRWritesWithCarry : Prop :=
  ∀ (s : State) (w v : U32), s.fatal = false →
    (w.toNat = 0 ∨ 24 < w.toNat ∨ 2 ^ w.toNat ≤ v.toNat → exec (.wbitsR w v) s = s.rejectedWith 0x02#8)
    ∧ (1 ≤ w.toNat → w.toNat ≤ 24 → v.toNat < 2 ^ w.toNat → s.quiet →
        let t := s.rsPend.toNat * 2 ^ w.toNat + v.toNat
        let c := s.rsCnt.toNat + w.toNat
        exec (.wbitsR w v) s =
          ({ s with
            out := s.out ++ (List.range (c / 8)).map fun j => BitVec.ofNat 8 (t / 2 ^ (c - 8 * (j + 1)) % 256)
            outErr := s.outErr.drop (c / 8)
            rsPend := BitVec.ofNat 7 (t % 2 ^ (c % 8))
            rsCnt := BitVec.ofNat 3 (c % 8) } : State).doneWith 0)

/-- The real sink keeps `RS.PEND < 2^RS.CNT`, also when an append fails; OUT followed by the pending bits is exactly
the sequence of the bits written; and OUT, RS.CNT and RS.PEND are a function of that sequence alone, so it does not
matter how it was cut into writes (40_bitsink.md R146, 20_memory.md R73, R75). -/
def Obligations.RealSinkIsABitSequence : Prop :=
  State.reset.sinkOk
  ∧ (∀ (ops : List SinkOp) (s : State), (∀ o ∈ ops, o.legal = true) → s.sinkOk →
      match runReal ops s with
      | .done t => t.sinkOk
      | .failed _ t => t.sinkOk)
  ∧ (∀ s : State, s.sinkOk →
      match rsFlush s with
      | .done t => t.sinkOk
      | .failed _ t => t.sinkOk)
  ∧ (∀ (ops : List SinkOp) (s : State), (∀ o ∈ ops, o.legal = true) → s.sinkOk → s.quiet →
      ∃ t, runReal ops s = .done t ∧ t.bitSeq = s.bitSeq ++ ops.flatMap SinkOp.wire ∧ s.onlyRealSink t)
  ∧ (∀ s t : State, s.sinkOk → t.sinkOk → s.bitSeq = t.bitSeq →
      s.out = t.out ∧ s.rsCnt = t.rsCnt ∧ s.rsPend = t.rsPend)
  ∧ (∀ (s : State) (j : Nat), j < s.out.length →
      s.out[j]? = some (BitVec.ofBoolListBE ((s.bitSeq.drop (8 * j)).take 8) |>.setWidth 8))

/-- WBOOL.R, WUNARY.R and WU32.R write one bit, `n` ones and a zero, and 32 bits most significant first; FLUSH.R pads
with zero bits to the byte boundary and does nothing on one. Nothing else changes (40_bitsink.md R142 to R145). -/
def Obligations.RealSinkCommandsWriteTheirBits : Prop :=
  ∀ s : State, s.fatal = false → s.sinkOk → s.quiet →
    (∀ b : U32, 1 < b.toNat → exec (.wboolR b) s = s.rejectedWith 0x02#8)
    ∧ (∀ b : U32, b.toNat ≤ 1 → ∃ t, exec (.wboolR b) s = .next t ∧ s.wroteReal t [decide (b.toNat = 1)] 0)
    ∧ (∀ n : U32, ∃ t, exec (.wunaryR n) s = .next t ∧ s.wroteReal t (List.replicate n.toNat true ++ [false]) 0
        ∧ t.out.length = s.out.length + (s.rsCnt.toNat + n.toNat + 1) / 8)
    ∧ (∀ v : U32, ∃ t, exec (.wu32R v) s = .next t ∧ s.wroteReal t (wireBits 32 v.toNat) 0
        ∧ t.out.length = s.out.length + 4 ∧ t.rsCnt = s.rsCnt)
    ∧ exec .flushR s =
        if s.rsCnt = 0 then s.doneWith 0
        else
          ({ s with
            out := s.out ++ [BitVec.ofNat 8 (s.rsPend.toNat * 2 ^ (8 - s.rsCnt.toNat))]
            outErr := s.outErr.drop 1, rsPend := 0, rsCnt := 0 } : State).doneWith 0

/-- An output error: if `out_err` is asserted against the append number `k` of a write step, the `k` bytes before it
are appended, RS.PEND and RS.CNT keep their values, and the command ends with IO_ERROR; in WU32.R an error in the
second half finds the first half written (40_bitsink.md R147, 60_exceptions.md R378). -/
def Obligations.OutputErrorStopsTheWrite : Prop :=
  ∀ (s : State) (k : Nat) (rest : List Bool), s.fatal = false → s.phase ≠ .closing →
    s.outErr = List.replicate k false ++ true :: rest →
    (∀ w v : U32, bitsInRange w.toNat v.toNat = true → k < (s.rsCnt.toNat + w.toNat) / 8 →
      exec (.wbitsR w v) s =
        ({ s with
          out := s.out ++ (List.range k).map fun j =>
            BitVec.ofNat 8 ((s.rsPend.toNat * 2 ^ w.toNat + v.toNat) / 2 ^ (s.rsCnt.toNat + w.toNat - 8 * (j + 1)))
          outErr := rest } : State).fatalWith 0x05#8)
    ∧ (∀ v : U32, k < 2 →
        exec (.wu32R v) s =
          ({ s with
            out := s.out ++ (List.range k).map fun j =>
              BitVec.ofNat 8 ((s.rsPend.toNat * 2 ^ 16 + v.toNat / 2 ^ 16) / 2 ^ (s.rsCnt.toNat + 16 - 8 * (j + 1)))
            outErr := rest } : State).fatalWith 0x05#8)
    ∧ (∀ (v : U32) (s' : State), 2 ≤ k → k < 4 → rsBits 16 (v.toNat / 2 ^ 16) s = .done s' →
        exec (.wu32R v) s = exec (.wbitsR 16 (BitVec.ofNat 32 (v.toNat % 2 ^ 16))) s'
        ∧ s'.outErr = List.replicate (k - 2) false ++ true :: rest)
    ∧ (k = 0 → s.rsCnt ≠ 0 → exec .flushR s = ({ s with outErr := rest } : State).fatalWith 0x05#8)

/-! ## The deferred bit sink and its log -/

/-- WBITS.D: BAD_OPERAND, then BAD_PHASE on a sealed log, then LOG_OVERFLOW on a full one, else one record is
appended; the real sink is not touched (40_bitsink.md R150). -/
def Obligations.WbitsDAppendsARecord : Prop :=
  ∀ (s : State) (w v : U32), s.fatal = false → s.phase ≠ .closing →
    (w.toNat = 0 ∨ 24 < w.toNat ∨ 2 ^ w.toNat ≤ v.toNat → exec (.wbitsD w v) s = s.rejectedWith 0x02#8)
    ∧ (1 ≤ w.toNat → w.toNat ≤ 24 → v.toNat < 2 ^ w.toNat →
        (s.dsSealed = true → exec (.wbitsD w v) s = s.rejectedWith 0x03#8)
        ∧ (s.dsSealed = false → s.dsLogLen = s.logCap → exec (.wbitsD w v) s = s.fatalWith 0x04#8)
        ∧ (s.dsSealed = false → s.dsLogLen ≠ s.logCap →
            ∃ t, exec (.wbitsD w v) s = .next t
              ∧ s.wroteLog t [BitVec.ofNat 5 w.toNat ++ BitVec.ofNat 24 v.toNat]))

/-- WBOOL.D, WUNARY.D and WU32.D append their records: one of width 1; a record (8, 0xFF) for every eight ones, one for
the rest, and the zero; the two halves. A sealed log rejects; if the records do not all fit, those that do are
appended and LOG_OVERFLOW is taken (40_bitsink.md R151 to R153, 60_exceptions.md R377). -/
def Obligations.DeferredCommandsAppendTheirRecords : Prop :=
  ∀ s : State, s.fatal = false → s.phase ≠ .closing → s.dsLogLen ≤ s.logCap →
    (∀ b : U32, 1 < b.toNat → exec (.wboolD b) s = s.rejectedWith 0x02#8)
    ∧ (∀ (i : Instr) (rs : List (BitVec 29)),
        ((∃ b : U32, b.toNat ≤ 1 ∧ i = .wboolD b ∧ rs = [packRecord 1 b.toNat])
          ∨ (∃ n : U32, i = .wunaryD n
              ∧ rs = List.replicate (n.toNat / 8) (packRecord 8 0xFF)
                  ++ (if n.toNat % 8 = 0 then [] else [packRecord (n.toNat % 8) (2 ^ (n.toNat % 8) - 1)])
                  ++ [packRecord 1 0])
          ∨ (∃ v : U32, i = .wu32D v
              ∧ rs = [packRecord 16 (v.toNat / 2 ^ 16), packRecord 16 (v.toNat % 2 ^ 16)])) →
        (s.dsSealed = true → exec i s = s.rejectedWith 0x03#8)
        ∧ (s.dsSealed = false → s.dsLogLen + rs.length ≤ s.logCap →
            ∃ t, exec i s = .next t ∧ s.wroteLog t rs)
        ∧ (s.dsSealed = false → s.logCap < s.dsLogLen + rs.length →
            ∃ t, exec i s = .next t ∧ s.overflowedLog t rs))

/-- FLUSH.D does nothing; SETCRC sets the CRC slot and seals; LOGCLR empties and unseals; LOGRD answers a valid record
as `000`, width, value, and is BAD_OPERAND beyond the log, sealed or not (40_bitsink.md R154, R155, R156, R158,
20_memory.md R76). That LOGCLR leaves the old records in DS.LOG, beyond DS.LOGLEN, is the model's choice (log 25): R156
leaves the content there unspecified. -/
def Obligations.LogCommands : Prop :=
  ∀ s : State, s.fatal = false →
    exec .flushD s = s.doneWith 0
    ∧ (∀ v : U32, exec (.setcrc v) s = ({ s with dsCrc := v, dsSealed := true } : State).doneWith 0)
    ∧ exec .logclr s = ({ s with dsLogLen := 0, dsCrc := 0, dsSealed := false } : State).doneWith 0
    ∧ (∀ i : U32, s.dsLogLen ≤ i.toNat → exec (.logrd i) s = s.rejectedWith 0x02#8)
    ∧ (∀ i : U32, i.toNat < s.dsLogLen →
        exec (.logrd i) s = s.doneWith
          (BitVec.ofNat 32
            (recordWidth (Memory.get s.dsLog i.toNat) * 2 ^ 24 + recordValue (Memory.get s.dsLog i.toNat))))

/-- REPLAY on a sealed log writes the bits of every record, in order, to the real sink and answers their number; the
log is not changed; on an unsealed log it is BAD_PHASE (40_bitsink.md R157). -/
def Obligations.ReplayWritesTheLog : Prop :=
  ∀ s : State, s.fatal = false →
    (s.dsSealed = false → exec .replay s = s.rejectedWith 0x03#8)
    ∧ (s.dsSealed = true → s.sinkOk → s.quiet → (∀ r ∈ s.logList, recordLegal r) →
        ∃ t, exec .replay s = .next t
          ∧ s.wroteReal t (s.logList.flatMap recordWire) (BitVec.ofNat 32 s.dsLogLen))

/-- Equivalence of the sinks: operations on the real sink leave OUT, RS.PEND and RS.CNT exactly as the same operations
on an empty deferred sink followed by the replay of its log do; FLUSH.D logs nothing (40_bitsink.md R159). -/
def Obligations.SinksAreEquivalent : Prop :=
  (∀ (ops : List SinkOp) (s : State), (∀ o ∈ ops, o.legal = true) → s.sinkOk → s.quiet → s.dsLogLen = 0 →
    (ops.flatMap SinkOp.records).length ≤ s.logCap →
    ∃ r d e, runReal ops s = .done r ∧ runDeferred ops s = .done d ∧ replayFrom 0 d.dsLogLen d = .done e
      ∧ e.out = r.out ∧ e.rsPend = r.rsPend ∧ e.rsCnt = r.rsCnt)
  ∧ (∀ s : State, s.fatal = false → exec .flushD s = s.doneWith 0)

/-- Every record in the log is a legal write (10_state.md R23): every instruction keeps it so, stage 8 of BCLOSE when
the writes it is to make are legal, which they are whenever it is reached (statement StageEightIsLegal). -/
def Obligations.AppendsKeepRecordsLegal : Prop :=
  ∀ (i : Instr) (s t : State), (i = .stEmit → ∀ o ∈ blockOps s, o.legal = true) →
    (∀ r ∈ s.logList, recordLegal r) → exec i s = .next t → ∀ r ∈ t.logList, recordLegal r

/-! ## Rejections -/

/-- The illegal operand values, each BAD_OPERAND with no other change (30_encoding.md R105). -/
def Obligations.BadOperandRejections : Prop :=
  ∀ (s : State) (a b : U32), s.fatal = false →
    (a.toNat = 0 ∨ 24 < a.toNat ∨ 2 ^ a.toNat ≤ b.toNat →
      exec (.wbitsR a b) s = s.rejectedWith 0x02#8 ∧ exec (.wbitsD a b) s = s.rejectedWith 0x02#8)
    ∧ (1 < b.toNat → exec (.wboolR b) s = s.rejectedWith 0x02#8 ∧ exec (.wboolD b) s = s.rejectedWith 0x02#8)
    ∧ (255 < b.toNat → exec (.crcupd b) s = s.rejectedWith 0x02#8)
    ∧ (1 < a.toNat → exec (.blkopen a) s = s.rejectedWith 0x02#8)
    ∧ (0x14 < a.toNat → exec (.csrr a) s = s.rejectedWith 0x02#8 ∧ exec (.csrw a b) s = s.rejectedWith 0x02#8)
    ∧ (a.toNat = 1 → b.toNat = 0 ∨ 255 < b.toNat → exec (.csrw a b) s = s.rejectedWith 0x02#8)
    ∧ (s.inSize < a.toNat + b.toNat → exec (.bwrite a b) s = s.rejectedWith 0x02#8)
    ∧ (s.dsLogLen ≤ a.toNat → exec (.logrd a) s = s.rejectedWith 0x02#8)

/-- The commands that need another PHASE or seal state, each BAD_PHASE with no other change once its operands are
legal (60_exceptions.md R375). -/
def Obligations.BadPhaseRejections : Prop :=
  ∀ (s : State) (a b : U32), s.fatal = false →
    (s.phase ≠ .idle →
      (a.toNat ≤ 1 → exec (.blkopen a) s = s.rejectedWith 0x03#8)
      ∧ exec .crcrst s = s.rejectedWith 0x03#8
      ∧ (b.toNat ≤ 255 → exec (.crcupd b) s = s.rejectedWith 0x03#8)
      ∧ exec .crcget s = s.rejectedWith 0x03#8
      ∧ exec (.csrw 0 b) s = s.rejectedWith 0x03#8
      ∧ (1 ≤ b.toNat → b.toNat ≤ 255 → exec (.csrw 1 b) s = s.rejectedWith 0x03#8))
    ∧ (s.phase ≠ .opened →
      (a.toNat + b.toNat ≤ s.inSize → exec (.bwrite a b) s = s.rejectedWith 0x03#8)
      ∧ exec .bclose s = s.rejectedWith 0x03#8)
    ∧ (s.dsSealed = true →
      (bitsInRange a.toNat b.toNat = true → exec (.wbitsD a b) s = s.rejectedWith 0x03#8)
      ∧ (b.toNat ≤ 1 → exec (.wboolD b) s = s.rejectedWith 0x03#8)
      ∧ exec (.wunaryD b) s = s.rejectedWith 0x03#8
      ∧ exec (.wu32D b) s = s.rejectedWith 0x03#8
      ∧ (s.sinkSel = true → exec .bclose s = s.rejectedWith 0x03#8))
    ∧ (s.dsSealed = false → exec .replay s = s.rejectedWith 0x03#8)

/-! ## CRC -/

/-- CRCRST loads all ones, as reset and BLKOPEN do, CRCUPD applies the bit-serial step to a byte, CRCGET answers the complement and changes
nothing; all three are BAD_PHASE outside IDLE; the CRC of a sequence is what CRCGET then answers. CRCFOLD rotates
STREAM_CRC left by one bit and xors its operand (41_crc32.md R180, R181, R182, R184). -/
def Obligations.CrcUnitCommands : Prop :=
  (∀ s : State, s.fatal = false →
    (s.phase ≠ .idle →
      exec .crcrst s = s.rejectedWith 0x03#8 ∧ exec .crcget s = s.rejectedWith 0x03#8
      ∧ ∀ x : U32, x.toNat ≤ 255 → exec (.crcupd x) s = s.rejectedWith 0x03#8)
    ∧ (∀ x : U32, 255 < x.toNat → exec (.crcupd x) s = s.rejectedWith 0x02#8)
    ∧ (s.phase = .idle →
      exec .crcrst s = ({ s with crcAcc := 0xFFFFFFFF#32 } : State).doneWith 0
      ∧ exec .crcget s = s.doneWith (s.crcAcc ^^^ 0xFFFFFFFF#32)
      ∧ (∀ x : U32, x.toNat ≤ 255 →
          exec (.crcupd x) s = ({ s with crcAcc := crcStep s.crcAcc (BitVec.ofNat 8 x.toNat) } : State).doneWith 0)
      ∧ (∀ xs : List Byte,
          ∃ t, runAll (.crcrst :: xs.map fun x => .crcupd (x.setWidth 32)) s = some t
            ∧ exec .crcget t = t.doneWith (~~~ xs.foldl crcStep 0xFFFFFFFF#32)))
    ∧ (∀ x : U32,
        let folded := BitVec.ofNat 32 (2 * s.streamCrc.toNat % 2 ^ 32 + s.streamCrc.toNat / 2 ^ 31) ^^^ x
        exec (.crcfold x) s = ({ s with streamCrc := folded } : State).doneWith folded))
  ∧ (∀ (c : U32) (x : Byte),
      (crcStep c x).toNat =
        Nat.iterate (fun n => if 2 ^ 31 ≤ n then (2 * n % 2 ^ 32) ^^^ 0x04C11DB7 else 2 * n % 2 ^ 32) 8
          (c.toNat ^^^ x.toNat * 2 ^ 24))
  ∧ (∀ (s : State) (a : U32), s.fatal = false → a.toNat ≤ 1 → s.phase = .idle →
      ∃ t, exec (.blkopen a) s = .next t ∧ t.crcAcc = 0xFFFFFFFF#32)
  ∧ State.reset.crcAcc = 0xFFFFFFFF#32 ∧ State.reset.streamCrc = 0

/-- The known answers, which hold for no other choice of initial value and final inversion; incrementality; for a
fixed byte the step is a bijection; it is linear; the fold does not commute (41_crc32.md R185). -/
def Obligations.CrcLaws : Prop :=
  (∀ xs ys : List Byte, ∀ c : U32, (xs ++ ys).foldl crcStep c = ys.foldl crcStep (xs.foldl crcStep c))
  ∧ (∀ x : Byte, Function.Bijective fun c => crcStep c x)
  ∧ (∀ (c d : U32) (x y : Byte), crcStep (c ^^^ d) (x ^^^ y) = crcStep c x ^^^ crcStep d y)
  ∧ (∃ s x y : U32, crcFold (crcFold s x) y ≠ crcFold (crcFold s y) x)
  ∧ (let one : List Byte :=
        [0x01, 0x02, 0x03, 0x04, 0x05, 0x06, 0x07, 0x08, 0x09, 0x0A]
          ++ [0xF1, 0xF2, 0xF3, 0xF4, 0xF5, 0xF6, 0xF7, 0xF8, 0xF9, 0xFA]
      let two : List Byte := List.replicate 10 0x55
      (one.foldl crcStep 0xFFFFFFFF#32 ^^^ 0xFFFFFFFF#32 = 0x8AEE127A#32
        ∧ two.foldl crcStep 0xFFFFFFFF#32 ^^^ 0xFFFFFFFF#32 = 0xA1E07747#32)
      ∧ ∀ cx ∈ [(0x00000000#32, 0x00000000#32), (0x00000000#32, 0xFFFFFFFF#32), (0xFFFFFFFF#32, 0x00000000#32)],
          one.foldl crcStep cx.1 ^^^ cx.2 ≠ 0x8AEE127A#32 ∧ two.foldl crcStep cx.1 ^^^ cx.2 ≠ 0xA1E07747#32)

/-! ## The block of data: opening, absorbing, closing -/

/-- BLKOPEN: the checks in order, then the opening, which touches nothing but what 42_rle1.md R201 lists. That the
memories keep their content, which 10_state.md R55 leaves unspecified, is the model's choice (log 25). -/
def Obligations.BlkopenOpensTheBlock : Prop :=
  ∀ (s : State) (a : U32), s.fatal = false →
    (1 < a.toNat → exec (.blkopen a) s = s.rejectedWith 0x02#8)
    ∧ (a.toNat ≤ 1 → s.phase ≠ .idle → exec (.blkopen a) s = s.rejectedWith 0x03#8)
    ∧ (a.toNat ≤ 1 → s.phase = .idle →
        exec (.blkopen a) s =
          ({ s with
            phase := .opened, sinkSel := decide (a.toNat = 1), regN := 0, rawCnt := 0, rlLast := 0, rlRun := 0
            full := false, emitted := false, crcAcc := 0xFFFFFFFF#32, blockCrc := 0, origPtr := 0
            regK := 0, regS := 0, regT := 0, regG := 0, zRun := 0
            dsLogLen := if a.toNat = 1 then 0 else s.dsLogLen
            dsCrc := if a.toNat = 1 then 0 else s.dsCrc
            dsSealed := if a.toNat = 1 then false else s.dsSealed } : State).doneWith 0)

/-- `absorb`: a full block refuses; otherwise the run tracker makes its candidate, a byte after which the closed
block would pass LIMIT is refused and sets FULL alone, and a byte that is taken commits the candidate: the run that
ended is written to U, the CRC and the count go on (42_rle1.md R203, R204, R205). -/
def Obligations.AbsorbFollowsTheRunTracker : Prop :=
  (∀ r : Nat, pendingCost r = if r = 0 then 0 else if r ≤ 3 then r else 5)
  ∧ (∀ (x : Byte) (r : Nat),
      runSymbols x r = if r ≤ 3 then List.replicate r x else List.replicate 4 x ++ [BitVec.ofNat 8 (r - 4)])
  ∧ (∀ (s : State) (x : Byte), s.full = true → absorb x s = (false, s))
  ∧ (∀ (s : State) (x : Byte), s.full = false → s.configOk → s.rlRun.toNat ≤ 254 → Memory.wf s.u = true →
      let n := s.regN.toNat
      let r := s.rlRun.toNat
      -- N', LAST', RUN' and the symbols of the run to write
      let c : Nat × Byte × Nat × List Byte :=
        if r = 0 then (n, x, 1, [])
        else if x = s.rlLast ∧ r = 254 then (n + 5, s.rlLast, 0, runSymbols s.rlLast 255)
        else if x = s.rlLast then (n, s.rlLast, r + 1, [])
        else (n + pendingCost r, x, 1, runSymbols s.rlLast r)
      if 100000 * s.level.toNat - 1 < c.1 + pendingCost c.2.2.1 then absorb x s = (false, { s with full := true })
      else
        ∃ t, absorb x s = (true, t)
          ∧ t.uList = s.uList ++ c.2.2.2
          ∧ (∀ j, c.1 ≤ j → Memory.get t.u j = Memory.get s.u j)
          ∧ t = { s with
              u := t.u, regN := BitVec.ofNat 20 c.1, rlLast := c.2.1, rlRun := BitVec.ofNat 8 c.2.2.1
              crcAcc := crcStep s.crcAcc x, rawCnt := s.rawCnt + 1 })

/-- BWRITE: the checks in order, then bytes of IN are absorbed in ascending order up to the first refused; the response
is how many were taken; fewer than asked only with FULL = 1. Only U from N on, the run tracker, the counts, the CRC
and FULL change (42_rle1.md R206). -/
def Obligations.BwriteAbsorbsUntilRefused : Prop :=
  ∀ (s : State) (off len : U32), s.fatal = false →
    (s.inSize < off.toNat + len.toNat → exec (.bwrite off len) s = s.rejectedWith 0x02#8)
    ∧ (off.toNat + len.toNat ≤ s.inSize → s.phase ≠ .opened → exec (.bwrite off len) s = s.rejectedWith 0x03#8)
    ∧ (off.toNat + len.toNat ≤ s.inSize → s.phase = .opened → s.configOk →
        let byte := fun j => Memory.get s.inMem (off.toNat + j)
        let after := fun k => ((List.range k).map byte).foldl (fun q x => (absorb x q).2) s
        ∃ (k : Nat) (t : State), k ≤ len.toNat
          ∧ (∀ j, j < k → (absorb (byte j) (after j)).1 = true)
          ∧ (k < len.toNat → (absorb (byte k) (after k)).1 = false ∧ t = after (k + 1) ∧ t.full = true)
          ∧ (k = len.toNat → t = after k)
          ∧ exec (.bwrite off len) s = t.doneWith (BitVec.ofNat 32 k)
          ∧ (∀ j, j < s.regN.toNat ∨ t.regN.toNat ≤ j → Memory.get t.u j = Memory.get s.u j)
          ∧ t = { s with
              u := t.u, regN := t.regN, rlLast := t.rlLast, rlRun := t.rlRun, crcAcc := t.crcAcc
              rawCnt := t.rawCnt, full := t.full })

/-- FULL is set by BWRITE alone and cleared by BLKOPEN and RESET alone; while it stands a block takes no byte at all
(42_rle1.md R209, 10_state.md R42). -/
def Obligations.RefusedByteSticks : Prop :=
  (∀ (s : State) (off len : U32), s.fatal = false → s.phase = .opened → off.toNat + len.toNat ≤ s.inSize →
      s.full = true → exec (.bwrite off len) s = s.doneWith 0)
  ∧ (∀ (i : Instr) (s t : State), exec i s = .next t → s.full = true → t.full = false →
      i = .reset ∨ ∃ a, i = .blkopen a)
  ∧ (∀ (i : Instr) (s t : State), exec i s = .next t → s.full = false → t.full = true → ∃ off len, i = .bwrite off len)

/-- The RLE1 round trip: from a fresh block, the symbols in U once the pending run is written decode to exactly the
bytes that were absorbed (42_rle1.md R212). -/
def Obligations.RleRoundTrip : Prop :=
  ∀ (s t : State) (xs : List Byte) (k : Nat),
    s.regN = 0 → s.rlRun = 0 → s.full = false → s.configOk → Memory.wf s.u = true →
    absorbAll xs s = (k, t) → rleDecode 0 0 (flushRun t).uList = xs.take k

/-- BCLOSE: BAD_PHASE unless a block of data is open and its log, if it is bound to the log, is unsealed; else PHASE
is CLOSING with stage 1 to come, and nothing else has changed: the stages are the following steps (log 7;
46_closeblock_emit.md R330). -/
def Obligations.BcloseStartsTheStages : Prop :=
  ∀ s : State, s.fatal = false →
    (s.phase ≠ .opened ∨ (s.sinkSel = true ∧ s.dsSealed = true) → exec .bclose s = s.rejectedWith 0x03#8)
    ∧ (s.phase = .opened → s.sinkSel = false ∨ s.dsSealed = false →
        exec .bclose s = .next { s with phase := .closing, stage := 1#4 })

/-- The closing always ends: from stage 1, STAGE counts 1, 2, 3, … step by step, and after at most eight steps PHASE is
IDLE, STAGE 0 and there is a response; the port is held all the time (10_state.md R41, 46_closeblock_emit.md R330,
70_reset_and_hazards.md R440, R441). -/
def Obligations.ClosingEnds : Prop :=
  ∀ s : State, s.phase = .closing → s.stage = 1#4 →
    ∃ (k : Nat) (t : State), 1 ≤ k ∧ k ≤ 8
      ∧ (∀ j, j < k → ∃ u : State,
          core.run j s = .next u ∧ u.phase = .closing ∧ u.stage = BitVec.ofNat 4 (j + 1))
      ∧ core.run k s = .next t ∧ t.phase = .idle ∧ t.stage = 0#4 ∧ t.port = s.port
      ∧ (∃ r : Response, t.resp = some r)

/-- Stage 1 writes the pending run; if U is empty even then, the close ends at once: nothing written to any sink,
EMITTED 0, response 0 (42_rle1.md R207, 46_closeblock_emit.md R331). -/
def Obligations.RleflushStage : Prop :=
  ∀ s : State, Memory.wf s.u = true → s.regN.toNat + 5 < 2 ^ 20 →
    (s.regN = 0 → s.rlRun = 0 →
      exec .stRleflush s = ({ s with emitted := false, phase := .idle, stage := 0 } : State).doneWith 0)
    ∧ (s.regN ≠ 0 → s.rlRun = 0 → exec .stRleflush s = .next { s with stage := 2#4 })
    ∧ (s.rlRun ≠ 0 →
        ∃ t, exec .stRleflush s = .next t
          ∧ t.uList = s.uList ++
              (if s.rlRun.toNat ≤ 3 then List.replicate s.rlRun.toNat s.rlLast
                else List.replicate 4 s.rlLast ++ [s.rlRun - 4#8])
          ∧ (∀ j, t.regN.toNat ≤ j → Memory.get t.u j = Memory.get s.u j)
          ∧ t = { s with u := t.u, regN := t.regN, rlRun := 0, stage := 2#4 })

/-- Stage 2: BLOCK_CRC is the complement of CRC.ACC, which stays (46_closeblock_emit.md R332). -/
def Obligations.CrcfinStage : Prop :=
  ∀ s : State, exec .stCrcfin s = .next { s with blockCrc := s.crcAcc ^^^ 0xFFFFFFFF#32, stage := 3#4 }

/-- Stage 3: P is the permutation of the offsets in which every rotation comes before the next, LCOL holds the last
symbols of the rotations in that order, ORIG_PTR is the row of offset 0; U, N and the memories from element N on are
unchanged (43_bwt.md R231 to R234, R236). -/
def Obligations.BwtStageSortsTheRotations : Prop :=
  ∀ s : State, 1 ≤ s.regN.toNat → Memory.wf s.p = true → Memory.wf s.lcol = true →
    let n := s.regN.toNat
    let u := fun j => (Memory.get s.u j).toNat
    ∃ t, exec .stBwt s = .next t
      ∧ t = { s with p := t.p, lcol := t.lcol, origPtr := t.origPtr, stage := 4#4 }
      ∧ let order := (Memory.slice t.p 0 n).map BitVec.toNat
        order.Perm (List.range n)
        ∧ (∀ i j, i < j → j < n → rotationBefore u n (order.getD i 0) (order.getD j 0))
        ∧ (∀ i, i < n → Memory.get t.lcol i = Memory.get s.u ((order.getD i 0 + n - 1) % n))
        ∧ t.origPtr.toNat < n ∧ order.getD t.origPtr.toNat 0 = 0
        ∧ (∀ j, n ≤ j → Memory.get t.p j = Memory.get s.p j ∧ Memory.get t.lcol j = Memory.get s.lcol j)

/-- Stage 4: INUSE marks exactly the symbols of U below N, and K counts the marks (44_symmap_mtf.md R250). -/
def Obligations.SymmapStageMarksTheSymbols : Prop :=
  ∀ s : State, Memory.wf s.inUse = true →
    ∃ t, exec .stSymmap s = .next t
      ∧ t = { s with inUse := t.inUse, regK := t.regK, stage := 5#4 }
      ∧ (∀ x, x < 256 → (t.used x = true ↔ ∃ i, i < s.regN.toNat ∧ (Memory.get s.u i).toNat = x))
      ∧ t.regK.toNat = ((List.range 256).filter t.used).length
      ∧ (∀ j, 256 ≤ j → Memory.get t.inUse j = Memory.get s.inUse j)

/-- One move-to-front step answers the index of the symbol and moves it to the front, the entries before it one place
down; at index 0 the list is unchanged (44_symmap_mtf.md R256). Stage 5 leaves symbols
that end in the one EOB (R260), are 2 to N + 1 in number, and read back as LCOL from the list of the used byte values in
ascending order; the list stays an arrangement of those; nothing else changes. -/
def Obligations.MtfStageReadsBackAsLcol : Prop :=
  (∀ (l : List Byte) (x : Byte), x ∈ l →
    (mtfStep l x).1 = l.idxOf x
    ∧ (mtfStep l x).2 = x :: (l.take (l.idxOf x) ++ l.drop (l.idxOf x + 1))
    ∧ (l.idxOf x = 0 → (mtfStep l x).2 = l))
  ∧ (∀ s : State, 1 ≤ s.regN.toNat → s.regN.toNat ≤ 899999 → Memory.wf s.sym = true → Memory.wf s.mtfList = true →
    s.regK.toNat = ((List.range 256).filter s.used).length → (∀ x ∈ s.lcolList, s.used x.toNat = true) →
    let usedBytes := ((List.range 256).filter s.used).map (BitVec.ofNat 8)
    let k := s.regK.toNat
    ∃ t, exec .stMtf s = .next t
      ∧ t = { s with mtfList := t.mtfList, sym := t.sym, regS := t.regS, zRun := 0, stage := 6#4 }
      ∧ mtfDecode (k + 1) usedBytes 0 1 t.symList = some s.lcolList
      ∧ 2 ≤ t.regS.toNat ∧ t.regS.toNat ≤ s.regN.toNat + 1
      ∧ (∀ y ∈ t.symList.dropLast, y ≤ k) ∧ t.symList.getLast? = some (k + 1)
      ∧ (Memory.slice t.mtfList 0 k).Perm usedBytes
      ∧ (∀ j, t.regS.toNat ≤ j → Memory.get t.sym j = Memory.get s.sym j)
      ∧ (∀ j, k ≤ j → Memory.get t.mtfList j = Memory.get s.mtfList j))

/-- `put_run` writes a run length in bijective base 2: the digits are 0 and 1, there are `floor(log2(r + 1))` of them,
they stand for the run length they were made from, and every digit list is that of its value (44_symmap_mtf.md R258). -/
def Obligations.RunCodingIsBijective : Prop :=
  (∀ r : Nat, 1 ≤ r → (∀ d ∈ putRun r, d ≤ 1) ∧ runValue (putRun r) = r ∧ (putRun r).length = Nat.log2 (r + 1))
  ∧ (∀ ds : List Nat, (∀ d ∈ ds, d ≤ 1) → putRun (runValue ds) = ds)

/-! ## Huffman tables -/

/-- Stage 6: T by the thresholds, G the number of groups of 50, and SEL, FREQ and LEN what ITER rounds leave, the first
round starting from the initial tables; every selector names a table (45_huffman.md R280, R281, R282). The code lengths
are those of the function `huff_lengths` the machine is built with (`huffTable`, log 5). -/
def Obligations.HselStageRunsTheRounds : Prop :=
  ∀ s : State, 1 ≤ s.regS.toNat → 1 ≤ s.iter.toNat → s.regK.toNat ≤ 256 →
    Memory.wf s.sel = true → Memory.wf s.freq = true → Memory.wf s.len = true →
    let ys := s.symList
    let a := s.regK.toNat + 2
    let n := s.regS.toNat
    let huff := codeLengths s.huffTable
    let r := Nat.iterate (fun q => refine huff a (symbolGroups ys) q.lens) s.iter.toNat (initialRound a ys)
    ∃ t, exec .stHsel s = .next t
      ∧ t = { s with
          regT := t.regT, regG := t.regG, sel := t.sel, freq := t.freq, len := t.len, cost := t.cost, stage := 7#4 }
      ∧ t.regT.toNat =
          (if n ≤ 200 then 2 else if n ≤ 600 then 3 else if n ≤ 1200 then 4 else if n ≤ 2400 then 5 else 6)
      ∧ t.regG.toNat = (n + 49) / 50 ∧ (n ≤ 900000 → 1 ≤ t.regG.toNat ∧ t.regG.toNat ≤ 18000)
      ∧ (∀ g, symbolGroup ys g = (ys.drop (50 * g)).take 50)
      ∧ t.selList = r.sels ∧ (∀ g ∈ t.selList, g < t.regT.toNat)
      ∧ (∀ i, i < t.regT.toNat → t.lenRow i = r.lens.getD i []
          ∧ (Memory.slice t.freq (258 * i) a).map BitVec.toNat = r.freqs.getD i [])
      ∧ (∀ j, t.regG.toNat ≤ j → Memory.get t.sel j = Memory.get s.sel j)
      ∧ (∀ j, t.regT.toNat ≤ j → Memory.get t.cost j = Memory.get s.cost j)
      ∧ (∀ j, (∀ i v, i < t.regT.toNat → v < a → j ≠ 258 * i + v) →
          Memory.get t.len j = Memory.get s.len j ∧ Memory.get t.freq j = Memory.get s.freq j)

/-- The initial tables: each slice takes symbols until their weight reaches its share of what is left, or the alphabet
ends; the pseudo-length is 0 inside the slice and 15 outside (45_huffman.md R283). -/
def Obligations.InitialTablesAreSlices : Prop :=
  (∀ (a : Nat) (ys : List Nat),
    (initialRound a ys).lens =
      initialTables ((List.range a).map fun v => ys.count v) a (numTables ys.length) ys.length 0)
  ∧ (∀ (f : List Nat) (a left rem lo : Nat), f.length = a → lo ≤ a →
    let weight := fun h => ((f.drop lo).take (h - lo)).sum
    ∃ hi, lo ≤ hi ∧ hi ≤ a
      ∧ (rem / (left + 1) ≤ weight hi ∨ hi = a)
      ∧ (∀ h, lo ≤ h → h < hi → weight h < rem / (left + 1))
      ∧ initialTables f a (left + 1) rem lo =
          ((List.range a).map fun v => if lo ≤ v ∧ v < hi then 0 else 15)
            :: initialTables f a left (rem - weight hi) hi)

/-- One round: each group selects the first of the tables that are cheapest for it as they stand; the frequencies count
the symbols of the groups that selected a table, and add up to the number of symbols; every table gets the lengths of
its frequencies, whatever the code-length function `huff` is (45_huffman.md R284 to R287). -/
def Obligations.RoundSelectsTheCheapest : Prop :=
  ∀ (huff : List Nat → List Nat) (a : Nat) (groups tables : List (List Nat)), tables ≠ [] →
    let r := refine huff a groups tables
    let cost := fun t g => ((groups.getD g []).map fun v => (tables.getD t []).getD v 0).sum
    r.sels.length = groups.length ∧ r.freqs.length = tables.length
    ∧ (∀ g, g < groups.length →
        r.sels.getD g 0 < tables.length
        ∧ (∀ t, t < tables.length → cost (r.sels.getD g 0) g ≤ cost t g)
        ∧ (∀ t, t < r.sels.getD g 0 → cost (r.sels.getD g 0) g < cost t g))
    ∧ (∀ t v, t < tables.length → v < a →
        (r.freqs.getD t []).getD v 0 =
          (((List.range groups.length).filter fun g => decide (r.sels.getD g 0 = t)).map fun g =>
            (groups.getD g []).count v).sum)
    ∧ r.lens = r.freqs.map huff
    ∧ ((∀ ys ∈ groups, ∀ y ∈ ys, y < a) → (r.freqs.map List.sum).sum = (groups.map List.length).sum)

/-- The trees of the DEFAULT code-length function (45_huffman.md R291 to R294; log 5) are full: the Kraft sum of its
lengths is exactly 1, for every list of frequencies. The contract (R290 (b)) asks for at most 1 only, so this need not
hold of another legal `huff_lengths`. -/
def Obligations.HuffLengthsFillTheTree : Prop :=
  ∀ (f : List Nat) (d : Nat), f ≠ [] → (∀ l ∈ huffLengths f, l ≤ d) →
    (huffLengths f).length = f.length ∧ kraftSum d (huffLengths f) = 2 ^ d

/-- The contract of the parameter `huff_lengths`: whatever the machine's table of choices, for 3 to 258 symbols of
frequency at most 900 000 there is a length of 1 to 17 for every symbol, and their Kraft sum is at most 1, so that a code
with these lengths exists (45_huffman.md R290 (a), (b); (c) is `codeLengths` being a function of the frequencies). The
other two clauses are about the model's choice to hold the parameter as a table (log 5), of which R290 says nothing: no
legal function is shut out, for whatever function meets the contract, some table gives its lengths on any finite list of
inputs, and there are finitely many; and the empty table is the default. -/
def Obligations.HuffLengthsMeetTheContract : Prop :=
  (∀ (table : List (List Nat × List Nat)) (f : List Nat),
    3 ≤ f.length → f.length ≤ 258 → (∀ x ∈ f, x ≤ 900000) →
    (codeLengths table f).length = f.length ∧ (∀ l ∈ codeLengths table f, 1 ≤ l ∧ l ≤ 17)
    ∧ kraftSum 17 (codeLengths table f) ≤ 2 ^ 17)
  ∧ (∀ (g : List Nat → List Nat) (inputs : List (List Nat)),
    (∀ f ∈ inputs, (g f).length = f.length ∧ (∀ l ∈ g f, 1 ≤ l ∧ l ≤ 17) ∧ kraftSum 17 (g f) ≤ 2 ^ 17) →
    ∃ table, ∀ f ∈ inputs, codeLengths table f = g f)
  ∧ (∀ f : List Nat, codeLengths [] f = huffLengths f)

/-- Stage 7: every table's symbols get the canonical codes of its lengths, in 17 bits; nothing else changes
(45_huffman.md R300). -/
def Obligations.CanonStageNumbersTheCodes : Prop :=
  ∀ s : State, s.regK.toNat ≤ 256 → Memory.wf s.code = true →
    ∃ t, exec .stCanon s = .next t
      ∧ t = { s with code := t.code, stage := 8#4 }
      ∧ (∀ i v, i < s.regT.toNat → v < s.regK.toNat + 2 → t.codeAt i v = canonicalCode (s.lenRow i) v % 2 ^ 17)
      ∧ (∀ j, (∀ i v, i < s.regT.toNat → v < s.regK.toNat + 2 → j ≠ 258 * i + v) →
          Memory.get t.code j = Memory.get s.code j)

/-- The laws of the canonical codes, for lengths whose Kraft sum is at most 1: each code fits its length; no code begins with
another; left-aligned they rise with (length, symbol); the first symbol of the shortest length has code 0;
if the sum is 1 the last symbol of the longest length has all ones (45_huffman.md R301). -/
def Obligations.CanonicalCodesArePrefixFree : Prop :=
  ∀ (ls : List Nat) (d : Nat), (∀ l ∈ ls, 1 ≤ l ∧ l ≤ d) → kraftSum d ls ≤ 2 ^ d →
    let len := fun v => ls.getD v 0
    let code := fun v => (canonicalCodes ls).getD v 0
    (canonicalCodes ls).length = ls.length
    ∧ (∀ v, v < ls.length → code v < 2 ^ len v)
    ∧ (∀ u v, u < ls.length → v < ls.length → u ≠ v → len u ≤ len v → code v / 2 ^ (len v - len u) ≠ code u)
    ∧ (∀ u v, u < ls.length → v < ls.length → len u < len v ∨ (len u = len v ∧ u < v) →
        code u * 2 ^ (d - len u) < code v * 2 ^ (d - len v))
    ∧ (∀ v, v < ls.length → (∀ u, u < ls.length → len v ≤ len u) → (∀ u, u < v → len u ≠ len v) → code v = 0)
    ∧ (kraftSum d ls = 2 ^ d → ∀ v, v < ls.length → (∀ u, u < ls.length → len u ≤ len v) →
        (∀ u, v < u → u < ls.length → len u ≠ len v) → code v = 2 ^ len v - 1)

/-! ## Emission -/

/-- Stage 8 writes the fields of the block of data in the order of 30_encoding.md R112 and nothing more, to the bound
sink only, without a flush; then EMITTED is set, PHASE is IDLE, the response is BLOCK_CRC; on the log the CRC slot is
set and the log sealed (46_closeblock_emit.md R340 to R353). The selector ranks that go into it are below the number of
tables and, read back by move-to-front from the list 0 to T − 1, are the selectors (R347, 30_encoding.md R120). -/
def Obligations.EmitStageWritesTheBlock : Prop :=
  (∀ (n : Nat) (sels : List Nat), (∀ g ∈ sels, g < n) →
    let ranks := selectorRanks (List.range n) sels
    ranks.length = sels.length ∧ (∀ r ∈ ranks, r < n) ∧ rankDecode (List.range n) ranks = sels)
  ∧ ∀ s : State, (∀ o ∈ blockOps s, o.legal = true) →
    (blockOps s).flatMap SinkOp.wire = (blockFields s).flatMap (fun i => fieldWire (encode i))
    ∧ (s.sinkSel = false → s.sinkOk → s.quiet →
        ∃ t, exec .stEmit s = .next t
          ∧ t.bitSeq = s.bitSeq ++ (blockFields s).flatMap (fun i => fieldWire (encode i)) ∧ t.sinkOk
          ∧ t = { s with
              out := t.out, outErr := s.outErr.drop (t.out.length - s.out.length), rsPend := t.rsPend
              rsCnt := t.rsCnt, emitted := true, phase := .idle, stage := 0, resp := some ⟨0#8, s.blockCrc⟩ })
    ∧ (s.sinkSel = true → s.dsLogLen + ((blockOps s).flatMap SinkOp.records).length ≤ s.logCap →
        ∃ t, exec .stEmit s = .next t
          ∧ s.loggedOnly t ((blockOps s).flatMap SinkOp.records)
          ∧ t = { s with
              dsLog := t.dsLog, dsLogLen := t.dsLogLen, dsCrc := s.blockCrc, dsSealed := true
              emitted := true, phase := .idle, stage := 0, resp := some ⟨0#8, s.blockCrc⟩ })

/-- The length in bits of what stage 8 writes (46_closeblock_emit.md R354). -/
def Obligations.BlockLengthInBits : Prop :=
  ∀ s : State,
    ((blockOps s).flatMap SinkOp.wire).length =
      48 + 32 + 1 + 24 + 16 + 16 * ((List.range 16).filter s.usedGroup).length + 3 + 15
        + ((selectorRanks (List.range s.regT.toNat) s.selList).map fun r => r + 1).sum
        + ((List.range s.regT.toNat).map fun t =>
            5 + ((lengthSteps ((s.lenRow t).headD 0) (s.lenRow t)).map fun d => 2 * d + 1).sum).sum
        + (s.symList.zipIdx.map fun vi => s.lenAt (s.tableOf vi.2) vi.1).sum

/-- The preconditions of stage 8 hold whenever it is reached from stage 1 in a state of the invariant, and make every
one of its writes legal (46_closeblock_emit.md R333). -/
def Obligations.StageEightIsLegal : Prop :=
  ∀ (s t : State), s.inv → s.phase = .closing → s.stage = 1#4 → core.run 7 s = .next t →
    t.phase = .closing → t.stage = 8#4 →
    t.origPtr.toNat < t.regN.toNat
    ∧ 1 ≤ t.regK.toNat ∧ t.regK.toNat ≤ 256
    ∧ 2 ≤ t.regS.toNat ∧ t.regS.toNat ≤ t.regN.toNat + 1
    ∧ 2 ≤ t.regT.toNat ∧ t.regT.toNat ≤ 6
    ∧ t.regG.toNat = (t.regS.toNat + 49) / 50
    ∧ (∀ g ∈ t.selList, g < t.regT.toNat)
    ∧ (∀ r ∈ selectorRanks (List.range t.regT.toNat) t.selList, r < t.regT.toNat)
    ∧ (∀ i v, i < t.regT.toNat → v < t.regK.toNat + 2 →
        1 ≤ t.lenAt i v ∧ t.lenAt i v ≤ 17 ∧ t.codeAt i v < 2 ^ t.lenAt i v)
    ∧ (∀ o ∈ blockOps t, o.legal = true)

/-! ## The fields of the bitstream as instructions -/

/-- The fields the host writes, and a record replayed, each on the real sink, as the model runs them (log 9, 10, 11):
header, end marker and stream CRC write exactly their encodings, F.LOGRECORD the bits of its write, F.PADDING the zero
bits to the byte boundary; a value out of range is BAD_OPERAND (30_encoding.md R111, R117, R119); while FATAL = 1 each is
HALTED, before any other check. -/
def Obligations.HostFieldsOnTheRealSink : Prop :=
  ∀ s : State,
   (s.fatal = true →
    ∀ i : Instr,
      (∃ level, i = .fHeader level) ∨ i = .fEndMarker ∨ (∃ crc, i = .fStreamCrc crc) ∨ i = .fPadding
        ∨ (∃ w v, i = .fLogRecord w v) →
      exec i s = s.rejectedWith 0x08#8)
   ∧ (s.fatal = false →
    (∀ i : Instr, (∃ level, i = .fHeader level) ∨ i = .fEndMarker ∨ (∃ crc, i = .fStreamCrc crc) →
      i.wf = true → s.sinkOk → s.quiet → ∃ t, exec i s = .next t ∧ s.wroteReal t (fieldWire (encode i)) 0)
    ∧ (∀ (w : BitVec 5) (v : BitVec 24), Instr.wf (.fLogRecord w v) = true → s.sinkOk → s.quiet →
        ∃ t, exec (.fLogRecord w v) s = .next t ∧ s.wroteReal t (wireBits w.toNat v.toNat) 0)
    ∧ (s.sinkOk → s.quiet →
        ∃ t, exec .fPadding s = .next t
          ∧ s.wroteReal t (List.replicate ((8 - s.rsCnt.toNat) % 8) false) 0 ∧ t.rsCnt = 0)
    ∧ (∀ i : Instr, (∃ level, i = .fHeader level) ∨ (∃ w v, i = .fLogRecord w v) → i.wf = false →
        exec i s = s.rejectedWith 0x02#8))

/-- The fields of a block of data, each on the bound sink, as the model runs them (log 9): block magic, block CRC,
randomized flag, orig_ptr, big map, group map, number of tables, number of selectors, selector, starting length,
length step and symbol. Bound to the real sink each writes exactly its encoding, bound to the log the records of its
sink operations; FATAL = 1 is HALTED, then a value out of range BAD_OPERAND, then a sealed log BAD_PHASE
(30_encoding.md R112, R120, 46_closeblock_emit.md R351). -/
def Obligations.BlockFieldsOnTheBoundSink : Prop :=
  ∀ (s : State) (i : Instr) (ops : List SinkOp), blockFieldOps i = some ops →
   (s.fatal = true → exec i s = s.rejectedWith 0x08#8)
   ∧ (s.fatal = false →
    (i.wf = false → exec i s = s.rejectedWith 0x02#8)
    ∧ (i.wf = true → s.sinkSel = false → s.sinkOk → s.quiet →
        ∃ t, exec i s = .next t ∧ s.wroteReal t (fieldWire (encode i)) 0)
    ∧ (i.wf = true → s.sinkSel = true → s.dsSealed = true → exec i s = s.rejectedWith 0x03#8)
    ∧ (i.wf = true → s.sinkSel = true → s.dsSealed = false →
        s.dsLogLen + (ops.flatMap SinkOp.records).length ≤ s.logCap →
        ∃ t, exec i s = .next t ∧ s.wroteLog t (ops.flatMap SinkOp.records)))

/-! ## The whole machine -/

/-- The invariant holds after reset. -/
def Obligations.InvariantAtReset : Prop := State.reset.inv

/-- Every step keeps the invariant: canonical memories, RS.PEND below 2^RS.CNT, a log within LOGCAP, legal LEVEL and
ITER, STAGE 1 to 8 exactly while CLOSING, CAUSE 0 exactly while FATAL is 0, a block buffer within LIMIT, no closing
into a sealed log; in every PHASE the bounds of `rangesOk`: N with the pending run at most 899 999, RL.RUN at most 254,
ORIG_PTR at most 899 998, K at most 256, S at most 900 000, T 0 or 2 to 6, G at most 18 000, ZRUN 0; RAWCNT at most 51
times N plus RL.RUN. Some ranges of 10_state.md R37 are narrower (ORIG_PTR below N, N within LIMIT, which is kept while
OPEN or CLOSING only) or not here (COST). The second clause: RAWCNT is at
most 255 times a fifth, rounded up, of N with the pending run, and at most 45 900 153 (R38's first and last bound). -/
def Obligations.StepKeepsTheInvariant : Prop :=
  (∀ s t : State, s.inv → step s = .next t → t.inv)
  ∧ (∀ s : State, s.inv →
      s.rawCnt.toNat ≤ 255 * ((s.regN.toNat + pendingCost s.rlRun.toNat + 4) / 5) ∧ s.rawCnt.toNat ≤ 45900153)

/-- Under the invariant a step never stops, unless the item at the port is no field of the bitstream (log 14, 16). -/
def Obligations.NoStopUnderTheInvariant : Prop :=
  ∀ s : State, s.inv →
    (∀ f nbits bits rest, s.port = .field f nbits bits :: rest → (decodeField f nbits bits).isSome = true) →
    ∃ t, step s = .next t

/-- A byte once appended to OUT never changes, and neither does a record in the log: only RESET empties OUT, and only
RESET, LOGCLR and BLKOPEN the log (10_state.md R22, R23, 40_bitsink.md R161). -/
def Obligations.SinksAreAppendOnly : Prop :=
  ∀ (i : Instr) (s t : State), exec i s = .next t → i ≠ .reset →
    s.out <+: t.out
    ∧ (i ≠ .logclr → (∀ a, i ≠ .blkopen a) →
        s.dsLogLen ≤ t.dsLogLen ∧ ∀ j, j < s.dsLogLen → Memory.get t.dsLog j = Memory.get s.dsLog j)

/-- PHASE and STAGE move only by RESET, by BLKOPEN from IDLE to OPEN, by BCLOSE from OPEN to CLOSING, and by the
stages (10_state.md R41). -/
def Obligations.PhaseMovesOnlyAsListed : Prop :=
  ∀ (i : Instr) (s t : State), (∀ st, encode i ≠ .stage st) → s.phase ≠ .closing → exec i s = .next t →
    (t.phase = s.phase ∧ t.stage = s.stage)
    ∨ (i = .reset ∧ t.phase = .idle ∧ t.stage = 0#4)
    ∨ ((∃ a, i = .blkopen a) ∧ s.phase = .idle ∧ t.phase = .opened ∧ t.stage = s.stage)
    ∨ (i = .bclose ∧ s.phase = .opened ∧ t.phase = .closing ∧ t.stage = 1#4)

/-- No instruction, RESET included, writes IN, the parameters LOGCAP, IN_SIZE and `huff_lengths` or the port, and the
platform's answers are only used up. IN belongs to the host and the parameters are arguments of the step (10_state.md R20,
70_reset_and_hazards.md R412); that the model holds them in State is its choice (parameters: log 2 and log 5; IN: log 3),
and so are what it says of the port (log 13; kept by RESET: log 20) and of the platform's answers (log 4). -/
def Obligations.HostSideIsNeverWritten : Prop :=
  ∀ (i : Instr) (s t : State), exec i s = .next t →
    t.inMem = s.inMem ∧ t.logCap = s.logCap ∧ t.inSize = s.inSize ∧ t.huffTable = s.huffTable ∧ t.port = s.port
    ∧ ∃ k, t.outErr = s.outErr.drop k

/-- A register or memory changes only by the instructions that 10_state.md R21 to R36, R40 to R47 list as its writers,
and by RESET: the real sink, the log, configuration, CRCs, the CRC slot and the seal, the buffer, the results of the
stages, PHASE and STAGE, the flags and CAUSE. The stream fields are the model's instructions (log 9); that a writer leaves
the rest of a memory as it was is said by its own statement. -/
def Obligations.RegistersChangeByTheirWritersOnly : Prop :=
  ∀ (i : Instr) (s t : State), exec i s = .next t → i ≠ .reset →
    (t.rsCnt ≠ s.rsCnt ∨ t.rsPend ≠ s.rsPend ∨ t.out ≠ s.out →
        (∃ w v, i = .wbitsR w v) ∨ (∃ b, i = .wboolR b) ∨ (∃ n, i = .wunaryR n) ∨ (∃ v, i = .wu32R v) ∨ i = .flushR
        ∨ i = .replay
        ∨ (∃ level, i = .fHeader level) ∨ i = .fEndMarker ∨ (∃ crc, i = .fStreamCrc crc) ∨ i = .fPadding
        ∨ (∃ w v, i = .fLogRecord w v)
        ∨ (s.sinkSel = false ∧ (i = .stEmit ∨ ∃ ops, blockFieldOps i = some ops)))
    ∧ (t.dsLog ≠ s.dsLog →
        (∃ w v, i = .wbitsD w v) ∨ (∃ b, i = .wboolD b) ∨ (∃ n, i = .wunaryD n) ∨ (∃ v, i = .wu32D v)
        ∨ (s.sinkSel = true ∧ (i = .stEmit ∨ ∃ ops, blockFieldOps i = some ops)))
    ∧ (t.dsLogLen ≠ s.dsLogLen →
        (∃ w v, i = .wbitsD w v) ∨ (∃ b, i = .wboolD b) ∨ (∃ n, i = .wunaryD n) ∨ (∃ v, i = .wu32D v)
        ∨ i = .logclr ∨ (∃ a, i = .blkopen a)
        ∨ (s.sinkSel = true ∧ (i = .stEmit ∨ ∃ ops, blockFieldOps i = some ops)))
    ∧ (t.fatal ≠ s.fatal → t.fatal = true)
    ∧ (t.cause ≠ s.cause → s.fatal = false ∧ t.fatal = true)
    ∧ (t.phase ≠ s.phase ∨ t.stage ≠ s.stage →
        (∃ a, i = .blkopen a) ∨ i = .bclose ∨ (∃ st, encode i = .stage st) ∨ (s.phase = .closing ∧ t.fatal = true))
    ∧ (t.full ≠ s.full → (∃ a, i = .blkopen a) ∨ ∃ off len, i = .bwrite off len)
    ∧ (t.level ≠ s.level ∨ t.iter ≠ s.iter → s.phase = .idle ∧ ∃ a b, i = .csrw a b)
    ∧ (t.streamCrc ≠ s.streamCrc → (∃ x, i = .crcfold x) ∨ ∃ a b, i = .csrw a b)
    ∧ (t.sinkSel ≠ s.sinkSel → ∃ a, i = .blkopen a)
    ∧ (t.crcAcc ≠ s.crcAcc →
        i = .crcrst ∨ (∃ x, i = .crcupd x) ∨ (∃ a, i = .blkopen a) ∨ ∃ off len, i = .bwrite off len)
    ∧ (t.blockCrc ≠ s.blockCrc → (∃ a, i = .blkopen a) ∨ i = .stCrcfin)
    ∧ (t.dsCrc ≠ s.dsCrc ∨ t.dsSealed ≠ s.dsSealed →
        (∃ v, i = .setcrc v) ∨ i = .logclr ∨ (∃ a, i = .blkopen a) ∨ i = .stEmit)
    ∧ (t.regN ≠ s.regN ∨ t.u ≠ s.u ∨ t.rlLast ≠ s.rlLast ∨ t.rlRun ≠ s.rlRun →
        (∃ a, i = .blkopen a) ∨ (∃ off len, i = .bwrite off len) ∨ i = .stRleflush)
    ∧ (t.rawCnt ≠ s.rawCnt → (∃ a, i = .blkopen a) ∨ ∃ off len, i = .bwrite off len)
    ∧ (t.p ≠ s.p ∨ t.lcol ≠ s.lcol → i = .stBwt)
    ∧ (t.origPtr ≠ s.origPtr → (∃ a, i = .blkopen a) ∨ i = .stBwt)
    ∧ (t.inUse ≠ s.inUse → i = .stSymmap)
    ∧ (t.regK ≠ s.regK → (∃ a, i = .blkopen a) ∨ i = .stSymmap)
    ∧ (t.mtfList ≠ s.mtfList ∨ t.sym ≠ s.sym → i = .stMtf)
    ∧ (t.regS ≠ s.regS ∨ t.zRun ≠ s.zRun → (∃ a, i = .blkopen a) ∨ i = .stMtf)
    ∧ (t.sel ≠ s.sel ∨ t.freq ≠ s.freq ∨ t.len ≠ s.len ∨ t.cost ≠ s.cost → i = .stHsel)
    ∧ (t.regT ≠ s.regT ∨ t.regG ≠ s.regG → (∃ a, i = .blkopen a) ∨ i = .stHsel)
    ∧ (t.code ≠ s.code → i = .stCanon)
    ∧ (t.emitted ≠ s.emitted →
        (∃ a, i = .blkopen a) ∨ i = .stRleflush ∨ i = .stEmit ∨ s.phase = .closing)

/-- What a memory held before a stage wrote it does not matter: two states that differ only there, in U beyond N, and in
DS.LOG beyond DS.LOGLEN, close to the same output, log, registers and response
(70_reset_and_hazards.md R412; the model's reset content of the memories is log 1, what later lies beyond N and
DS.LOGLEN log 25). -/
def Obligations.OldMemoryContentDoesNotMatter : Prop :=
  ∀ (s s' : State), s.inv → s'.inv → s.phase = .closing → s.stage = 1#4 → s.port = [] →
    s' = { s with
      u := s'.u, p := s'.p, lcol := s'.lcol, inUse := s'.inUse, mtfList := s'.mtfList, sym := s'.sym
      sel := s'.sel, freq := s'.freq, len := s'.len, code := s'.code, cost := s'.cost, dsLog := s'.dsLog } →
    s'.uList = s.uList → s'.logList = s.logList →
    ∃ t t' : State, core.run 8 s = .next t ∧ core.run 8 s' = .next t'
      ∧ t' = { t with
          u := t'.u, p := t'.p, lcol := t'.lcol, inUse := t'.inUse, mtfList := t'.mtfList, sym := t'.sym
          sel := t'.sel, freq := t'.freq, len := t'.len, code := t'.code, cost := t'.cost, dsLog := t'.dsLog }
      ∧ t'.uList = t.uList ∧ t'.logList = t.logList
end

