-- ==== Sys2Proof/Laws/Bits.lean ====
section
/-! SUPPORT. Bits in wire order (20_memory.md R73, R75). -/

namespace Sys2Proof.Machine

@[simp] theorem length_wireBits (w v : Nat) : (wireBits w v).length = w := by simp [wireBits]

@[simp] theorem wireBits_zero (v : Nat) : wireBits 0 v = [] := rfl

theorem getElem_wireBits (w v j : Nat) (h : j < (wireBits w v).length) :
    (wireBits w v)[j] = v.testBit (w - 1 - j) := by simp [wireBits]

/-- A value is written as its upper part, then its lower part (20_memory.md R75). -/
theorem wireBits_add (a b v : Nat) : wireBits (a + b) v = wireBits a (v / 2 ^ b) ++ wireBits b v := by
  simp only [wireBits, List.range_add, List.map_append, List.map_map]
  congr 1
  · refine List.map_congr_left fun j hj => ?_
    rw [List.mem_range] at hj
    rw [Nat.testBit_div_two_pow]
    congr 1
    omega
  · refine List.map_congr_left fun j hj => ?_
    show v.testBit (a + b - 1 - (a + j)) = v.testBit (b - 1 - j)
    congr 1
    omega

/-- Only the `w` low bits are written. -/
theorem wireBits_mod (w v : Nat) : wireBits w (v % 2 ^ w) = wireBits w v := by
  refine List.map_congr_left fun j hj => ?_
  rw [List.mem_range] at hj
  rw [Nat.testBit_mod_two_pow]
  simp only [Bool.and_eq_right_iff_imp, decide_eq_true_eq]
  omega

theorem wireBits_append (a b x y : Nat) (hy : y < 2 ^ b) :
    wireBits a x ++ wireBits b y = wireBits (a + b) (x * 2 ^ b + y) := by
  rw [wireBits_add]
  congr 1
  · rw [Nat.mul_comm, Nat.mul_add_div (by positivity), Nat.div_eq_of_lt hy, Nat.add_zero]
  · rw [← wireBits_mod b (x * 2 ^ b + y), Nat.mul_comm, Nat.mul_add_mod, Nat.mod_eq_of_lt hy]

/-- All ones. -/
theorem wireBits_ones (w : Nat) : wireBits w (2 ^ w - 1) = List.replicate w true := by
  refine List.ext_getElem (by simp) fun j h1 h2 => ?_
  simp only [length_wireBits] at h1
  rw [getElem_wireBits, List.getElem_replicate, Nat.testBit_two_pow_sub_one]
  simp only [decide_eq_true_eq]
  omega

theorem wireBits_one_zero : wireBits 1 0 = [false] := rfl

theorem wireBits_one_one : wireBits 1 1 = [true] := rfl

/-- Two values of the same width with the same bits are equal. -/
theorem wireBits_inj {w x y : Nat} (hx : x < 2 ^ w) (hy : y < 2 ^ w) (h : wireBits w x = wireBits w y) : x = y := by
  refine Nat.eq_of_testBit_eq fun i => ?_
  by_cases hi : i < w
  · have := congrArg (fun l => l[w - 1 - i]?) h
    simp only [wireBits, List.getElem?_map] at this
    rw [List.getElem?_range (by omega)] at this
    simp only [Option.map_some, Option.some.injEq] at this
    rwa [show w - 1 - (w - 1 - i) = i by omega] at this
  · rw [Nat.testBit_lt_two_pow (lt_of_lt_of_le hx (Nat.pow_le_pow_right (by norm_num) (by omega))),
      Nat.testBit_lt_two_pow (lt_of_lt_of_le hy (Nat.pow_le_pow_right (by norm_num) (by omega)))]

/-- A number of `8q + r` bits is its `q` leading bytes, then its `r` last bits. -/
theorem wireBits_bytes (q r v : Nat) :
    wireBits (8 * q + r) v =
      ((List.range q).flatMap fun j => wireBits 8 (v / 2 ^ (8 * q + r - 8 * (j + 1)))) ++ wireBits r v := by
  induction q with
  | zero => simp
  | succ q ih =>
    rw [show 8 * (q + 1) + r = 8 + (8 * q + r) by omega, wireBits_add, ih, List.range_succ_eq_map,
      List.flatMap_cons, List.flatMap_map, List.append_assoc]
    congr 1
    · congr 3
      omega
    · congr 1
      refine List.flatMap_congr fun j hj => ?_
      rw [List.mem_range] at hj
      congr 3
      omega

end Sys2Proof.Machine
end

