-- ==== Sys2Proof/Laws/Memory.lean ====
section
/-! SUPPORT. Memories: what a read gives after a write, and that every memory operation keeps the canonical form
(log 1). -/

namespace Sys2Proof.Machine

variable {w : Nat}

/-! ## Reading after writing -/

theorem Memory.get_set_of_ne (m : Memory w) {i j : Nat} (v : BitVec w) (h : j ≠ i) :
    Memory.get (Memory.set m i v) j = Memory.get m j := by
  induction m with
  | nil => simp only [Memory.set]; split <;> simp [Memory.get, h.symm]
  | cons ax m ih =>
    obtain ⟨a, x⟩ := ax
    simp only [Memory.set]
    split_ifs with h1 h2 h3 h4
    · rfl
    · simp only [Memory.get, if_neg (Ne.symm h)]
    · simp only [Memory.get, if_neg (show ¬a = j from fun e => h (e ▸ h3.symm))]
    · simp only [Memory.get, if_neg (Ne.symm h), if_neg (show ¬a = j from fun e => h (e ▸ h3.symm))]
    · simp only [Memory.get, ih]

/-- A canonical memory lists no index below its first one. -/
theorem Memory.get_of_lt_head {m : Memory w} {a : Nat} {x : BitVec w} (h : Memory.wf ((a, x) :: m) = true)
    {i : Nat} (hi : i ≤ a) : Memory.get m i = 0#w := by
  induction m generalizing a x with
  | nil => rfl
  | cons by_ m ih =>
    obtain ⟨b, y⟩ := by_
    simp only [Memory.wf, Bool.and_eq_true, decide_eq_true_eq] at h
    simp only [Memory.get]
    rw [if_neg (by omega)]
    exact ih h.2.2 (by omega)

theorem Memory.wf_tail {m : Memory w} {ax : Nat × BitVec w} (h : Memory.wf (ax :: m) = true) :
    Memory.wf m = true := by
  obtain ⟨a, x⟩ := ax
  cases m with
  | nil => rfl
  | cons by_ m =>
    simp only [Memory.wf, Bool.and_eq_true] at h
    exact h.2.2

theorem Memory.get_set_self {m : Memory w} (h : Memory.wf m = true) (i : Nat) (v : BitVec w) :
    Memory.get (Memory.set m i v) i = v := by
  induction m with
  | nil => simp only [Memory.set]; split <;> simp_all [Memory.get]
  | cons ax m ih =>
    obtain ⟨a, x⟩ := ax
    simp only [Memory.set]
    split_ifs with h1 h2 h3 h4
    · subst h2
      simp only [Memory.get, if_neg (show ¬a = i by omega)]
      exact Memory.get_of_lt_head h (by omega)
    · simp [Memory.get]
    · subst h4; exact Memory.get_of_lt_head h (by omega)
    · simp [Memory.get]
    · simp only [Memory.get, if_neg (show ¬a = i by omega)]
      exact ih (Memory.wf_tail h)

/-- A non-zero element is read back whatever the memory looks like. -/
theorem Memory.get_set_of_ne_zero (m : Memory w) (i : Nat) {v : BitVec w} (hv : v ≠ 0#w) :
    Memory.get (Memory.set m i v) i = v := by
  induction m with
  | nil => simp [Memory.set, Memory.get, hv]
  | cons ax m ih =>
    obtain ⟨a, x⟩ := ax
    simp only [Memory.set, if_neg hv]
    split_ifs with h1 h2
    · simp [Memory.get]
    · simp [Memory.get]
    · simp only [Memory.get, if_neg (show ¬a = i by omega)]
      exact ih

/-! ## The canonical form is kept -/

/-- The canonical form of a list with one more element in front. -/
theorem Memory.wf_cons {m : Memory w} {a : Nat} {x : BitVec w} :
    Memory.wf ((a, x) :: m) = true ↔ x ≠ 0#w ∧ Memory.wf m = true ∧ ∀ by_ ∈ m, a < by_.1 := by
  induction m generalizing a x with
  | nil => simp [Memory.wf]
  | cons by_ m ih =>
    obtain ⟨b, y⟩ := by_
    simp only [Memory.wf, Bool.and_eq_true, decide_eq_true_eq]
    constructor
    · rintro ⟨hx, hab, h⟩
      refine ⟨hx, h, ?_⟩
      intro p hp
      rcases List.mem_cons.mp hp with rfl | hp
      · exact hab
      · exact lt_trans hab ((ih.mp h).2.2 p hp)
    · rintro ⟨hx, h, hall⟩
      exact ⟨hx, hall (b, y) List.mem_cons_self, h⟩

theorem Memory.mem_set {m : Memory w} {i : Nat} {v : BitVec w} {p : Nat × BitVec w}
    (h : p ∈ Memory.set m i v) : p ∈ m ∨ p = (i, v) := by
  induction m with
  | nil =>
    simp only [Memory.set] at h
    split at h <;> simp_all
  | cons ax m ih =>
    obtain ⟨a, x⟩ := ax
    simp only [Memory.set] at h
    split_ifs at h <;> simp only [List.mem_cons] at h ⊢ <;> tauto

theorem Memory.set_wf {m : Memory w} (h : Memory.wf m = true) (i : Nat) (v : BitVec w) :
    Memory.wf (Memory.set m i v) = true := by
  induction m with
  | nil => simp only [Memory.set]; split <;> simp_all [Memory.wf]
  | cons ax m ih =>
    obtain ⟨a, x⟩ := ax
    have hc := Memory.wf_cons.mp h
    simp only [Memory.set]
    split_ifs with h1 h2 h3 h4
    · exact h
    · refine Memory.wf_cons.mpr ⟨h2, h, ?_⟩
      intro p hp
      rcases List.mem_cons.mp hp with rfl | hp
      · exact h1
      · exact lt_trans h1 (hc.2.2 p hp)
    · exact hc.2.1
    · subst h3
      exact Memory.wf_cons.mpr ⟨h4, hc.2.1, hc.2.2⟩
    · refine Memory.wf_cons.mpr ⟨hc.1, ih hc.2.1, ?_⟩
      intro p hp
      rcases Memory.mem_set hp with hp | rfl
      · exact hc.2.2 p hp
      · show a < i
        omega

theorem Memory.writeList_wf {m : Memory w} (h : Memory.wf m = true) (i : Nat) (vs : List (BitVec w)) :
    Memory.wf (Memory.writeList m i vs) = true := by
  induction vs generalizing m i with
  | nil => exact h
  | cons v vs ih => exact ih (Memory.set_wf h i v) (i + 1)

/-! ## Writing and reading several elements -/

theorem Memory.get_writeList_of_outside (m : Memory w) (i : Nat) (vs : List (BitVec w)) {j : Nat}
    (h : j < i ∨ i + vs.length ≤ j) : Memory.get (Memory.writeList m i vs) j = Memory.get m j := by
  induction vs generalizing m i with
  | nil => rfl
  | cons v vs ih =>
    simp only [List.length_cons] at h
    simp only [Memory.writeList]
    rw [ih (Memory.set m i v) (i + 1) (by omega), Memory.get_set_of_ne m v (by omega)]

theorem Memory.get_writeList_of_inside {m : Memory w} (h : Memory.wf m = true) (i : Nat) (vs : List (BitVec w))
    {j : Nat} (hj : j < vs.length) : Memory.get (Memory.writeList m i vs) (i + j) = vs[j] := by
  induction vs generalizing m i j with
  | nil => simp at hj
  | cons v vs ih =>
    simp only [Memory.writeList]
    cases j with
    | zero =>
      rw [Nat.add_zero, Memory.get_writeList_of_outside _ _ _ (by omega)]
      exact Memory.get_set_self h i v
    | succ j =>
      simp only [List.length_cons] at hj
      have := ih (Memory.set_wf h i v) (i + 1) (j := j) (by omega)
      rw [show i + (j + 1) = i + 1 + j by omega, this]
      rfl

@[simp] theorem Memory.length_slice (m : Memory w) (i n : Nat) : (Memory.slice m i n).length = n := by
  simp [Memory.slice]

theorem Memory.getElem_slice (m : Memory w) (i n j : Nat) (h : j < (Memory.slice m i n).length) :
    (Memory.slice m i n)[j] = Memory.get m (i + j) := by
  simp [Memory.slice]

/-- A slice is settled by the elements in it. -/
theorem Memory.slice_congr {m m' : Memory w} {i n : Nat}
    (h : ∀ j, j < n → Memory.get m (i + j) = Memory.get m' (i + j)) :
    Memory.slice m i n = Memory.slice m' i n := by
  apply List.map_congr_left
  intro j hj
  exact h j (List.mem_range.mp hj)

/-- What was written is what a slice of the same place reads. -/
theorem Memory.slice_writeList {m : Memory w} (h : Memory.wf m = true) (i : Nat) (vs : List (BitVec w)) :
    Memory.slice (Memory.writeList m i vs) i vs.length = vs := by
  apply List.ext_getElem (by simp)
  intro j h1 h2
  rw [Memory.getElem_slice, Memory.get_writeList_of_inside h i vs h2]

/-- A slice is the first elements, then the others. -/
theorem Memory.slice_add (m : Memory w) (i n k : Nat) :
    Memory.slice m i (n + k) = Memory.slice m i n ++ Memory.slice m (i + n) k := by
  simp [Memory.slice, List.range_add, Nat.add_assoc]

/-- Writing just after a slice extends it. -/
theorem Memory.slice_append {m : Memory w} (h : Memory.wf m = true) (i n : Nat) (vs : List (BitVec w)) :
    Memory.slice (Memory.writeList m (i + n) vs) i (n + vs.length) = Memory.slice m i n ++ vs := by
  rw [Memory.slice_add, Memory.slice_writeList h]
  congr 1
  exact Memory.slice_congr fun j hj => Memory.get_writeList_of_outside _ _ _ (by omega)

end Sys2Proof.Machine
end

