-- ==== Sys2Proof/Laws/State.lean ====
section
/-! SUPPORT. One lemma for each field of State and each update that many meanings share: what the field is after
the update. They save every later proof from unfolding a record update. -/

namespace Sys2Proof.Machine

/-! ## The response (30_encoding.md R101). -/

@[simp] theorem State.respond_rsCnt (s : State) (v : U32) : (s.respond v).rsCnt = s.rsCnt := rfl
@[simp] theorem State.respond_rsPend (s : State) (v : U32) : (s.respond v).rsPend = s.rsPend := rfl
@[simp] theorem State.respond_out (s : State) (v : U32) : (s.respond v).out = s.out := rfl
@[simp] theorem State.respond_dsLog (s : State) (v : U32) : (s.respond v).dsLog = s.dsLog := rfl
@[simp] theorem State.respond_dsLogLen (s : State) (v : U32) : (s.respond v).dsLogLen = s.dsLogLen := rfl
@[simp] theorem State.respond_dsCrc (s : State) (v : U32) : (s.respond v).dsCrc = s.dsCrc := rfl
@[simp] theorem State.respond_dsSealed (s : State) (v : U32) : (s.respond v).dsSealed = s.dsSealed := rfl
@[simp] theorem State.respond_crcAcc (s : State) (v : U32) : (s.respond v).crcAcc = s.crcAcc := rfl
@[simp] theorem State.respond_streamCrc (s : State) (v : U32) : (s.respond v).streamCrc = s.streamCrc := rfl
@[simp] theorem State.respond_blockCrc (s : State) (v : U32) : (s.respond v).blockCrc = s.blockCrc := rfl
@[simp] theorem State.respond_rlLast (s : State) (v : U32) : (s.respond v).rlLast = s.rlLast := rfl
@[simp] theorem State.respond_rlRun (s : State) (v : U32) : (s.respond v).rlRun = s.rlRun := rfl
@[simp] theorem State.respond_regN (s : State) (v : U32) : (s.respond v).regN = s.regN := rfl
@[simp] theorem State.respond_rawCnt (s : State) (v : U32) : (s.respond v).rawCnt = s.rawCnt := rfl
@[simp] theorem State.respond_u (s : State) (v : U32) : (s.respond v).u = s.u := rfl
@[simp] theorem State.respond_p (s : State) (v : U32) : (s.respond v).p = s.p := rfl
@[simp] theorem State.respond_lcol (s : State) (v : U32) : (s.respond v).lcol = s.lcol := rfl
@[simp] theorem State.respond_origPtr (s : State) (v : U32) : (s.respond v).origPtr = s.origPtr := rfl
@[simp] theorem State.respond_inUse (s : State) (v : U32) : (s.respond v).inUse = s.inUse := rfl
@[simp] theorem State.respond_regK (s : State) (v : U32) : (s.respond v).regK = s.regK := rfl
@[simp] theorem State.respond_mtfList (s : State) (v : U32) : (s.respond v).mtfList = s.mtfList := rfl
@[simp] theorem State.respond_sym (s : State) (v : U32) : (s.respond v).sym = s.sym := rfl
@[simp] theorem State.respond_regS (s : State) (v : U32) : (s.respond v).regS = s.regS := rfl
@[simp] theorem State.respond_zRun (s : State) (v : U32) : (s.respond v).zRun = s.zRun := rfl
@[simp] theorem State.respond_regT (s : State) (v : U32) : (s.respond v).regT = s.regT := rfl
@[simp] theorem State.respond_regG (s : State) (v : U32) : (s.respond v).regG = s.regG := rfl
@[simp] theorem State.respond_sel (s : State) (v : U32) : (s.respond v).sel = s.sel := rfl
@[simp] theorem State.respond_freq (s : State) (v : U32) : (s.respond v).freq = s.freq := rfl
@[simp] theorem State.respond_len (s : State) (v : U32) : (s.respond v).len = s.len := rfl
@[simp] theorem State.respond_code (s : State) (v : U32) : (s.respond v).code = s.code := rfl
@[simp] theorem State.respond_cost (s : State) (v : U32) : (s.respond v).cost = s.cost := rfl
@[simp] theorem State.respond_sinkSel (s : State) (v : U32) : (s.respond v).sinkSel = s.sinkSel := rfl
@[simp] theorem State.respond_level (s : State) (v : U32) : (s.respond v).level = s.level := rfl
@[simp] theorem State.respond_iter (s : State) (v : U32) : (s.respond v).iter = s.iter := rfl
@[simp] theorem State.respond_phase (s : State) (v : U32) : (s.respond v).phase = s.phase := rfl
@[simp] theorem State.respond_stage (s : State) (v : U32) : (s.respond v).stage = s.stage := rfl
@[simp] theorem State.respond_fatal (s : State) (v : U32) : (s.respond v).fatal = s.fatal := rfl
@[simp] theorem State.respond_full (s : State) (v : U32) : (s.respond v).full = s.full := rfl
@[simp] theorem State.respond_emitted (s : State) (v : U32) : (s.respond v).emitted = s.emitted := rfl
@[simp] theorem State.respond_cause (s : State) (v : U32) : (s.respond v).cause = s.cause := rfl
@[simp] theorem State.respond_logCap (s : State) (v : U32) : (s.respond v).logCap = s.logCap := rfl
@[simp] theorem State.respond_inSize (s : State) (v : U32) : (s.respond v).inSize = s.inSize := rfl
@[simp] theorem State.respond_huffTable (s : State) (v : U32) : (s.respond v).huffTable = s.huffTable := rfl
@[simp] theorem State.respond_inMem (s : State) (v : U32) : (s.respond v).inMem = s.inMem := rfl
@[simp] theorem State.respond_outErr (s : State) (v : U32) : (s.respond v).outErr = s.outErr := rfl
@[simp] theorem State.respond_port (s : State) (v : U32) : (s.respond v).port = s.port := rfl
@[simp] theorem State.respond_resp (s : State) (v : U32) : (s.respond v).resp = some ⟨0#8, v⟩ := rfl

/-! ## A rejection (60_exceptions.md R370). -/

@[simp] theorem State.reject_rsCnt (s : State) (c : RejectCode) : (s.reject c).rsCnt = s.rsCnt := rfl
@[simp] theorem State.reject_rsPend (s : State) (c : RejectCode) : (s.reject c).rsPend = s.rsPend := rfl
@[simp] theorem State.reject_out (s : State) (c : RejectCode) : (s.reject c).out = s.out := rfl
@[simp] theorem State.reject_dsLog (s : State) (c : RejectCode) : (s.reject c).dsLog = s.dsLog := rfl
@[simp] theorem State.reject_dsLogLen (s : State) (c : RejectCode) : (s.reject c).dsLogLen = s.dsLogLen := rfl
@[simp] theorem State.reject_dsCrc (s : State) (c : RejectCode) : (s.reject c).dsCrc = s.dsCrc := rfl
@[simp] theorem State.reject_dsSealed (s : State) (c : RejectCode) : (s.reject c).dsSealed = s.dsSealed := rfl
@[simp] theorem State.reject_crcAcc (s : State) (c : RejectCode) : (s.reject c).crcAcc = s.crcAcc := rfl
@[simp] theorem State.reject_streamCrc (s : State) (c : RejectCode) : (s.reject c).streamCrc = s.streamCrc := rfl
@[simp] theorem State.reject_blockCrc (s : State) (c : RejectCode) : (s.reject c).blockCrc = s.blockCrc := rfl
@[simp] theorem State.reject_rlLast (s : State) (c : RejectCode) : (s.reject c).rlLast = s.rlLast := rfl
@[simp] theorem State.reject_rlRun (s : State) (c : RejectCode) : (s.reject c).rlRun = s.rlRun := rfl
@[simp] theorem State.reject_regN (s : State) (c : RejectCode) : (s.reject c).regN = s.regN := rfl
@[simp] theorem State.reject_rawCnt (s : State) (c : RejectCode) : (s.reject c).rawCnt = s.rawCnt := rfl
@[simp] theorem State.reject_u (s : State) (c : RejectCode) : (s.reject c).u = s.u := rfl
@[simp] theorem State.reject_p (s : State) (c : RejectCode) : (s.reject c).p = s.p := rfl
@[simp] theorem State.reject_lcol (s : State) (c : RejectCode) : (s.reject c).lcol = s.lcol := rfl
@[simp] theorem State.reject_origPtr (s : State) (c : RejectCode) : (s.reject c).origPtr = s.origPtr := rfl
@[simp] theorem State.reject_inUse (s : State) (c : RejectCode) : (s.reject c).inUse = s.inUse := rfl
@[simp] theorem State.reject_regK (s : State) (c : RejectCode) : (s.reject c).regK = s.regK := rfl
@[simp] theorem State.reject_mtfList (s : State) (c : RejectCode) : (s.reject c).mtfList = s.mtfList := rfl
@[simp] theorem State.reject_sym (s : State) (c : RejectCode) : (s.reject c).sym = s.sym := rfl
@[simp] theorem State.reject_regS (s : State) (c : RejectCode) : (s.reject c).regS = s.regS := rfl
@[simp] theorem State.reject_zRun (s : State) (c : RejectCode) : (s.reject c).zRun = s.zRun := rfl
@[simp] theorem State.reject_regT (s : State) (c : RejectCode) : (s.reject c).regT = s.regT := rfl
@[simp] theorem State.reject_regG (s : State) (c : RejectCode) : (s.reject c).regG = s.regG := rfl
@[simp] theorem State.reject_sel (s : State) (c : RejectCode) : (s.reject c).sel = s.sel := rfl
@[simp] theorem State.reject_freq (s : State) (c : RejectCode) : (s.reject c).freq = s.freq := rfl
@[simp] theorem State.reject_len (s : State) (c : RejectCode) : (s.reject c).len = s.len := rfl
@[simp] theorem State.reject_code (s : State) (c : RejectCode) : (s.reject c).code = s.code := rfl
@[simp] theorem State.reject_cost (s : State) (c : RejectCode) : (s.reject c).cost = s.cost := rfl
@[simp] theorem State.reject_sinkSel (s : State) (c : RejectCode) : (s.reject c).sinkSel = s.sinkSel := rfl
@[simp] theorem State.reject_level (s : State) (c : RejectCode) : (s.reject c).level = s.level := rfl
@[simp] theorem State.reject_iter (s : State) (c : RejectCode) : (s.reject c).iter = s.iter := rfl
@[simp] theorem State.reject_phase (s : State) (c : RejectCode) : (s.reject c).phase = s.phase := rfl
@[simp] theorem State.reject_stage (s : State) (c : RejectCode) : (s.reject c).stage = s.stage := rfl
@[simp] theorem State.reject_fatal (s : State) (c : RejectCode) : (s.reject c).fatal = s.fatal := rfl
@[simp] theorem State.reject_full (s : State) (c : RejectCode) : (s.reject c).full = s.full := rfl
@[simp] theorem State.reject_emitted (s : State) (c : RejectCode) : (s.reject c).emitted = s.emitted := rfl
@[simp] theorem State.reject_cause (s : State) (c : RejectCode) : (s.reject c).cause = s.cause := rfl
@[simp] theorem State.reject_logCap (s : State) (c : RejectCode) : (s.reject c).logCap = s.logCap := rfl
@[simp] theorem State.reject_inSize (s : State) (c : RejectCode) : (s.reject c).inSize = s.inSize := rfl
@[simp] theorem State.reject_huffTable (s : State) (c : RejectCode) : (s.reject c).huffTable = s.huffTable := rfl
@[simp] theorem State.reject_inMem (s : State) (c : RejectCode) : (s.reject c).inMem = s.inMem := rfl
@[simp] theorem State.reject_outErr (s : State) (c : RejectCode) : (s.reject c).outErr = s.outErr := rfl
@[simp] theorem State.reject_port (s : State) (c : RejectCode) : (s.reject c).port = s.port := rfl
@[simp] theorem State.reject_resp (s : State) (c : RejectCode) : (s.reject c).resp = some ⟨RejectCode.status c, 0⟩ := rfl

/-! ## Fatal entry (60_exceptions.md R380). -/

@[simp] theorem State.takeFatal_rsCnt (s : State) (c : FatalCode) : (s.takeFatal c).rsCnt = s.rsCnt := rfl
@[simp] theorem State.takeFatal_rsPend (s : State) (c : FatalCode) : (s.takeFatal c).rsPend = s.rsPend := rfl
@[simp] theorem State.takeFatal_out (s : State) (c : FatalCode) : (s.takeFatal c).out = s.out := rfl
@[simp] theorem State.takeFatal_dsLog (s : State) (c : FatalCode) : (s.takeFatal c).dsLog = s.dsLog := rfl
@[simp] theorem State.takeFatal_dsLogLen (s : State) (c : FatalCode) : (s.takeFatal c).dsLogLen = s.dsLogLen := rfl
@[simp] theorem State.takeFatal_dsCrc (s : State) (c : FatalCode) : (s.takeFatal c).dsCrc = s.dsCrc := rfl
@[simp] theorem State.takeFatal_dsSealed (s : State) (c : FatalCode) : (s.takeFatal c).dsSealed = s.dsSealed := rfl
@[simp] theorem State.takeFatal_crcAcc (s : State) (c : FatalCode) : (s.takeFatal c).crcAcc = s.crcAcc := rfl
@[simp] theorem State.takeFatal_streamCrc (s : State) (c : FatalCode) : (s.takeFatal c).streamCrc = s.streamCrc := rfl
@[simp] theorem State.takeFatal_blockCrc (s : State) (c : FatalCode) : (s.takeFatal c).blockCrc = s.blockCrc := rfl
@[simp] theorem State.takeFatal_rlLast (s : State) (c : FatalCode) : (s.takeFatal c).rlLast = s.rlLast := rfl
@[simp] theorem State.takeFatal_rlRun (s : State) (c : FatalCode) : (s.takeFatal c).rlRun = s.rlRun := rfl
@[simp] theorem State.takeFatal_regN (s : State) (c : FatalCode) : (s.takeFatal c).regN = s.regN := rfl
@[simp] theorem State.takeFatal_rawCnt (s : State) (c : FatalCode) : (s.takeFatal c).rawCnt = s.rawCnt := rfl
@[simp] theorem State.takeFatal_u (s : State) (c : FatalCode) : (s.takeFatal c).u = s.u := rfl
@[simp] theorem State.takeFatal_p (s : State) (c : FatalCode) : (s.takeFatal c).p = s.p := rfl
@[simp] theorem State.takeFatal_lcol (s : State) (c : FatalCode) : (s.takeFatal c).lcol = s.lcol := rfl
@[simp] theorem State.takeFatal_origPtr (s : State) (c : FatalCode) : (s.takeFatal c).origPtr = s.origPtr := rfl
@[simp] theorem State.takeFatal_inUse (s : State) (c : FatalCode) : (s.takeFatal c).inUse = s.inUse := rfl
@[simp] theorem State.takeFatal_regK (s : State) (c : FatalCode) : (s.takeFatal c).regK = s.regK := rfl
@[simp] theorem State.takeFatal_mtfList (s : State) (c : FatalCode) : (s.takeFatal c).mtfList = s.mtfList := rfl
@[simp] theorem State.takeFatal_sym (s : State) (c : FatalCode) : (s.takeFatal c).sym = s.sym := rfl
@[simp] theorem State.takeFatal_regS (s : State) (c : FatalCode) : (s.takeFatal c).regS = s.regS := rfl
@[simp] theorem State.takeFatal_zRun (s : State) (c : FatalCode) : (s.takeFatal c).zRun = s.zRun := rfl
@[simp] theorem State.takeFatal_regT (s : State) (c : FatalCode) : (s.takeFatal c).regT = s.regT := rfl
@[simp] theorem State.takeFatal_regG (s : State) (c : FatalCode) : (s.takeFatal c).regG = s.regG := rfl
@[simp] theorem State.takeFatal_sel (s : State) (c : FatalCode) : (s.takeFatal c).sel = s.sel := rfl
@[simp] theorem State.takeFatal_freq (s : State) (c : FatalCode) : (s.takeFatal c).freq = s.freq := rfl
@[simp] theorem State.takeFatal_len (s : State) (c : FatalCode) : (s.takeFatal c).len = s.len := rfl
@[simp] theorem State.takeFatal_code (s : State) (c : FatalCode) : (s.takeFatal c).code = s.code := rfl
@[simp] theorem State.takeFatal_cost (s : State) (c : FatalCode) : (s.takeFatal c).cost = s.cost := rfl
@[simp] theorem State.takeFatal_sinkSel (s : State) (c : FatalCode) : (s.takeFatal c).sinkSel = s.sinkSel := rfl
@[simp] theorem State.takeFatal_level (s : State) (c : FatalCode) : (s.takeFatal c).level = s.level := rfl
@[simp] theorem State.takeFatal_iter (s : State) (c : FatalCode) : (s.takeFatal c).iter = s.iter := rfl
@[simp] theorem State.takeFatal_phase (s : State) (c : FatalCode) : (s.takeFatal c).phase = if s.phase = .closing then .idle else s.phase := rfl
@[simp] theorem State.takeFatal_stage (s : State) (c : FatalCode) : (s.takeFatal c).stage = if s.phase = .closing then 0 else s.stage := rfl
@[simp] theorem State.takeFatal_fatal (s : State) (c : FatalCode) : (s.takeFatal c).fatal = true := rfl
@[simp] theorem State.takeFatal_full (s : State) (c : FatalCode) : (s.takeFatal c).full = s.full := rfl
@[simp] theorem State.takeFatal_emitted (s : State) (c : FatalCode) : (s.takeFatal c).emitted = if s.phase = .closing then false else s.emitted := rfl
@[simp] theorem State.takeFatal_cause (s : State) (c : FatalCode) : (s.takeFatal c).cause = if s.fatal then s.cause else FatalCode.cause c := rfl
@[simp] theorem State.takeFatal_logCap (s : State) (c : FatalCode) : (s.takeFatal c).logCap = s.logCap := rfl
@[simp] theorem State.takeFatal_inSize (s : State) (c : FatalCode) : (s.takeFatal c).inSize = s.inSize := rfl
@[simp] theorem State.takeFatal_huffTable (s : State) (c : FatalCode) : (s.takeFatal c).huffTable = s.huffTable := rfl
@[simp] theorem State.takeFatal_inMem (s : State) (c : FatalCode) : (s.takeFatal c).inMem = s.inMem := rfl
@[simp] theorem State.takeFatal_outErr (s : State) (c : FatalCode) : (s.takeFatal c).outErr = s.outErr := rfl
@[simp] theorem State.takeFatal_port (s : State) (c : FatalCode) : (s.takeFatal c).port = s.port := rfl
@[simp] theorem State.takeFatal_resp (s : State) (c : FatalCode) : (s.takeFatal c).resp = some ⟨0x80#8 + FatalCode.cause c, 0⟩ := rfl

/-! ## An item leaves the port. -/

@[simp] theorem State.taken_rsCnt (s : State) (rest : List Slot) : (s.taken rest).rsCnt = s.rsCnt := rfl
@[simp] theorem State.taken_rsPend (s : State) (rest : List Slot) : (s.taken rest).rsPend = s.rsPend := rfl
@[simp] theorem State.taken_out (s : State) (rest : List Slot) : (s.taken rest).out = s.out := rfl
@[simp] theorem State.taken_dsLog (s : State) (rest : List Slot) : (s.taken rest).dsLog = s.dsLog := rfl
@[simp] theorem State.taken_dsLogLen (s : State) (rest : List Slot) : (s.taken rest).dsLogLen = s.dsLogLen := rfl
@[simp] theorem State.taken_dsCrc (s : State) (rest : List Slot) : (s.taken rest).dsCrc = s.dsCrc := rfl
@[simp] theorem State.taken_dsSealed (s : State) (rest : List Slot) : (s.taken rest).dsSealed = s.dsSealed := rfl
@[simp] theorem State.taken_crcAcc (s : State) (rest : List Slot) : (s.taken rest).crcAcc = s.crcAcc := rfl
@[simp] theorem State.taken_streamCrc (s : State) (rest : List Slot) : (s.taken rest).streamCrc = s.streamCrc := rfl
@[simp] theorem State.taken_blockCrc (s : State) (rest : List Slot) : (s.taken rest).blockCrc = s.blockCrc := rfl
@[simp] theorem State.taken_rlLast (s : State) (rest : List Slot) : (s.taken rest).rlLast = s.rlLast := rfl
@[simp] theorem State.taken_rlRun (s : State) (rest : List Slot) : (s.taken rest).rlRun = s.rlRun := rfl
@[simp] theorem State.taken_regN (s : State) (rest : List Slot) : (s.taken rest).regN = s.regN := rfl
@[simp] theorem State.taken_rawCnt (s : State) (rest : List Slot) : (s.taken rest).rawCnt = s.rawCnt := rfl
@[simp] theorem State.taken_u (s : State) (rest : List Slot) : (s.taken rest).u = s.u := rfl
@[simp] theorem State.taken_p (s : State) (rest : List Slot) : (s.taken rest).p = s.p := rfl
@[simp] theorem State.taken_lcol (s : State) (rest : List Slot) : (s.taken rest).lcol = s.lcol := rfl
@[simp] theorem State.taken_origPtr (s : State) (rest : List Slot) : (s.taken rest).origPtr = s.origPtr := rfl
@[simp] theorem State.taken_inUse (s : State) (rest : List Slot) : (s.taken rest).inUse = s.inUse := rfl
@[simp] theorem State.taken_regK (s : State) (rest : List Slot) : (s.taken rest).regK = s.regK := rfl
@[simp] theorem State.taken_mtfList (s : State) (rest : List Slot) : (s.taken rest).mtfList = s.mtfList := rfl
@[simp] theorem State.taken_sym (s : State) (rest : List Slot) : (s.taken rest).sym = s.sym := rfl
@[simp] theorem State.taken_regS (s : State) (rest : List Slot) : (s.taken rest).regS = s.regS := rfl
@[simp] theorem State.taken_zRun (s : State) (rest : List Slot) : (s.taken rest).zRun = s.zRun := rfl
@[simp] theorem State.taken_regT (s : State) (rest : List Slot) : (s.taken rest).regT = s.regT := rfl
@[simp] theorem State.taken_regG (s : State) (rest : List Slot) : (s.taken rest).regG = s.regG := rfl
@[simp] theorem State.taken_sel (s : State) (rest : List Slot) : (s.taken rest).sel = s.sel := rfl
@[simp] theorem State.taken_freq (s : State) (rest : List Slot) : (s.taken rest).freq = s.freq := rfl
@[simp] theorem State.taken_len (s : State) (rest : List Slot) : (s.taken rest).len = s.len := rfl
@[simp] theorem State.taken_code (s : State) (rest : List Slot) : (s.taken rest).code = s.code := rfl
@[simp] theorem State.taken_cost (s : State) (rest : List Slot) : (s.taken rest).cost = s.cost := rfl
@[simp] theorem State.taken_sinkSel (s : State) (rest : List Slot) : (s.taken rest).sinkSel = s.sinkSel := rfl
@[simp] theorem State.taken_level (s : State) (rest : List Slot) : (s.taken rest).level = s.level := rfl
@[simp] theorem State.taken_iter (s : State) (rest : List Slot) : (s.taken rest).iter = s.iter := rfl
@[simp] theorem State.taken_phase (s : State) (rest : List Slot) : (s.taken rest).phase = s.phase := rfl
@[simp] theorem State.taken_stage (s : State) (rest : List Slot) : (s.taken rest).stage = s.stage := rfl
@[simp] theorem State.taken_fatal (s : State) (rest : List Slot) : (s.taken rest).fatal = s.fatal := rfl
@[simp] theorem State.taken_full (s : State) (rest : List Slot) : (s.taken rest).full = s.full := rfl
@[simp] theorem State.taken_emitted (s : State) (rest : List Slot) : (s.taken rest).emitted = s.emitted := rfl
@[simp] theorem State.taken_cause (s : State) (rest : List Slot) : (s.taken rest).cause = s.cause := rfl
@[simp] theorem State.taken_logCap (s : State) (rest : List Slot) : (s.taken rest).logCap = s.logCap := rfl
@[simp] theorem State.taken_inSize (s : State) (rest : List Slot) : (s.taken rest).inSize = s.inSize := rfl
@[simp] theorem State.taken_huffTable (s : State) (rest : List Slot) : (s.taken rest).huffTable = s.huffTable := rfl
@[simp] theorem State.taken_inMem (s : State) (rest : List Slot) : (s.taken rest).inMem = s.inMem := rfl
@[simp] theorem State.taken_outErr (s : State) (rest : List Slot) : (s.taken rest).outErr = s.outErr := rfl
@[simp] theorem State.taken_port (s : State) (rest : List Slot) : (s.taken rest).port = rest := rfl
@[simp] theorem State.taken_resp (s : State) (rest : List Slot) : (s.taken rest).resp = none := rfl

/-! ## A fresh log (40_bitsink.md R156). -/

@[simp] theorem clearLog_rsCnt (s : State) : (clearLog s).rsCnt = s.rsCnt := rfl
@[simp] theorem clearLog_rsPend (s : State) : (clearLog s).rsPend = s.rsPend := rfl
@[simp] theorem clearLog_out (s : State) : (clearLog s).out = s.out := rfl
@[simp] theorem clearLog_dsLog (s : State) : (clearLog s).dsLog = s.dsLog := rfl
@[simp] theorem clearLog_dsLogLen (s : State) : (clearLog s).dsLogLen = 0 := rfl
@[simp] theorem clearLog_dsCrc (s : State) : (clearLog s).dsCrc = 0 := rfl
@[simp] theorem clearLog_dsSealed (s : State) : (clearLog s).dsSealed = false := rfl
@[simp] theorem clearLog_crcAcc (s : State) : (clearLog s).crcAcc = s.crcAcc := rfl
@[simp] theorem clearLog_streamCrc (s : State) : (clearLog s).streamCrc = s.streamCrc := rfl
@[simp] theorem clearLog_blockCrc (s : State) : (clearLog s).blockCrc = s.blockCrc := rfl
@[simp] theorem clearLog_rlLast (s : State) : (clearLog s).rlLast = s.rlLast := rfl
@[simp] theorem clearLog_rlRun (s : State) : (clearLog s).rlRun = s.rlRun := rfl
@[simp] theorem clearLog_regN (s : State) : (clearLog s).regN = s.regN := rfl
@[simp] theorem clearLog_rawCnt (s : State) : (clearLog s).rawCnt = s.rawCnt := rfl
@[simp] theorem clearLog_u (s : State) : (clearLog s).u = s.u := rfl
@[simp] theorem clearLog_p (s : State) : (clearLog s).p = s.p := rfl
@[simp] theorem clearLog_lcol (s : State) : (clearLog s).lcol = s.lcol := rfl
@[simp] theorem clearLog_origPtr (s : State) : (clearLog s).origPtr = s.origPtr := rfl
@[simp] theorem clearLog_inUse (s : State) : (clearLog s).inUse = s.inUse := rfl
@[simp] theorem clearLog_regK (s : State) : (clearLog s).regK = s.regK := rfl
@[simp] theorem clearLog_mtfList (s : State) : (clearLog s).mtfList = s.mtfList := rfl
@[simp] theorem clearLog_sym (s : State) : (clearLog s).sym = s.sym := rfl
@[simp] theorem clearLog_regS (s : State) : (clearLog s).regS = s.regS := rfl
@[simp] theorem clearLog_zRun (s : State) : (clearLog s).zRun = s.zRun := rfl
@[simp] theorem clearLog_regT (s : State) : (clearLog s).regT = s.regT := rfl
@[simp] theorem clearLog_regG (s : State) : (clearLog s).regG = s.regG := rfl
@[simp] theorem clearLog_sel (s : State) : (clearLog s).sel = s.sel := rfl
@[simp] theorem clearLog_freq (s : State) : (clearLog s).freq = s.freq := rfl
@[simp] theorem clearLog_len (s : State) : (clearLog s).len = s.len := rfl
@[simp] theorem clearLog_code (s : State) : (clearLog s).code = s.code := rfl
@[simp] theorem clearLog_cost (s : State) : (clearLog s).cost = s.cost := rfl
@[simp] theorem clearLog_sinkSel (s : State) : (clearLog s).sinkSel = s.sinkSel := rfl
@[simp] theorem clearLog_level (s : State) : (clearLog s).level = s.level := rfl
@[simp] theorem clearLog_iter (s : State) : (clearLog s).iter = s.iter := rfl
@[simp] theorem clearLog_phase (s : State) : (clearLog s).phase = s.phase := rfl
@[simp] theorem clearLog_stage (s : State) : (clearLog s).stage = s.stage := rfl
@[simp] theorem clearLog_fatal (s : State) : (clearLog s).fatal = s.fatal := rfl
@[simp] theorem clearLog_full (s : State) : (clearLog s).full = s.full := rfl
@[simp] theorem clearLog_emitted (s : State) : (clearLog s).emitted = s.emitted := rfl
@[simp] theorem clearLog_cause (s : State) : (clearLog s).cause = s.cause := rfl
@[simp] theorem clearLog_logCap (s : State) : (clearLog s).logCap = s.logCap := rfl
@[simp] theorem clearLog_inSize (s : State) : (clearLog s).inSize = s.inSize := rfl
@[simp] theorem clearLog_huffTable (s : State) : (clearLog s).huffTable = s.huffTable := rfl
@[simp] theorem clearLog_inMem (s : State) : (clearLog s).inMem = s.inMem := rfl
@[simp] theorem clearLog_outErr (s : State) : (clearLog s).outErr = s.outErr := rfl
@[simp] theorem clearLog_port (s : State) : (clearLog s).port = s.port := rfl
@[simp] theorem clearLog_resp (s : State) : (clearLog s).resp = s.resp := rfl

/-! ## A run written to U (42_rle1.md R204). -/

@[simp] theorem emitRun_rsCnt (s : State) (x : Byte) (r : Nat) : (emitRun x r s).rsCnt = s.rsCnt := rfl
@[simp] theorem emitRun_rsPend (s : State) (x : Byte) (r : Nat) : (emitRun x r s).rsPend = s.rsPend := rfl
@[simp] theorem emitRun_out (s : State) (x : Byte) (r : Nat) : (emitRun x r s).out = s.out := rfl
@[simp] theorem emitRun_dsLog (s : State) (x : Byte) (r : Nat) : (emitRun x r s).dsLog = s.dsLog := rfl
@[simp] theorem emitRun_dsLogLen (s : State) (x : Byte) (r : Nat) : (emitRun x r s).dsLogLen = s.dsLogLen := rfl
@[simp] theorem emitRun_dsCrc (s : State) (x : Byte) (r : Nat) : (emitRun x r s).dsCrc = s.dsCrc := rfl
@[simp] theorem emitRun_dsSealed (s : State) (x : Byte) (r : Nat) : (emitRun x r s).dsSealed = s.dsSealed := rfl
@[simp] theorem emitRun_crcAcc (s : State) (x : Byte) (r : Nat) : (emitRun x r s).crcAcc = s.crcAcc := rfl
@[simp] theorem emitRun_streamCrc (s : State) (x : Byte) (r : Nat) : (emitRun x r s).streamCrc = s.streamCrc := rfl
@[simp] theorem emitRun_blockCrc (s : State) (x : Byte) (r : Nat) : (emitRun x r s).blockCrc = s.blockCrc := rfl
@[simp] theorem emitRun_rlLast (s : State) (x : Byte) (r : Nat) : (emitRun x r s).rlLast = s.rlLast := rfl
@[simp] theorem emitRun_rlRun (s : State) (x : Byte) (r : Nat) : (emitRun x r s).rlRun = s.rlRun := rfl
@[simp] theorem emitRun_regN (s : State) (x : Byte) (r : Nat) : (emitRun x r s).regN = s.regN + BitVec.ofNat 20 (pendingCost r) := rfl
@[simp] theorem emitRun_rawCnt (s : State) (x : Byte) (r : Nat) : (emitRun x r s).rawCnt = s.rawCnt := rfl
@[simp] theorem emitRun_u (s : State) (x : Byte) (r : Nat) : (emitRun x r s).u = Memory.writeList s.u s.regN.toNat (runSymbols x r) := rfl
@[simp] theorem emitRun_p (s : State) (x : Byte) (r : Nat) : (emitRun x r s).p = s.p := rfl
@[simp] theorem emitRun_lcol (s : State) (x : Byte) (r : Nat) : (emitRun x r s).lcol = s.lcol := rfl
@[simp] theorem emitRun_origPtr (s : State) (x : Byte) (r : Nat) : (emitRun x r s).origPtr = s.origPtr := rfl
@[simp] theorem emitRun_inUse (s : State) (x : Byte) (r : Nat) : (emitRun x r s).inUse = s.inUse := rfl
@[simp] theorem emitRun_regK (s : State) (x : Byte) (r : Nat) : (emitRun x r s).regK = s.regK := rfl
@[simp] theorem emitRun_mtfList (s : State) (x : Byte) (r : Nat) : (emitRun x r s).mtfList = s.mtfList := rfl
@[simp] theorem emitRun_sym (s : State) (x : Byte) (r : Nat) : (emitRun x r s).sym = s.sym := rfl
@[simp] theorem emitRun_regS (s : State) (x : Byte) (r : Nat) : (emitRun x r s).regS = s.regS := rfl
@[simp] theorem emitRun_zRun (s : State) (x : Byte) (r : Nat) : (emitRun x r s).zRun = s.zRun := rfl
@[simp] theorem emitRun_regT (s : State) (x : Byte) (r : Nat) : (emitRun x r s).regT = s.regT := rfl
@[simp] theorem emitRun_regG (s : State) (x : Byte) (r : Nat) : (emitRun x r s).regG = s.regG := rfl
@[simp] theorem emitRun_sel (s : State) (x : Byte) (r : Nat) : (emitRun x r s).sel = s.sel := rfl
@[simp] theorem emitRun_freq (s : State) (x : Byte) (r : Nat) : (emitRun x r s).freq = s.freq := rfl
@[simp] theorem emitRun_len (s : State) (x : Byte) (r : Nat) : (emitRun x r s).len = s.len := rfl
@[simp] theorem emitRun_code (s : State) (x : Byte) (r : Nat) : (emitRun x r s).code = s.code := rfl
@[simp] theorem emitRun_cost (s : State) (x : Byte) (r : Nat) : (emitRun x r s).cost = s.cost := rfl
@[simp] theorem emitRun_sinkSel (s : State) (x : Byte) (r : Nat) : (emitRun x r s).sinkSel = s.sinkSel := rfl
@[simp] theorem emitRun_level (s : State) (x : Byte) (r : Nat) : (emitRun x r s).level = s.level := rfl
@[simp] theorem emitRun_iter (s : State) (x : Byte) (r : Nat) : (emitRun x r s).iter = s.iter := rfl
@[simp] theorem emitRun_phase (s : State) (x : Byte) (r : Nat) : (emitRun x r s).phase = s.phase := rfl
@[simp] theorem emitRun_stage (s : State) (x : Byte) (r : Nat) : (emitRun x r s).stage = s.stage := rfl
@[simp] theorem emitRun_fatal (s : State) (x : Byte) (r : Nat) : (emitRun x r s).fatal = s.fatal := rfl
@[simp] theorem emitRun_full (s : State) (x : Byte) (r : Nat) : (emitRun x r s).full = s.full := rfl
@[simp] theorem emitRun_emitted (s : State) (x : Byte) (r : Nat) : (emitRun x r s).emitted = s.emitted := rfl
@[simp] theorem emitRun_cause (s : State) (x : Byte) (r : Nat) : (emitRun x r s).cause = s.cause := rfl
@[simp] theorem emitRun_logCap (s : State) (x : Byte) (r : Nat) : (emitRun x r s).logCap = s.logCap := rfl
@[simp] theorem emitRun_inSize (s : State) (x : Byte) (r : Nat) : (emitRun x r s).inSize = s.inSize := rfl
@[simp] theorem emitRun_huffTable (s : State) (x : Byte) (r : Nat) : (emitRun x r s).huffTable = s.huffTable := rfl
@[simp] theorem emitRun_inMem (s : State) (x : Byte) (r : Nat) : (emitRun x r s).inMem = s.inMem := rfl
@[simp] theorem emitRun_outErr (s : State) (x : Byte) (r : Nat) : (emitRun x r s).outErr = s.outErr := rfl
@[simp] theorem emitRun_port (s : State) (x : Byte) (r : Nat) : (emitRun x r s).port = s.port := rfl
@[simp] theorem emitRun_resp (s : State) (x : Byte) (r : Nat) : (emitRun x r s).resp = s.resp := rfl

/-! ## The end of a closing (46_closeblock_emit.md R352, R353). -/

@[simp] theorem endClose_rsCnt (s : State) : (endClose s).rsCnt = s.rsCnt := rfl
@[simp] theorem endClose_rsPend (s : State) : (endClose s).rsPend = s.rsPend := rfl
@[simp] theorem endClose_out (s : State) : (endClose s).out = s.out := rfl
@[simp] theorem endClose_dsLog (s : State) : (endClose s).dsLog = s.dsLog := rfl
@[simp] theorem endClose_dsLogLen (s : State) : (endClose s).dsLogLen = s.dsLogLen := rfl
@[simp] theorem endClose_dsCrc (s : State) : (endClose s).dsCrc = if s.sinkSel then s.blockCrc else s.dsCrc := rfl
@[simp] theorem endClose_dsSealed (s : State) : (endClose s).dsSealed = (s.sinkSel || s.dsSealed) := rfl
@[simp] theorem endClose_crcAcc (s : State) : (endClose s).crcAcc = s.crcAcc := rfl
@[simp] theorem endClose_streamCrc (s : State) : (endClose s).streamCrc = s.streamCrc := rfl
@[simp] theorem endClose_blockCrc (s : State) : (endClose s).blockCrc = s.blockCrc := rfl
@[simp] theorem endClose_rlLast (s : State) : (endClose s).rlLast = s.rlLast := rfl
@[simp] theorem endClose_rlRun (s : State) : (endClose s).rlRun = s.rlRun := rfl
@[simp] theorem endClose_regN (s : State) : (endClose s).regN = s.regN := rfl
@[simp] theorem endClose_rawCnt (s : State) : (endClose s).rawCnt = s.rawCnt := rfl
@[simp] theorem endClose_u (s : State) : (endClose s).u = s.u := rfl
@[simp] theorem endClose_p (s : State) : (endClose s).p = s.p := rfl
@[simp] theorem endClose_lcol (s : State) : (endClose s).lcol = s.lcol := rfl
@[simp] theorem endClose_origPtr (s : State) : (endClose s).origPtr = s.origPtr := rfl
@[simp] theorem endClose_inUse (s : State) : (endClose s).inUse = s.inUse := rfl
@[simp] theorem endClose_regK (s : State) : (endClose s).regK = s.regK := rfl
@[simp] theorem endClose_mtfList (s : State) : (endClose s).mtfList = s.mtfList := rfl
@[simp] theorem endClose_sym (s : State) : (endClose s).sym = s.sym := rfl
@[simp] theorem endClose_regS (s : State) : (endClose s).regS = s.regS := rfl
@[simp] theorem endClose_zRun (s : State) : (endClose s).zRun = s.zRun := rfl
@[simp] theorem endClose_regT (s : State) : (endClose s).regT = s.regT := rfl
@[simp] theorem endClose_regG (s : State) : (endClose s).regG = s.regG := rfl
@[simp] theorem endClose_sel (s : State) : (endClose s).sel = s.sel := rfl
@[simp] theorem endClose_freq (s : State) : (endClose s).freq = s.freq := rfl
@[simp] theorem endClose_len (s : State) : (endClose s).len = s.len := rfl
@[simp] theorem endClose_code (s : State) : (endClose s).code = s.code := rfl
@[simp] theorem endClose_cost (s : State) : (endClose s).cost = s.cost := rfl
@[simp] theorem endClose_sinkSel (s : State) : (endClose s).sinkSel = s.sinkSel := rfl
@[simp] theorem endClose_level (s : State) : (endClose s).level = s.level := rfl
@[simp] theorem endClose_iter (s : State) : (endClose s).iter = s.iter := rfl
@[simp] theorem endClose_phase (s : State) : (endClose s).phase = .idle := rfl
@[simp] theorem endClose_stage (s : State) : (endClose s).stage = 0 := rfl
@[simp] theorem endClose_fatal (s : State) : (endClose s).fatal = s.fatal := rfl
@[simp] theorem endClose_full (s : State) : (endClose s).full = s.full := rfl
@[simp] theorem endClose_emitted (s : State) : (endClose s).emitted = true := rfl
@[simp] theorem endClose_cause (s : State) : (endClose s).cause = s.cause := rfl
@[simp] theorem endClose_logCap (s : State) : (endClose s).logCap = s.logCap := rfl
@[simp] theorem endClose_inSize (s : State) : (endClose s).inSize = s.inSize := rfl
@[simp] theorem endClose_huffTable (s : State) : (endClose s).huffTable = s.huffTable := rfl
@[simp] theorem endClose_inMem (s : State) : (endClose s).inMem = s.inMem := rfl
@[simp] theorem endClose_outErr (s : State) : (endClose s).outErr = s.outErr := rfl
@[simp] theorem endClose_port (s : State) : (endClose s).port = s.port := rfl
@[simp] theorem endClose_resp (s : State) : (endClose s).resp = s.resp := rfl

/-! ## The host's bytes for IN (70_reset_and_hazards.md R430; log 3). -/

@[simp] theorem State.supply_rsCnt (s : State) (off : Nat) (bytes : List Byte) :
    (s.supply off bytes).rsCnt = s.rsCnt := rfl
@[simp] theorem State.supply_rsPend (s : State) (off : Nat) (bytes : List Byte) :
    (s.supply off bytes).rsPend = s.rsPend := rfl
@[simp] theorem State.supply_out (s : State) (off : Nat) (bytes : List Byte) :
    (s.supply off bytes).out = s.out := rfl
@[simp] theorem State.supply_dsLog (s : State) (off : Nat) (bytes : List Byte) :
    (s.supply off bytes).dsLog = s.dsLog := rfl
@[simp] theorem State.supply_dsLogLen (s : State) (off : Nat) (bytes : List Byte) :
    (s.supply off bytes).dsLogLen = s.dsLogLen := rfl
@[simp] theorem State.supply_dsCrc (s : State) (off : Nat) (bytes : List Byte) :
    (s.supply off bytes).dsCrc = s.dsCrc := rfl
@[simp] theorem State.supply_dsSealed (s : State) (off : Nat) (bytes : List Byte) :
    (s.supply off bytes).dsSealed = s.dsSealed := rfl
@[simp] theorem State.supply_crcAcc (s : State) (off : Nat) (bytes : List Byte) :
    (s.supply off bytes).crcAcc = s.crcAcc := rfl
@[simp] theorem State.supply_streamCrc (s : State) (off : Nat) (bytes : List Byte) :
    (s.supply off bytes).streamCrc = s.streamCrc := rfl
@[simp] theorem State.supply_blockCrc (s : State) (off : Nat) (bytes : List Byte) :
    (s.supply off bytes).blockCrc = s.blockCrc := rfl
@[simp] theorem State.supply_rlLast (s : State) (off : Nat) (bytes : List Byte) :
    (s.supply off bytes).rlLast = s.rlLast := rfl
@[simp] theorem State.supply_rlRun (s : State) (off : Nat) (bytes : List Byte) :
    (s.supply off bytes).rlRun = s.rlRun := rfl
@[simp] theorem State.supply_regN (s : State) (off : Nat) (bytes : List Byte) :
    (s.supply off bytes).regN = s.regN := rfl
@[simp] theorem State.supply_rawCnt (s : State) (off : Nat) (bytes : List Byte) :
    (s.supply off bytes).rawCnt = s.rawCnt := rfl
@[simp] theorem State.supply_u (s : State) (off : Nat) (bytes : List Byte) :
    (s.supply off bytes).u = s.u := rfl
@[simp] theorem State.supply_p (s : State) (off : Nat) (bytes : List Byte) :
    (s.supply off bytes).p = s.p := rfl
@[simp] theorem State.supply_lcol (s : State) (off : Nat) (bytes : List Byte) :
    (s.supply off bytes).lcol = s.lcol := rfl
@[simp] theorem State.supply_origPtr (s : State) (off : Nat) (bytes : List Byte) :
    (s.supply off bytes).origPtr = s.origPtr := rfl
@[simp] theorem State.supply_inUse (s : State) (off : Nat) (bytes : List Byte) :
    (s.supply off bytes).inUse = s.inUse := rfl
@[simp] theorem State.supply_regK (s : State) (off : Nat) (bytes : List Byte) :
    (s.supply off bytes).regK = s.regK := rfl
@[simp] theorem State.supply_mtfList (s : State) (off : Nat) (bytes : List Byte) :
    (s.supply off bytes).mtfList = s.mtfList := rfl
@[simp] theorem State.supply_sym (s : State) (off : Nat) (bytes : List Byte) :
    (s.supply off bytes).sym = s.sym := rfl
@[simp] theorem State.supply_regS (s : State) (off : Nat) (bytes : List Byte) :
    (s.supply off bytes).regS = s.regS := rfl
@[simp] theorem State.supply_zRun (s : State) (off : Nat) (bytes : List Byte) :
    (s.supply off bytes).zRun = s.zRun := rfl
@[simp] theorem State.supply_regT (s : State) (off : Nat) (bytes : List Byte) :
    (s.supply off bytes).regT = s.regT := rfl
@[simp] theorem State.supply_regG (s : State) (off : Nat) (bytes : List Byte) :
    (s.supply off bytes).regG = s.regG := rfl
@[simp] theorem State.supply_sel (s : State) (off : Nat) (bytes : List Byte) :
    (s.supply off bytes).sel = s.sel := rfl
@[simp] theorem State.supply_freq (s : State) (off : Nat) (bytes : List Byte) :
    (s.supply off bytes).freq = s.freq := rfl
@[simp] theorem State.supply_len (s : State) (off : Nat) (bytes : List Byte) :
    (s.supply off bytes).len = s.len := rfl
@[simp] theorem State.supply_code (s : State) (off : Nat) (bytes : List Byte) :
    (s.supply off bytes).code = s.code := rfl
@[simp] theorem State.supply_cost (s : State) (off : Nat) (bytes : List Byte) :
    (s.supply off bytes).cost = s.cost := rfl
@[simp] theorem State.supply_sinkSel (s : State) (off : Nat) (bytes : List Byte) :
    (s.supply off bytes).sinkSel = s.sinkSel := rfl
@[simp] theorem State.supply_level (s : State) (off : Nat) (bytes : List Byte) :
    (s.supply off bytes).level = s.level := rfl
@[simp] theorem State.supply_iter (s : State) (off : Nat) (bytes : List Byte) :
    (s.supply off bytes).iter = s.iter := rfl
@[simp] theorem State.supply_phase (s : State) (off : Nat) (bytes : List Byte) :
    (s.supply off bytes).phase = s.phase := rfl
@[simp] theorem State.supply_stage (s : State) (off : Nat) (bytes : List Byte) :
    (s.supply off bytes).stage = s.stage := rfl
@[simp] theorem State.supply_fatal (s : State) (off : Nat) (bytes : List Byte) :
    (s.supply off bytes).fatal = s.fatal := rfl
@[simp] theorem State.supply_full (s : State) (off : Nat) (bytes : List Byte) :
    (s.supply off bytes).full = s.full := rfl
@[simp] theorem State.supply_emitted (s : State) (off : Nat) (bytes : List Byte) :
    (s.supply off bytes).emitted = s.emitted := rfl
@[simp] theorem State.supply_cause (s : State) (off : Nat) (bytes : List Byte) :
    (s.supply off bytes).cause = s.cause := rfl
@[simp] theorem State.supply_logCap (s : State) (off : Nat) (bytes : List Byte) :
    (s.supply off bytes).logCap = s.logCap := rfl
@[simp] theorem State.supply_inSize (s : State) (off : Nat) (bytes : List Byte) :
    (s.supply off bytes).inSize = s.inSize := rfl
@[simp] theorem State.supply_huffTable (s : State) (off : Nat) (bytes : List Byte) :
    (s.supply off bytes).huffTable = s.huffTable := rfl
@[simp] theorem State.supply_outErr (s : State) (off : Nat) (bytes : List Byte) :
    (s.supply off bytes).outErr = s.outErr := rfl
@[simp] theorem State.supply_port (s : State) (off : Nat) (bytes : List Byte) :
    (s.supply off bytes).port = s.port := rfl
@[simp] theorem State.supply_resp (s : State) (off : Nat) (bytes : List Byte) :
    (s.supply off bytes).resp = s.resp := rfl
@[simp] theorem State.supply_inMem (s : State) (off : Nat) (bytes : List Byte) :
    (s.supply off bytes).inMem = Memory.writeList s.inMem off (bytes.take (s.inSize - off)) := rfl

end Sys2Proof.Machine
end

