-- ==== Sys2Proof/Laws/Ops.lean ====
section
/-! SUPPORT. What each shared operation of the sinks can do, once: which part of the state it may change, whatever its
outcome, and exactly what it does when nothing fails. -/

namespace Sys2Proof.Machine

/-! ## Outcomes -/

/-- The state an outcome leaves. -/
def Io.state : Io → State
  | .done s => s
  | .failed _ s => s

@[simp] theorem Io.state_done (s : State) : (Io.done s).state = s := rfl
@[simp] theorem Io.state_failed (c : FatalCode) (s : State) : (Io.failed c s).state = s := rfl
@[simp] theorem Io.bind_done (s : State) (f : State → Io) : (Io.done s).bind f = f s := rfl
@[simp] theorem Io.bind_failed (c : FatalCode) (s : State) (f : State → Io) :
    (Io.failed c s).bind f = .failed c s := rfl
@[simp] theorem Io.finish_done (s : State) (v : U32) : (Io.done s).finish v = .next (s.respond v) := rfl
@[simp] theorem Io.finish_failed (c : FatalCode) (s : State) (v : U32) :
    (Io.failed c s).finish v = .next (s.takeFatal c) := rfl

theorem Io.bind_assoc (x : Io) (f g : State → Io) : (x.bind f).bind g = x.bind fun s => (f s).bind g := by
  cases x <;> rfl

/-- A command that writes a sink always goes on: with its response or with the fatal entry. -/
theorem Io.finish_next (x : Io) (v : U32) :
    (∃ s, x = .done s ∧ x.finish v = .next (s.respond v))
      ∨ (∃ c s, x = .failed c s ∧ x.finish v = .next (s.takeFatal c)) := by
  cases x with
  | done s => exact .inl ⟨s, rfl, rfl⟩
  | failed c s => exact .inr ⟨c, s, rfl, rfl⟩

/-- What holds of every single step and chains, holds of the state after both steps. -/
theorem Io.bind_rel {R : State → State → Prop} (trans : ∀ {a b c}, R a b → R b c → R a c) {s : State} {x : Io}
    {f : State → Io} (hx : R s x.state) (hf : ∀ s', R s' (f s').state) : R s (x.bind f).state := by
  cases x with
  | done s' => exact trans hx (hf s')
  | failed c s' => exact hx

/-! ## The real sink -/

/-- Only the real sink differs: bytes were appended, the platform's answers used up. -/
def RealOnly (s t : State) : Prop :=
  ∃ (bs : List Byte) (k : Nat) (pend : BitVec 7) (cnt : BitVec 3),
    t = { s with out := s.out ++ bs, outErr := s.outErr.drop k, rsPend := pend, rsCnt := cnt }

theorem RealOnly.refl (s : State) : RealOnly s s := ⟨[], 0, s.rsPend, s.rsCnt, by simp⟩

theorem RealOnly.pending (s : State) (p : BitVec 7) (c : BitVec 3) : RealOnly s { s with rsPend := p, rsCnt := c } :=
  ⟨[], 0, p, c, by simp⟩

theorem RealOnly.trans {a b c : State} (h1 : RealOnly a b) (h2 : RealOnly b c) : RealOnly a c := by
  obtain ⟨bs, k, p, n, rfl⟩ := h1
  obtain ⟨bs', k', p', n', rfl⟩ := h2
  exact ⟨bs ++ bs', k + k', p', n', by simp [List.drop_drop]⟩

theorem RealOnly.bind {s : State} {x : Io} {f : State → Io} (hx : RealOnly s x.state)
    (hf : ∀ s', RealOnly s' (f s').state) : RealOnly s (x.bind f).state :=
  Io.bind_rel (R := RealOnly) (fun h1 h2 => h1.trans h2) hx hf

theorem appendOut_realOnly (b : Byte) (s : State) : RealOnly s (appendOut b s).state := by
  unfold appendOut
  split
  · exact ⟨[b], 0, s.rsPend, s.rsCnt, by simp⟩
  · exact ⟨[b], 1, s.rsPend, s.rsCnt, by simp [*]⟩
  · exact ⟨[], 1, s.rsPend, s.rsCnt, by simp [*]⟩

theorem appendAll_realOnly (bs : List Byte) (s : State) : RealOnly s (appendAll bs s).state := by
  induction bs generalizing s with
  | nil => exact .refl s
  | cons b bs ih => exact RealOnly.bind (appendOut_realOnly b s) ih

/-- An append leaves the pending bits alone, also when it fails (40_bitsink.md R147). -/
theorem appendOut_pending (b : Byte) (s : State) :
    (appendOut b s).state.rsPend = s.rsPend ∧ (appendOut b s).state.rsCnt = s.rsCnt := by
  unfold appendOut
  split <;> exact ⟨rfl, rfl⟩

theorem appendAll_pending (bs : List Byte) (s : State) :
    (appendAll bs s).state.rsPend = s.rsPend ∧ (appendAll bs s).state.rsCnt = s.rsCnt := by
  induction bs generalizing s with
  | nil => exact ⟨rfl, rfl⟩
  | cons b bs ih =>
    have hb := appendOut_pending b s
    simp only [appendAll]
    cases hx : appendOut b s with
    | done s' => rw [hx] at hb; exact ⟨(ih s').1.trans hb.1, (ih s').2.trans hb.2⟩
    | failed c s' => rw [hx] at hb; exact hb

/-- The real sink fails with IO_ERROR only (60_exceptions.md R378). -/
theorem appendAll_failed {bs : List Byte} {s t : State} {c : FatalCode} (h : appendAll bs s = .failed c t) :
    c = .ioError := by
  induction bs generalizing s with
  | nil => cases h
  | cons b bs ih =>
    simp only [appendAll] at h
    cases hx : appendOut b s with
    | done s' => rw [hx] at h; exact ih h
    | failed c' s' =>
      rw [hx] at h
      cases h
      unfold appendOut at hx
      split at hx <;> cases hx
      rfl

theorem rsBits_realOnly (w v : Nat) (s : State) : RealOnly s (rsBits w v s).state :=
  RealOnly.bind (appendAll_realOnly _ s) fun s' => .pending s' _ _

theorem rsOnes_realOnly (n : Nat) (s : State) : RealOnly s (rsOnes n s).state := by
  induction n generalizing s with
  | zero => exact .refl s
  | succ n ih => exact RealOnly.bind (rsBits_realOnly 1 1 s) ih

theorem rsUnary_realOnly (n : Nat) (s : State) : RealOnly s (rsUnary n s).state :=
  RealOnly.bind (rsOnes_realOnly n s) (rsBits_realOnly 1 0)

theorem rsU32_realOnly (v : Nat) (s : State) : RealOnly s (rsU32 v s).state :=
  RealOnly.bind (rsBits_realOnly _ _ s) (rsBits_realOnly _ _)

theorem rsFlush_realOnly (s : State) : RealOnly s (rsFlush s).state := by
  unfold rsFlush
  split
  · exact .refl s
  · exact RealOnly.bind (appendOut_realOnly _ s) fun s' => .pending s' _ _

theorem SinkOp.real_realOnly (o : SinkOp) (s : State) : RealOnly s (o.real s).state := by
  cases o with
  | bits w v => exact rsBits_realOnly w v s
  | bool b => exact rsBits_realOnly 1 b s
  | unary n => exact rsUnary_realOnly n s
  | u32 v => exact rsU32_realOnly v s

theorem runReal_realOnly (os : List SinkOp) (s : State) : RealOnly s (runReal os s).state := by
  induction os generalizing s with
  | nil => exact .refl s
  | cons o os ih => exact RealOnly.bind (o.real_realOnly s) ih

theorem replayFrom_realOnly (i n : Nat) (s : State) : RealOnly s (replayFrom i n s).state := by
  induction n generalizing i s with
  | zero => exact .refl s
  | succ n ih => exact RealOnly.bind (rsBits_realOnly _ _ s) (ih (i + 1))

/-! ## The real sink when nothing fails -/

theorem appendOut_quiet (b : Byte) {s : State} (h : s.quiet) :
    appendOut b s = .done { s with out := s.out ++ [b], outErr := s.outErr.drop 1 } := by
  unfold appendOut
  split
  · simp [*]
  · simp [*]
  · rename_i rest hc
    exact absurd (h true (by simp [hc])) (by decide)

theorem appendAll_quiet (bs : List Byte) {s : State} (h : s.quiet) :
    appendAll bs s = .done { s with out := s.out ++ bs, outErr := s.outErr.drop bs.length } := by
  induction bs generalizing s with
  | nil => simp [appendAll]
  | cons b bs ih =>
    have h' : State.quiet { s with out := s.out ++ [b], outErr := s.outErr.drop 1 } :=
      fun x hx => h x (List.mem_of_mem_drop hx)
    simp only [appendAll, appendOut_quiet b h, Io.bind_done, ih h', List.drop_drop, List.append_assoc,
      List.singleton_append, List.length_cons, Nat.add_comm 1]

@[simp] theorem length_wholeBytes (t c : Nat) : (wholeBytes t c).length = c / 8 := by simp [wholeBytes]

/-- `rs_bits` when no append fails (40_bitsink.md R141). -/
theorem rsBits_quiet (w v : Nat) {s : State} (h : s.quiet) :
    rsBits w v s =
      .done { s with
        out := s.out ++ wholeBytes (s.rsPend.toNat * 2 ^ w + v) (s.rsCnt.toNat + w)
        outErr := s.outErr.drop ((s.rsCnt.toNat + w) / 8)
        rsPend := BitVec.ofNat 7 ((s.rsPend.toNat * 2 ^ w + v) % 2 ^ ((s.rsCnt.toNat + w) % 8))
        rsCnt := BitVec.ofNat 3 ((s.rsCnt.toNat + w) % 8) } := by
  simp [rsBits, appendAll_quiet _ h]

theorem rsPend_lt (t c : Nat) :
    (BitVec.ofNat 7 (t % 2 ^ (c % 8))).toNat < 2 ^ (BitVec.ofNat 3 (c % 8)).toNat := by
  have h8 : c % 8 < 8 := Nat.mod_lt _ (by norm_num)
  have h3 : (BitVec.ofNat 3 (c % 8)).toNat = c % 8 := by
    rw [BitVec.toNat_ofNat]; exact Nat.mod_eq_of_lt h8
  rw [h3, BitVec.toNat_ofNat]
  exact lt_of_le_of_lt (Nat.mod_le _ _) (Nat.mod_lt _ (by positivity))

/-- `RS.PEND < 2^RS.CNT` after every `rs_bits`, also one that failed (40_bitsink.md R146). -/
theorem rsBits_sinkOk (w v : Nat) {s : State} (h : s.sinkOk) : (rsBits w v s).state.sinkOk := by
  unfold rsBits
  cases hx : appendAll (wholeBytes (s.rsPend.toNat * 2 ^ w + v) (s.rsCnt.toNat + w)) s with
  | done s' => simpa [State.sinkOk, hx] using rsPend_lt _ _
  | failed c s' =>
    have hk := appendAll_pending (wholeBytes (s.rsPend.toNat * 2 ^ w + v) (s.rsCnt.toNat + w)) s
    rw [hx] at hk
    obtain ⟨h1, h2⟩ := hk
    simp only [Io.state_failed] at h1 h2
    simp only [State.sinkOk, hx, Io.bind_failed, Io.state_failed, h1, h2]
    exact h

theorem out_bits_wholeBytes (t c : Nat) :
    ((wholeBytes t c).flatMap fun b => wireBits 8 b.toNat) ++ wireBits (c % 8) (t % 2 ^ (c % 8)) = wireBits c t := by
  have hc : c = 8 * (c / 8) + c % 8 := by omega
  conv_rhs => rw [hc, wireBits_bytes]
  rw [wireBits_mod]
  congr 1
  simp only [wholeBytes, List.flatMap_map]
  refine List.flatMap_congr fun j hj => ?_
  rw [BitVec.toNat_ofNat, wireBits_mod]
  congr 3
  omega

/-- `rs_bits` appends exactly the `w` bits of `v` to the bit sequence and touches only the real sink
(40_bitsink.md R141, R146). -/
theorem rsBits_wire (w v : Nat) {s : State} (hv : v < 2 ^ w) (hs : s.sinkOk) (hq : s.quiet) :
    ∃ t, rsBits w v s = .done t ∧ t.bitSeq = s.bitSeq ++ wireBits w v ∧ t.sinkOk ∧ t.quiet ∧ s.onlyRealSink t := by
  refine ⟨_, rsBits_quiet w v hq, ?_, rsPend_lt _ _, fun b hb => hq b (List.mem_of_mem_drop hb), ?_⟩
  · have hp : s.rsPend.toNat < 2 ^ s.rsCnt.toNat := hs
    have h8 : (s.rsCnt.toNat + w) % 8 < 8 := Nat.mod_lt _ (by norm_num)
    have hlt : (s.rsPend.toNat * 2 ^ w + v) % 2 ^ ((s.rsCnt.toNat + w) % 8) < 2 ^ 7 :=
      lt_of_lt_of_le (Nat.mod_lt _ (by positivity)) (Nat.pow_le_pow_right (by norm_num) (by omega))
    simp only [State.bitSeq, List.flatMap_append, BitVec.toNat_ofNat, Nat.mod_eq_of_lt hlt,
      Nat.mod_eq_of_lt (show (s.rsCnt.toNat + w) % 8 < 2 ^ 3 from h8), List.append_assoc]
    rw [out_bits_wholeBytes, wireBits_append _ _ _ _ hv]
  · simp [State.onlyRealSink]

/-- Writes on the real sink chain. -/
theorem State.onlyRealSink.trans {a b c : State} (h1 : a.onlyRealSink b) (h2 : b.onlyRealSink c)
    (hab : a.out.length ≤ b.out.length) (hbc : b.out.length ≤ c.out.length) : a.onlyRealSink c := by
  unfold State.onlyRealSink at *
  rw [h2, h1]
  simp only [State.mk.injEq, true_and, and_true, List.drop_drop]
  congr 1
  have : b.out.length = ({ a with
    out := b.out, outErr := a.outErr.drop (b.out.length - a.out.length), rsPend := b.rsPend, rsCnt := b.rsCnt } : State).out.length := rfl
  omega

theorem RealOnly.length_le {s t : State} (h : RealOnly s t) : s.out.length ≤ t.out.length := by
  obtain ⟨bs, k, p, c, rfl⟩ := h
  simp

/-! ## The deferred sink -/

/-- Only the log differs, and the records it held stay. -/
def LogOnly (s t : State) : Prop :=
  ∃ (m : Memory 29) (n : Nat),
    t = { s with dsLog := m, dsLogLen := n } ∧ s.dsLogLen ≤ n
      ∧ ∀ j, j < s.dsLogLen → Memory.get m j = Memory.get s.dsLog j

theorem LogOnly.refl (s : State) : LogOnly s s := ⟨s.dsLog, s.dsLogLen, rfl, le_refl _, fun _ _ => rfl⟩

theorem LogOnly.trans {a b c : State} (h1 : LogOnly a b) (h2 : LogOnly b c) : LogOnly a c := by
  obtain ⟨m1, n1, rfl, l1, g1⟩ := h1
  obtain ⟨m2, n2, rfl, l2, g2⟩ := h2
  exact ⟨m2, n2, rfl, le_trans l1 l2, fun j hj => (g2 j (lt_of_lt_of_le hj l1)).trans (g1 j hj)⟩

theorem LogOnly.bind {s : State} {x : Io} {f : State → Io} (hx : LogOnly s x.state)
    (hf : ∀ s', LogOnly s' (f s').state) : LogOnly s (x.bind f).state :=
  Io.bind_rel (R := LogOnly) (fun h1 h2 => h1.trans h2) hx hf

theorem dsRec_logOnly (w v : Nat) (s : State) : LogOnly s (dsRec w v s).state := by
  unfold dsRec
  split
  · exact .refl s
  · exact ⟨_, _, rfl, by simp, fun j hj => Memory.get_set_of_ne _ _ (by omega)⟩

theorem dsOnes_logOnly (q : Nat) (s : State) : LogOnly s (dsOnes q s).state := by
  induction q generalizing s with
  | zero => exact .refl s
  | succ q ih => exact LogOnly.bind (dsRec_logOnly 8 0xFF s) ih

theorem dsRest_logOnly (r : Nat) (s : State) : LogOnly s (dsRest r s).state := by
  unfold dsRest
  split
  · exact .refl s
  · exact dsRec_logOnly _ _ s

theorem dsUnary_logOnly (n : Nat) (s : State) : LogOnly s (dsUnary n s).state :=
  LogOnly.bind (LogOnly.bind (dsOnes_logOnly _ s) (dsRest_logOnly _)) (dsRec_logOnly 1 0)

theorem dsU32_logOnly (v : Nat) (s : State) : LogOnly s (dsU32 v s).state :=
  LogOnly.bind (dsRec_logOnly _ _ s) (dsRec_logOnly _ _)

theorem SinkOp.deferred_logOnly (o : SinkOp) (s : State) : LogOnly s (o.deferred s).state := by
  cases o with
  | bits w v => exact dsRec_logOnly w v s
  | bool b => exact dsRec_logOnly 1 b s
  | unary n => exact dsUnary_logOnly n s
  | u32 v => exact dsU32_logOnly v s

theorem runDeferred_logOnly (os : List SinkOp) (s : State) : LogOnly s (runDeferred os s).state := by
  induction os generalizing s with
  | nil => exact .refl s
  | cons o os ih => exact LogOnly.bind (o.deferred_logOnly s) ih

theorem LogOnly.sinkSel {s t : State} (h : LogOnly s t) : t.sinkSel = s.sinkSel := by
  obtain ⟨m, n, rfl, -, -⟩ := h
  rfl

theorem RealOnly.sinkSel {s t : State} (h : RealOnly s t) : t.sinkSel = s.sinkSel := by
  obtain ⟨bs, k, p, c, rfl⟩ := h
  rfl

/-- The bound sink is the real one when SINKSEL = 0 (46_closeblock_emit.md R351). -/
theorem runBound_real (os : List SinkOp) {s : State} (h : s.sinkSel = false) : runBound os s = runReal os s := by
  induction os generalizing s with
  | nil => rfl
  | cons o os ih =>
    simp only [runBound, runReal, SinkOp.bound, h, Bool.false_eq_true, if_false]
    have hr := o.real_realOnly s
    cases hx : o.real s with
    | done s' =>
      rw [hx] at hr
      exact ih (by rw [← h]; exact hr.sinkSel)
    | failed c s' => rfl

/-- The bound sink is the deferred one when SINKSEL = 1 (46_closeblock_emit.md R351). -/
theorem runBound_deferred (os : List SinkOp) {s : State} (h : s.sinkSel = true) :
    runBound os s = runDeferred os s := by
  induction os generalizing s with
  | nil => rfl
  | cons o os ih =>
    simp only [runBound, runDeferred, SinkOp.bound, h, if_true]
    have hr := o.deferred_logOnly s
    cases hx : o.deferred s with
    | done s' =>
      rw [hx] at hr
      exact ih (by rw [← h]; exact hr.sinkSel)
    | failed c s' => rfl

/-- Writes to the bound sink touch one sink only. -/
theorem runBound_oneSink (os : List SinkOp) (s : State) :
    (s.sinkSel = false ∧ RealOnly s (runBound os s).state) ∨ (s.sinkSel = true ∧ LogOnly s (runBound os s).state) := by
  cases h : s.sinkSel with
  | false => exact .inl ⟨rfl, by rw [runBound_real os h]; exact runReal_realOnly os s⟩
  | true => exact .inr ⟨rfl, by rw [runBound_deferred os h]; exact runDeferred_logOnly os s⟩

/-! ## The deferred sink when the records fit -/

theorem packRecord_ne_zero {w v : Nat} (h1 : 1 ≤ w) (h2 : w < 32) : packRecord w v ≠ 0#29 := by
  intro h
  have := congrArg (fun r => (r.extractLsb' 24 5).toNat) h
  simp only [packRecord] at this
  rw [BitVec.extractLsb'_append_eq_left] at this
  simp [BitVec.toNat_ofNat, Nat.mod_eq_of_lt h2] at this
  omega

theorem recordWidth_packRecord {w : Nat} (v : Nat) (h : w < 32) : recordWidth (packRecord w v) = w := by
  simp only [recordWidth, packRecord]
  rw [BitVec.extractLsb'_append_eq_left]
  simp [Nat.mod_eq_of_lt h]

theorem recordValue_packRecord (w : Nat) {v : Nat} (h : v < 2 ^ 24) : recordValue (packRecord w v) = v := by
  simp only [recordValue, packRecord]
  rw [BitVec.extractLsb'_append_eq_right]
  simp only [BitVec.toNat_ofNat]
  exact Nat.mod_eq_of_lt h

/-- `ds_rec` when there is room appends one record and touches nothing else (40_bitsink.md R150). -/
theorem dsRec_room (w v : Nat) {s : State} (h1 : 1 ≤ w) (h2 : w < 32) (hr : s.dsLogLen ≠ s.logCap) :
    ∃ t, dsRec w v s = .done t ∧ s.loggedOnly t [packRecord w v]
      ∧ t = { s with dsLog := t.dsLog, dsLogLen := t.dsLogLen } := by
  refine ⟨_, by rw [dsRec, if_neg hr], ⟨?_, rfl, ?_⟩, rfl⟩
  · simp only [State.logList, Memory.slice, List.range_succ, List.map_append, List.map_cons, List.map_nil, Nat.zero_add]
    congr 1
    · refine List.map_congr_left fun j hj => ?_
      rw [List.mem_range] at hj
      exact Memory.get_set_of_ne _ _ (by omega)
    · rw [Memory.get_set_of_ne_zero _ _ (packRecord_ne_zero h1 h2)]
  · intro j hj
    exact Memory.get_set_of_ne _ _ (by simp only at hj; omega)

/-! ## Resetting and responding -/

/-- RESET keeps the host's side and nothing else (70_reset_and_hazards.md R410; log 20). -/
theorem State.restart_spec (s : State) :
    s.restart = { State.reset with
      logCap := s.logCap, inSize := s.inSize, huffTable := s.huffTable, inMem := s.inMem, outErr := s.outErr
      port := s.port, resp := s.resp } :=
  rfl

theorem done_eq (s : State) (v : U32) : done s v = .next { s with resp := some ⟨0#8, v⟩ } := rfl

theorem rejected_eq (s : State) (c : RejectCode) :
    rejected s c = .next { s with resp := some ⟨RejectCode.status c, 0#32⟩ } := rfl

end Sys2Proof.Machine
end

