-- ==== Sys2Proof/Laws/Exec.lean ====
section
/-! SUPPORT. What running an instruction can come to. Every meaning goes on (there is no stop in `exec`), and what a
step may change is said once for each kind of meaning; the invariants and frames are read off these lemmas. -/

namespace Sys2Proof.Machine

/-! ## Absorbing -/

/-- Only the block of data differs: U, N, the run tracker, the CRC, the count, FULL. -/
def BlockOnly (s t : State) : Prop :=
  ∃ (u : Memory 8) (n : BitVec 20) (last : Byte) (run : BitVec 8) (crc raw : U32) (full : Bool),
    t = { s with u := u, regN := n, rlLast := last, rlRun := run, crcAcc := crc, rawCnt := raw, full := full }

theorem BlockOnly.refl (s : State) : BlockOnly s s := ⟨_, _, _, _, _, _, _, rfl⟩

theorem BlockOnly.trans {a b c : State} (h1 : BlockOnly a b) (h2 : BlockOnly b c) : BlockOnly a c := by
  obtain ⟨u, n, l, r, c, w, f, rfl⟩ := h1
  obtain ⟨u', n', l', r', c', w', f', rfl⟩ := h2
  exact ⟨_, _, _, _, _, _, _, rfl⟩

theorem commitRun_blockOnly (c : RunStep) (s : State) : BlockOnly s (commitRun c s) := by
  unfold commitRun
  split <;> exact ⟨_, _, _, _, _, _, _, rfl⟩

theorem absorb_blockOnly (x : Byte) (s : State) : BlockOnly s (absorb x s).2 := by
  unfold absorb
  split
  · exact .refl s
  · split
    · exact ⟨_, _, _, _, _, _, _, rfl⟩
    · exact (commitRun_blockOnly _ s).trans ⟨_, _, _, _, _, _, _, rfl⟩

theorem absorbAll_blockOnly (xs : List Byte) (s : State) : BlockOnly s (absorbAll xs s).2 := by
  induction xs generalizing s with
  | nil => exact .refl s
  | cons x xs ih =>
    have hx := absorb_blockOnly x s
    simp only [absorbAll]
    rcases h : absorb x s with ⟨b, s'⟩
    rw [h] at hx
    cases b with
    | false => exact hx
    | true => exact hx.trans (ih s')

/-- FULL is only ever set by absorbing. -/
theorem absorbAll_full (xs : List Byte) (s : State) (h : s.full = true) : (absorbAll xs s).2.full = true := by
  cases xs with
  | nil => exact h
  | cons x xs => simp [absorbAll, absorb, h]

/-! ## The kinds of meanings -/

/-- A field on the real sink: rejected, or the writes and their end. -/
theorem realField_cases (legal : Bool) (ops : List SinkOp) (s : State) :
    (∃ c, realField legal ops s = .next (s.reject c)) ∨ realField legal ops s = (runReal ops s).finish 0 := by
  unfold realField
  split
  · exact .inl ⟨_, rfl⟩
  · split
    · exact .inl ⟨_, rfl⟩
    · exact .inr rfl

/-- A field on the bound sink: rejected, or the writes and their end. -/
theorem boundField_cases (legal : Bool) (ops : List SinkOp) (s : State) :
    (∃ c, boundField legal ops s = .next (s.reject c)) ∨ boundField legal ops s = (runBound ops s).finish 0 := by
  unfold boundField
  split
  · exact .inl ⟨_, rfl⟩
  · split
    · exact .inl ⟨_, rfl⟩
    · split
      · exact .inl ⟨_, rfl⟩
      · exact .inr rfl

/-- A CSR write: rejected, or LEVEL or ITER in IDLE, or STREAM_CRC (10_state.md R56). -/
theorem writeCsr_cases (c : Csr) (b : U32) (s : State) :
    (∃ k, writeCsr c b s = .next (s.reject k))
      ∨ (∃ l, l = clampLevel b ∧ s.phase = .idle ∧ writeCsr c b s = .next (State.respond { s with level := l } 0))
      ∨ (∃ l, l = b.setWidth 8 ∧ (iterInRange b = true ∧ s.phase = .idle)
          ∧ writeCsr c b s = .next (State.respond { s with iter := l } 0))
      ∨ (c = .streamCrc ∧ writeCsr c b s = .next (State.respond { s with streamCrc := b } 0)) := by
  cases c
  case level =>
    simp only [writeCsr]
    split_ifs with h
    · exact .inl ⟨_, rfl⟩
    · exact .inr (.inl ⟨_, rfl, not_not.mp h, rfl⟩)
  case iter =>
    simp only [writeCsr]
    split_ifs with h1 h2
    · exact .inl ⟨_, rfl⟩
    · exact .inl ⟨_, rfl⟩
    · exact .inr (.inr (.inl ⟨_, rfl, ⟨by simpa using h1, not_not.mp h2⟩, rfl⟩))
  case streamCrc => exact .inr (.inr (.inr ⟨rfl, rfl⟩))
  all_goals exact .inl ⟨_, rfl⟩

/-- What an instruction may do to a state, its own registers aside: reject, write the real sink, append to the log,
or an effect of its own that is no fault. -/
inductive Effect (s : State) : State → Prop where
  /-- The command was rejected. -/
  | rejected (c : RejectCode) : Effect s (s.reject c)
  /-- The real sink was written, and the command ended as the writes did. -/
  | real (x : Io) (v : U32) (h : RealOnly s x.state) (t : State) (e : x.finish v = .next t) : Effect s t
  /-- The log was appended to, and the command ended as the appends did. -/
  | log (x : Io) (v : U32) (h : LogOnly s x.state) (t : State) (e : x.finish v = .next t) : Effect s t

theorem Effect.ofReal {s t : State} {x : Io} {v : U32} (h : RealOnly s x.state) (e : x.finish v = .next t) :
    Effect s t := .real x v h t e

theorem Effect.ofLog {s t : State} {x : Io} {v : U32} (h : LogOnly s x.state) (e : x.finish v = .next t) :
    Effect s t := .log x v h t e

theorem Effect.ofReject {s t : State} {c : RejectCode} (e : Host.Outcome.next (φ := Fault) (ρ := Refusal) (s.reject c) = .next t) :
    Effect s t := by
  cases e
  exact .rejected c

/-- The fields and the commands of the two sinks have no other effect than writing a sink. -/
theorem realField_effect {legal : Bool} {ops : List SinkOp} {s t : State} (e : realField legal ops s = .next t) :
    Effect s t := by
  rcases realField_cases legal ops s with ⟨c, h⟩ | h <;> rw [h] at e
  · exact .ofReject e
  · exact .ofReal (runReal_realOnly ops s) e

theorem boundField_effect {legal : Bool} {ops : List SinkOp} {s t : State} (e : boundField legal ops s = .next t) :
    Effect s t := by
  rcases boundField_cases legal ops s with ⟨c, h⟩ | h <;> rw [h] at e
  · exact .ofReject e
  · rcases runBound_oneSink ops s with ⟨-, hr⟩ | ⟨-, hr⟩
    · exact .ofReal hr e
    · exact .ofLog hr e

/-- Which instructions do nothing but write a sink. -/
def onlyWritesSink : Instr → Bool
  | .wbitsR _ _ | .wboolR _ | .wunaryR _ | .wu32R _ | .flushR | .wbitsD _ _ | .wboolD _ | .wunaryD _ | .wu32D _
  | .replay | .fHeader _ | .fBlockMagic | .fBlockCrc _ | .fRandomized | .fOrigPtr _ | .fBigMap _ | .fGroupMap _
  | .fNTables _ | .fNSelectors _ | .fSelector _ | .fLenStart _ | .fLenDelta _ _ | .fSymbol _ _ | .fEndMarker
  | .fStreamCrc _ | .fPadding | .fLogRecord _ _ => true
  | .reset | .csrw _ _ | .csrr _ | .flushD | .setcrc _ | .logclr | .logrd _ | .crcrst | .crcupd _ | .crcget
  | .crcfold _ | .blkopen _ | .bwrite _ _ | .bclose | .stRleflush | .stCrcfin | .stBwt | .stSymmap | .stMtf
  | .stHsel | .stCanon | .stEmit => false

/-- An instruction that only writes a sink has one of the three effects. -/
theorem exec_effect {i : Instr} {s t : State} (hi : onlyWritesSink i = true) (e : exec i s = .next t) :
    Effect s t := by
  cases i <;> cases hi
  case wbitsR w v =>
    simp only [exec, execWbitsR] at e
    split at e; · exact .ofReject e
    split at e; · exact .ofReject e
    exact .ofReal (rsBits_realOnly _ _ s) e
  case wboolR b =>
    simp only [exec, execWboolR] at e
    split at e; · exact .ofReject e
    split at e; · exact .ofReject e
    exact .ofReal (rsBits_realOnly _ _ s) e
  case wunaryR n =>
    simp only [exec, execWunaryR] at e
    split at e; · exact .ofReject e
    exact .ofReal (rsUnary_realOnly _ s) e
  case wu32R v =>
    simp only [exec, execWu32R] at e
    split at e; · exact .ofReject e
    exact .ofReal (rsU32_realOnly _ s) e
  case flushR =>
    simp only [exec, execFlushR] at e
    split at e; · exact .ofReject e
    exact .ofReal (rsFlush_realOnly s) e
  case wbitsD w v =>
    simp only [exec, execWbitsD] at e
    split at e; · exact .ofReject e
    split at e; · exact .ofReject e
    split at e; · exact .ofReject e
    exact .ofLog (dsRec_logOnly _ _ s) e
  case wboolD b =>
    simp only [exec, execWboolD] at e
    split at e; · exact .ofReject e
    split at e; · exact .ofReject e
    split at e; · exact .ofReject e
    exact .ofLog (dsRec_logOnly _ _ s) e
  case wunaryD n =>
    simp only [exec, execWunaryD] at e
    split at e; · exact .ofReject e
    split at e; · exact .ofReject e
    exact .ofLog (dsUnary_logOnly _ s) e
  case wu32D v =>
    simp only [exec, execWu32D] at e
    split at e; · exact .ofReject e
    split at e; · exact .ofReject e
    exact .ofLog (dsU32_logOnly _ s) e
  case replay =>
    simp only [exec, execReplay] at e
    split at e; · exact .ofReject e
    split at e; · exact .ofReject e
    exact .ofReal (replayFrom_realOnly _ _ s) e
  case fPadding =>
    simp only [exec, execFPadding] at e
    split at e; · exact .ofReject e
    exact .ofReal (rsFlush_realOnly s) e
  all_goals first | exact realField_effect e | exact boundField_effect e

/-- What the other instructions may do to a state `s`: one constructor for each outcome of each. -/
inductive OwnEffect (s : State) : Instr → State → Prop where
  | rejected (i : Instr) (c : RejectCode) : OwnEffect s i (s.reject c)
  | answered (i : Instr) (v : U32) : OwnEffect s i (s.respond v)
  | reset : OwnEffect s .reset (s.restart.respond 0)
  | level (a b : U32) (hp : s.phase = .idle) :
    OwnEffect s (.csrw a b) (State.respond { s with level := clampLevel b } 0)
  | iter (a b : U32) (hp : s.phase = .idle) (hb : iterInRange b = true) :
    OwnEffect s (.csrw a b) (State.respond { s with iter := b.setWidth 8 } 0)
  | streamCrc (a b : U32) : OwnEffect s (.csrw a b) (State.respond { s with streamCrc := b } 0)
  | setcrc (v : U32) : OwnEffect s (.setcrc v) (State.respond { s with dsCrc := v, dsSealed := true } 0)
  | logclr : OwnEffect s .logclr ((clearLog s).respond 0)
  | crcrst (hp : s.phase = .idle) : OwnEffect s .crcrst (State.respond { s with crcAcc := 0xFFFFFFFF#32 } 0)
  | crcupd (x : U32) (hp : s.phase = .idle) :
    OwnEffect s (.crcupd x) (State.respond { s with crcAcc := crcStep s.crcAcc (x.setWidth 8) } 0)
  | crcfold (x : U32) :
    OwnEffect s (.crcfold x)
      (State.respond { s with streamCrc := crcFold s.streamCrc x } (crcFold s.streamCrc x))
  | blkopen (a : U32) (hp : s.phase = .idle) :
    OwnEffect s (.blkopen a) ((openBlock (decide (a = 1#32)) s).respond 0)
  | bwrite (off len : U32) (xs : List Byte) (hp : s.phase = .opened) :
    OwnEffect s (.bwrite off len) ((absorbAll xs s).2.respond (BitVec.ofNat 32 (absorbAll xs s).1))
  | bclose (hf : s.fatal = false) (hp : s.phase = .opened) (hs : (s.sinkSel && s.dsSealed) = false) :
    OwnEffect s .bclose { s with phase := .closing, stage := 1#4 }
  | closedEmpty (h : (flushRun s).regN = 0) :
    OwnEffect s .stRleflush (State.respond { flushRun s with emitted := false, phase := .idle, stage := 0 } 0)
  | rleflush (h : (flushRun s).regN ≠ 0) : OwnEffect s .stRleflush { flushRun s with stage := 2#4 }
  | crcfin : OwnEffect s .stCrcfin { s with blockCrc := s.crcAcc ^^^ 0xFFFFFFFF#32, stage := 3#4 }
  | bwt (ps : List (BitVec 20)) (ls : List Byte) (o : BitVec 24) :
    OwnEffect s .stBwt
      { s with
        p := Memory.writeList s.p 0 ps, lcol := Memory.writeList s.lcol 0 ls, origPtr := o, stage := 4#4 }
  | symmap (ms : List (BitVec 1)) (k : BitVec 9) :
    OwnEffect s .stSymmap { s with inUse := Memory.writeList s.inUse 0 ms, regK := k, stage := 5#4 }
  | mtf (ls : List Byte) (ys : List (BitVec 9)) (n : BitVec 20) :
    OwnEffect s .stMtf
      { s with
        mtfList := Memory.writeList s.mtfList 0 ls, sym := Memory.writeList s.sym 0 ys, regS := n, zRun := 0
        stage := 6#4 }
  | hsel (t : BitVec 3) (g : BitVec 15) (sels : List (BitVec 3)) (freqs lens : List (List Nat))
      (costs : List (BitVec 10)) :
    OwnEffect s .stHsel
      { s with
        regT := t, regG := g, sel := Memory.writeList s.sel 0 sels, freq := writeRows s.freq 0 freqs
        len := writeRows s.len 0 lens, cost := Memory.writeList s.cost 0 costs, stage := 7#4 }
  | canon (rows : List (List Nat)) : OwnEffect s .stCanon { s with code := writeRows s.code 0 rows, stage := 8#4 }
  | emitted (s' : State) (h : runBound (blockOps s) s = .done s') :
    OwnEffect s .stEmit ((endClose s').respond s.blockCrc)
  | emitFailed (c : FatalCode) (s' : State) (h : runBound (blockOps s) s = .failed c s') :
    OwnEffect s .stEmit (s'.takeFatal c)

/-- An instruction that does more than write a sink has one of its own effects. -/
theorem exec_ownEffect {i : Instr} {s t : State} (hi : onlyWritesSink i = false) (e : exec i s = .next t) :
    OwnEffect s i t := by
  cases i <;> cases hi
  case reset => cases e; exact .reset
  case csrw a b =>
    simp only [exec, execCsrw] at e
    split_ifs at e
    · cases e; exact .rejected _ _
    · cases hc : csrOf a with
      | none => rw [hc] at e; cases e; exact .rejected _ _
      | some c =>
        rw [hc] at e
        rcases writeCsr_cases c b s with ⟨k, h⟩ | ⟨l, hl, hp, h⟩ | ⟨l, hl, hp, h⟩ | ⟨-, h⟩ <;>
          simp only [h] at e <;> cases e
        · exact .rejected _ _
        · subst hl; exact .level _ _ hp
        · subst hl; exact .iter _ _ hp.2 hp.1
        · exact .streamCrc _ _
  case csrr a =>
    simp only [exec, execCsrr] at e
    cases hc : csrOf a <;> rw [hc] at e <;> cases e
    · exact .rejected _ _
    · exact .answered _ _
  case flushD =>
    simp only [exec, execFlushD] at e
    split_ifs at e <;> cases e
    exacts [.rejected _ _, .answered _ _]
  case setcrc v =>
    simp only [exec, execSetcrc] at e
    split_ifs at e <;> cases e
    exacts [.rejected _ _, .setcrc _]
  case logclr =>
    simp only [exec, execLogclr] at e
    split_ifs at e <;> cases e
    exacts [.rejected _ _, .logclr]
  case logrd j =>
    simp only [exec, execLogrd] at e
    split_ifs at e <;> cases e
    exacts [.rejected _ _, .rejected _ _, .answered _ _]
  case crcrst =>
    simp only [exec, execCrcrst] at e
    split_ifs at e with h1 h2 <;> cases e
    exacts [.rejected _ _, .rejected _ _, .crcrst (not_not.mp h2)]
  case crcupd x =>
    simp only [exec, execCrcupd] at e
    split_ifs at e with h1 h2 h3 <;> cases e
    exacts [.rejected _ _, .rejected _ _, .rejected _ _, .crcupd _ (not_not.mp h3)]
  case crcget =>
    simp only [exec, execCrcget] at e
    split_ifs at e <;> cases e
    exacts [.rejected _ _, .rejected _ _, .answered _ _]
  case crcfold x =>
    simp only [exec, execCrcfold] at e
    split_ifs at e <;> cases e
    exacts [.rejected _ _, .crcfold _]
  case blkopen a =>
    simp only [exec, execBlkopen] at e
    split_ifs at e with h1 h2 h3 <;> cases e
    exacts [.rejected _ _, .rejected _ _, .rejected _ _, .blkopen _ (not_not.mp h3)]
  case bwrite off len =>
    simp only [exec, execBwrite] at e
    split_ifs at e with h1 h2 h3 <;> cases e
    exacts [.rejected _ _, .rejected _ _, .rejected _ _, .bwrite _ _ _ (not_not.mp h3)]
  case bclose =>
    simp only [exec, execBclose] at e
    split_ifs at e with h1 h2 h3 <;> cases e
    exacts [.rejected _ _, .rejected _ _, .rejected _ _,
      .bclose (by simpa using h1) (not_not.mp h2) (by simpa using h3)]
  case stRleflush =>
    simp only [exec, execStRleflush] at e
    split_ifs at e with h1 <;> cases e
    exacts [.closedEmpty h1, .rleflush h1]
  case stCrcfin => cases e; exact .crcfin
  case stBwt => cases e; exact .bwt _ _ _
  case stSymmap => cases e; exact .symmap _ _
  case stMtf => cases e; exact .mtf _ _ _
  case stHsel => cases e; exact .hsel _ _ _ _ _ _
  case stCanon => cases e; exact .canon _
  case stEmit =>
    simp only [exec, execStEmit] at e
    cases h : runBound (blockOps s) s <;> rw [h] at e <;> cases e
    exacts [.emitted _ h, .emitFailed _ _ h]

/-- The pending run is written and forgotten; nothing else changes. -/
theorem flushRun_spec (s : State) : ∃ u n r, flushRun s = { s with u := u, regN := n, rlRun := r } := by
  unfold flushRun
  split <;> exact ⟨_, _, _, rfl⟩

/-- Opening a block changes these registers and, bound to the log, clears it. -/
theorem openBlock_spec (b : Bool) (s : State) :
    openBlock b s = { s with
      phase := .opened, sinkSel := b, regN := 0, rawCnt := 0, rlLast := 0, rlRun := 0
      full := false, emitted := false, crcAcc := 0xFFFFFFFF#32, blockCrc := 0, origPtr := 0
      regK := 0, regS := 0, regT := 0, regG := 0, zRun := 0
      dsLogLen := if b then 0 else s.dsLogLen, dsCrc := if b then 0 else s.dsCrc
      dsSealed := if b then false else s.dsSealed } := by
  cases b <;> rfl

/-- Running an instruction always gives a next state. -/
theorem exec_goes_on (i : Instr) (s : State) : ∃ t, exec i s = .next t := by
  have fin : ∀ (x : Io) (v : U32), ∃ t, x.finish v = .next t := fun x v => by
    rcases x.finish_next v with ⟨t, -, h⟩ | ⟨c, t, -, h⟩ <;> exact ⟨_, h⟩
  have real : ∀ l ops, ∃ t, realField l ops s = .next t := fun l ops => by
    rcases realField_cases l ops s with ⟨c, h⟩ | h
    · exact ⟨_, h⟩
    · rw [h]; exact fin _ _
  have bound : ∀ l ops, ∃ t, boundField l ops s = .next t := fun l ops => by
    rcases boundField_cases l ops s with ⟨c, h⟩ | h
    · exact ⟨_, h⟩
    · rw [h]; exact fin _ _
  cases i with
  | wbitsR w v => simp only [exec, execWbitsR]; split_ifs <;> first | exact ⟨_, rfl⟩ | exact fin _ _
  | wboolR b => simp only [exec, execWboolR]; split_ifs <;> first | exact ⟨_, rfl⟩ | exact fin _ _
  | wunaryR n => simp only [exec, execWunaryR]; split_ifs <;> first | exact ⟨_, rfl⟩ | exact fin _ _
  | wu32R v => simp only [exec, execWu32R]; split_ifs <;> first | exact ⟨_, rfl⟩ | exact fin _ _
  | flushR => simp only [exec, execFlushR]; split_ifs <;> first | exact ⟨_, rfl⟩ | exact fin _ _
  | wbitsD w v => simp only [exec, execWbitsD]; split_ifs <;> first | exact ⟨_, rfl⟩ | exact fin _ _
  | wboolD b => simp only [exec, execWboolD]; split_ifs <;> first | exact ⟨_, rfl⟩ | exact fin _ _
  | wunaryD n => simp only [exec, execWunaryD]; split_ifs <;> first | exact ⟨_, rfl⟩ | exact fin _ _
  | wu32D v => simp only [exec, execWu32D]; split_ifs <;> first | exact ⟨_, rfl⟩ | exact fin _ _
  | replay => simp only [exec, execReplay]; split_ifs <;> first | exact ⟨_, rfl⟩ | exact fin _ _
  | fPadding => simp only [exec, execFPadding]; split_ifs <;> first | exact ⟨_, rfl⟩ | exact fin _ _
  | reset => exact ⟨_, rfl⟩
  | csrw a b =>
    simp only [exec, execCsrw]
    split_ifs
    · exact ⟨_, rfl⟩
    · cases csrOf a with
      | none => exact ⟨_, rfl⟩
      | some c =>
        rcases writeCsr_cases c b s with ⟨k, h⟩ | ⟨l, -, -, h⟩ | ⟨l, -, -, h⟩ | ⟨-, h⟩ <;> exact ⟨_, h⟩
  | csrr a => simp only [exec, execCsrr]; cases csrOf a <;> exact ⟨_, rfl⟩
  | flushD => simp only [exec, execFlushD]; split_ifs <;> exact ⟨_, rfl⟩
  | setcrc v => simp only [exec, execSetcrc]; split_ifs <;> exact ⟨_, rfl⟩
  | logclr => simp only [exec, execLogclr]; split_ifs <;> exact ⟨_, rfl⟩
  | logrd j => simp only [exec, execLogrd]; split_ifs <;> exact ⟨_, rfl⟩
  | crcrst => simp only [exec, execCrcrst]; split_ifs <;> exact ⟨_, rfl⟩
  | crcupd x => simp only [exec, execCrcupd]; split_ifs <;> exact ⟨_, rfl⟩
  | crcget => simp only [exec, execCrcget]; split_ifs <;> exact ⟨_, rfl⟩
  | crcfold x => simp only [exec, execCrcfold]; split_ifs <;> exact ⟨_, rfl⟩
  | blkopen a => simp only [exec, execBlkopen]; split_ifs <;> exact ⟨_, rfl⟩
  | bwrite off len => simp only [exec, execBwrite]; split_ifs <;> exact ⟨_, rfl⟩
  | bclose => simp only [exec, execBclose]; split_ifs <;> exact ⟨_, rfl⟩
  | stRleflush => simp only [exec, execStRleflush]; split_ifs <;> exact ⟨_, rfl⟩
  | stCrcfin => exact ⟨_, rfl⟩
  | stBwt => exact ⟨_, rfl⟩
  | stSymmap => exact ⟨_, rfl⟩
  | stMtf => exact ⟨_, rfl⟩
  | stHsel => exact ⟨_, rfl⟩
  | stCanon => exact ⟨_, rfl⟩
  | stEmit => simp only [exec, execStEmit]; cases runBound (blockOps s) s <;> exact ⟨_, rfl⟩
  | _ => first | exact real _ _ | exact bound _ _

end Sys2Proof.Machine
end

