-- ==== Sys2Proof/Laws/Huffman.lean ====
section
/-! SUPPORT. The parameter `huff_lengths` (45_huffman.md R290; log 5): what `codeLengths` can answer, said once. -/

namespace Sys2Proof.Machine

/-- The contract, unfolded. -/
theorem lengthsLegal_iff (f lens : List Nat) :
    lengthsLegal f lens = true ↔
      lens.length = f.length ∧ (∀ l ∈ lens, 1 ≤ l ∧ l ≤ 17) ∧ kraftSum 17 lens ≤ 2 ^ 17 := by
  rw [lengthsLegal, Bool.and_eq_true, Bool.and_eq_true, List.all_eq_true, decide_eq_true_iff, decide_eq_true_iff]
  refine and_congr_right fun _ => and_congr (forall₂_congr fun l _ => ?_) Iff.rfl
  rw [Bool.and_eq_true, decide_eq_true_iff, decide_eq_true_iff]
  exact Iff.rfl

/-- A code-length function answers lengths that meet the contract, or what the default answers. -/
theorem codeLengths_cases (table : List (List Nat × List Nat)) (f : List Nat) :
    lengthsLegal f (codeLengths table f) = true ∨ codeLengths table f = huffLengths f := by
  unfold codeLengths
  split
  · exact .inr rfl
  · split
    · exact .inl ‹_›
    · exact .inr rfl

@[simp] theorem codeLengths_nil (f : List Nat) : codeLengths [] f = huffLengths f := rfl

/-- A choice that meets the contract is taken. -/
theorem codeLengths_of_lookup {table : List (List Nat × List Nat)} {f lens : List Nat}
    (h : table.lookup f = some lens) (hl : lengthsLegal f lens = true) : codeLengths table f = lens := by
  simp [codeLengths, h, hl]

/-- The table of a function on a list of inputs gives that function's value on each of them. -/
theorem lookup_tabulate (g : List Nat → List Nat) (inputs : List (List Nat)) {f : List Nat} (h : f ∈ inputs) :
    (inputs.map fun x => (x, g x)).lookup f = some (g f) := by
  induction inputs with
  | nil => cases h
  | cons x xs ih =>
    rw [List.map_cons, List.lookup_cons]
    by_cases hx : f = x
    · subst hx; simp
    · rw [beq_false_of_ne hx]
      exact ih ((List.mem_cons.mp h).resolve_left hx)

end Sys2Proof.Machine
end

