-- ==== Sys2Proof/Laws/PerInstr.lean ====
section
/-! SUPPORT. A property of every instruction, constructor by constructor: the encoding of a well-formed instruction
has the shape of its row in the opcode table, a command word with a listed opcode (30_encoding.md R102), a STAGE of
1 to 8 (R104), or a field whose bits fit its width (R111 to R119). -/

namespace Sys2Proof.Laws.CodeInRange

/-- The shape an encoding must have. -/
def fits : Code → Prop
  | .port (.command w) =>
    (opOf w).toNat ∈
      [0x01, 0x02, 0x03, 0x10, 0x11, 0x12, 0x13, 0x14, 0x18, 0x19, 0x1A, 0x1B, 0x1C, 0x20, 0x21, 0x22, 0x23, 0x28,
        0x29, 0x2A, 0x2B, 0x30, 0x31, 0x32]
  | .port (.field _ nbits bits) => bits < 2 ^ nbits
  | .port (.input _ _) => False
  | .stage st => 1 ≤ st.toNat ∧ st.toNat ≤ 8

/-- The property. -/
def Statement (i : Instr) : Prop := i.wf = true → fits (encode i)

/-- The opcode of a command word is the opcode it was made with. -/
theorem opOf_commandWord (op : BitVec 8) (a b : U32) : opOf (commandWord op a b) = op := by
  apply BitVec.eq_of_getLsbD_eq
  intro i hi
  simp only [opOf, commandWord, BitVec.getLsbD_extractLsb', BitVec.getLsbD_append, hi, decide_true, Bool.true_and]
  rw [if_neg (by omega), if_neg (by omega)]
  congr 1
  omega

theorem fits_command (op : BitVec 8) (a b : U32)
    (h : op.toNat ∈
      [0x01, 0x02, 0x03, 0x10, 0x11, 0x12, 0x13, 0x14, 0x18, 0x19, 0x1A, 0x1B, 0x1C, 0x20, 0x21, 0x22, 0x23, 0x28,
        0x29, 0x2A, 0x2B, 0x30, 0x31, 0x32]) : fits (commandCode op a b) := by
  simp only [fits, commandCode, opOf_commandWord]
  exact h

/-- A number in its own field fits it. -/
theorem fits_number {w : Nat} (f : FieldKind) (x : BitVec w) : fits (fieldCode f w x.toNat) := x.isLt

theorem pairBits_lt {p : Nat} (hp : p ≤ 3) (d : Nat) : pairBits p d < 2 ^ (2 * d + 1) := by
  induction d with
  | zero => simp [pairBits]
  | succ d ih =>
    have := Nat.mul_le_mul_right (2 ^ (2 * d + 1)) hp
    rw [pairBits, show 2 ^ (2 * (d + 1) + 1) = 4 * 2 ^ (2 * d + 1) by ring]
    omega

theorem reset : Statement .reset := fun _ => fits_command _ _ _ (by decide)

theorem csrw (a b : U32) : Statement (.csrw a b) := fun _ => fits_command _ _ _ (by decide)

theorem csrr (a : U32) : Statement (.csrr a) := fun _ => fits_command _ _ _ (by decide)

theorem wbitsR (w v : U32) : Statement (.wbitsR w v) := fun _ => fits_command _ _ _ (by decide)

theorem wboolR (b : U32) : Statement (.wboolR b) := fun _ => fits_command _ _ _ (by decide)

theorem wunaryR (n : U32) : Statement (.wunaryR n) := fun _ => fits_command _ _ _ (by decide)

theorem wu32R (v : U32) : Statement (.wu32R v) := fun _ => fits_command _ _ _ (by decide)

theorem flushR : Statement .flushR := fun _ => fits_command _ _ _ (by decide)

theorem wbitsD (w v : U32) : Statement (.wbitsD w v) := fun _ => fits_command _ _ _ (by decide)

theorem wboolD (b : U32) : Statement (.wboolD b) := fun _ => fits_command _ _ _ (by decide)

theorem wunaryD (n : U32) : Statement (.wunaryD n) := fun _ => fits_command _ _ _ (by decide)

theorem wu32D (v : U32) : Statement (.wu32D v) := fun _ => fits_command _ _ _ (by decide)

theorem flushD : Statement .flushD := fun _ => fits_command _ _ _ (by decide)

theorem setcrc (v : U32) : Statement (.setcrc v) := fun _ => fits_command _ _ _ (by decide)

theorem replay : Statement .replay := fun _ => fits_command _ _ _ (by decide)

theorem logclr : Statement .logclr := fun _ => fits_command _ _ _ (by decide)

theorem logrd (i : U32) : Statement (.logrd i) := fun _ => fits_command _ _ _ (by decide)

theorem crcrst : Statement .crcrst := fun _ => fits_command _ _ _ (by decide)

theorem crcupd (x : U32) : Statement (.crcupd x) := fun _ => fits_command _ _ _ (by decide)

theorem crcget : Statement .crcget := fun _ => fits_command _ _ _ (by decide)

theorem crcfold (x : U32) : Statement (.crcfold x) := fun _ => fits_command _ _ _ (by decide)

theorem blkopen (sink : U32) : Statement (.blkopen sink) := fun _ => fits_command _ _ _ (by decide)

theorem bwrite (off len : U32) : Statement (.bwrite off len) := fun _ => fits_command _ _ _ (by decide)

theorem bclose : Statement .bclose := fun _ => fits_command _ _ _ (by decide)

theorem stRleflush : Statement .stRleflush := fun _ => by simp [fits, encode]

theorem stCrcfin : Statement .stCrcfin := fun _ => by simp [fits, encode]

theorem stBwt : Statement .stBwt := fun _ => by simp [fits, encode]

theorem stSymmap : Statement .stSymmap := fun _ => by simp [fits, encode]

theorem stMtf : Statement .stMtf := fun _ => by simp [fits, encode]

theorem stHsel : Statement .stHsel := fun _ => by simp [fits, encode]

theorem stCanon : Statement .stCanon := fun _ => by simp [fits, encode]

theorem stEmit : Statement .stEmit := fun _ => by simp [fits, encode]

theorem fHeader (level : BitVec 4) : Statement (.fHeader level) := by
  intro _
  have := level.isLt
  simp only [fits, encode, fieldCode]
  omega

theorem fBlockMagic : Statement .fBlockMagic := fun _ => by norm_num [fits, encode, fieldCode]

theorem fBlockCrc (crc : U32) : Statement (.fBlockCrc crc) := fun _ => fits_number _ crc

theorem fRandomized : Statement .fRandomized := fun _ => by norm_num [fits, encode, fieldCode]

theorem fOrigPtr (p : BitVec 24) : Statement (.fOrigPtr p) := fun _ => fits_number _ p

theorem fBigMap (m : BitVec 16) : Statement (.fBigMap m) := fun _ => fits_number _ m

theorem fGroupMap (m : BitVec 16) : Statement (.fGroupMap m) := fun _ => fits_number _ m

theorem fNTables (t : BitVec 3) : Statement (.fNTables t) := fun _ => fits_number _ t

theorem fNSelectors (g : BitVec 15) : Statement (.fNSelectors g) := fun _ => fits_number _ g

theorem fSelector (rank : BitVec 3) : Statement (.fSelector rank) := by
  intro _
  simp only [fits, encode, fieldCode, unaryBits]
  have : 0 < 2 ^ (rank.toNat + 1) := by positivity
  omega

theorem fLenStart (l : BitVec 5) : Statement (.fLenStart l) := fun _ => fits_number _ l

theorem fLenDelta (down : Bool) (d : BitVec 5) : Statement (.fLenDelta down d) := by
  intro _
  simp only [fits, encode, fieldCode]
  exact pairBits_lt (by split <;> omega) _

theorem fSymbol (w : BitVec 5) (code : BitVec 17) : Statement (.fSymbol w code) := by
  intro h
  simp only [Instr.wf, Bool.and_eq_true, decide_eq_true_eq] at h
  exact h.2.2

theorem fEndMarker : Statement .fEndMarker := fun _ => by norm_num [fits, encode, fieldCode]

theorem fStreamCrc (crc : U32) : Statement (.fStreamCrc crc) := fun _ => fits_number _ crc

theorem fPadding : Statement .fPadding := fun _ => by norm_num [fits, encode, fieldCode]

theorem fLogRecord (w : BitVec 5) (v : BitVec 24) : Statement (.fLogRecord w v) := by
  intro _
  have := w.isLt
  have := v.isLt
  simp only [fits, encode, fieldCode]
  omega

end Sys2Proof.Laws.CodeInRange
end

