-- ==== Sys2Proof/Tests/Slice0.lean ====
section
/-! SUPPORT. Tests: ill-formed terms, decoding of words written out from 30_encoding.md, vectors of
95_test_vectors.md (their numbers V<n>, KA<n> stand at each test), and for every statement with hypotheses a
concrete case that meets them. -/

open Sys2Proof Sys2Proof.Machine

namespace Sys2Proof.Tests

/-! ## Helpers -/

/-- The next state, if there is one. -/
def next? : Result → Option State
  | .next t => some t
  | .fault _ => none
  | .refused _ => none

/-- Status and value of the response of an outcome. -/
def answer (r : Result) : Option (Nat × Nat) :=
  (next? r).bind fun t => t.resp.map fun x => (x.st.toNat, x.val.toNat)

/-- OUT, RS.PEND and RS.CNT. -/
def sinkView (s : State) : List Nat × Nat × Nat := (s.out.map BitVec.toNat, s.rsPend.toNat, s.rsCnt.toNat)

/-- OUT, RS.PEND and RS.CNT after these instructions. -/
def sinkAfter (is : List Instr) (s : State) : Option (List Nat × Nat × Nat) := (runAll is s).map sinkView

/-- The log as (width, value) pairs. -/
def logView (s : State) : List (Nat × Nat) := s.logList.map fun r => (recordWidth r, recordValue r)

/-- The log after these instructions. -/
def logAfter (is : List Instr) (s : State) : Option (List (Nat × Nat)) := (runAll is s).map logView

/-- An idle state, a state after an output error, a state with an open block of data, one whose log is sealed. -/
def idleState : State := State.reset
def haltedState : State := { State.reset with fatal := true, cause := 5 }
def openState : State := { State.reset with phase := .opened, inMem := [(0, 0x61), (1, 0x62)] }
def sealedState : State := { State.reset with dsSealed := true, dsLog := [(0, packRecord 3 5)], dsLogLen := 1 }

/-- A block of data that holds these bytes, being closed, with stage 1 to come. -/
def closingOn (xs : List Byte) : State :=
  { (absorbAll xs (openBlock false State.reset)).2 with phase := .closing, stage := 1 }

/-- U holds these symbols, and the next stage is this one. -/
def uHolds (xs : List Byte) (stage : BitVec 4) : State :=
  { State.reset with
    phase := .closing, stage := stage, u := Memory.writeList [] 0 xs, regN := BitVec.ofNat 20 xs.length }

def banana : List Byte := [0x62, 0x61, 0x6E, 0x61, 0x6E, 0x61]

/-! ## Well-formedness: one ill-formed term for each check -/

theorem test_wf_refuses_csr_numbers :
    Instr.wf (.csrw 0x15 0) = false ∧ Instr.wf (.csrr 0x15) = false ∧ Instr.wf (.csrw 1 0) = false
      ∧ Instr.wf (.csrw 1 256) = false := by decide

theorem test_wf_refuses_write_widths :
    Instr.wf (.wbitsR 0 0) = false ∧ Instr.wf (.wbitsR 25 0) = false ∧ Instr.wf (.wbitsD 3 8) = false
      ∧ Instr.wf (.wbitsD 24 0x01000000) = false ∧ Instr.wf (.fLogRecord 0 0) = false := by decide

theorem test_wf_refuses_small_operands :
    Instr.wf (.wboolR 2) = false ∧ Instr.wf (.wboolD 2) = false ∧ Instr.wf (.crcupd 256) = false
      ∧ Instr.wf (.blkopen 2) = false := by decide

theorem test_wf_refuses_header_and_pointer :
    Instr.wf (.fHeader 0) = false ∧ Instr.wf (.fHeader 10) = false ∧ Instr.wf (.fOrigPtr 899999) = false
      ∧ Instr.wf (.fBigMap 0) = false ∧ Instr.wf (.fGroupMap 0) = false := by decide

theorem test_wf_refuses_table_counts :
    Instr.wf (.fNTables 1) = false ∧ Instr.wf (.fNTables 7) = false ∧ Instr.wf (.fNSelectors 0) = false
      ∧ Instr.wf (.fNSelectors 18001) = false ∧ Instr.wf (.fSelector 6) = false := by decide

theorem test_wf_refuses_lengths_and_codes :
    Instr.wf (.fLenStart 0) = false ∧ Instr.wf (.fLenStart 18) = false ∧ Instr.wf (.fLenDelta true 0) = false
      ∧ Instr.wf (.fLenDelta false 17) = false ∧ Instr.wf (.fSymbol 0 0) = false ∧ Instr.wf (.fSymbol 18 0) = false
      ∧ Instr.wf (.fSymbol 3 8) = false := by decide

/-! ## Decoding: words written out from 30_encoding.md R100, R102, R104, R111 to R119 -/

theorem test_decode_control :
    decodeCommand 0x010000000000000000#72 = .ok .reset
      ∧ decodeCommand 0x02000000050000000A#72 = .ok (.csrw 5 10)
      ∧ decodeCommand 0x030000000500000000#72 = .ok (.csrr 5) := by decide

theorem test_decode_real_sink :
    decodeCommand 0x100000000800000042#72 = .ok (.wbitsR 8 0x42)
      ∧ decodeCommand 0x110000000000000001#72 = .ok (.wboolR 1)
      ∧ decodeCommand 0x120000000000000005#72 = .ok (.wunaryR 5)
      ∧ decodeCommand 0x1300000000DEADBEEF#72 = .ok (.wu32R 0xDEADBEEF)
      ∧ decodeCommand 0x140000000000000000#72 = .ok .flushR := by decide

theorem test_decode_deferred_sink :
    decodeCommand 0x180000001800314159#72 = .ok (.wbitsD 24 0x314159)
      ∧ decodeCommand 0x190000000000000001#72 = .ok (.wboolD 1)
      ∧ decodeCommand 0x1A0000000000000009#72 = .ok (.wunaryD 9)
      ∧ decodeCommand 0x1B0000000012345678#72 = .ok (.wu32D 0x12345678)
      ∧ decodeCommand 0x1C0000000000000000#72 = .ok .flushD := by decide

theorem test_decode_log :
    decodeCommand 0x2000000000CAFEF00D#72 = .ok (.setcrc 0xCAFEF00D)
      ∧ decodeCommand 0x210000000000000000#72 = .ok .replay
      ∧ decodeCommand 0x220000000000000000#72 = .ok .logclr
      ∧ decodeCommand 0x230000000200000000#72 = .ok (.logrd 2) := by decide

theorem test_decode_crc_unit :
    decodeCommand 0x280000000000000000#72 = .ok .crcrst
      ∧ decodeCommand 0x290000000000000061#72 = .ok (.crcupd 0x61)
      ∧ decodeCommand 0x2A0000000000000000#72 = .ok .crcget
      ∧ decodeCommand 0x2B0000000019939B6B#72 = .ok (.crcfold 0x19939B6B) := by decide

theorem test_decode_block :
    decodeCommand 0x300000000100000000#72 = .ok (.blkopen 1)
      ∧ decodeCommand 0x310000000100000002#72 = .ok (.bwrite 1 2)
      ∧ decodeCommand 0x320000000000000000#72 = .ok .bclose := by decide

theorem test_decode_stages :
    (List.range 16).map (fun n => decodeStage (BitVec.ofNat 4 n)) =
      [none, some .stRleflush, some .stCrcfin, some .stBwt, some .stSymmap, some .stMtf, some .stHsel, some .stCanon,
        some .stEmit] ++ List.replicate 7 none := by decide

theorem test_decode_block_fields :
    decodeField .header 32 0b01000010010110100110100000111001 = some (.fHeader 9)
      ∧ decodeField .blockMagic 48 0x314159265359 = some .fBlockMagic
      ∧ decodeField .blockCrc 32 0xB1F7404B = some (.fBlockCrc 0xB1F7404B)
      ∧ decodeField .randomized 1 0 = some .fRandomized
      ∧ decodeField .origPtr 24 3 = some (.fOrigPtr 3)
      ∧ decodeField .bigMap 16 0x0200 = some (.fBigMap 0x0200)
      ∧ decodeField .groupMap 16 0x6002 = some (.fGroupMap 0x6002)
      ∧ decodeField .nTables 3 0b010 = some (.fNTables 2)
      ∧ decodeField .nSelectors 15 0b000000000000001 = some (.fNSelectors 1) := by decide

theorem test_decode_other_fields :
    decodeField .selector 3 0b110 = some (.fSelector 2)
      ∧ decodeField .lenStart 5 0b00011 = some (.fLenStart 3)
      ∧ decodeField .lenDelta 5 0b11110 = some (.fLenDelta true 2)
      ∧ decodeField .lenDelta 5 0b10100 = some (.fLenDelta false 2)
      ∧ decodeField .symbol 3 0b101 = some (.fSymbol 3 5)
      ∧ decodeField .endMarker 48 0x177245385090 = some .fEndMarker
      ∧ decodeField .streamCrc 32 0x27F78B64 = some (.fStreamCrc 0x27F78B64)
      ∧ decodeField .padding 5 0 = some .fPadding
      ∧ decodeField .logRecord 29 0b01000000000000000000011111111 = some (.fLogRecord 8 0xFF) := by decide

theorem test_decode_refuses_broken_fields :
    decodeField .blockMagic 48 0x314159265358 = none ∧ decodeField .randomized 1 1 = none
      ∧ decodeField .lenDelta 5 0b10110 = none ∧ decodeField .selector 3 0b101 = none
      ∧ decodeField .padding 8 0 = none ∧ decodeField .header 32 0x425A6929 = none := by decide

/-- V94. -/
theorem test_decode_rejects_unknown_opcodes :
    [0x00, 0x04, 0x15, 0x33, 0xFF].map (fun op => decodeOp op 0 0) = List.replicate 5 (.error .illegalOp)
      ∧ decodeCommand 0x010000000100000000#72 = .error .badOperand := by decide

/-- The stage and the command that a table row's number stands for, run as the first instruction after reset. -/
theorem test_fetch_word_runs :
    decodeTableWord 72 0x020000000000000005 = some (.csrw 0 5)
      ∧ (next? (step (State.reset.withFetchWord 72 0x020000000000000005))).map State.level = some 5
      ∧ (next? (step (State.reset.withFetchWord 4 2))).map State.stage = some 3
      ∧ (next? (step (State.reset.withFetchWord 32 0x425A6839))).map sinkView = some ([0x42, 0x5A, 0x68, 0x39], 0, 0) := by
  decide

/-! ## The real sink (V1 to V19) -/

/-- V4, V5. -/
theorem test_wbitsR_carries :
    sinkAfter [.wbitsR 3 5, .wbitsR 24 0xABCDEF] State.reset = some ([0xB5, 0x79, 0xBD], 7, 3)
      ∧ sinkAfter [.wbitsR 24 0x314159] { State.reset with rsPend := 0x7F, rsCnt := 7 } =
          some ([0xFE, 0x62, 0x82], 0x59, 7) := by decide

/-- V18. -/
theorem test_wbitsR_rejects :
    [Instr.wbitsR 0 0, .wbitsR 25 0, .wbitsR 3 8, .wbitsR 24 0x01000000, .wboolR 2].map (fun i =>
      answer (exec i State.reset)) = List.replicate 5 (some (2, 0)) := by decide

/-- V7. -/
theorem test_wboolR_writes_one_bit :
    sinkAfter [.wboolR 1, .wboolR 0, .wboolR 1] State.reset = some ([], 5, 3) := by decide

/-- V8, V11. -/
theorem test_wunaryR_ends_in_zero :
    sinkAfter [.wunaryR 0] State.reset = some ([], 0, 1)
      ∧ sinkAfter [.wunaryR 13] State.reset = some ([0xFF], 0x3E, 6) := by decide

/-- V13. -/
theorem test_wu32R_unaligned :
    sinkAfter [.wbitsR 4 0xA, .wu32R 0xDEADBEEF] State.reset = some ([0xAD, 0xEA, 0xDB, 0xEE], 0xF, 4) := by decide

/-- V19a, V19b. -/
theorem test_wu32R_output_error :
    (next? (exec (.wu32R 0xDEADBEEF) { State.reset with outErr := [false, false, true] })).map
        (fun t => (sinkView t, t.fatal, t.cause.toNat)) = some (([0xDE, 0xAD], 0, 0), true, 5)
      ∧ answer (exec (.wu32R 0xDEADBEEF) { State.reset with outErr := [false, true] }) = some (0x85, 0) := by decide

/-- V14, V16. -/
theorem test_flushR_pads :
    sinkAfter [.wbitsR 3 5, .flushR] State.reset = some ([0xA0], 0, 0)
      ∧ sinkAfter [.wbitsR 1 1, .flushR, .flushR] State.reset = some ([0x80], 0, 0) := by decide

/-! ## The deferred sink (V20 to V29b) -/

/-- V20, V25, V27. -/
theorem test_wunaryD_records :
    logAfter [.wunaryD 0] State.reset = some [(1, 0)]
      ∧ logAfter [.wunaryD 9] State.reset = some [(8, 0xFF), (1, 1), (1, 0)]
      ∧ logAfter [.wunaryD 16] State.reset = some [(8, 0xFF), (8, 0xFF), (1, 0)] := by decide

/-- V29. -/
theorem test_deferred_records :
    logAfter [.wu32D 0x12345678, .wboolD 1, .wbitsD 24 0x314159] State.reset =
      some [(16, 0x1234), (16, 0x5678), (1, 1), (24, 0x314159)] := by decide

/-- V29: on a sealed log. -/
theorem test_sealed_log :
    answer (exec (.wboolD 0) sealedState) = some (3, 0) ∧ answer (exec .flushD sealedState) = some (0, 0)
      ∧ answer (exec .replay State.reset) = some (3, 0) := by decide

/-- V29. -/
theorem test_logrd_reads_records :
    (runAll [.wu32D 0x12345678, .wboolD 1, .wbitsD 24 0x314159] State.reset).map
        (fun s => [0, 2, 3, 4].map fun n => answer (exec (.logrd (BitVec.ofNat 32 n)) s)) =
      some [some (0, 0x10001234), some (0, 0x01000001), some (0, 0x18314159), some (2, 0)] := by decide

/-- V29. -/
theorem test_replay_writes_the_bits :
    sinkAfter [.wu32D 0x12345678, .wboolD 1, .wbitsD 24 0x314159, .setcrc 0xCAFEF00D, .replay] State.reset =
      some ([0x12, 0x34, 0x56, 0x78, 0x98, 0xA0, 0xAC], 1, 1) := by decide

/-- V29. -/
theorem test_setcrc_logclr :
    (next? (exec (.setcrc 0xCAFEF00D) State.reset)).map (fun t => (t.dsCrc.toNat, t.dsSealed)) = some (0xCAFEF00D, true)
      ∧ (next? (exec .logclr sealedState)).map (fun t => (t.dsLogLen, t.dsCrc.toNat, t.dsSealed)) =
          some (0, 0, false) := by decide

/-- V29b. -/
theorem test_log_overflow :
    (next? (exec (.wunaryD 9) { State.reset with logCap := 2 })).map (fun t => (logView t, t.fatal, t.cause.toNat)) =
      some ([(8, 0xFF), (1, 1)], true, 4) := by decide

/-! ## CRC (KA1, V31, V32, V34, V35) -/

/-- V31. -/
theorem test_crcStep :
    crcStep 0 0x01 = 0x04C11DB7 ∧ crcStep 0 0x80 = 0x690CE0EE ∧ crcStep 0xFFFFFFFF 0 = 0x4E08BFB4
      ∧ crcStep 0xFFFFFFFF 0x61 = 0xE66C6494 := by decide

/-- KA1: the first byte, and the third. -/
theorem test_crcupd :
    (runAll [.crcrst, .crcupd 1] { State.reset with crcAcc := 0 }).map (fun t => t.crcAcc.toNat) = some 0x4AC9A203
      ∧ (next? (exec (.crcupd 3) { State.reset with crcAcc := 0xDB2C9ECF#32 })).map (fun t => t.crcAcc.toNat) =
          some 0x1B0D6951 := by decide

/-- V32: "a". -/
theorem test_crcget_answers_the_complement :
    ((runAll [.crcrst, .crcupd 0x61] State.reset).map fun t => answer (exec .crcget t)) =
      some (some (0, 0x19939B6B)) := by decide

/-- V34. -/
theorem test_crcfold :
    answer (exec (.crcfold 0x14D0BDB2) { State.reset with streamCrc := 0x19939B6B }) = some (0, 0x27F78B64)
      ∧ answer (exec (.crcfold 1) { State.reset with streamCrc := 0x80000001 }) = some (0, 2) := by decide

/-- V35. -/
theorem test_crc_unit_rejects :
    answer (exec (.crcupd 0x100) State.reset) = some (2, 0) ∧ answer (exec .crcget openState) = some (3, 0)
      ∧ answer (exec .crcrst openState) = some (3, 0)
      ∧ answer (exec (.crcfold 0) openState) = some (0, 0) := by decide

/-! ## Blocks and RLE1 (V41 to V43, V93, V96) -/

/-- V41d, V41e, V41f, V43a: U after stage 1. -/
theorem test_rleflush_writes_the_run :
    [[0x61, 0x61, 0x61, 0x61, 0x61], [0x61, 0x61, 0x61, 0x61, 0x62],
        [0x61, 0x61, 0x62, 0x62, 0x62, 0x62, 0x62, 0x62, 0x63], List.replicate 8 0x04].map
        (fun xs => (next? (exec .stRleflush (closingOn xs))).map State.uList) =
      [some [0x61, 0x61, 0x61, 0x61, 0x01], some [0x61, 0x61, 0x61, 0x61, 0x00, 0x62],
        some [0x61, 0x61, 0x62, 0x62, 0x62, 0x62, 0x02, 0x63], some [0x04, 0x04, 0x04, 0x04, 0x04]] := by decide

/-- V93: the close of an empty block of data. -/
theorem test_rleflush_of_nothing :
    answer (exec .stRleflush (closingOn [])) = some (0, 0)
      ∧ (next? (exec .stRleflush (closingOn []))).map (fun t => (t.phase, t.emitted)) = some (.idle, false) := by decide

/-- V41a, V41e: a block of data that takes `a` and `b`. -/
theorem test_bwrite_absorbs :
    answer (exec (.bwrite 0 2) openState) = some (0, 2)
      ∧ (next? (exec (.bwrite 0 2) openState)).map
          (fun t => (t.regN.toNat, t.rlLast.toNat, t.rlRun.toNat, t.rawCnt.toNat)) = some (1, 0x62, 1, 2) := by decide

/-- 20_memory.md R70: the host's bytes for IN, as far as IN_SIZE, are what a BWRITE behind them absorbs. -/
theorem test_input_then_bwrite :
    (match core.run 2
        { openState with inSize := 3, port := [.input 1 [0x63, 0x64, 0x65], .command 0x310000000100000002#72] } with
      | .next t => (t.inMem, t.rlLast, t.rawCnt.toNat, t.port)
      | .fault _ => ([], 0, 0, [])
      | .refused _ => ([], 0, 0, [])) = ([(0, 0x61), (1, 0x63), (2, 0x64)], 0x64, 2, []) := by decide

/-- V48: the fourth byte of a run that no longer fits is refused, and sets FULL. -/
theorem test_bwrite_refuses_when_full :
    (next? (exec (.bwrite 0 1)
        { openState with level := 1, regN := 99996, rlRun := 3, rlLast := 0x61 })).map
      (fun t => (t.full, t.regN.toNat, t.rlRun.toNat, t.resp)) = some (true, 99996, 3, some ⟨0, 0⟩) := by decide

/-- V93. -/
theorem test_blkopen_opens :
    (next? (exec (.blkopen 1) State.reset)).map (fun t => t.statusWord.toNat) = some 0x54
      ∧ answer (exec (.blkopen 0) openState) = some (3, 0) ∧ answer (exec (.blkopen 2) State.reset) = some (2, 0) := by
  decide

/-- V96. -/
theorem test_bclose_checks :
    answer (exec .bclose State.reset) = some (3, 0)
      ∧ answer (exec .bclose { openState with sinkSel := true, dsSealed := true }) = some (3, 0)
      ∧ (next? (exec .bclose openState)).map (fun t => (t.phase, t.stage.toNat)) = some (.closing, 1) := by decide

/-! ## The stages on "banana" and on the byte 00 (V32, V50, V59, V60, V68, V71 to V75, part 3) -/

/-- V32: "a". -/
theorem test_crcfin :
    (next? (exec .stCrcfin { closingOn [0x61] with stage := 2 })).map (fun t => (t.blockCrc.toNat, t.stage.toNat)) =
      some (0x19939B6B, 3) := by decide

/-- V50. -/
theorem test_bwt_banana :
    (next? (exec .stBwt (uHolds banana 3))).map
        (fun t => ((Memory.slice t.p 0 6).map BitVec.toNat, t.lcolList, t.origPtr.toNat)) =
      some ([5, 3, 1, 0, 4, 2], [0x6E, 0x6E, 0x62, 0x61, 0x61, 0x61], 3) := by decide

/-- V59: equal rotations, unsigned symbols. -/
theorem test_bwt_periodic :
    (next? (exec .stBwt (uHolds [0xFF, 0, 0xFF, 0] 3))).map
        (fun t => ((Memory.slice t.p 0 4).map BitVec.toNat, t.lcolList, t.origPtr.toNat)) =
      some ([1, 3, 0, 2], [0xFF, 0xFF, 0, 0], 2) := by decide

set_option maxRecDepth 4000 in
/-- V60: K, and the used entries. -/
theorem test_symmap_banana :
    (next? (exec .stSymmap (uHolds banana 4))).map (fun t => (t.regK.toNat, t.inUse)) =
      some (3, [(0x61, 1), (0x62, 1), (0x6E, 1)]) := by decide

/-- V60. -/
theorem test_mtf_banana :
    (next? (exec .stMtf
        { uHolds banana 5 with
          lcol := Memory.writeList [] 0 [0x6E, 0x6E, 0x62, 0x61, 0x61, 0x61], regK := 3
          inUse := [(0x61, 1), (0x62, 1), (0x6E, 1)] })).map (fun t => (t.symList, t.regS.toNat)) =
      some ([3, 0, 3, 3, 1, 4], 6) := by decide

/-- V68. -/
theorem test_putRun :
    putRun 10 = [1, 1, 0] ∧ putRun 16 = [1, 0, 0, 0]
      ∧ putRun 899999 = [0, 0, 0, 0, 0, 1, 0, 1, 1, 1, 0, 1, 1, 1, 0, 1, 1, 0, 1] := by decide

/-- V70. -/
theorem test_table_counts :
    [2, 50, 51, 200, 201, 600, 601, 1200, 1201, 2400, 2401, 900000].map (fun n => (numTables n, numGroups n)) =
      [(2, 1), (2, 1), (2, 2), (2, 4), (3, 5), (3, 12), (4, 13), (4, 24), (5, 25), (5, 48), (6, 49), (6, 18000)] := by
  decide

/-- V71. -/
theorem test_huffLengths :
    huffLengths [3, 2, 1] = [1, 2, 2] ∧ huffLengths [1, 2, 3] = [2, 2, 1]
      ∧ huffLengths [1, 1, 0, 3, 1] = [3, 3, 3, 1, 3] ∧ huffLengths [0, 0, 0, 0, 0] = [3, 3, 2, 2, 2] := by decide

/-- 45_huffman.md R290: lengths of one's own choice are taken if they meet the contract, else the default's. -/
theorem test_codeLengths_takes_legal_choices :
    codeLengths [([1, 2, 3], [2, 2, 2])] [1, 2, 3] = [2, 2, 2]
      ∧ codeLengths [([1, 2, 3], [1, 1, 1])] [1, 2, 3] = [2, 2, 1]
      ∧ codeLengths [([1, 2, 3], [2, 2, 2])] [3, 2, 1] = [1, 2, 2] := by decide

/-- V73. -/
theorem test_hsel_banana :
    (next? (exec .stHsel
        { State.reset with
          phase := .closing, stage := 6, regK := 3, regS := 6, sym := Memory.writeList [] 0 [3, 0, 3, 3, 1, 4] })).map
        (fun t => (t.regT.toNat, t.regG.toNat, t.selList, t.lenRow 0, t.lenRow 1)) =
      some (2, 1, [0], [3, 3, 3, 1, 3], [3, 3, 2, 2, 2]) := by decide

/-- V72, V73. -/
theorem test_canonicalCodes :
    canonicalCodes [1, 3, 3, 3, 3] = [0, 4, 5, 6, 7] ∧ canonicalCodes [2, 4, 4, 2, 2, 3] = [0, 14, 15, 1, 2, 6] := by
  decide

/-- V71: first row. -/
theorem test_canon_stage :
    (next? (exec .stCanon
        { State.reset with
          phase := .closing, stage := 7, regK := 1, regT := 2
          len := [(0, 2), (1, 2), (2, 1), (258, 2), (259, 2), (260, 1)] })).map
        (fun t => [t.codeAt 0 0, t.codeAt 0 1, t.codeAt 0 2, t.codeAt 1 0, t.codeAt 1 1, t.codeAt 1 2]) =
      some [2, 3, 0, 2, 3, 0] := by decide

/-- The state of program Z before stage 8. -/
def programZ : State :=
  { State.reset with
    phase := .closing, stage := 8, regN := 1, regK := 1, regS := 2, regT := 2, regG := 1, blockCrc := 0xB1F7404B#32
    inUse := [(0, 1)], sym := [(1, 2)]
    len := [(0, 2), (1, 2), (2, 1), (258, 2), (259, 2), (260, 1)], code := [(0, 2), (1, 3), (258, 2), (259, 3)] }

/-- Program Z of part 3: its 22 bytes and three bits. -/
theorem test_emit_program_z :
    (next? (exec .stEmit programZ)).map (fun t => (sinkView t, t.emitted)) =
      some
        (([0x31, 0x41, 0x59, 0x26, 0x53, 0x59, 0xB1, 0xF7, 0x40, 0x4B, 0x00]
            ++ [0x00, 0x00, 0x40, 0x00, 0x40, 0x00, 0x20, 0x00, 0x21, 0x18, 0x46], 4, 3), true) := by decide

/-- Program D of part 3: 23 records, the CRC slot and the seal. -/
theorem test_emit_program_d :
    (next? (exec .stEmit { programZ with sinkSel := true })).map
        (fun t => ((t.dsLogLen, t.dsCrc.toNat, t.dsSealed), ((logView t).take 3, t.out.length))) =
      some ((23, 0xB1F7404B, true), ([(24, 0x314159), (24, 0x265359), (16, 0xB1F7)], 0)) := by decide

/-- V80, V81. -/
theorem test_length_and_selector_fields :
    (tableOps [3, 3, 3, 1, 3]).flatMap SinkOp.wire = wireBits 17 0b00011000111101010 ++ [false]
      ∧ selectorRanks [0, 1, 2] [2, 2, 0, 1] = [2, 0, 1, 2] := by decide

/-! ## The stream fields (V80, V81, part 3) -/

theorem test_host_fields :
    sinkAfter [.fHeader 9, .fEndMarker, .fStreamCrc 0, .fPadding] State.reset =
      some ([0x42, 0x5A, 0x68, 0x39, 0x17, 0x72, 0x45, 0x38, 0x50, 0x90, 0, 0, 0, 0], 0, 0) := by decide

theorem test_block_fields_of_program_z :
    sinkAfter [.fBlockMagic, .fBlockCrc 0xB1F7404B, .fRandomized, .fOrigPtr 0, .fBigMap 0x8000, .fGroupMap 0x8000,
        .fNTables 2, .fNSelectors 1, .fSelector 0, .fLenStart 2, .fLenDelta false 0, .fLenDelta false 0,
        .fLenDelta true 1, .fLenStart 2, .fLenDelta false 0, .fLenDelta false 0, .fLenDelta true 1, .fSymbol 2 2,
        .fSymbol 1 0] State.reset =
      some
        ([0x31, 0x41, 0x59, 0x26, 0x53, 0x59, 0xB1, 0xF7, 0x40, 0x4B, 0x00]
          ++ [0x00, 0x00, 0x40, 0x00, 0x40, 0x00, 0x20, 0x00, 0x21, 0x18, 0x46], 4, 3) := by decide

theorem test_fLogRecord :
    sinkAfter [.fLogRecord 8 0xFF, .fLogRecord 3 5] State.reset = some ([0xFF], 5, 3) := by decide

/-! ## Control (V90 to V95) -/

/-- V90. -/
theorem test_csrr_after_reset :
    [0x00, 0x01, 0x02, 0x03, 0x05, 0x0D, 0x12, 0x13, 0x14, 0x15].map (fun n =>
        answer (exec (.csrr (BitVec.ofNat 32 n)) State.reset)) =
      [some (0, 9), some (0, 4), some (0, 0x40), some (0, 0), some (0, 0), some (0, 0), some (0, 0xFFFFFFFF),
        some (0, 720000), some (0, 900000), some (2, 0)] := by decide

/-- Part 3, programs Z and D: RSSTATE; V95: STATUS after a fault. -/
theorem test_csrr_packed_words :
    answer (exec (.csrr 0x0E) { State.reset with rsPend := 4, rsCnt := 3 }) = some (0, 0x0403)
      ∧ answer (exec (.csrr 0x02) haltedState) = some (0, 0x41)
      ∧ answer (exec (.csrr 0x0D) (closingOn [])) = some (0, 0x21) := by decide

/-- V91. -/
theorem test_csrw_level :
    [0, 5, 10, 0xFFFFFFFF, 0x7FFFFFFF, 0x80000000].map (fun n =>
        (next? (exec (.csrw 0 (BitVec.ofNat 32 n)) State.reset)).map fun t => t.level.toNat) =
      [some 1, some 5, some 9, some 1, some 9, some 1] := by decide

/-- V92. -/
theorem test_csrw_checks :
    [(1, 0), (1, 256), (2, 0), (0x14, 0), (0x15, 0), (0, 5), (1, 4), (5, 0x1234)].map (fun ab =>
        answer (exec (.csrw (BitVec.ofNat 32 ab.1) (BitVec.ofNat 32 ab.2)) openState)) =
      [some (2, 0), some (2, 0), some (7, 0), some (7, 0), some (2, 0), some (3, 0), some (3, 0), some (0, 0)] := by
  decide

/-- V95. -/
theorem test_reset_after_fault :
    (next? (exec .reset { haltedState with out := [0xDE], level := 3 })).map
        (fun t => (t.fatal, t.cause.toNat, t.out, t.level.toNat)) = some (false, 0, [], 9)
      ∧ answer (exec (.wbitsR 1 0) haltedState) = some (8, 0)
      ∧ answer (step { haltedState with port := [.command 0xFF0000000000000000#72] }) = some (8, 0) := by decide

/-! ## Every statement's hypotheses can be met

`witness_<Name>` meets the hypotheses of `Obligations.<Name>`, clause by clause where it has several. -/

theorem witness_DecodeEncodeAgree :
    isCommand (.wbitsR 25 0) = true ∧ Instr.wf (.wbitsR 25 0) = false
      ∧ Instr.wf (.fLenDelta true 16) = true ∧ Instr.wf .stEmit = true ∧ Instr.wf (.fSymbol 17 0x1FFFF) = true := by
  decide

theorem witness_EveryEncodingHasOneReading :
    decode (.port (.field .selector 8 0b11111110)) = some (.fSelector 7) ∧ Instr.fSelector 7 ≠ .fPadding
      ∧ decode (.stage 8#4) = some .stEmit := by decide

theorem witness_EmittedFieldsAreTheirEncodings :
    blockFieldOps (.fLenDelta true 1) = some [.bits 2 3, .bool 0] ∧ blockFieldOps (.fSelector 5) = some [.unary 5] := by
  decide

theorem witness_StepRunsTheDecodedInstruction :
    (∀ s ∈ [({ State.reset with port := [.command 0x140000000000000000#72] } : State)],
      s.phase ≠ .closing ∧ decode (.port (.command 0x140000000000000000#72)) = some .flushR ∧ s.fatal = false)
    ∧ (∀ s ∈ [({ haltedState with port := [.command 0x030000000300000000#72] } : State)],
      s.phase ≠ .closing ∧ decode (.port (.command 0x030000000300000000#72)) = some (.csrr 3)
        ∧ opOf 0x030000000300000000#72 = 0x03#8)
    ∧ (∀ s ∈ [({ State.reset with port := [.field .nTables 3 2] } : State)],
      s.phase ≠ .closing ∧ decode (.port (.field .nTables 3 2)) = some (.fNTables 2))
    ∧ ((closingOn [0x61]).phase = .closing ∧ decode (.stage (closingOn [0x61]).stage) = some .stRleflush)
    ∧ (∀ s ∈ [({ State.reset with port := [.input 899999 [1, 2]] } : State)],
      s.phase ≠ .closing ∧ s.port = .input 899999 [1, 2] :: [] ∧ Memory.wf s.inMem = true) := by decide

theorem witness_PortHeldWhileClosing :
    (∃ t, (closingOn [0x61]).phase = .closing ∧ step (closingOn [0x61]) = .next t)
      ∧ (∀ s ∈ [({ openState with port := [.command 0x320000000000000000#72] } : State)],
        s.phase ≠ .closing ∧ s.port = .command 0x320000000000000000#72 :: []) :=
  ⟨⟨_, by decide, rfl⟩, by decide⟩

theorem witness_ReservedWordsAreRejected :
    State.reset.phase ≠ .closing ∧ State.reset.fatal = false
      ∧ (∀ op ∈ [0x00, 0x04, 0x15, 0x17, 0x1D, 0x24, 0x2C, 0x33, 0xFF],
          op ∉ [0x01, 0x02, 0x03, 0x10, 0x11, 0x12, 0x13, 0x14, 0x18, 0x19, 0x1A, 0x1B, 0x1C, 0x20, 0x21, 0x22, 0x23,
            0x28, 0x29, 0x2A, 0x2B, 0x30, 0x31, 0x32])
      ∧ (opOf 0x140000000100000000#72).toNat = 0x14 ∧ aOf 0x140000000100000000#72 ≠ 0
      ∧ (opOf 0x300000000000000001#72).toNat = 0x30 ∧ bOf 0x300000000000000001#72 ≠ 0
      ∧ (opOf 0x2B0000000100000000#72).toNat = 0x2B ∧ aOf 0x2B0000000100000000#72 ≠ 0 := by decide

theorem witness_HaltedAfterFatalFault :
    haltedState.phase ≠ .closing ∧ haltedState.fatal = true ∧ opOf 0xFF0000000000000000#72 ≠ 0x01#8
      ∧ opOf 0xFF0000000000000000#72 ≠ 0x03#8 ∧ isCommand .bclose = true ∧ (0x14#32).toNat ≤ 0x14 := by decide

theorem witness_EveryResponseHasItsClass :
    (∃ t r, exec .flushR State.reset = .next t ∧ t.resp = some r ∧ r.st = 0#8)
      ∧ (∃ t r, exec .bclose State.reset = .next t ∧ t.resp = some r ∧ r.st = 3#8)
      ∧ (∃ t r, exec (.wu32R 0) { State.reset with outErr := [true] } = .next t ∧ t.resp = some r ∧ r.st = 0x85#8)
      ∧ State.reset.resp = none :=
  ⟨⟨_, _, rfl, rfl, rfl⟩, ⟨_, _, rfl, rfl, rfl⟩, ⟨_, _, rfl, rfl, rfl⟩, rfl⟩

theorem witness_FatalEntry :
    (∃ t, exec (.wu32D 0) { State.reset with logCap := 1 } = .next t ∧ t.fatal = true)
      ∧ (∃ t, exec .stEmit { programZ with outErr := [true] } = .next t ∧ t.fatal = true)
      ∧ (∃ t, exec (.csrr 3) haltedState = .next t) :=
  ⟨⟨_, rfl, by decide⟩, ⟨_, rfl, by decide⟩, ⟨_, rfl⟩⟩

theorem witness_ResetRestoresEveryRegister :
    (∃ t, exec .reset haltedState = .next t ∧ haltedState.fatal = true ∧ t.fatal = false)
      ∧ (∃ t, (closingOn [0x61]).phase = .closing ∧ step (closingOn [0x61]) = .next t) :=
  ⟨⟨_, rfl, by decide, by decide⟩, ⟨_, by decide, rfl⟩⟩

theorem witness_CsrwChecksAndWrites : State.reset.fatal = false := by decide

theorem witness_CsrrReadsTheFile : 0x14 < (0x15#32).toNat := by decide

theorem witness_WbitsRWritesWithCarry :
    State.reset.fatal = false ∧ State.reset.quiet ∧ (0#32).toNat = 0 ∧ 24 < (25#32).toNat
      ∧ 2 ^ (24#32).toNat ≤ (0x01000000#32).toNat
      ∧ (1 ≤ (1#32).toNat ∧ (1#32).toNat ≤ 24 ∧ (1#32).toNat < 2 ^ (1#32).toNat)
      ∧ (1 ≤ (24#32).toNat ∧ (24#32).toNat ≤ 24 ∧ (0xFFFFFF#32).toNat < 2 ^ (24#32).toNat) := by decide

theorem witness_RealSinkIsABitSequence :
    (∀ ops ∈ [([.bits 24 0xFFFFFF, .bits 1 0, .bool 1, .unary 0, .u32 0xFFFFFFFF] : List SinkOp)],
      (∀ o ∈ ops, SinkOp.legal o = true) ∧ State.reset.sinkOk ∧ State.reset.quiet)
    ∧ (∀ s ∈ [({ State.reset with rsPend := 5, rsCnt := 3, out := [0x42] } : State)],
      s.sinkOk ∧ s.bitSeq = s.bitSeq ∧ 0 < s.out.length) := by decide

theorem witness_RealSinkCommandsWriteTheirBits :
    (∀ s ∈ [({ State.reset with rsPend := 127, rsCnt := 7, outErr := [false] } : State)],
      s.fatal = false ∧ s.sinkOk ∧ s.quiet) ∧ 1 < (2#32).toNat ∧ (1#32).toNat ≤ 1 := by decide

theorem witness_OutputErrorStopsTheWrite :
    (∀ s ∈ [({ State.reset with outErr := [true] } : State)],
      s.fatal = false ∧ s.phase ≠ .closing ∧ s.outErr = List.replicate 0 false ++ true :: []
        ∧ bitsInRange (8#32).toNat (0x42#32).toNat = true ∧ 0 < (s.rsCnt.toNat + (8#32).toNat) / 8)
    ∧ (∀ s ∈ [({ State.reset with outErr := [false, true] } : State)],
      s.outErr = List.replicate 1 false ++ true :: [] ∧ 1 < 2)
    ∧ (∀ s ∈ [({ State.reset with outErr := [false, false, false, true] } : State)],
      s.outErr = List.replicate 3 false ++ true :: [] ∧ 2 ≤ 3 ∧ 3 < 4)
    ∧ (∀ s ∈ [({ State.reset with outErr := [true], rsCnt := 1 } : State)],
      s.rsCnt ≠ 0 ∧ s.outErr = List.replicate 0 false ++ true :: []) := by decide

/-- The first half of WU32.R against an error at its fourth append. -/
theorem witness_OutputErrorStopsTheWrite_second_half :
    ∃ s', rsBits 16 (0xDEADBEEF / 2 ^ 16) { State.reset with outErr := [false, false, false, true] } = .done s' :=
  ⟨_, rfl⟩

theorem witness_WbitsDAppendsARecord :
    State.reset.fatal = false ∧ State.reset.phase ≠ .closing ∧ sealedState.dsSealed = true
      ∧ (∀ s ∈ [({ State.reset with logCap := 0 } : State)],
        s.dsSealed = false ∧ s.dsLogLen = s.logCap)
      ∧ State.reset.dsSealed = false ∧ State.reset.dsLogLen ≠ State.reset.logCap
      ∧ 1 ≤ (24#32).toNat ∧ (24#32).toNat ≤ 24 ∧ (0xFFFFFF#32).toNat < 2 ^ (24#32).toNat := by decide

theorem witness_DeferredCommandsAppendTheirRecords :
    State.reset.fatal = false ∧ State.reset.phase ≠ .closing ∧ 1 < (2#32).toNat ∧ (1#32).toNat ≤ 1
      ∧ (∀ s ∈ [({ State.reset with logCap := 2 } : State)],
        s.dsLogLen ≤ s.logCap ∧ s.dsSealed = false
          ∧ s.dsLogLen + [packRecord 16 0x1234, packRecord 16 0x5678].length ≤ s.logCap
          ∧ s.logCap < s.dsLogLen + [packRecord 8 0xFF, packRecord 1 1, packRecord 1 0].length)
      ∧ sealedState.dsSealed = true := by decide

theorem witness_LogCommands :
    sealedState.fatal = false ∧ sealedState.dsLogLen ≤ (1#32).toNat ∧ (0#32).toNat < sealedState.dsLogLen := by decide

theorem witness_ReplayWritesTheLog :
    State.reset.dsSealed = false ∧ sealedState.fatal = false ∧ sealedState.dsSealed = true ∧ sealedState.sinkOk
      ∧ sealedState.quiet ∧ (∀ r ∈ sealedState.logList, recordLegal r) := by
  refine ⟨by decide, by decide, by decide, by decide, by decide, fun r h => ?_⟩
  rw [show sealedState.logList = [packRecord 3 5] by decide] at h
  obtain rfl := List.mem_singleton.mp h
  show bitsInRange (recordWidth (packRecord 3 5)) (recordValue (packRecord 3 5)) = true
  rw [show recordWidth (packRecord 3 5) = 3 by decide, show recordValue (packRecord 3 5) = 5 by decide]
  decide

theorem witness_SinksAreEquivalent :
    (∀ ops ∈ [([.u32 0x12345678, .bool 1, .bits 24 0x314159] : List SinkOp)],
      (∀ o ∈ ops, SinkOp.legal o = true)
      ∧ ∀ s ∈ [({ State.reset with logCap := 4 } : State)], s.sinkOk ∧ s.quiet ∧ s.dsLogLen = 0
        ∧ (ops.flatMap SinkOp.records).length ≤ s.logCap) := by decide

theorem witness_AppendsKeepRecordsLegal :
    Instr.wbitsD 3 5 ≠ .stEmit ∧ (∀ r ∈ State.reset.logList, recordLegal r)
      ∧ ∃ t, exec (.wbitsD 3 5) State.reset = .next t ∧ t.dsLogLen = 1 :=
  ⟨by decide, fun _ h => (nomatch h), _, rfl, rfl⟩

/-- Stage 8 with legal writes. -/
theorem witness_AppendsKeepRecordsLegal_stage_8 :
    (∀ o ∈ blockOps { programZ with sinkSel := true }, SinkOp.legal o = true)
      ∧ ∃ t, exec .stEmit { programZ with sinkSel := true } = .next t :=
  ⟨by decide, _, rfl⟩

theorem witness_BadOperandRejections :
    State.reset.fatal = false ∧ 2 ^ (1#32).toNat ≤ (2#32).toNat ∧ 1 < (2#32).toNat ∧ 255 < (256#32).toNat
      ∧ 0x14 < (0x15#32).toNat ∧ ((1#32).toNat = 1 ∧ (0#32).toNat = 0)
      ∧ State.reset.inSize < (900000#32).toNat + (1#32).toNat ∧ State.reset.dsLogLen ≤ (0#32).toNat := by decide

theorem witness_BadPhaseRejections :
    openState.fatal = false ∧ openState.phase ≠ .idle ∧ (1#32).toNat ≤ 1 ∧ (255#32).toNat ≤ 255
      ∧ State.reset.phase ≠ .opened ∧ (900000#32).toNat + (0#32).toNat ≤ State.reset.inSize
      ∧ sealedState.dsSealed = true ∧ bitsInRange (24#32).toNat (0#32).toNat = true
      ∧ ({ sealedState with sinkSel := true } : State).sinkSel = true ∧ State.reset.dsSealed = false := by decide

theorem witness_CrcUnitCommands :
    State.reset.fatal = false ∧ State.reset.phase = .idle ∧ openState.phase ≠ .idle ∧ 255 < (256#32).toNat
      ∧ (255#32).toNat ≤ 255 := by decide

theorem witness_BlkopenOpensTheBlock :
    State.reset.fatal = false ∧ 1 < (2#32).toNat ∧ (1#32).toNat ≤ 1 ∧ openState.phase ≠ .idle
      ∧ State.reset.phase = .idle := by decide

theorem witness_AbsorbFollowsTheRunTracker :
    ({ openState with full := true } : State).full = true
      ∧ (∀ r ∈ [0#8, 1#8, 3#8, 254#8],
          ∀ s ∈ [({ openState with rlRun := r, rlLast := 0x61 } : State)],
          s.full = false ∧ s.configOk ∧ s.rlRun.toNat ≤ 254 ∧ Memory.wf s.u = true) := by decide

theorem witness_BwriteAbsorbsUntilRefused :
    openState.fatal = false ∧ openState.inSize < (900000#32).toNat + (1#32).toNat
      ∧ (899998#32).toNat + (2#32).toNat ≤ openState.inSize ∧ State.reset.phase ≠ .opened ∧ openState.phase = .opened
      ∧ openState.configOk := by decide

theorem witness_RefusedByteSticks :
    (∀ s ∈ [({ openState with full := true } : State)],
      s.fatal = false ∧ s.phase = .opened ∧ (0#32).toNat + (2#32).toNat ≤ s.inSize ∧ s.full = true)
    ∧ (∀ s ∈ [({ openState with level := 1, regN := 99999, rlRun := 0 } : State)],
      s.full = false ∧ (next? (exec (.bwrite 0 1) s)).map State.full = some true)
    ∧ (∀ s ∈ [({ State.reset with full := true } : State)],
      s.full = true ∧ (next? (exec (.blkopen 0) s)).map State.full = some false) := by decide

theorem witness_RleRoundTrip :
    ∃ k t, openState.regN = 0 ∧ openState.rlRun = 0 ∧ openState.full = false ∧ openState.configOk
      ∧ Memory.wf openState.u = true ∧ absorbAll [0x61, 0x61, 0x61, 0x61, 0x61, 0x62] openState = (k, t) :=
  ⟨_, _, by decide, by decide, by decide, by decide, by decide, rfl⟩

theorem witness_BcloseStartsTheStages :
    State.reset.fatal = false ∧ State.reset.phase ≠ .opened
      ∧ (∀ s ∈ [({ openState with sinkSel := true, dsSealed := true } : State)],
        s.sinkSel = true ∧ s.dsSealed = true)
      ∧ openState.phase = .opened ∧ openState.sinkSel = false
      ∧ (∀ s ∈ [({ openState with sinkSel := true } : State)],
        s.phase = .opened ∧ s.dsSealed = false) := by decide

theorem witness_ClosingEnds : (closingOn [0x61]).phase = .closing ∧ (closingOn [0x61]).stage = 1#4 := by decide

theorem witness_RleflushStage :
    (Memory.wf (closingOn []).u = true ∧ (closingOn []).regN = 0 ∧ (closingOn []).rlRun = 0)
      ∧ (∀ s ∈ [({ closingOn [] with u := [(0, 0x61)], regN := 1 } : State)],
        Memory.wf s.u = true ∧ s.regN.toNat + 5 < 2 ^ 20 ∧ s.regN ≠ 0 ∧ s.rlRun = 0)
      ∧ ((closingOn [0x61]).regN.toNat + 5 < 2 ^ 20 ∧ (closingOn [0x61]).rlRun ≠ 0) := by decide

theorem witness_BwtStageSortsTheRotations :
    1 ≤ (uHolds banana 3).regN.toNat ∧ Memory.wf (uHolds banana 3).p = true ∧ Memory.wf (uHolds banana 3).lcol = true := by
  decide

theorem witness_SymmapStageMarksTheSymbols : Memory.wf (uHolds banana 4).inUse = true := by decide

/-- One step on a list, and the state stage 5 of "aa" starts from. -/
theorem witness_MtfStageReadsBackAsLcol :
    (0x62#8) ∈ [0x61#8, 0x62#8]
      ∧ (∀ s ∈ [({ State.reset with regN := 2, regK := 1, lcol := [(0, 0x01), (1, 0x01)], inUse := [(1, 1)] } : State)],
        1 ≤ s.regN.toNat ∧ s.regN.toNat ≤ 899999 ∧ Memory.wf s.sym = true ∧ Memory.wf s.mtfList = true
          ∧ ∀ x ∈ s.lcolList, s.used x.toNat = true) := by decide

set_option maxRecDepth 4000 in
/-- The count of used values in that state is its K. -/
theorem witness_MtfStageReadsBackAsLcol_count :
    ({ State.reset with
        regN := 2, regK := 1, lcol := [(0, 0x01), (1, 0x01)], inUse := [(1, 1)] } : State).regK.toNat =
      ((List.range 256).filter
        ({ State.reset with
            regN := 2, regK := 1, lcol := [(0, 0x01), (1, 0x01)], inUse := [(1, 1)] } : State).used).length := by decide

theorem witness_RunCodingIsBijective : 1 ≤ 1 ∧ ∀ d ∈ [1, 0, 1], d ≤ 1 := by decide

theorem witness_HselStageRunsTheRounds :
    (∀ s ∈ [({ State.reset with regK := 1, regS := 2, sym := [(1, 2)] } : State)],
      1 ≤ s.regS.toNat ∧ 1 ≤ s.iter.toNat ∧ s.regK.toNat ≤ 256 ∧ Memory.wf s.sel = true ∧ Memory.wf s.freq = true
        ∧ Memory.wf s.len = true) := by decide

/-- With symbols left, and with none. -/
theorem witness_InitialTablesAreSlices :
    ([1, 1, 0, 3, 1] : List Nat).length = 5 ∧ 0 ≤ 5 ∧ 5 ≤ 5 := by decide

theorem witness_RoundSelectsTheCheapest :
    [[0, 0, 0, 0, 15], [15, 15, 15, 15, 0]] ≠ ([] : List (List Nat))
      ∧ ∀ ys ∈ [[3, 0, 3, 3, 1, 4]], ∀ y ∈ ys, y < 5 := by decide

theorem witness_HuffLengthsFillTheTree :
    [1, 1, 0, 3, 1] ≠ ([] : List Nat) ∧ (∀ l ∈ huffLengths [1, 1, 0, 3, 1], l ≤ 3)
      ∧ (∀ l ∈ huffLengths [7], l ≤ 0) := by decide

theorem witness_HuffLengthsMeetTheContract :
    (3 ≤ [0, 900000, 1].length ∧ [0, 900000, 1].length ≤ 258 ∧ ∀ x ∈ [0, 900000, 1], x ≤ 900000)
      ∧ (3 ≤ (List.replicate 258 1).length ∧ (List.replicate 258 1).length ≤ 258
          ∧ ∀ x ∈ List.replicate 258 1, x ≤ 900000) := by
  refine ⟨by decide, ?_, ?_, fun x h => ?_⟩
  · rw [List.length_replicate]; decide
  · rw [List.length_replicate]
  rw [List.eq_of_mem_replicate h]
  decide

/-- A legal function of one's own on two inputs. -/
theorem witness_HuffLengthsMeetTheContract_choice :
    ∀ f ∈ [[1, 2, 3], [9, 9, 9, 9]],
      (List.replicate f.length 2).length = f.length ∧ (∀ l ∈ List.replicate f.length 2, 1 ≤ l ∧ l ≤ 17)
        ∧ kraftSum 17 (List.replicate f.length 2) ≤ 2 ^ 17 := by decide

theorem witness_CanonStageNumbersTheCodes :
    programZ.regK.toNat ≤ 256 ∧ Memory.wf programZ.code = true ∧ 1 < programZ.regT.toNat := by decide

theorem witness_CanonicalCodesArePrefixFree :
    (∀ l ∈ [2, 2, 1], 1 ≤ l ∧ l ≤ 2) ∧ kraftSum 2 [2, 2, 1] ≤ 2 ^ 2 ∧ kraftSum 2 [2, 2, 1] = 2 ^ 2
      ∧ (∀ l ∈ [17, 17, 17], 1 ≤ l ∧ l ≤ 17) ∧ kraftSum 17 [17, 17, 17] ≤ 2 ^ 17 := by decide

theorem witness_EmitStageWritesTheBlock :
    (∀ g ∈ [2, 2, 0, 1], g < 3) ∧ (∀ o ∈ blockOps programZ, SinkOp.legal o = true) ∧ programZ.sinkSel = false ∧ programZ.sinkOk ∧ programZ.quiet := by
  decide

theorem witness_EmitStageWritesTheBlock_on_the_log :
    (∀ s ∈ [({ programZ with sinkSel := true, logCap := 23 } : State)],
      (∀ o ∈ blockOps s, SinkOp.legal o = true) ∧ s.sinkSel = true
        ∧ s.dsLogLen + ((blockOps s).flatMap SinkOp.records).length ≤ s.logCap) := by decide

theorem witness_StageEightIsLegal :
    (closingOn [0x00]).inv ∧ (closingOn [0x00]).phase = .closing ∧ (closingOn [0x00]).stage = 1#4
      ∧ (next? (core.run 7 (closingOn [0x00]))).map (fun t => (t.phase, t.stage)) = some (.closing, 8#4) :=
  ⟨by decide, by decide⟩

theorem witness_HostFieldsOnTheRealSink :
    haltedState.fatal = true ∧ State.reset.fatal = false ∧ State.reset.sinkOk ∧ State.reset.quiet
      ∧ Instr.wf (.fHeader 1) = true
      ∧ Instr.wf (.fHeader 9) = true ∧ Instr.wf (.fLogRecord 24 0xFFFFFF) = true ∧ Instr.wf (.fHeader 10) = false
      ∧ Instr.wf (.fLogRecord 25 0) = false := by decide

theorem witness_BlockFieldsOnTheBoundSink :
    blockFieldOps (.fNTables 7) = some [.bits 3 7] ∧ Instr.wf (.fNTables 7) = false
      ∧ blockFieldOps (.fNTables 6) = some [.bits 3 6] ∧ Instr.wf (.fNTables 6) = true
      ∧ haltedState.fatal = true ∧ State.reset.fatal = false ∧ State.reset.sinkSel = false ∧ State.reset.sinkOk
      ∧ State.reset.quiet ∧ (∀ s ∈ [({ sealedState with sinkSel := true } : State)],
        s.sinkSel = true ∧ s.dsSealed = true)
      ∧ (∀ s ∈ [({ State.reset with sinkSel := true, logCap := 1 } : State)],
        s.sinkSel = true ∧ s.dsSealed = false
          ∧ s.dsLogLen + (([.bits 3 6] : List SinkOp).flatMap SinkOp.records).length ≤ s.logCap) := by decide

theorem witness_StepKeepsTheInvariant :
    (closingOn [0x61, 0x62]).inv ∧ openState.inv ∧ haltedState.inv
      ∧ (∃ t, step (closingOn [0x61, 0x62]) = .next t) :=
  ⟨by decide, by decide, by decide, ⟨_, rfl⟩⟩

theorem witness_NoStopUnderTheInvariant :
    (∀ s ∈ [({ State.reset with port := [.field .nTables 3 2] } : State)],
      s.inv ∧ (decodeField .nTables 3 2).isSome = true) := by decide

theorem witness_SinksAreAppendOnly :
    ∃ t, exec (.wbitsD 3 5) { State.reset with dsLog := [(0, packRecord 3 5)], dsLogLen := 1 } = .next t
      ∧ Instr.wbitsD 3 5 ≠ .reset ∧ Instr.wbitsD 3 5 ≠ .logclr ∧ t.dsLogLen = 2 :=
  ⟨_, rfl, by decide, by decide, rfl⟩

theorem witness_PhaseMovesOnlyAsListed :
    (∃ t, (∀ st, encode .bclose ≠ .stage st) ∧ openState.phase ≠ .closing ∧ exec .bclose openState = .next t)
      ∧ (∃ t, (∀ st, encode (.blkopen 1) ≠ .stage st) ∧ exec (.blkopen 1) State.reset = .next t) :=
  ⟨⟨_, fun _ h => (nomatch h), by decide, rfl⟩, ⟨_, fun _ h => (nomatch h), rfl⟩⟩

theorem witness_HostSideIsNeverWritten : ∃ t, exec .flushR { State.reset with outErr := [false] } = .next t := ⟨_, rfl⟩

theorem witness_RegistersChangeByTheirWritersOnly :
    ∃ t, exec (.csrw 0 1) State.reset = .next t ∧ Instr.csrw 0 1 ≠ .reset ∧ t.level ≠ State.reset.level :=
  ⟨_, rfl, by decide, by decide⟩

/-- A state that differs from the first one in P, in U beyond N and in DS.LOG beyond DS.LOGLEN. -/
def otherMemories : State :=
  { closingOn [0x61] with u := [(5, 0x62)], p := [(0, 7)], dsLog := [(0, packRecord 3 5)] }

theorem witness_OldMemoryContentDoesNotMatter :
    (closingOn [0x61]).inv ∧ otherMemories.inv ∧ (closingOn [0x61]).phase = .closing ∧ (closingOn [0x61]).stage = 1#4
      ∧ (closingOn [0x61]).port = [] ∧ otherMemories.uList = (closingOn [0x61]).uList
      ∧ otherMemories.logList = (closingOn [0x61]).logList ∧ otherMemories.p ≠ (closingOn [0x61]).p :=
  ⟨by decide, by decide, by decide⟩

end Sys2Proof.Tests
end

section
/-! PROOF. The CSR file (10_state.md R43 to R46, R56, R57): the numbers of its registers, its packed words as sums,
and what CSRW and CSRR do to a state. -/

namespace Sys2Proof.Machine

/-! ## Register numbers -/

/-- `Csr` lists the registers in the order of their numbers (10_state.md R43). -/
theorem toNat_of_csrOf_eq_some {a : U32} {c : Csr} (h : csrOf a = some c) : a.toNat = c.ctorIdx := by
  unfold csrOf at h
  split at h <;> cases h <;> assumption

theorem csrOf_ofNat_ne_none : ∀ n < 21, csrOf (BitVec.ofNat 32 n) ≠ none := by decide

theorem csrOf_eq_none_iff {a : U32} : csrOf a = none ↔ 0x14 < a.toNat := by
  constructor
  · intro h
    by_contra hn
    exact csrOf_ofNat_ne_none a.toNat (by omega) (by rwa [BitVec.ofNat_toNat, BitVec.setWidth_eq])
  · intro h
    cases hc : csrOf a with
    | none => rfl
    | some c =>
      have hn := toNat_of_csrOf_eq_some hc
      cases c <;> simp only [Csr.ctorIdx] at hn <;> omega

/-! ## Packed words (10_state.md R43) -/

/-- A field above `k` bits beside a number of `k` bits. -/
theorem ofNat_or_shiftLeft {n k : Nat} (x : U32) (h : n < 2 ^ k) :
    BitVec.ofNat 32 n ||| (x <<< k) = BitVec.ofNat 32 (n + 2 ^ k * x.toNat) := by
  have hx : x <<< k = BitVec.ofNat 32 (x.toNat <<< k) := BitVec.eq_of_toNat_eq (by simp)
  rw [hx, ← BitVec.ofNat_or, Nat.or_comm, ← Nat.shiftLeft_add_eq_or_of_lt h, Nat.shiftLeft_eq, Nat.add_comm,
    Nat.mul_comm]

theorem bitOf_eq (b : Bool) : bitOf b = BitVec.ofNat 32 (if b then 1 else 0) := by cases b <;> rfl

/-- A flag at bit `k` beside a number of `k` bits. -/
theorem ofNat_or_flag {n k : Nat} (b : Bool) (h : n < 2 ^ k) :
    BitVec.ofNat 32 n ||| (bitOf b <<< k) = BitVec.ofNat 32 (n + if b then 2 ^ k else 0) := by
  rw [ofNat_or_shiftLeft _ h]
  cases b <;> simp [bitOf]

theorem add_flag_lt {n k : Nat} (b : Bool) (h : n < 2 ^ k) : n + (if b then 2 ^ k else 0) < 2 ^ (k + 1) := by
  split <;> omega

theorem statusWord_eq (s : State) :
    s.statusWord = BitVec.ofNat 32
      ((if s.fatal then 1 else 0) + (if s.full then 2 else 0) + (if s.phase = .opened then 4 else 0)
        + (if s.emitted then 8 else 0) + (if s.sinkSel then 16 else 0) + (if s.dsSealed then 32 else 0)
        + (if s.regN = 0 ∧ s.rlRun = 0 then 64 else 0)) := by
  have h0 : (if s.fatal then 1 else 0) < 2 ^ 1 := by split <;> decide
  have h1 := add_flag_lt s.full h0
  have h2 := add_flag_lt (decide (s.phase = .opened)) h1
  have h3 := add_flag_lt s.emitted h2
  have h4 := add_flag_lt s.sinkSel h3
  have h5 := add_flag_lt s.dsSealed h4
  rw [State.statusWord, bitOf_eq s.fatal, ofNat_or_flag _ h0, ofNat_or_flag _ h1, ofNat_or_flag _ h2,
    ofNat_or_flag _ h3, ofNat_or_flag _ h4, ofNat_or_flag _ h5]
  simp [State.empty]

theorem seqWord_eq (s : State) :
    s.seqWord = BitVec.ofNat 32 (s.stage.toNat + 2 ^ 4 * (Phase.number s.phase).toNat) := by
  rw [State.seqWord, ← BitVec.ofNat_toNat, ofNat_or_shiftLeft _ s.stage.isLt]

theorem rsStateWord_eq (s : State) :
    s.rsStateWord = BitVec.ofNat 32 (s.rsCnt.toNat + 2 ^ 8 * s.rsPend.toNat) := by
  have hp : (s.rsPend.setWidth 32).toNat = s.rsPend.toNat := BitVec.toNat_setWidth_of_le (by omega)
  rw [State.rsStateWord, ← BitVec.ofNat_toNat 32 s.rsCnt, ofNat_or_shiftLeft _ (by omega), hp]

/-! ## CSRW (10_state.md R56) -/

theorem exec_csrw_none {s : State} {a : U32} (b : U32) (hf : s.fatal = false) (h : csrOf a = none) :
    exec (.csrw a b) s = s.rejectedWith 0x02#8 := by
  simp [exec, execCsrw, hf, h, rejected_eq, RejectCode.status]

theorem exec_csrw_some {s : State} {a : U32} {c : Csr} (b : U32) (hf : s.fatal = false) (h : csrOf a = some c) :
    exec (.csrw a b) s = writeCsr c b s := by
  simp [exec, execCsrw, hf, h]

theorem iterInRange_iff {b : U32} : iterInRange b = true ↔ 1 ≤ b.toNat ∧ b.toNat ≤ 255 := by
  simp [iterInRange]

/-- Every register but LEVEL, ITER and STREAM_CRC is read-only. -/
theorem writeCsr_readOnly {c : Csr} (b : U32) (s : State) (h0 : c ≠ .level) (h1 : c ≠ .iter) (h5 : c ≠ .streamCrc) :
    writeCsr c b s = s.rejectedWith 0x07#8 := by
  cases c
  case level | iter | streamCrc => contradiction
  all_goals rfl

theorem writeCsr_level (b : U32) (s : State) :
    writeCsr .level b s =
      if s.phase ≠ .idle then s.rejectedWith 0x03#8
      else ({ s with level := BitVec.ofNat 4 (min 9 (max 1 b.toInt)).toNat } : State).doneWith 0 := rfl

theorem writeCsr_iter (b : U32) (s : State) :
    writeCsr .iter b s =
      if ¬(1 ≤ b.toNat ∧ b.toNat ≤ 255) then s.rejectedWith 0x02#8
      else if s.phase ≠ .idle then s.rejectedWith 0x03#8
      else ({ s with iter := BitVec.ofNat 8 b.toNat } : State).doneWith 0 := by
  simp only [← iterInRange_iff, Bool.not_eq_true, BitVec.ofNat_toNat]
  rfl

/-- Settles O12, by the register the number names. -/
theorem csrwChecksAndWrites : Obligations.CsrwChecksAndWrites := by
  refine ⟨fun s a b hf => ?_, fun b => by omega, rfl, rfl⟩
  cases h : csrOf a with
  | none => rw [exec_csrw_none b hf h, if_pos (csrOf_eq_none_iff.mp h)]
  | some c =>
    rw [exec_csrw_some b hf h, toNat_of_csrOf_eq_some h]
    cases c
    case level => simp [writeCsr_level, Csr.ctorIdx]
    case iter => simp [writeCsr_iter, Csr.ctorIdx]
    case streamCrc => rfl
    all_goals exact writeCsr_readOnly b s nofun nofun nofun

/-! ## CSRR (10_state.md R57) -/

theorem exec_csrr_none {a : U32} (s : State) (h : csrOf a = none) : exec (.csrr a) s = s.rejectedWith 0x02#8 := by
  simp [exec, execCsrr, h, rejected_eq, RejectCode.status]

theorem exec_csrr_some {s : State} {a v : U32} (c : Csr) (h : csrOf a = some c) (hv : readCsr c s = v) :
    exec (.csrr a) s = s.doneWith v := by
  simp [exec, execCsrr, h, hv, done_eq]

/-- The response shows the low half of OUTLEN. -/
theorem readCsr_outLenLo (s : State) : readCsr .outLenLo s = BitVec.ofNat 32 s.out.length :=
  BitVec.setWidth_ofNat_of_le (by omega) _

/-- Settles O13, register by register. -/
theorem csrrReadsTheFile : Obligations.CsrrReadsTheFile := fun s =>
  ⟨fun _ h => exec_csrr_none s (csrOf_eq_none_iff.mpr h),
    exec_csrr_some .level rfl (BitVec.ofNat_toNat _ _).symm,
    exec_csrr_some .iter rfl (BitVec.ofNat_toNat _ _).symm,
    exec_csrr_some .status rfl (statusWord_eq s),
    exec_csrr_some .cause rfl (BitVec.ofNat_toNat _ _).symm,
    exec_csrr_some .blockCrc rfl rfl,
    exec_csrr_some .streamCrc rfl rfl,
    exec_csrr_some .n rfl (BitVec.ofNat_toNat _ _).symm,
    exec_csrr_some .rawCnt rfl rfl,
    exec_csrr_some .origPtr rfl (BitVec.ofNat_toNat _ _).symm,
    exec_csrr_some .nSym rfl (BitVec.ofNat_toNat _ _).symm,
    exec_csrr_some .nTables rfl (BitVec.ofNat_toNat _ _).symm,
    exec_csrr_some .nSel rfl (BitVec.ofNat_toNat _ _).symm,
    exec_csrr_some .nUsed rfl (BitVec.ofNat_toNat _ _).symm,
    exec_csrr_some .seq rfl ((seqWord_eq s).trans (by cases s.phase <;> rfl)),
    exec_csrr_some .rsState rfl (rsStateWord_eq s),
    exec_csrr_some .outLenLo rfl (readCsr_outLenLo s),
    exec_csrr_some .logLen rfl rfl,
    exec_csrr_some .logCrc rfl rfl,
    exec_csrr_some .crcAcc rfl rfl,
    exec_csrr_some .rbs rfl rfl,
    exec_csrr_some .cbs rfl rfl⟩

end Sys2Proof.Machine
end

section
/-! PROOF. Rejections of command words and operands (30_encoding.md R105, R106): the words the decoder refuses, what
the port makes of them, and the operand checks of the meanings. -/

namespace Sys2Proof.Machine

/-! ## Words the decoder refuses (R106) -/

theorem decodeOp_unlisted {op : Nat} (a b : U32)
    (h : op ∉ [0x01, 0x02, 0x03, 0x10, 0x11, 0x12, 0x13, 0x14, 0x18, 0x19, 0x1A, 0x1B, 0x1C, 0x20, 0x21, 0x22, 0x23,
      0x28, 0x29, 0x2A, 0x2B, 0x30, 0x31, 0x32]) :
    decodeOp op a b = .error .illegalOp := by
  unfold decodeOp
  split
  case h_25 => rfl
  all_goals exact absurd (by decide) h

/-- The opcodes whose commands use neither operand. -/
theorem decodeOp_eq_noOperand {op : Nat} (h : op ∈ [0x01, 0x14, 0x1C, 0x21, 0x22, 0x28, 0x2A, 0x32]) :
    ∃ i, ∀ a b, decodeOp op a b = noOperand i a b := by
  fin_cases h <;> exact ⟨_, fun _ _ => rfl⟩

/-- The opcodes whose commands use `a` alone. -/
theorem decodeOp_eq_onlyA {op : Nat} (h : op ∈ [0x03, 0x23, 0x30]) :
    ∃ i, ∀ a b, decodeOp op a b = onlyA i a b := by
  fin_cases h <;> exact ⟨_, fun _ _ => rfl⟩

/-- The opcodes whose commands use `b` alone. -/
theorem decodeOp_eq_onlyB {op : Nat} (h : op ∈ [0x11, 0x12, 0x13, 0x19, 0x1A, 0x1B, 0x20, 0x29, 0x2B]) :
    ∃ i, ∀ a b, decodeOp op a b = onlyB i a b := by
  fin_cases h <;> exact ⟨_, fun _ _ => rfl⟩

theorem noOperand_nonzero (i : Instr) {a b : U32} (h : a ≠ 0 ∨ b ≠ 0) : noOperand i a b = .error .badOperand :=
  if_neg fun hz => h.elim (· hz.1) (· hz.2)

theorem onlyA_nonzero (i : U32 → Instr) (a : U32) {b : U32} (h : b ≠ 0) : onlyA i a b = .error .badOperand :=
  if_neg h

theorem onlyB_nonzero (i : U32 → Instr) {a : U32} (b : U32) (h : a ≠ 0) : onlyB i a b = .error .badOperand :=
  if_neg h

/-! ## The port (60_exceptions.md R370) -/

/-- A word the port does not accept leaves the port, and its rejection is all that changes. -/
theorem step_of_not_accepted {s : State} {w : CommandWord} {rest : List Slot} {c : RejectCode}
    (hphase : s.phase ≠ .closing) (hport : s.port = .command w :: rest) (h : acceptCommand s.fatal w = .error c) :
    step s = ({ s with port := rest } : State).rejectedWith (RejectCode.status c) := by
  have hfetch : fetch s = .bad c (s.taken rest) := by simp [fetch, fetchSlot, hphase, hport, h]
  rw [step, hfetch]
  rfl

/-- While FATAL = 0 a word is accepted just when it decodes. -/
theorem acceptCommand_of_not_fatal {fatal : Bool} (w : CommandWord) (h : fatal = false) :
    acceptCommand fatal w = decodeOp (opOf w).toNat (aOf w) (bOf w) := by
  subst h
  rfl

/-- Settles O7, by the class of the opcode. -/
theorem reservedWordsAreRejected : Obligations.ReservedWordsAreRejected := by
  intro s w rest hphase hf hport
  have reject : ∀ c, decodeOp (opOf w).toNat (aOf w) (bOf w) = .error c →
      step s = ({ s with port := rest } : State).rejectedWith (RejectCode.status c) := fun c h =>
    step_of_not_accepted hphase hport ((acceptCommand_of_not_fatal w hf).trans h)
  refine ⟨fun hop => ?_, fun hop hab => ?_, fun hop hb => ?_, fun hop ha => ?_⟩
  · exact reject .illegalOp (decodeOp_unlisted _ _ hop)
  · obtain ⟨i, hi⟩ := decodeOp_eq_noOperand hop
    exact reject .badOperand ((hi _ _).trans (noOperand_nonzero i hab))
  · obtain ⟨i, hi⟩ := decodeOp_eq_onlyA hop
    exact reject .badOperand ((hi _ _).trans (onlyA_nonzero i _ hb))
  · obtain ⟨i, hi⟩ := decodeOp_eq_onlyB hop
    exact reject .badOperand ((hi _ _).trans (onlyB_nonzero i _ ha))

/-! ## Operand checks of the meanings (R105) -/

theorem bitsInRange_eq_false_iff {w v : Nat} : bitsInRange w v = false ↔ w = 0 ∨ 24 < w ∨ 2 ^ w ≤ v := by
  rw [← Bool.not_eq_true]
  simp only [bitsInRange, Bool.and_eq_true, decide_eq_true_eq, not_and_or, not_le, not_lt, Nat.lt_one_iff]
  rfl

/-- The checks every meaning begins with, HALTED and then its operands (60_exceptions.md R385), at an illegal
operand. -/
theorem rejected_of_badOperand {s : State} {bad : Prop} [Decidable bad] (r : Result) (hf : s.fatal = false)
    (h : bad) :
    (if s.fatal then rejected s .halted else if bad then rejected s .badOperand else r) = s.rejectedWith 0x02#8 := by
  rw [hf, if_neg Bool.false_ne_true, if_pos h]
  rfl

/-- Settles O24, by the check of each meaning; CSRW's and CSRR's are those of O12 and O13. -/
theorem badOperandRejections : Obligations.BadOperandRejections := by
  intro s a b hf
  have csrw := csrwChecksAndWrites.1 s a b hf
  refine ⟨fun h => ?bits, fun h => ?bool, fun h => ?crcupd, fun h => ?blkopen, fun h => ?csrNumber, fun ha hb => ?iter,
    fun h => ?bwrite, fun h => ?logrd⟩
  case bits =>
    have hbits := bitsInRange_eq_false_iff.mpr h
    exact ⟨rejected_of_badOperand _ hf hbits, rejected_of_badOperand _ hf hbits⟩
  case bool => exact ⟨rejected_of_badOperand _ hf h, rejected_of_badOperand _ hf h⟩
  case crcupd => exact rejected_of_badOperand _ hf h
  case blkopen => exact rejected_of_badOperand _ hf h
  case csrNumber => exact ⟨exec_csrr_none s (csrOf_eq_none_iff.mpr h), csrw.trans (if_pos h)⟩
  case iter => rw [csrw, if_neg (by omega), if_pos ⟨ha, by omega⟩]
  case bwrite => exact rejected_of_badOperand _ hf h
  case logrd => exact rejected_of_badOperand _ hf h

end Sys2Proof.Machine
end

section
/-! PROOF. The real sink is a bit sequence (40_bitsink.md R141 to R146): what a write takes into the sequence and how
writes chain, that the sequence settles OUT and the pending bits, and the commands that write it. -/

namespace Sys2Proof.Machine

/-! ## The bit sequence -/

theorem length_bitSeq (s : State) : s.bitSeq.length = 8 * s.out.length + s.rsCnt.toNat := by
  simp [State.bitSeq, Nat.mul_comm]

/-- The bits of byte `j` stand at bit `8 * j` of a list of bytes, whatever follows them. -/
theorem take_drop_flatMap_wireBits (bs : List Byte) (rest : List Bool) {j : Nat} (h : j < bs.length) :
    (((bs.flatMap fun b => wireBits 8 b.toNat) ++ rest).drop (8 * j)).take 8 = wireBits 8 bs[j].toNat := by
  induction bs generalizing j with
  | nil => exact absurd h (Nat.not_lt_zero j)
  | cons b bs ih =>
    rw [List.flatMap_cons, List.append_assoc]
    cases j with
    | zero => exact List.take_left' (length_wireBits 8 _)
    | succ j =>
      rw [show 8 * (j + 1) = 8 + 8 * j by omega, ← List.drop_drop, List.drop_left' (length_wireBits 8 _)]
      exact ih (Nat.lt_of_succ_lt_succ h)

/-- Reading eight bits back in wire order gives the byte. -/
theorem ofBoolListBE_wireBits (b : Byte) : (BitVec.ofBoolListBE (wireBits 8 b.toNat)).setWidth 8 = b := by
  refine BitVec.eq_of_getLsbD_eq fun i hi => ?_
  have h7 : 7 - (7 - i) = i := by omega
  rw [BitVec.getLsbD_setWidth, BitVec.getLsbD_ofBoolListBE, ← BitVec.testBit_toNat b]
  simp [hi, wireBits, List.getElem?_range (show 7 - i < 8 by omega), h7]

theorem out_getElem?_of_bitSeq (s : State) {j : Nat} (h : j < s.out.length) :
    s.out[j]? = some (BitVec.ofBoolListBE ((s.bitSeq.drop (8 * j)).take 8) |>.setWidth 8) := by
  rw [State.bitSeq, take_drop_flatMap_wireBits _ _ h, ofBoolListBE_wireBits]
  exact List.getElem?_eq_getElem h

/-- The bit sequence settles OUT, RS.CNT and RS.PEND (R146). -/
theorem real_sink_eq_of_bitSeq_eq {s t : State} (hs : s.sinkOk) (ht : t.sinkOk) (h : s.bitSeq = t.bitSeq) :
    s.out = t.out ∧ s.rsCnt = t.rsCnt ∧ s.rsPend = t.rsPend := by
  have hlen := congrArg List.length h
  rw [length_bitSeq, length_bitSeq] at hlen
  have hcnt : s.rsCnt = t.rsCnt := BitVec.eq_of_toNat_eq (by omega)
  have hout : s.out = t.out := by
    refine List.ext_getElem? fun j => ?_
    by_cases hj : j < s.out.length
    · rw [out_getElem?_of_bitSeq s hj, out_getElem?_of_bitSeq t (by omega), h]
    · rw [List.getElem?_eq_none (by omega), List.getElem?_eq_none (by omega)]
  refine ⟨hout, hcnt, BitVec.eq_of_toNat_eq (wireBits_inj hs (hcnt ▸ ht) ?_)⟩
  rw [State.bitSeq, State.bitSeq, hout, ← hcnt] at h
  exact List.append_cancel_left h

/-! ## What a write takes into the sequence -/

/-- The real sink of `s` took these bits, which gives `t`: nothing else differs, and the next write finds what this
one found. -/
structure State.Took (s t : State) (bits : List Bool) : Prop where
  bitSeq : t.bitSeq = s.bitSeq ++ bits
  sinkOk : t.sinkOk
  quiet : t.quiet
  only : s.onlyRealSink t

theorem State.Took.length_eq {s t : State} {bits : List Bool} (h : s.Took t bits) :
    8 * t.out.length + t.rsCnt.toNat = 8 * s.out.length + s.rsCnt.toNat + bits.length := by
  rw [← length_bitSeq, ← length_bitSeq, h.bitSeq, List.length_append]

/-- How many bytes were appended. -/
theorem State.Took.length_out {s t : State} {bits : List Bool} (h : s.Took t bits) :
    t.out.length = s.out.length + (s.rsCnt.toNat + bits.length) / 8 := by
  have hlen := h.length_eq
  omega

/-- How many bits are left pending. -/
theorem State.Took.rsCnt {s t : State} {bits : List Bool} (h : s.Took t bits) :
    t.rsCnt.toNat = (s.rsCnt.toNat + bits.length) % 8 := by
  have hlen := h.length_eq
  omega

theorem State.Took.refl {s : State} (hs : s.sinkOk) (hq : s.quiet) : s.Took s [] :=
  ⟨by simp, hs, hq, by simp [State.onlyRealSink]⟩

theorem State.Took.trans {a b c : State} {x y : List Bool} (h1 : a.Took b x) (h2 : b.Took c y) :
    a.Took c (x ++ y) where
  bitSeq := by rw [h2.bitSeq, h1.bitSeq, List.append_assoc]
  sinkOk := h2.sinkOk
  quiet := h2.quiet
  only := h1.only.trans h2.only (h1.length_out ▸ Nat.le_add_right _ _) (h2.length_out ▸ Nat.le_add_right _ _)

theorem State.Took.dsLog {s t : State} {bits : List Bool} (h : s.Took t bits) : t.dsLog = s.dsLog := by
  rw [h.only]

/-- This outcome of writes from `s` is that the real sink took these bits. -/
def Io.Writes (x : Io) (s : State) (bits : List Bool) : Prop := ∃ t, x = .done t ∧ s.Took t bits

theorem Io.Writes.refl {s : State} (hs : s.sinkOk) (hq : s.quiet) : (Io.done s).Writes s [] :=
  ⟨s, rfl, .refl hs hq⟩

theorem Io.Writes.bind {x : Io} {f : State → Io} {s : State} {a b : List Bool} (hx : x.Writes s a)
    (hf : ∀ t, s.Took t a → (f t).Writes t b) : (x.bind f).Writes s (a ++ b) := by
  obtain ⟨t, rfl, ht⟩ := hx
  obtain ⟨u, hu, htu⟩ := hf t ht
  exact ⟨u, hu, ht.trans htu⟩

/-- A command that ends with such writes. -/
theorem Io.Writes.finish {x : Io} {s : State} {bits : List Bool} (h : x.Writes s bits) (v : U32) :
    ∃ t, x.finish v = .next t ∧ s.wroteReal t bits v
      ∧ t.out.length = s.out.length + (s.rsCnt.toNat + bits.length) / 8
      ∧ t.rsCnt.toNat = (s.rsCnt.toNat + bits.length) % 8 := by
  obtain ⟨t, rfl, ht⟩ := h
  refine ⟨t.respond v, rfl, ⟨ht.bitSeq, ht.sinkOk, ?_⟩, ht.length_out, ht.rsCnt⟩
  conv_lhs => rw [ht.only]
  rfl

/-! ## The operations -/

theorem rsBits_writes {w v : Nat} {s : State} (hv : v < 2 ^ w) (hs : s.sinkOk) (hq : s.quiet) :
    (rsBits w v s).Writes s (wireBits w v) := by
  obtain ⟨t, hdone, hseq, hok, hquiet, honly⟩ := rsBits_wire w v hv hs hq
  exact ⟨t, hdone, hseq, hok, hquiet, honly⟩

theorem rsOnes_writes (n : Nat) {s : State} (hs : s.sinkOk) (hq : s.quiet) :
    (rsOnes n s).Writes s (List.replicate n true) := by
  induction n generalizing s with
  | zero => exact .refl hs hq
  | succ n ih => exact (rsBits_writes (by decide) hs hq).bind fun t ht => ih ht.sinkOk ht.quiet

theorem rsUnary_writes (n : Nat) {s : State} (hs : s.sinkOk) (hq : s.quiet) :
    (rsUnary n s).Writes s (List.replicate n true ++ [false]) :=
  (rsOnes_writes n hs hq).bind fun _ ht => rsBits_writes (by decide) ht.sinkOk ht.quiet

/-- A word is its high half, then its low half. -/
theorem wireBits_halves (v : Nat) : wireBits 16 (v / 2 ^ 16) ++ wireBits 16 (v % 2 ^ 16) = wireBits 32 v := by
  rw [wireBits_mod, ← wireBits_add]

theorem rsU32_writes {v : Nat} {s : State} (hv : v < 2 ^ 32) (hs : s.sinkOk) (hq : s.quiet) :
    (rsU32 v s).Writes s (wireBits 32 v) := by
  rw [← wireBits_halves]
  exact (rsBits_writes (by omega) hs hq).bind fun _ ht => rsBits_writes (by omega) ht.sinkOk ht.quiet

theorem bitsInRange_iff {w v : Nat} : bitsInRange w v = true ↔ 1 ≤ w ∧ w ≤ 24 ∧ v < 2 ^ w := by
  simp only [bitsInRange, Bool.and_eq_true, decide_eq_true_eq]
  rfl

theorem SinkOp.real_writes {o : SinkOp} {s : State} (ho : o.legal = true) (hs : s.sinkOk) (hq : s.quiet) :
    (o.real s).Writes s o.wire := by
  cases o with
  | bits w v => exact rsBits_writes (bitsInRange_iff.mp ho).2.2 hs hq
  | bool b => exact rsBits_writes (Nat.lt_succ_of_le (of_decide_eq_true ho)) hs hq
  | unary n => exact rsUnary_writes n hs hq
  | u32 v => exact rsU32_writes (of_decide_eq_true ho) hs hq

theorem runReal_writes {ops : List SinkOp} {s : State} (hops : ∀ o ∈ ops, o.legal = true) (hs : s.sinkOk)
    (hq : s.quiet) : (runReal ops s).Writes s (ops.flatMap SinkOp.wire) := by
  induction ops generalizing s with
  | nil => exact .refl hs hq
  | cons o ops ih =>
    obtain ⟨ho, hops⟩ := List.forall_mem_cons.mp hops
    exact (SinkOp.real_writes ho hs hq).bind fun t ht => ih hops ht.sinkOk ht.quiet

/-! ## `RS.PEND < 2^RS.CNT`, whatever the outcome (R146, R147) -/

theorem Io.bind_keeps {P : State → Prop} {x : Io} {f : State → Io} (hx : P x.state)
    (hf : ∀ t, P t → P (f t).state) : P (x.bind f).state := by
  cases x with
  | done t => exact hf t hx
  | failed c t => exact hx

theorem rsOnes_sinkOk (n : Nat) {s : State} (hs : s.sinkOk) : (rsOnes n s).state.sinkOk := by
  induction n generalizing s with
  | zero => exact hs
  | succ n ih => exact Io.bind_keeps (P := State.sinkOk) (rsBits_sinkOk 1 1 hs) fun _ => ih

theorem SinkOp.real_sinkOk (o : SinkOp) {s : State} (hs : s.sinkOk) : (o.real s).state.sinkOk := by
  cases o with
  | bits w v => exact rsBits_sinkOk w v hs
  | bool b => exact rsBits_sinkOk 1 b hs
  | unary n => exact Io.bind_keeps (P := State.sinkOk) (rsOnes_sinkOk n hs) fun _ => rsBits_sinkOk 1 0
  | u32 v => exact Io.bind_keeps (P := State.sinkOk) (rsBits_sinkOk _ _ hs) fun _ => rsBits_sinkOk _ _

theorem runReal_sinkOk (ops : List SinkOp) {s : State} (hs : s.sinkOk) : (runReal ops s).state.sinkOk := by
  induction ops generalizing s with
  | nil => exact hs
  | cons o ops ih => exact Io.bind_keeps (P := State.sinkOk) (o.real_sinkOk hs) fun _ => ih

theorem rsFlush_sinkOk {s : State} (hs : s.sinkOk) : (rsFlush s).state.sinkOk := by
  rw [rsFlush]
  split
  · exact hs
  · have hpending := appendOut_pending (BitVec.ofNat 8 (s.rsPend.toNat * 2 ^ (8 - s.rsCnt.toNat))) s
    refine Io.bind_keeps (P := State.sinkOk) ?_ fun _ _ => Nat.one_pos
    rwa [State.sinkOk, hpending.1, hpending.2]

/-- A property of the state an outcome leaves, case by case. -/
theorem Io.match_of_state {P : State → Prop} : ∀ {x : Io}, P x.state →
    match x with
    | .done t => P t
    | .failed _ t => P t
  | .done _, h => h
  | .failed _ _, h => h

/-- Settles O15: the invariant by induction on the operations, and what they write likewise. -/
theorem realSinkIsABitSequence : Obligations.RealSinkIsABitSequence := by
  refine ⟨by decide, fun ops s _ hs => ?_, fun s hs => ?_, fun ops s hops hs hq => ?_,
    fun s t => real_sink_eq_of_bitSeq_eq, fun s j => out_getElem?_of_bitSeq s⟩
  · exact Io.match_of_state (P := State.sinkOk) (runReal_sinkOk ops hs)
  · exact Io.match_of_state (P := State.sinkOk) (rsFlush_sinkOk hs)
  · obtain ⟨t, hdone, ht⟩ := runReal_writes hops hs hq
    exact ⟨t, hdone, ht.bitSeq, ht.only⟩

/-! ## The commands -/

/-- Settles O14: the checks, then `rs_bits` with no failing append. -/
theorem wbitsRWritesWithCarry : Obligations.WbitsRWritesWithCarry := by
  intro s w v hf
  refine ⟨fun h => ((badOperandRejections s w v hf).1 h).1, fun h1 h24 hv hq => ?_⟩
  have hrange : bitsInRange w.toNat v.toNat = true := bitsInRange_iff.mpr ⟨h1, h24, hv⟩
  have hbytes : ∀ x : Nat, BitVec.ofNat 8 (x % 256) = BitVec.ofNat 8 x := fun x => BitVec.eq_of_toNat_eq (by simp)
  simp only [exec, execWbitsR, hf, hrange, rsBits_quiet _ _ hq, hbytes]
  rfl

/-- FLUSH.R when no append fails (R145). -/
theorem rsFlush_quiet {s : State} (hcnt : s.rsCnt ≠ 0) (hq : s.quiet) :
    rsFlush s = .done { s with
      out := s.out ++ [BitVec.ofNat 8 (s.rsPend.toNat * 2 ^ (8 - s.rsCnt.toNat))]
      outErr := s.outErr.drop 1, rsPend := 0, rsCnt := 0 } := by
  rw [rsFlush, if_neg hcnt, appendOut_quiet _ hq]
  rfl

theorem wireBits_one {b : Nat} (h : b ≤ 1) : wireBits 1 b = [decide (b = 1)] := by
  interval_cases b <;> rfl

/-- Settles O16, command by command. -/
theorem realSinkCommandsWriteTheirBits : Obligations.RealSinkCommandsWriteTheirBits := by
  intro s hf hs hq
  have hfatal : ¬s.fatal = true := ne_true_of_eq_false hf
  refine ⟨fun b h => ((badOperandRejections s 0 b hf).2.1 h).1, fun b hb => ?wbool, fun n => ?wunary, fun v => ?wu32,
    ?flush⟩
  case wbool =>
    obtain ⟨t, hnext, ht, -, -⟩ := (rsBits_writes (w := 1) (Nat.lt_succ_of_le hb) hs hq).finish 0
    exact ⟨t, (if_neg hfatal).trans ((if_neg (Nat.not_lt_of_le hb)).trans hnext), wireBits_one hb ▸ ht⟩
  case wunary =>
    obtain ⟨t, hnext, ht, hlen, -⟩ := (rsUnary_writes n.toNat hs hq).finish 0
    exact ⟨t, (if_neg hfatal).trans hnext, ht, by simpa [Nat.add_assoc] using hlen⟩
  case wu32 =>
    obtain ⟨t, hnext, ht, hlen, hcnt⟩ := (rsU32_writes v.isLt hs hq).finish 0
    rw [length_wireBits] at hlen hcnt
    exact ⟨t, (if_neg hfatal).trans hnext, ht, by omega, BitVec.eq_of_toNat_eq (by omega)⟩
  case flush =>
    split
    case isTrue hcnt => simp [exec, execFlushR, hf, rsFlush, hcnt, State.respond]
    case isFalse hcnt => simp [exec, execFlushR, hf, rsFlush_quiet hcnt hq, State.respond]

end Sys2Proof.Machine
end

section
/-! PROOF. The deferred sink (40_bitsink.md R150 to R153, R157, R159): every operation is one append of its records,
which succeeds as far as they fit; replaying a log writes the bits of its records; and the records of an operation
carry the operation's bits, so that logging and replaying is writing. -/

namespace Sys2Proof.Machine

/-! ## Records -/

theorem recordWire_packRecord {w v : Nat} (hw : w < 32) (hv : v < 2 ^ 24) :
    recordWire (packRecord w v) = wireBits w v := by
  rw [recordWire, recordWidth_packRecord v hw, recordValue_packRecord w hv]

theorem lt_two_pow_24_of_bitsInRange {w v : Nat} (h : bitsInRange w v = true) : v < 2 ^ 24 := by
  obtain ⟨-, hw, hv⟩ := bitsInRange_iff.mp h
  exact hv.trans_le (Nat.pow_le_pow_right Nat.two_pos hw)

/-- The record of a legal write is legal and stands for the same bits. -/
theorem packRecord_of_bitsInRange {w v : Nat} (h : bitsInRange w v = true) :
    recordLegal (packRecord w v) ∧ recordWire (packRecord w v) = wireBits w v := by
  have hw : w < 32 := Nat.lt_of_le_of_lt (bitsInRange_iff.mp h).2.1 (by decide)
  have hv := lt_two_pow_24_of_bitsInRange h
  refine ⟨?_, recordWire_packRecord hw hv⟩
  rwa [recordLegal, recordWidth_packRecord v hw, recordValue_packRecord w hv]

theorem recordLegal_ne_zero {r : BitVec 29} (h : recordLegal r) : r ≠ 0#29 := by
  rintro rfl
  exact absurd h (by decide)

/-- The ones that do not fill a record of eight (R152). -/
theorem bitsInRange_ones {n : Nat} (h : n % 8 ≠ 0) : bitsInRange (n % 8) (2 ^ (n % 8) - 1) = true :=
  bitsInRange_iff.mpr ⟨by omega, by omega, Nat.sub_one_lt (by positivity)⟩

/-- A legal operation logs legal records. -/
theorem SinkOp.records_legal {o : SinkOp} (ho : o.legal = true) : ∀ r ∈ o.records, recordLegal r := by
  have pack : ∀ {w v : Nat}, bitsInRange w v = true → recordLegal (packRecord w v) := fun h =>
    (packRecord_of_bitsInRange h).1
  cases o with
  | bits w v => exact List.forall_mem_singleton.mpr (pack ho)
  | bool b =>
    have hb : b ≤ 1 := of_decide_eq_true ho
    exact List.forall_mem_singleton.mpr (pack (bitsInRange_iff.mpr ⟨by decide, by decide, by omega⟩))
  | unary n =>
    simp only [SinkOp.records, List.forall_mem_append, List.forall_mem_singleton]
    refine ⟨⟨fun r hr => ?_, fun r hr => ?_⟩, pack (by decide)⟩
    · exact List.eq_of_mem_replicate hr ▸ pack (by decide)
    · split at hr
      · exact absurd hr List.not_mem_nil
      · rename_i h
        exact List.mem_singleton.mp hr ▸ pack (bitsInRange_ones h)
  | u32 v =>
    have hv : v < 2 ^ 32 := of_decide_eq_true ho
    simp only [SinkOp.records, List.forall_mem_cons]
    exact ⟨pack (bitsInRange_iff.mpr ⟨by decide, by decide, by omega⟩),
      pack (bitsInRange_iff.mpr ⟨by decide, by decide, by omega⟩), nofun⟩

theorem recordWire_ones : recordWire (packRecord 8 0xFF) = List.replicate 8 true := by decide

/-- The records of an operation carry its bits (R152, R159). -/
theorem SinkOp.recordWire_records {o : SinkOp} (ho : o.legal = true) :
    o.records.flatMap recordWire = o.wire := by
  cases o with
  | bits w v => exact (List.flatMap_singleton _ _).trans (packRecord_of_bitsInRange ho).2
  | bool b =>
    have hb : b ≤ 1 := of_decide_eq_true ho
    exact (List.flatMap_singleton _ _).trans (recordWire_packRecord (by decide) (by omega))
  | unary n =>
    have hrest : (if n % 8 = 0 then [] else [packRecord (n % 8) (2 ^ (n % 8) - 1)]).flatMap recordWire
        = List.replicate (n % 8) true := by
      split
      · simp [*]
      · rename_i h
        rw [List.flatMap_singleton, (packRecord_of_bitsInRange (bitsInRange_ones h)).2, wireBits_ones]
    rw [SinkOp.records, List.flatMap_append, List.flatMap_append, hrest, List.flatMap_replicate, recordWire_ones,
      List.flatten_replicate_replicate, List.flatMap_singleton, recordWire_packRecord (by decide) (by decide),
      ← List.replicate_add, Nat.mul_comm, Nat.div_add_mod]
    rfl
  | u32 v =>
    have hv : v < 2 ^ 32 := of_decide_eq_true ho
    rw [SinkOp.records, List.flatMap_cons, List.flatMap_singleton, recordWire_packRecord (by decide) (by omega),
      recordWire_packRecord (by decide) (by omega), wireBits_halves]
    rfl

/-! ## Appending records -/

/-- The log with these records after its own. -/
def State.withRecords (s : State) (rs : List (BitVec 29)) : State :=
  { s with dsLog := Memory.writeList s.dsLog s.dsLogLen rs, dsLogLen := s.dsLogLen + rs.length }

/-- Elements other than 0 are read back whatever the memory looks like. -/
theorem Memory.get_writeList_of_ne_zero {w : Nat} (m : Memory w) (i : Nat) {vs : List (BitVec w)}
    (hvs : ∀ v ∈ vs, v ≠ 0#w) {j : Nat} (hj : j < vs.length) :
    Memory.get (Memory.writeList m i vs) (i + j) = vs[j] := by
  induction vs generalizing m i j with
  | nil => exact absurd hj (Nat.not_lt_zero j)
  | cons v vs ih =>
    obtain ⟨hv, hvs⟩ := List.forall_mem_cons.mp hvs
    cases j with
    | zero =>
      rw [Memory.writeList, Memory.get_writeList_of_outside _ _ _ (by omega)]
      exact Memory.get_set_of_ne_zero m i hv
    | succ j =>
      rw [show i + (j + 1) = i + 1 + j by omega]
      exact ih _ (i + 1) hvs (Nat.lt_of_succ_lt_succ hj)

/-- Legal records are appended, and the log is otherwise the same. -/
theorem State.loggedOnly_withRecords (s : State) {rs : List (BitVec 29)} (hrs : ∀ r ∈ rs, recordLegal r) :
    s.loggedOnly (s.withRecords rs) rs := by
  have houtside : ∀ j, j < s.dsLogLen ∨ s.dsLogLen + rs.length ≤ j →
      Memory.get (s.withRecords rs).dsLog j = Memory.get s.dsLog j := fun j hj =>
    Memory.get_writeList_of_outside _ _ _ hj
  refine ⟨?_, rfl, houtside⟩
  have hnew : Memory.slice (s.withRecords rs).dsLog (0 + s.dsLogLen) rs.length = rs := by
    refine List.ext_getElem (by simp) fun j h1 h2 => ?_
    rw [Memory.getElem_slice, Nat.zero_add]
    exact Memory.get_writeList_of_ne_zero _ _ (fun r hr => recordLegal_ne_zero (hrs r hr)) h2
  have hold : Memory.slice (s.withRecords rs).dsLog 0 s.dsLogLen = s.logList :=
    Memory.slice_congr fun j hj => houtside _ (by omega)
  calc (s.withRecords rs).logList
    _ = Memory.slice (s.withRecords rs).dsLog 0 (s.dsLogLen + rs.length) := rfl
    _ = s.logList ++ rs := by rw [Memory.slice_add, hold, hnew]

/-- One append, LOG_OVERFLOW if the log is full: `ds_rec` of a record as it stands in the log. -/
def logRecord (r : BitVec 29) (s : State) : Io :=
  if s.dsLogLen = s.logCap then .failed .logOverflow s else .done (s.withRecords [r])

/-- Appends in order, up to the first that overflows. -/
def logRecords : List (BitVec 29) → State → Io
  | [], s => .done s
  | r :: rs, s => (logRecord r s).bind (logRecords rs)

theorem logRecords_singleton (r : BitVec 29) : logRecords [r] = logRecord r := by
  funext s
  rw [logRecords, logRecord]
  split <;> rfl

theorem logRecords_append (rs rs' : List (BitVec 29)) (s : State) :
    logRecords (rs ++ rs') s = (logRecords rs s).bind (logRecords rs') := by
  induction rs generalizing s with
  | nil => rfl
  | cons r rs ih =>
    rw [List.cons_append, logRecords, logRecords, Io.bind_assoc]
    exact congrArg _ (funext ih)

theorem dsRec_eq (w v : Nat) : dsRec w v = logRecords [packRecord w v] := by
  rw [logRecords_singleton]
  rfl

theorem dsOnes_eq (q : Nat) : dsOnes q = logRecords (List.replicate q (packRecord 8 0xFF)) := by
  induction q with
  | zero => rfl
  | succ q ih =>
    funext s
    rw [List.replicate_succ, ← List.singleton_append, logRecords_append, ← dsRec_eq, ← ih]
    rfl

theorem dsRest_eq (r : Nat) : dsRest r = logRecords (if r = 0 then [] else [packRecord r (2 ^ r - 1)]) := by
  funext s
  rw [dsRest]
  split
  · rfl
  · rw [dsRec_eq]

/-- An operation on the deferred sink appends its records. -/
theorem SinkOp.deferred_eq (o : SinkOp) : o.deferred = logRecords o.records := by
  cases o with
  | bits w v => exact dsRec_eq w v
  | bool b => exact dsRec_eq 1 b
  | unary n =>
    funext s
    rw [SinkOp.records, logRecords_append, logRecords_append, ← dsOnes_eq, ← dsRest_eq, ← dsRec_eq]
    rfl
  | u32 v =>
    funext s
    rw [SinkOp.records, ← List.singleton_append, logRecords_append, ← dsRec_eq, ← dsRec_eq]
    rfl

theorem runDeferred_eq (ops : List SinkOp) : runDeferred ops = logRecords (ops.flatMap SinkOp.records) := by
  induction ops with
  | nil => rfl
  | cons o ops ih =>
    funext s
    rw [List.flatMap_cons, logRecords_append, ← SinkOp.deferred_eq, ← ih]
    rfl

/-- Records that fit are all appended. -/
theorem logRecords_room {rs : List (BitVec 29)} {s : State} (h : s.dsLogLen + rs.length ≤ s.logCap) :
    logRecords rs s = .done (s.withRecords rs) := by
  induction rs generalizing s with
  | nil => rfl
  | cons r rs ih =>
    rw [List.length_cons] at h
    have hnext : (s.withRecords [r]).dsLogLen + rs.length ≤ (s.withRecords [r]).logCap := by
      show s.dsLogLen + 1 + rs.length ≤ s.logCap
      omega
    rw [logRecords, logRecord, if_neg (by omega), Io.bind_done, ih hnext]
    simp [State.withRecords, Memory.writeList, Nat.add_assoc, Nat.add_comm 1]

/-- The records that still fit fill the log. -/
theorem dsLogLen_add_length_take {rs : List (BitVec 29)} {s : State} (hs : s.logOk)
    (h : s.logCap < s.dsLogLen + rs.length) :
    s.dsLogLen + (rs.take (s.logCap - s.dsLogLen)).length = s.logCap := by
  rw [List.length_take]
  omega

/-- Of records that do not all fit, those that do are appended, and LOG_OVERFLOW is taken (60_exceptions.md R377). -/
theorem logRecords_overflow {rs : List (BitVec 29)} {s : State} (hs : s.logOk)
    (h : s.logCap < s.dsLogLen + rs.length) :
    logRecords rs s = .failed .logOverflow (s.withRecords (rs.take (s.logCap - s.dsLogLen))) := by
  have hfull := dsLogLen_add_length_take hs h
  obtain ⟨r, rest, hrest⟩ : ∃ r rest, rs.drop (s.logCap - s.dsLogLen) = r :: rest :=
    List.exists_cons_of_ne_nil (by rw [Ne, List.drop_eq_nil_iff]; omega)
  conv_lhs => rw [← List.take_append_drop (s.logCap - s.dsLogLen) rs]
  rw [logRecords_append, logRecords_room hfull.le, Io.bind_done, hrest, logRecords, logRecord]
  exact congrArg (Io.bind · _) (if_pos hfull)

/-! ## The commands that append -/

/-- Fatal entry outside BCLOSE, with FATAL = 0 before (60_exceptions.md R380). -/
theorem takeFatal_eq {s : State} (c : FatalCode) (hf : s.fatal = false) (hp : s.phase ≠ .closing) :
    s.takeFatal c = { s with
      fatal := true, cause := FatalCode.cause c, resp := some ⟨0x80#8 + FatalCode.cause c, 0#32⟩ } := by
  simp [State.takeFatal, hf, hp]

/-- Settles O18: the checks, then one append. -/
theorem wbitsDAppendsARecord : Obligations.WbitsDAppendsARecord := by
  intro s w v hf hp
  refine ⟨fun h => ((badOperandRejections s w v hf).1 h).2, fun h1 h24 hv => ?_⟩
  have hrange : bitsInRange w.toNat v.toNat = true := bitsInRange_iff.mpr ⟨h1, h24, hv⟩
  have hexec : exec (.wbitsD w v) s =
      if s.dsSealed then rejected s .badPhase else (logRecord (packRecord w.toNat v.toNat) s).finish 0 := by
    simp [exec, execWbitsD, hf, hrange, dsRec_eq, logRecords_singleton]
  refine ⟨fun hsealed => ?_, fun hsealed hfull => ?_, fun hsealed hroom => ?_⟩
  · rw [hexec, if_pos hsealed]
    rfl
  · simp [hexec, hsealed, logRecord, hfull, takeFatal_eq _ hf hp, FatalCode.cause]
  · refine ⟨_, by rw [hexec, if_neg (by simp [hsealed]), logRecord, if_neg hroom, Io.finish_done], ?_, rfl⟩
    exact s.loggedOnly_withRecords (List.forall_mem_singleton.mpr (packRecord_of_bitsInRange hrange).1)

/-- What a command does that appends these records to an unsealed log. -/
theorem append_command_outcomes {s : State} {res : Result} {rs : List (BitVec 29)} (hf : s.fatal = false)
    (hp : s.phase ≠ .closing) (hlog : s.logOk) (hrs : ∀ r ∈ rs, recordLegal r)
    (h : res = if s.dsSealed then rejected s .badPhase else (logRecords rs s).finish 0) :
    (s.dsSealed = true → res = s.rejectedWith 0x03#8)
    ∧ (s.dsSealed = false → s.dsLogLen + rs.length ≤ s.logCap → ∃ t, res = .next t ∧ s.wroteLog t rs)
    ∧ (s.dsSealed = false → s.logCap < s.dsLogLen + rs.length →
        ∃ t, res = .next t ∧ s.overflowedLog t rs) := by
  refine ⟨fun hsealed => ?_, fun hsealed hroom => ?_, fun hsealed hover => ?_⟩
  · rw [h, if_pos hsealed]
    rfl
  · rw [if_neg (ne_true_of_eq_false hsealed), logRecords_room hroom] at h
    exact ⟨_, h, s.loggedOnly_withRecords hrs, rfl⟩
  · rw [if_neg (ne_true_of_eq_false hsealed), logRecords_overflow hlog hover, Io.finish_failed,
      takeFatal_eq (s := s.withRecords _) _ hf hp] at h
    refine ⟨_, h, s.loggedOnly_withRecords fun r hr => hrs r (List.mem_of_mem_take hr),
      dsLogLen_add_length_take hlog hover, rfl⟩

/-- Settles O19: each command is an append of the records of its operation. -/
theorem deferredCommandsAppendTheirRecords : Obligations.DeferredCommandsAppendTheirRecords := by
  intro s hf hp hlog
  have hfatal : ¬s.fatal = true := ne_true_of_eq_false hf
  refine ⟨fun b h => ((badOperandRejections s 0 b hf).2.1 h).2, fun i rs hi => ?_⟩
  obtain ⟨o, ho, rfl, hexec⟩ : ∃ o : SinkOp, o.legal = true ∧ rs = o.records
      ∧ exec i s = if s.dsSealed then rejected s .badPhase else (o.deferred s).finish 0 := by
    obtain ⟨b, hb, rfl, rfl⟩ | ⟨n, rfl, rfl⟩ | ⟨v, rfl, rfl⟩ := hi
    · exact ⟨.bool b.toNat, decide_eq_true hb, rfl, (if_neg hfatal).trans (if_neg (Nat.not_lt_of_le hb))⟩
    · exact ⟨.unary n.toNat, rfl, rfl, if_neg hfatal⟩
    · exact ⟨.u32 v.toNat, decide_eq_true v.isLt, rfl, if_neg hfatal⟩
  rw [SinkOp.deferred_eq] at hexec
  exact append_command_outcomes hf hp hlog (SinkOp.records_legal ho) hexec

/-! ## Replaying -/

/-- A slice is its first element, then the others. -/
theorem Memory.slice_succ {w : Nat} (m : Memory w) (i n : Nat) :
    Memory.slice m i (n + 1) = Memory.get m i :: Memory.slice m (i + 1) n := by
  rw [Nat.add_comm, Memory.slice_add]
  rfl

theorem replayFrom_writes {i n : Nat} {s : State} (hlegal : ∀ r ∈ Memory.slice s.dsLog i n, recordLegal r)
    (hs : s.sinkOk) (hq : s.quiet) :
    (replayFrom i n s).Writes s ((Memory.slice s.dsLog i n).flatMap recordWire) := by
  induction n generalizing i s with
  | zero => exact .refl hs hq
  | succ n ih =>
    rw [Memory.slice_succ] at hlegal ⊢
    obtain ⟨hr, hrest⟩ := List.forall_mem_cons.mp hlegal
    refine (rsBits_writes (bitsInRange_iff.mp hr).2.2 hs hq).bind fun t ht => ?_
    rw [← ht.dsLog] at hrest ⊢
    exact ih hrest ht.sinkOk ht.quiet

theorem replay_writes {s : State} (hlegal : ∀ r ∈ s.logList, recordLegal r) (hs : s.sinkOk) (hq : s.quiet) :
    (replayFrom 0 s.dsLogLen s).Writes s (s.logList.flatMap recordWire) :=
  replayFrom_writes hlegal hs hq

/-- Settles O21: the check, then the writes of the whole log. -/
theorem replayWritesTheLog : Obligations.ReplayWritesTheLog := by
  intro s hf
  have hfatal : ¬s.fatal = true := ne_true_of_eq_false hf
  refine ⟨fun h => (if_neg hfatal).trans (if_pos h), fun h hs hq hlegal => ?_⟩
  obtain ⟨t, hnext, ht, -, -⟩ := (replay_writes hlegal hs hq).finish (BitVec.ofNat 32 s.dsLogLen)
  exact ⟨t, (if_neg hfatal).trans ((if_neg (by simp [h])).trans hnext), ht⟩

/-! ## Logging and replaying is writing -/

theorem recordWire_flatMap_records {ops : List SinkOp} (hops : ∀ o ∈ ops, o.legal = true) :
    (ops.flatMap SinkOp.records).flatMap recordWire = ops.flatMap SinkOp.wire := by
  rw [List.flatMap_assoc]
  exact List.flatMap_congr fun o ho => SinkOp.recordWire_records (hops o ho)

/-- Logging operations that fit in an empty log, then replaying it, writes their bits. -/
theorem runDeferred_then_replay_writes {ops : List SinkOp} {s : State} (hops : ∀ o ∈ ops, o.legal = true)
    (hs : s.sinkOk) (hq : s.quiet) (hempty : s.dsLogLen = 0)
    (hroom : (ops.flatMap SinkOp.records).length ≤ s.logCap) :
    ∃ d, runDeferred ops s = .done d ∧ d.bitSeq = s.bitSeq
      ∧ (replayFrom 0 d.dsLogLen d).Writes d (ops.flatMap SinkOp.wire) := by
  have hrs : ∀ r ∈ ops.flatMap SinkOp.records, recordLegal r := fun r hr =>
    let ⟨o, ho, hr⟩ := List.mem_flatMap.mp hr
    SinkOp.records_legal (hops o ho) r hr
  have hlog : (s.withRecords (ops.flatMap SinkOp.records)).logList = ops.flatMap SinkOp.records := by
    rw [(s.loggedOnly_withRecords hrs).1, State.logList, hempty]
    rfl
  have hrun : runDeferred ops s = .done (s.withRecords (ops.flatMap SinkOp.records)) := by
    rw [runDeferred_eq, logRecords_room (by omega)]
  have hreplay := replay_writes (s := s.withRecords _) (hlog.symm ▸ hrs) hs hq
  rw [hlog, recordWire_flatMap_records hops] at hreplay
  exact ⟨_, hrun, rfl, hreplay⟩

/-- Settles O22: both ways write the same bits after the same sequence, and the sequence settles the real sink. -/
theorem sinksAreEquivalent : Obligations.SinksAreEquivalent := by
  refine ⟨fun ops s hops hs hq hempty hroom => ?_, fun s hf => if_neg (ne_true_of_eq_false hf)⟩
  obtain ⟨r, hr, htook⟩ := runReal_writes hops hs hq
  obtain ⟨d, hd, hsame, e, he, htookD⟩ := runDeferred_then_replay_writes hops hs hq hempty hroom
  have hseq : e.bitSeq = r.bitSeq := by rw [htookD.bitSeq, hsame, htook.bitSeq]
  obtain ⟨hout, hcnt, hpend⟩ := real_sink_eq_of_bitSeq_eq htookD.sinkOk htook.sinkOk hseq
  exact ⟨r, d, e, hr, hd, he, hout, hpend, hcnt⟩

end Sys2Proof.Machine
end

section
/-! PROOF. The CRC unit (41_crc32.md R180 to R182, R184, R185): the bit-serial update as arithmetic, as a bijection and
as a linear map, the fold, the commands, and the known answers. -/

namespace Sys2Proof.Machine

/-! ## One bit of the update, and eight of them (R181) -/

theorem crcBits_eq_iterate (n : Nat) : crcBits n = crcBit^[n] := by
  funext c
  induction n generalizing c with
  | zero => rfl
  | succ n ih => exact ih (crcBit c)

/-- A byte enters at the top, then eight bits of update. -/
theorem crcStep_eq_iterate (c : U32) (x : Byte) : crcStep c x = crcBit^[8] (c ^^^ (x.setWidth 32 <<< 24)) := by
  rw [crcStep, crcBits_eq_iterate]

/-- R181's arithmetic for one bit, on numbers. -/
def crcBitNat (n : Nat) : Nat := if 2 ^ 31 ≤ n then (2 * n % 2 ^ 32) ^^^ 0x04C11DB7 else 2 * n % 2 ^ 32

theorem crcBit_toNat : Function.Semiconj BitVec.toNat crcBit crcBitNat := fun c => by
  simp [crcBit, crcBitNat, BitVec.msb_eq_decide, apply_ite BitVec.toNat, Nat.shiftLeft_eq, Nat.mul_comm,
    Config.crcPolynomial]

theorem toNat_byteAtTop (x : Byte) : (x.setWidth 32 <<< 24).toNat = x.toNat * 2 ^ 24 := by
  rw [BitVec.toNat_shiftLeft, BitVec.toNat_setWidth_of_le (by omega), Nat.shiftLeft_eq]
  omega

theorem crcStep_toNat (c : U32) (x : Byte) :
    (crcStep c x).toNat = crcBitNat^[8] (c.toNat ^^^ x.toNat * 2 ^ 24) := by
  rw [crcStep_eq_iterate, (crcBit_toNat.iterate_right 8).eq, BitVec.toNat_xor, toNat_byteAtTop]

/-! ## The step is a bijection and linear (R185 d) -/

/-- The polynomial is odd, so the bit shifted out can be read back at the bottom. -/
theorem crcBit_getLsbD_zero (c : U32) : (crcBit c).getLsbD 0 = c.msb := by
  cases h : c.msb <;> simp [crcBit, h, Config.crcPolynomial]

theorem crcBit_injective : Function.Injective crcBit := by
  intro c d h
  have hmsb : c.msb = d.msb := by rw [← crcBit_getLsbD_zero, h, crcBit_getLsbD_zero]
  have hshift : c <<< 1 = d <<< 1 := by
    rw [crcBit, crcBit, hmsb] at h
    split at h
    · exact (BitVec.xor_left_inj _).mp h
    · exact h
  rw [BitVec.msb_eq_decide, BitVec.msb_eq_decide, decide_eq_decide] at hmsb
  have hlow := congrArg BitVec.toNat hshift
  rw [BitVec.toNat_shiftLeft, BitVec.toNat_shiftLeft, Nat.shiftLeft_eq, Nat.shiftLeft_eq] at hlow
  exact BitVec.eq_of_toNat_eq (by omega)

theorem crcStep_bijective (x : Byte) : Function.Bijective fun c => crcStep c x := by
  refine Finite.injective_iff_bijective.mp fun c d h => ?_
  rw [crcStep_eq_iterate, crcStep_eq_iterate] at h
  exact (BitVec.xor_left_inj _).mp (crcBit_injective.iterate 8 h)

theorem xor_xor_xor_comm (a b c d : U32) : (a ^^^ b) ^^^ (c ^^^ d) = (a ^^^ c) ^^^ (b ^^^ d) := by ac_rfl

theorem crcBit_eq_xor (c : U32) : crcBit c = c <<< 1 ^^^ if c.msb then Config.crcPolynomial else 0 := by
  rw [crcBit]
  split <;> simp

theorem crcBit_xor : Function.Semiconj₂ crcBit (· ^^^ ·) (· ^^^ ·) := fun c d => by
  have hpoly : (if (c.msb ^^ d.msb) then Config.crcPolynomial else 0) =
      (if c.msb then Config.crcPolynomial else 0) ^^^ (if d.msb then Config.crcPolynomial else 0) := by
    cases c.msb <;> cases d.msb <;> simp
  rw [crcBit_eq_xor, crcBit_eq_xor c, crcBit_eq_xor d, BitVec.msb_xor, BitVec.shiftLeft_xor_distrib, hpoly,
    xor_xor_xor_comm]

theorem crcStep_xor (c d : U32) (x y : Byte) : crcStep (c ^^^ d) (x ^^^ y) = crcStep c x ^^^ crcStep d y := by
  rw [crcStep_eq_iterate, crcStep_eq_iterate, crcStep_eq_iterate, BitVec.setWidth_xor, BitVec.shiftLeft_xor_distrib,
    xor_xor_xor_comm]
  exact crcBit_xor.iterate 8 _ _

/-! ## The fold (R184) -/

/-- R184's arithmetic for `rotl1`. -/
theorem rotateLeft_one_eq (s : U32) :
    s.rotateLeft 1 = BitVec.ofNat 32 (2 * s.toNat % 2 ^ 32 + s.toNat / 2 ^ 31) := by
  have htop : s >>> 31 = BitVec.ofNat 32 (s.toNat / 2 ^ 31) :=
    BitVec.eq_of_toNat_eq (by rw [BitVec.toNat_ushiftRight, BitVec.toNat_ofNat, Nat.shiftRight_eq_div_pow]; omega)
  have hrot : s.rotateLeft 1 = s >>> 31 ||| s <<< 1 := BitVec.or_comm _ _
  rw [hrot, htop, ofNat_or_shiftLeft _ (by omega)]
  exact BitVec.eq_of_toNat_eq (by rw [BitVec.toNat_ofNat, BitVec.toNat_ofNat]; omega)

theorem crcFold_eq (s x : U32) :
    crcFold s x = BitVec.ofNat 32 (2 * s.toNat % 2 ^ 32 + s.toNat / 2 ^ 31) ^^^ x := by
  rw [crcFold, rotateLeft_one_eq]

/-! ## The commands -/

/-- The checks of a command that PHASE IDLE alone accepts, once its operands are legal (60_exceptions.md R385). -/
theorem idle_command_eq {s : State} (r : Result) (hf : s.fatal = false) :
    (if s.fatal then rejected s .halted else if s.phase ≠ .idle then rejected s .badPhase else r) =
      if s.phase = .idle then r else s.rejectedWith 0x03#8 := by
  rw [hf, if_neg Bool.false_ne_true, ite_not]
  rfl

theorem exec_crcrst {s : State} (hf : s.fatal = false) :
    exec .crcrst s =
      if s.phase = .idle then ({ s with crcAcc := 0xFFFFFFFF#32 } : State).doneWith 0 else s.rejectedWith 0x03#8 :=
  idle_command_eq _ hf

theorem exec_crcget {s : State} (hf : s.fatal = false) :
    exec .crcget s =
      if s.phase = .idle then s.doneWith (s.crcAcc ^^^ 0xFFFFFFFF#32) else s.rejectedWith 0x03#8 :=
  idle_command_eq _ hf

theorem exec_crcupd {s : State} {x : U32} (hf : s.fatal = false) (hx : x.toNat ≤ 255) :
    exec (.crcupd x) s =
      if s.phase = .idle then ({ s with crcAcc := crcStep s.crcAcc (BitVec.ofNat 8 x.toNat) } : State).doneWith 0
      else s.rejectedWith 0x03#8 := by
  rw [exec, execCrcupd, if_neg (Nat.not_lt.mpr hx)]
  exact idle_command_eq _ hf

theorem exec_crcfold {s : State} (x : U32) (hf : s.fatal = false) :
    exec (.crcfold x) s = ({ s with streamCrc := crcFold s.streamCrc x } : State).doneWith (crcFold s.streamCrc x) :=
  if_neg (ne_true_of_eq_false hf)

/-- Bytes given one by one in IDLE are taken into the accumulator in order. -/
theorem runAll_crcupd (xs : List Byte) {s : State} (hf : s.fatal = false) (hp : s.phase = .idle) :
    ∃ t, runAll (xs.map fun x => .crcupd (x.setWidth 32)) s = some t ∧ t.fatal = false ∧ t.phase = .idle
      ∧ t.crcAcc = xs.foldl crcStep s.crcAcc := by
  induction xs generalizing s with
  | nil => exact ⟨s, rfl, hf, hp, rfl⟩
  | cons x xs ih =>
    have hx : (x.setWidth 32).toNat = x.toNat := BitVec.toNat_setWidth_of_le (by omega)
    have hexec := exec_crcupd (s := s) (x := x.setWidth 32) hf (by omega)
    rw [if_pos hp, hx, BitVec.ofNat_toNat, BitVec.setWidth_eq] at hexec
    rw [List.map_cons, runAll, hexec]
    exact ih hf hp

/-- The CRC of a sequence (R182). -/
theorem crcget_after_bytes (xs : List Byte) {s : State} (hf : s.fatal = false) (hp : s.phase = .idle) :
    ∃ t, runAll (.crcrst :: xs.map fun x => .crcupd (x.setWidth 32)) s = some t
      ∧ exec .crcget t = t.doneWith (~~~ xs.foldl crcStep 0xFFFFFFFF#32) := by
  obtain ⟨t, ht, htf, htp, hacc⟩ :=
    runAll_crcupd xs (s := { s with crcAcc := 0xFFFFFFFF#32, resp := some ⟨0#8, 0⟩ }) hf hp
  refine ⟨t, ?_, ?_⟩
  · rw [runAll, exec_crcrst hf, if_pos hp]
    exact ht
  · rw [exec_crcget htf, if_pos htp, hacc]
    exact congrArg t.doneWith BitVec.xor_allOnes

/-- BLKOPEN starts the accumulator as CRCRST does (R180). -/
theorem blkopen_crcAcc {s : State} {a : U32} (hf : s.fatal = false) (ha : a.toNat ≤ 1) (hp : s.phase = .idle) :
    ∃ t, exec (.blkopen a) s = .next t ∧ t.crcAcc = 0xFFFFFFFF#32 := by
  have hexec : exec (.blkopen a) s = done (openBlock (decide (a = 1#32)) s) 0 := by
    rw [exec, execBlkopen, if_neg (Nat.not_lt.mpr ha)]
    exact (idle_command_eq _ hf).trans (if_pos hp)
  exact ⟨_, hexec, rfl⟩

/-- Settles O26, command by command; the arithmetic of the step and of the fold stands above. -/
theorem crcUnitCommands : Obligations.CrcUnitCommands := by
  refine ⟨fun s hf => ⟨fun hp => ?outside, fun x hx => ?operand, fun hp => ?idle, fun x => ?fold⟩, crcStep_toNat,
    fun s a hf ha hp => blkopen_crcAcc hf ha hp, rfl, rfl⟩
  case outside =>
    exact ⟨(exec_crcrst hf).trans (if_neg hp), (exec_crcget hf).trans (if_neg hp),
      fun x hx => (exec_crcupd hf hx).trans (if_neg hp)⟩
  case operand => exact rejected_of_badOperand _ hf hx
  case idle =>
    exact ⟨(exec_crcrst hf).trans (if_pos hp), (exec_crcget hf).trans (if_pos hp),
      fun x hx => (exec_crcupd hf hx).trans (if_pos hp), fun xs => crcget_after_bytes xs hf hp⟩
  case fold => rw [exec_crcfold x hf, crcFold_eq]

/-! ## Known answers (R185 a, b) -/

/-- The bytes of D0's first known answer. -/
def knownBytes1 : List Byte :=
  [0x01, 0x02, 0x03, 0x04, 0x05, 0x06, 0x07, 0x08, 0x09, 0x0A]
    ++ [0xF1, 0xF2, 0xF3, 0xF4, 0xF5, 0xF6, 0xF7, 0xF8, 0xF9, 0xFA]

/-- The bytes of D0's second known answer. -/
def knownBytes2 : List Byte := List.replicate 10 0x55

set_option maxRecDepth 8000 in
theorem crc_knownBytes1_ones : knownBytes1.foldl crcStep 0xFFFFFFFF#32 = 0x7511ED85#32 := by decide

set_option maxRecDepth 8000 in
theorem crc_knownBytes1_zero : knownBytes1.foldl crcStep 0x00000000#32 = 0x3B37B98A#32 := by decide

set_option maxRecDepth 4000 in
theorem crc_knownBytes2_ones : knownBytes2.foldl crcStep 0xFFFFFFFF#32 = 0x5E1F88B8#32 := by decide

set_option maxRecDepth 4000 in
theorem crc_knownBytes2_zero : knownBytes2.foldl crcStep 0x00000000#32 = 0xCFF62680#32 := by decide

/-- Of the two initial values and the two final inversions, only all ones twice gives the known answers. -/
theorem known_answers :
    (knownBytes1.foldl crcStep 0xFFFFFFFF#32 ^^^ 0xFFFFFFFF#32 = 0x8AEE127A#32
      ∧ knownBytes2.foldl crcStep 0xFFFFFFFF#32 ^^^ 0xFFFFFFFF#32 = 0xA1E07747#32)
    ∧ ∀ cx ∈ [(0x00000000#32, 0x00000000#32), (0x00000000#32, 0xFFFFFFFF#32), (0xFFFFFFFF#32, 0x00000000#32)],
        knownBytes1.foldl crcStep cx.1 ^^^ cx.2 ≠ 0x8AEE127A#32
          ∧ knownBytes2.foldl crcStep cx.1 ^^^ cx.2 ≠ 0xA1E07747#32 := by
  simp [crc_knownBytes1_ones, crc_knownBytes1_zero, crc_knownBytes2_ones, crc_knownBytes2_zero]

/-- Settles O27: the laws of the step above, two folds in both orders, and the known answers. -/
theorem crcLaws : Obligations.CrcLaws :=
  ⟨fun _ _ _ => List.foldl_append, crcStep_bijective, crcStep_xor, ⟨0, 1, 0, by decide⟩, known_answers⟩

end Sys2Proof.Machine
end

section
/-! PROOF. RLE1 (42_rle1.md R203 to R207, R212): what a run adds to U, the run tracker, absorbing one byte and many, the
pending run at the close, and the inverse of the whole. -/

namespace Sys2Proof.Machine

/-! ## The symbols of a run (R203, R204) -/

theorem pendingCost_zero : pendingCost 0 = 0 := rfl

theorem pendingCost_le_five (r : Nat) : pendingCost r ≤ 5 := by
  unfold pendingCost
  split <;> omega

theorem pendingCost_pos {r : Nat} (h : r ≠ 0) : 0 < pendingCost r := by
  unfold pendingCost
  split <;> omega

@[simp] theorem length_runSymbols (x : Byte) (r : Nat) : (runSymbols x r).length = pendingCost r := by
  unfold runSymbols pendingCost
  split <;> simp

/-- A run of none is not written at all. -/
theorem emitRun_zero (x : Byte) (s : State) : emitRun x 0 s = s := by
  simp [emitRun, runSymbols, Memory.writeList, pendingCost_zero]

/-- N moves past the run, while U's index does not overflow. -/
theorem toNat_regN_emitRun {s : State} {r : Nat} (x : Byte) (h : s.regN.toNat + pendingCost r < 2 ^ 20) :
    (emitRun x r s).regN.toNat = s.regN.toNat + pendingCost r := by
  rw [emitRun_regN, BitVec.toNat_add, BitVec.toNat_ofNat]
  omega

theorem uList_emitRun {s : State} {r : Nat} (x : Byte) (hwf : Memory.wf s.u = true)
    (h : s.regN.toNat + pendingCost r < 2 ^ 20) : (emitRun x r s).uList = s.uList ++ runSymbols x r := by
  have happend := Memory.slice_append hwf 0 s.regN.toNat (runSymbols x r)
  rw [Nat.zero_add, length_runSymbols] at happend
  rw [State.uList, toNat_regN_emitRun x h]
  exact happend

/-- U moves only where the run stands. -/
theorem get_u_emitRun {s : State} {r j : Nat} (x : Byte)
    (h : j < s.regN.toNat ∨ s.regN.toNat + pendingCost r ≤ j) :
    Memory.get (emitRun x r s).u j = Memory.get s.u j :=
  Memory.get_writeList_of_outside _ _ _ (by rwa [length_runSymbols])

/-! ## The run tracker (R205) -/

theorem runStep_of_ne {last x : Byte} {run : Nat} (hrun : run ≠ 0) (hx : x ≠ last) :
    runStep last run x = ⟨x, 1, run⟩ := by
  rw [runStep, if_neg hrun, if_neg hx]

theorem runStep_self {run : Nat} (last : Byte) (hrun : run ≠ 0) (h254 : run ≠ 254) :
    runStep last run last = ⟨last, run + 1, 0⟩ := by
  rw [runStep, if_neg hrun, if_pos rfl]
  exact if_neg h254

theorem runStep_max (last : Byte) : runStep last 254 last = ⟨last, 0, 255⟩ := by
  simp [runStep, Config.maxRun]

theorem runStep_run_le {run : Nat} (last x : Byte) (h : run ≤ 254) : (runStep last run x).run ≤ 254 := by
  unfold runStep Config.maxRun
  split_ifs <;> simp only <;> omega

/-- R205's table of candidates is the run step with what it adds to U. -/
theorem candidate_eq_runStep (n r : Nat) (last x : Byte) :
    (if r = 0 then (n, x, 1, [])
      else if x = last ∧ r = 254 then (n + 5, last, 0, runSymbols last 255)
      else if x = last then (n, last, r + 1, [])
      else (n + pendingCost r, x, 1, runSymbols last r)) =
    (n + pendingCost (runStep last r x).written, (runStep last r x).last, (runStep last r x).run,
      runSymbols last (runStep last r x).written) := by
  by_cases hr : r = 0
  · subst hr
    rfl
  by_cases hx : x = last
  · subst hx
    by_cases h254 : r = 254
    · subst h254
      rw [if_neg hr, if_pos ⟨rfl, rfl⟩, runStep_max]
      rfl
    · rw [if_neg hr, if_neg fun h => h254 h.2, if_pos rfl, runStep_self x hr h254]
      rfl
  · rw [if_neg hr, if_neg fun h => hx h.1, if_neg hx, runStep_of_ne hr hx]

/-! ## One byte (R205) -/

theorem commitRun_eq (c : RunStep) (s : State) : commitRun c s = emitRun s.rlLast c.written s := by
  unfold commitRun
  split
  next h => rw [h, emitRun_zero]
  next => rfl

theorem takeByte_eq (x : Byte) (c : RunStep) (s : State) :
    takeByte x c s = { emitRun s.rlLast c.written s with
      rlLast := c.last, rlRun := BitVec.ofNat 8 c.run, crcAcc := crcStep s.crcAcc x, rawCnt := s.rawCnt + 1 } := by
  rw [takeByte, commitRun_eq]
  rfl

theorem absorb_of_full {s : State} (x : Byte) (h : s.full = true) : absorb x s = (false, s) := if_pos h

theorem absorb_of_limit_lt {s : State} {x : Byte} (hf : s.full = false)
    (h : s.limit < fillAfter s.regN.toNat (s.runStep x)) : absorb x s = (false, { s with full := true }) := by
  rw [absorb, if_neg (ne_true_of_eq_false hf), if_pos h]

theorem absorb_of_le_limit {s : State} {x : Byte} (hf : s.full = false)
    (h : fillAfter s.regN.toNat (s.runStep x) ≤ s.limit) : absorb x s = (true, takeByte x (s.runStep x) s) := by
  rw [absorb, if_neg (ne_true_of_eq_false hf), if_neg (Nat.not_lt.mpr h)]

/-- A byte is refused with FULL, or taken within LIMIT. -/
theorem absorb_cases (x : Byte) (s : State) :
    absorb x s = (false, { s with full := true })
      ∨ fillAfter s.regN.toNat (s.runStep x) ≤ s.limit ∧ absorb x s = (true, takeByte x (s.runStep x) s) := by
  cases hf : s.full with
  | true =>
    left
    rw [absorb_of_full x hf, ← hf]
  | false =>
    rcases Nat.lt_or_ge s.limit (fillAfter s.regN.toNat (s.runStep x)) with h | h
    · exact .inl (absorb_of_limit_lt hf h)
    · exact .inr ⟨h, absorb_of_le_limit hf h⟩

theorem limit_eq (s : State) : s.limit = 100000 * s.level.toNat - 1 := rfl

theorem limit_lt {s : State} (h : s.configOk) : s.limit < 900000 := by
  obtain ⟨-, hlevel, -⟩ := h
  rw [limit_eq]
  omega

/-- Within LIMIT, the run to write does not overflow U's index. -/
theorem regN_add_written_lt {s : State} {c : RunStep} (hcfg : s.configOk)
    (h : fillAfter s.regN.toNat c ≤ s.limit) : s.regN.toNat + pendingCost c.written < 2 ^ 20 := by
  have := limit_lt hcfg
  unfold fillAfter at h
  omega

theorem toNat_regN_takeByte {s : State} {c : RunStep} (x : Byte) (hcfg : s.configOk)
    (h : fillAfter s.regN.toNat c ≤ s.limit) :
    (takeByte x c s).regN.toNat = s.regN.toNat + pendingCost c.written := by
  rw [takeByte_eq]
  exact toNat_regN_emitRun s.rlLast (regN_add_written_lt hcfg h)

theorem uList_takeByte {s : State} {c : RunStep} (x : Byte) (hcfg : s.configOk) (hwf : Memory.wf s.u = true)
    (h : fillAfter s.regN.toNat c ≤ s.limit) :
    (takeByte x c s).uList = s.uList ++ runSymbols s.rlLast c.written := by
  rw [takeByte_eq]
  exact uList_emitRun _ hwf (regN_add_written_lt hcfg h)

theorem get_u_takeByte {s : State} {c : RunStep} {j : Nat} (x : Byte)
    (h : j < s.regN.toNat ∨ s.regN.toNat + pendingCost c.written ≤ j) :
    Memory.get (takeByte x c s).u j = Memory.get s.u j := by
  rw [takeByte_eq]
  exact get_u_emitRun _ h

/-- Settles O29: the candidate is the run step, and the block-full test decides whether it is committed. -/
theorem absorbFollowsTheRunTracker : Obligations.AbsorbFollowsTheRunTracker := by
  refine ⟨fun r => ?cost, fun x r => rfl, fun s x h => absorb_of_full x h, fun s x hf hcfg _ hwf => ?step⟩
  case cost =>
    unfold pendingCost
    split_ifs <;> omega
  case step =>
    intro n r c
    have hc : c = _ := candidate_eq_runStep n r s.rlLast x
    rw [hc]
    split
    next h => exact absorb_of_limit_lt hf h
    next h =>
      have hfill : fillAfter n (s.runStep x) ≤ s.limit := Nat.not_lt.mp h
      refine ⟨_, absorb_of_le_limit hf hfill, uList_takeByte x hcfg hwf hfill,
        fun j hj => get_u_takeByte x (.inr hj), ?_⟩
      rw [takeByte_eq, BitVec.ofNat_add, BitVec.ofNat_toNat, BitVec.setWidth_eq]
      rfl

/-! ## The block stays within LIMIT (R208) -/

/-- What R208 says of a block that absorbs bytes: with its pending run it fits in LIMIT. -/
structure State.Filling (s : State) : Prop where
  config : s.configOk
  run_le : s.rlRun.toNat ≤ 254
  fill_le : s.regN.toNat + pendingCost s.rlRun.toNat ≤ s.limit
  u_wf : Memory.wf s.u = true

theorem State.Filling.of_fresh {s : State} (hn : s.regN = 0) (hr : s.rlRun = 0) (hcfg : s.configOk)
    (hwf : Memory.wf s.u = true) : s.Filling :=
  ⟨hcfg, by simp [hr], by simp [hn, hr, pendingCost_zero], hwf⟩

theorem State.Filling.regN_lt {s : State} (h : s.Filling) :
    s.regN.toNat + pendingCost s.rlRun.toNat < 2 ^ 20 := by
  have := h.fill_le
  have := limit_lt h.config
  omega

theorem State.Filling.toNat_rlRun_takeByte {s : State} (h : s.Filling) (x : Byte) :
    (takeByte x (s.runStep x) s).rlRun.toNat = (s.runStep x).run := by
  have : (s.runStep x).run ≤ 254 := runStep_run_le s.rlLast x h.run_le
  rw [takeByte_eq, BitVec.toNat_ofNat]
  omega

theorem State.Filling.takeByte {s : State} {x : Byte} (h : s.Filling)
    (hfill : fillAfter s.regN.toNat (s.runStep x) ≤ s.limit) : (takeByte x (s.runStep x) s).Filling := by
  have hrun := h.toNat_rlRun_takeByte x
  have hn := toNat_regN_takeByte x h.config hfill
  refine ⟨?_, hrun ▸ runStep_run_le s.rlLast x h.run_le, ?_, ?_⟩
  · rw [takeByte_eq]
    exact h.config
  · rw [hrun, hn, takeByte_eq]
    exact hfill
  · rw [takeByte_eq]
    exact Memory.writeList_wf h.u_wf _ _

/-! ## The pending run at the close (R207) -/

theorem flushRun_eq (s : State) : flushRun s = { emitRun s.rlLast s.rlRun.toNat s with rlRun := 0 } := by
  unfold flushRun
  split
  next h =>
    have hz : s.rlRun.toNat = 0 := by rw [h]; rfl
    rw [hz, emitRun_zero, ← h]
  next => rfl

theorem flushRun_of_rlRun_eq_zero {s : State} (h : s.rlRun = 0) : flushRun s = s := if_pos h

theorem uList_flushRun {s : State} (hwf : Memory.wf s.u = true)
    (h : s.regN.toNat + pendingCost s.rlRun.toNat < 2 ^ 20) :
    (flushRun s).uList = s.uList ++ runSymbols s.rlLast s.rlRun.toNat := by
  rw [flushRun_eq]
  exact uList_emitRun s.rlLast hwf h

theorem toNat_regN_flushRun {s : State} (h : s.regN.toNat + pendingCost s.rlRun.toNat < 2 ^ 20) :
    (flushRun s).regN.toNat = s.regN.toNat + pendingCost s.rlRun.toNat := by
  rw [flushRun_eq]
  exact toNat_regN_emitRun s.rlLast h

/-- A pending run leaves no empty U (46_closeblock_emit.md R331). -/
theorem flushRun_regN_ne_zero {s : State} (hr : s.rlRun ≠ 0)
    (h : s.regN.toNat + pendingCost s.rlRun.toNat < 2 ^ 20) : (flushRun s).regN ≠ 0 := by
  intro h0
  have hn := toNat_regN_flushRun h
  have hpos := pendingCost_pos (r := s.rlRun.toNat) fun hz => hr (BitVec.eq_of_toNat_eq hz)
  rw [h0] at hn
  exact absurd hn (Nat.ne_of_lt (Nat.add_pos_right _ hpos))

/-- The symbols of a run in the register: its count byte is a difference of bytes. -/
theorem runSymbols_toNat (x : Byte) (r : BitVec 8) :
    runSymbols x r.toNat =
      if r.toNat ≤ 3 then List.replicate r.toNat x else List.replicate 4 x ++ [r - 4#8] := by
  unfold runSymbols
  split
  next => rfl
  next h =>
    have hcount : BitVec.ofNat 8 (r.toNat - 4) = r - 4#8 := by bv_omega
    rw [hcount]
    rfl

theorem exec_stRleflush_empty {s : State} (h : (flushRun s).regN = 0) :
    exec .stRleflush s =
      ({ flushRun s with emitted := false, phase := .idle, stage := 0 } : State).doneWith 0 := if_pos h

theorem exec_stRleflush_nonempty {s : State} (h : (flushRun s).regN ≠ 0) :
    exec .stRleflush s = .next { flushRun s with stage := 2#4 } := if_neg h

/-- Settles O35, by whether a run is pending and whether U is empty. -/
theorem rleflushStage : Obligations.RleflushStage := by
  refine fun s hwf hlt => ⟨fun hn hr => ?empty, fun hn hr => ?noRun, fun hr => ?run⟩
  case empty => rw [exec_stRleflush_empty] <;> rw [flushRun_of_rlRun_eq_zero hr]; exact hn
  case noRun => rw [exec_stRleflush_nonempty] <;> rw [flushRun_of_rlRun_eq_zero hr]; exact hn
  case run =>
    have hroom : s.regN.toNat + pendingCost s.rlRun.toNat < 2 ^ 20 := by
      have := pendingCost_le_five s.rlRun.toNat
      omega
    refine ⟨_, exec_stRleflush_nonempty (flushRun_regN_ne_zero hr hroom), ?_, fun j hj => ?_, ?_⟩
    · rw [← runSymbols_toNat]
      exact uList_flushRun hwf hroom
    · rw [flushRun_eq]
      exact get_u_emitRun s.rlLast (.inr (toNat_regN_flushRun hroom ▸ hj))
    · rw [flushRun_eq]
      rfl

/-! ## Bytes in order (R206) -/

theorem absorbAll_cons_refused {s s' : State} {x : Byte} (xs : List Byte) (h : absorb x s = (false, s')) :
    absorbAll (x :: xs) s = (0, s') := by
  rw [absorbAll, h]

theorem absorbAll_cons_taken {s s' : State} {x : Byte} (xs : List Byte) (h : absorb x s = (true, s')) :
    absorbAll (x :: xs) s = ((absorbAll xs s').1 + 1, (absorbAll xs s').2) := by
  rw [absorbAll, h]

/-- The state after each of these bytes was offered. -/
def State.offered (s : State) (xs : List Byte) : State := xs.foldl (fun q x => (absorb x q).2) s

/-- Of these bytes `k` were taken in order, which gives `t`: all of them, or all before the one that is refused. -/
structure State.TookBytes (s : State) (xs : List Byte) (k : Nat) (t : State) : Prop where
  le_length : k ≤ xs.length
  taken : ∀ j x, j < k → xs[j]? = some x → (absorb x (s.offered (xs.take j))).1 = true
  refused : ∀ x, xs[k]? = some x →
    (absorb x (s.offered (xs.take k))).1 = false ∧ t = s.offered (xs.take (k + 1)) ∧ t.full = true
  all : k = xs.length → t = s.offered (xs.take k)

theorem absorbAll_tookBytes (xs : List Byte) (s : State) :
    s.TookBytes xs (absorbAll xs s).1 (absorbAll xs s).2 := by
  induction xs generalizing s with
  | nil => exact ⟨Nat.le_refl 0, nofun, nofun, fun _ => rfl⟩
  | cons x xs ih =>
    rcases absorb_cases x s with h | ⟨-, h⟩
    · rw [absorbAll_cons_refused xs h]
      refine ⟨Nat.zero_le _, nofun, fun y hy => ?_, nofun⟩
      cases hy
      simp [State.offered, h]
    · rw [absorbAll_cons_taken xs h]
      obtain ⟨hle, htaken, hrefused, hall⟩ := ih (takeByte x (s.runStep x) s)
      have hoffered : ∀ ys, s.offered (x :: ys) = (takeByte x (s.runStep x) s).offered ys := fun ys => by
        rw [State.offered, List.foldl_cons, h]
        rfl
      refine ⟨Nat.succ_le_succ hle, fun j y hj hy => ?_, fun y hy => ?_, fun hk => ?_⟩
      · cases j with
        | zero =>
          cases hy
          exact congrArg Prod.fst h
        | succ j =>
          rw [List.take_succ_cons, hoffered]
          exact htaken j y (Nat.lt_of_succ_lt_succ hj) hy
      · rw [List.take_succ_cons, List.take_succ_cons, hoffered, hoffered]
        exact hrefused y hy
      · rw [List.take_succ_cons, hoffered]
        exact hall (Nat.succ.inj hk)

theorem BlockOnly.configOk {s t : State} (h : BlockOnly s t) (hcfg : s.configOk) : t.configOk := by
  obtain ⟨_, _, _, _, _, _, _, rfl⟩ := h
  exact hcfg

/-- N does not go back, and U moves only from the old N up to the new one. -/
def WritesAboveN (s t : State) : Prop :=
  s.regN.toNat ≤ t.regN.toNat
    ∧ ∀ j, j < s.regN.toNat ∨ t.regN.toNat ≤ j → Memory.get t.u j = Memory.get s.u j

theorem WritesAboveN.trans {a b c : State} (h1 : WritesAboveN a b) (h2 : WritesAboveN b c) : WritesAboveN a c := by
  obtain ⟨hn1, hu1⟩ := h1
  obtain ⟨hn2, hu2⟩ := h2
  exact ⟨hn1.trans hn2, fun j hj => (hu2 j (by omega)).trans (hu1 j (by omega))⟩

theorem takeByte_writesAboveN {s : State} {c : RunStep} (x : Byte) (hcfg : s.configOk)
    (h : fillAfter s.regN.toNat c ≤ s.limit) : WritesAboveN s (takeByte x c s) := by
  have hn := toNat_regN_takeByte x hcfg h
  exact ⟨by omega, fun j hj => get_u_takeByte x (hn ▸ hj)⟩

theorem absorbAll_writesAboveN (xs : List Byte) {s : State} (hcfg : s.configOk) :
    WritesAboveN s (absorbAll xs s).2 := by
  induction xs generalizing s with
  | nil => exact ⟨Nat.le_refl _, fun _ _ => rfl⟩
  | cons x xs ih =>
    rcases absorb_cases x s with h | ⟨hfill, h⟩
    · rw [absorbAll_cons_refused xs h]
      exact ⟨Nat.le_refl _, fun _ _ => rfl⟩
    · rw [absorbAll_cons_taken xs h]
      have hlevel := absorb_blockOnly x s
      rw [h] at hlevel
      exact (takeByte_writesAboveN x hcfg hfill).trans (ih (hlevel.configOk hcfg))

/-- The bytes BWRITE offers. -/
theorem inputBytes_eq_map (s : State) (off n : Nat) :
    inputBytes s off n = (List.range n).map fun j => Memory.get s.inMem (off + j) := rfl

theorem take_map_range {α : Type} (f : Nat → α) {k n : Nat} (h : k ≤ n) :
    ((List.range n).map f).take k = (List.range k).map f := by
  rw [← List.map_take, List.take_range, Nat.min_eq_left h]

theorem exec_bwrite {s : State} {off len : U32} (hf : s.fatal = false) (hin : off.toNat + len.toNat ≤ s.inSize) :
    exec (.bwrite off len) s =
      if s.phase = .opened then
        (absorbAll (inputBytes s off.toNat len.toNat) s).2.doneWith
          (BitVec.ofNat 32 (absorbAll (inputBytes s off.toNat len.toNat) s).1)
      else s.rejectedWith 0x03#8 := by
  rw [exec, execBwrite, hf, if_neg Bool.false_ne_true, if_neg (Nat.not_lt.mpr hin), ite_not]
  rfl

/-- Settles O30: the checks, then how many bytes were taken and what that changed. -/
theorem bwriteAbsorbsUntilRefused : Obligations.BwriteAbsorbsUntilRefused := by
  refine fun s off len hf => ⟨fun h => rejected_of_badOperand _ hf h, fun hin hp => ?_, fun hin hp hcfg => ?_⟩
  · rw [exec_bwrite hf hin, if_neg hp]
  intro byte after
  obtain ⟨hle, htaken, hrefused, hall⟩ := absorbAll_tookBytes ((List.range len.toNat).map byte) s
  obtain ⟨-, hu⟩ := absorbAll_writesAboveN ((List.range len.toNat).map byte) hcfg
  obtain ⟨_, _, _, _, _, _, _, honly⟩ := absorbAll_blockOnly ((List.range len.toNat).map byte) s
  have hexec := exec_bwrite hf hin
  rw [if_pos hp, inputBytes_eq_map] at hexec
  rw [List.length_map, List.length_range] at hle hall
  have hbyte : ∀ j < len.toNat, ((List.range len.toNat).map byte)[j]? = some (byte j) := fun j hj => by
    rw [List.getElem?_map, List.getElem?_range hj, Option.map_some]
  have hafter : ∀ j ≤ len.toNat, s.offered (((List.range len.toNat).map byte).take j) = after j := fun j hj =>
    congrArg s.offered (take_map_range byte hj)
  refine ⟨_, _, hle, fun j hj => ?_, fun hk => ?_, fun hk => hafter _ hle ▸ hall hk, hexec, hu, ?_⟩
  · rw [← hafter j (by omega)]
    exact htaken j _ hj (hbyte j (by omega))
  · rw [← hafter _ hle, ← hafter _ hk]
    exact hrefused _ (hbyte _ hk)
  · rw [honly]

/-! ## The image of a block's bytes (R200, R204) -/

/-- What U takes from a pending run and the bytes after it, once the last run is written. -/
def rleImage (last : Byte) (run : Nat) : List Byte → List Byte
  | [] => runSymbols last run
  | x :: xs =>
    runSymbols last (runStep last run x).written ++ rleImage (runStep last run x).last (runStep last run x).run xs

theorem rleImage_zero_cons (last x : Byte) (xs : List Byte) : rleImage last 0 (x :: xs) = rleImage x 1 xs := rfl

theorem rleImage_max_cons (last : Byte) (xs : List Byte) :
    rleImage last 254 (last :: xs) = runSymbols last 255 ++ rleImage last 0 xs := by
  rw [rleImage, runStep_max]

theorem rleImage_cons_self {run : Nat} (last : Byte) (h0 : run ≠ 0) (h254 : run ≠ 254) (xs : List Byte) :
    rleImage last run (last :: xs) = rleImage last (run + 1) xs := by
  rw [rleImage, runStep_self last h0 h254]
  rfl

theorem rleImage_cons_of_ne {last x : Byte} {run : Nat} (h0 : run ≠ 0) (hx : x ≠ last) (xs : List Byte) :
    rleImage last run (x :: xs) = runSymbols last run ++ rleImage x 1 xs := by
  rw [rleImage, runStep_of_ne h0 hx]

/-- The machine writes the image of the bytes it takes. -/
theorem uList_flushRun_absorbAll (xs : List Byte) {s : State} (h : s.Filling) :
    (flushRun (absorbAll xs s).2).uList =
      s.uList ++ rleImage s.rlLast s.rlRun.toNat (xs.take (absorbAll xs s).1) := by
  induction xs generalizing s with
  | nil => exact uList_flushRun h.u_wf h.regN_lt
  | cons x xs ih =>
    rcases absorb_cases x s with hx | ⟨hfill, hx⟩
    · rw [absorbAll_cons_refused xs hx]
      exact uList_flushRun (s := { s with full := true }) h.u_wf h.regN_lt
    · have hlast : (takeByte x (s.runStep x) s).rlLast = (s.runStep x).last := by rw [takeByte_eq]
      rw [absorbAll_cons_taken xs hx, ih (h.takeByte hfill), uList_takeByte x h.config h.u_wf hfill, hlast,
        h.toNat_rlRun_takeByte x, List.take_succ_cons, List.append_assoc]
      rfl

/-! ## The inverse (R212) -/

/-- After `n` symbols `last` the inverse waits for no count, and `x` does not continue them. -/
abbrev StartsRun (last : Byte) (n : Nat) (x : Byte) : Prop := n = 0 ∨ n ≤ 3 ∧ x ≠ last

theorem rleDecode_start {last x : Byte} {n : Nat} (h : StartsRun last n x) (us : List Byte) :
    rleDecode last n (x :: us) = x :: rleDecode x 1 us := by
  rw [rleDecode, if_neg (by omega), if_neg (by tauto)]

theorem rleDecode_repeat {n : Nat} (x : Byte) (h1 : 1 ≤ n) (h3 : n ≤ 3) (us : List Byte) :
    rleDecode x n (x :: us) = x :: rleDecode x (n + 1) us := by
  rw [rleDecode, if_neg (by omega), if_pos ⟨by omega, rfl⟩]

theorem rleDecode_count (last x : Byte) (us : List Byte) :
    rleDecode last 4 (x :: us) = List.replicate x.toNat last ++ rleDecode last 0 us := by
  rw [rleDecode, if_pos rfl]

/-- Up to four copies are read as they are. -/
theorem rleDecode_copies {last x : Byte} {n r : Nat} (h : StartsRun last n x) (hr : r ≤ 3) (us : List Byte) :
    rleDecode last n (List.replicate (r + 1) x ++ us) = List.replicate (r + 1) x ++ rleDecode x (r + 1) us := by
  induction r generalizing us with
  | zero => exact rleDecode_start h us
  | succ r ih =>
    rw [List.replicate_succ' (n := r + 1), List.append_assoc, List.append_assoc, ih (by omega)]
    exact congrArg _ (rleDecode_repeat x (by omega) hr us)

/-- The symbols of a run are read as the run; after four copies and a count none is left to continue. -/
theorem rleDecode_runSymbols {last x : Byte} {n r : Nat} (h : StartsRun last n x) (h1 : 1 ≤ r)
    (hr : r ≤ 255) (us : List Byte) :
    rleDecode last n (runSymbols x r ++ us) =
      List.replicate r x ++ rleDecode x (if r ≤ 3 then r else 0) us := by
  unfold runSymbols
  split
  next h3 =>
    obtain ⟨r, rfl⟩ := Nat.exists_eq_add_one.mpr h1
    exact rleDecode_copies h (by omega) us
  next h3 =>
    have hcount : (BitVec.ofNat 8 (r - 4)).toNat = r - 4 := Nat.mod_eq_of_lt (by omega)
    calc rleDecode last n ([x, x, x, x, BitVec.ofNat 8 (r - 4)] ++ us)
        = List.replicate 4 x ++ rleDecode x 4 (BitVec.ofNat 8 (r - 4) :: us) := rleDecode_copies h (Nat.le_refl 3) _
      _ = List.replicate 4 x ++ (List.replicate (r - 4) x ++ rleDecode x 0 us) := by rw [rleDecode_count, hcount]
      _ = List.replicate r x ++ rleDecode x 0 us := by
        rw [← List.append_assoc, List.replicate_append_replicate, Nat.add_sub_cancel' (by omega)]

theorem replicate_succ_append {α : Type} (n : Nat) (x : α) (xs : List α) :
    List.replicate (n + 1) x ++ xs = List.replicate n x ++ x :: xs := by
  rw [List.replicate_succ', List.append_assoc]
  rfl

/-- The inverse reads the image as the pending run and the bytes, where it expects the pending run to start; with no
pending run it must wait for any symbol. -/
theorem rleDecode_rleImage (xs : List Byte) {l last : Byte} {n run : Nat} (h : StartsRun l n last)
    (hany : run = 0 → n = 0) (hrun : run ≤ 254) :
    rleDecode l n (rleImage last run xs) = List.replicate run last ++ xs := by
  induction xs generalizing l last n run with
  | nil =>
    by_cases h0 : run = 0
    · subst h0
      rfl
    · have hread := rleDecode_runSymbols h (by omega) (by omega : run ≤ 255) []
      rwa [List.append_nil] at hread
  | cons x xs ih =>
    by_cases h0 : run = 0
    · subst h0
      rw [rleImage_zero_cons]
      exact ih (.inl (hany rfl)) nofun (by decide)
    by_cases hx : x = last
    · subst hx
      by_cases h254 : run = 254
      · subst h254
        rw [rleImage_max_cons, rleDecode_runSymbols h (by decide) (by decide), if_neg (by decide),
          ih (.inl rfl) (fun _ => rfl) (by decide)]
        exact replicate_succ_append 254 x xs
      · rw [rleImage_cons_self x h0 h254]
        exact (ih h (absurd · (Nat.succ_ne_zero run)) (by omega)).trans (replicate_succ_append run x xs)
    · have hstart : StartsRun last (if run ≤ 3 then run else 0) x := .inr ⟨by split <;> omega, hx⟩
      rw [rleImage_cons_of_ne h0 hx, rleDecode_runSymbols h (by omega) (by omega)]
      exact congrArg _ (ih hstart nofun (by decide))

/-- Settles O32: U holds the image of the bytes taken, which the inverse reads back. -/
theorem rleRoundTrip : Obligations.RleRoundTrip := by
  intro s t xs k hn hr _ hcfg hwf h
  have himage := uList_flushRun_absorbAll xs (.of_fresh hn hr hcfg hwf)
  have hempty : s.uList = [] := by rw [State.uList, hn]; rfl
  have hrun : s.rlRun.toNat = 0 := by rw [hr]; rfl
  rw [h, hempty, hrun, List.nil_append] at himage
  rw [himage, rleDecode_rleImage _ (.inl rfl) (fun _ => rfl) (by decide)]
  rfl

end Sys2Proof.Machine
end

section
/-! PROOF. The Burrows-Wheeler stage (43_bwt.md R231 to R234): the model's comparison of rotations is the order of their
keys, sorting by it lists every offset once in rising order of the keys, and the stage stores that list. -/

namespace Sys2Proof.Machine

/-! ## The order of rotations (R231) -/

theorem compareSymbols_compares (xs ys : List Byte) :
    (compareSymbols xs ys).Compares (xs.map BitVec.toNat) (ys.map BitVec.toNat) := by
  induction xs generalizing ys with
  | nil =>
    cases ys with
    | nil => rfl
    | cons y ys => exact List.nil_lt_cons _ _
  | cons x xs ih =>
    cases ys with
    | nil => exact List.nil_lt_cons _ _
    | cons y ys =>
      rw [compareSymbols]
      split_ifs with hlt hgt
      · exact List.cons_lt_cons_iff.mpr (.inl hlt)
      · exact List.cons_lt_cons_iff.mpr (.inl hgt)
      · have htail := ih ys
        have heq : x.toNat = y.toNat := by omega
        cases hc : compareSymbols xs ys <;> simpa [hc, heq, Ordering.Compares] using htail

/-- What R231 orders the offsets by: the symbols of the rotation, then the offset itself. -/
def rotationKey (u : List Byte) (a : Nat) : List Nat ×ₗ Nat := toLex ((rotation u a).map BitVec.toNat, a)

theorem rotationKey_injective (u : List Byte) : Function.Injective (rotationKey u) := fun _ _ h =>
  congrArg (fun k => (ofLex k).2) h

theorem rotationLe_eq_true_iff (u : List Byte) (a b : Nat) :
    rotationLe u a b = true ↔ rotationKey u a ≤ rotationKey u b := by
  have h := compareSymbols_compares (rotation u a) (rotation u b)
  rw [rotationKey, rotationKey, Prod.Lex.toLex_le_toLex, rotationLe]
  cases hc : compareSymbols (rotation u a) (rotation u b) <;> rw [hc] at h
  case lt => exact iff_of_true rfl (.inl h)
  case eq =>
    have hsame : (rotation u a).map BitVec.toNat = (rotation u b).map BitVec.toNat := h
    simp [hsame]
  case gt =>
    have hgt : (rotation u b).map BitVec.toNat < (rotation u a).map BitVec.toNat := h
    simp [hgt.not_gt, hgt.ne']

theorem rotation_map_range {n a : Nat} (f : Nat → Byte) (ha : a ≤ n) :
    rotation ((List.range n).map f) a = (List.range n).map fun j => f ((a + j) % n) := by
  rw [rotation, ← List.rotate_eq_drop_append_take (by simpa using ha)]
  apply List.ext_getElem (by simp)
  intro j _ _
  simp [List.getElem_rotate, Nat.add_comm]

theorem rotationBefore_of_rotationKey_lt {n a b : Nat} (f : Nat → Byte) (ha : a ≤ n) (hb : b ≤ n)
    (h : rotationKey ((List.range n).map f) a < rotationKey ((List.range n).map f) b) :
    rotationBefore (fun j => (f j).toNat) n a b := by
  rw [rotationKey, rotationKey, Prod.Lex.toLex_lt_toLex, rotation_map_range f ha, rotation_map_range f hb] at h
  obtain hlt | ⟨heq, hab⟩ := h
  · obtain ⟨-, hlen⟩ | ⟨j, hj, hj', hbefore, hat⟩ := List.lt_iff_exists.mp hlt
    · simp at hlen
    · exact .inl ⟨j, by simpa using hj, by simpa using hbefore, by simpa using hat⟩
  · exact .inr ⟨by simpa using heq, hab⟩

/-! ## P (R232) -/

theorem rotationOrder_perm (u : List Byte) : (rotationOrder u).Perm (List.range u.length) :=
  List.perm_insertionSort _ _

@[simp] theorem length_rotationOrder (u : List Byte) : (rotationOrder u).length = u.length := by
  simp [rotationOrder]

@[simp] theorem mem_rotationOrder {u : List Byte} {a : Nat} : a ∈ rotationOrder u ↔ a < u.length := by
  simp [rotationOrder]

theorem pairwise_rotationLe_rotationOrder (u : List Byte) :
    (rotationOrder u).Pairwise fun a b => rotationLe u a b = true := by
  have : Std.Total fun a b => rotationLe u a b = true :=
    ⟨fun a b => by simpa only [rotationLe_eq_true_iff] using le_total _ _⟩
  have : IsTrans Nat fun a b => rotationLe u a b = true :=
    ⟨fun a b c => by simpa only [rotationLe_eq_true_iff] using le_trans⟩
  exact List.pairwise_insertionSort _ _

/-- No offset is listed twice, so the keys rise strictly. -/
theorem pairwise_rotationKey_lt_rotationOrder (u : List Byte) :
    (rotationOrder u).Pairwise fun a b => rotationKey u a < rotationKey u b := by
  have hdistinct : (rotationOrder u).Nodup := (rotationOrder_perm u).nodup_iff.mpr List.nodup_range
  refine ((pairwise_rotationLe_rotationOrder u).and hdistinct).imp fun {a b} ⟨hle, hne⟩ => ?_
  exact lt_of_le_of_ne ((rotationLe_eq_true_iff u a b).mp hle) ((rotationKey_injective u).ne hne)

/-! ## ORIG_PTR (R234) -/

theorem getElem?_rotationOrder_originRow {u : List Byte} (h : 0 < u.length) :
    (rotationOrder u)[originRow u]? = some 0 :=
  List.getElem?_idxOf (mem_rotationOrder.mpr h)

theorem originRow_lt {u : List Byte} (h : 0 < u.length) : originRow u < u.length := by
  obtain ⟨hlt, -⟩ := List.getElem?_eq_some_iff.mp (getElem?_rotationOrder_originRow h)
  rwa [length_rotationOrder] at hlt

/-! ## The stage (R236) -/

@[simp] theorem length_uList (s : State) : s.uList.length = s.regN.toNat := Memory.length_slice _ _ _

theorem uList_eq_map_range (s : State) : s.uList = (List.range s.regN.toNat).map (Memory.get s.u) := by
  simp [State.uList, Memory.slice]

theorem lastSymbol_uList {s : State} (hn : 0 < s.regN.toNat) (a : Nat) :
    lastSymbol s.uList a = Memory.get s.u ((a + s.regN.toNat - 1) % s.regN.toNat) := by
  have hlt := Nat.mod_lt (a + s.regN.toNat - 1) hn
  simp [lastSymbol, uList_eq_map_range, hlt]

/-- Offsets below N fit the elements of P. -/
theorem map_toNat_map_ofNat_rotationOrder (s : State) :
    ((rotationOrder s.uList).map (BitVec.ofNat 20)).map BitVec.toNat = rotationOrder s.uList := by
  rw [List.map_map]
  refine (List.map_congr_left fun a ha => ?_).trans (List.map_id _)
  have hoffset : a < s.regN.toNat := by simpa using ha
  exact Nat.mod_eq_of_lt (hoffset.trans s.regN.isLt)

theorem offsets_writeList_rotationOrder {s : State} (hwf : Memory.wf s.p = true) :
    (Memory.slice (Memory.writeList s.p 0 ((rotationOrder s.uList).map (BitVec.ofNat 20))) 0 s.regN.toNat).map
      BitVec.toNat = rotationOrder s.uList := by
  have hslice := Memory.slice_writeList hwf 0 ((rotationOrder s.uList).map (BitVec.ofNat 20))
  rw [List.length_map, length_rotationOrder, length_uList] at hslice
  rw [hslice, map_toNat_map_ofNat_rotationOrder]

theorem rotationBefore_rotationOrder {s : State} {i j : Nat} (hij : i < j) (hj : j < s.regN.toNat) :
    rotationBefore (fun j => (Memory.get s.u j).toNat) s.regN.toNat ((rotationOrder s.uList).getD i 0)
      ((rotationOrder s.uList).getD j 0) := by
  have hj' : j < (rotationOrder s.uList).length := by simpa using hj
  have hoffset : ∀ {k} (hk : k < (rotationOrder s.uList).length), (rotationOrder s.uList)[k] ≤ s.regN.toNat :=
    fun hk => by simpa using (mem_rotationOrder.mp (List.getElem_mem hk)).le
  have hsorted := pairwise_rotationKey_lt_rotationOrder s.uList
  have hkeys := List.pairwise_iff_getElem.mp hsorted i j (hij.trans hj') hj' hij
  rw [List.getD_eq_getElem _ _ hj', List.getD_eq_getElem _ _ (hij.trans hj')]
  refine rotationBefore_of_rotationKey_lt _ (hoffset _) (hoffset _) ?_
  rwa [← uList_eq_map_range]

theorem get_lcol_writeList_lastColumn {s : State} (hwf : Memory.wf s.lcol = true) {i : Nat} (hi : i < s.regN.toNat) :
    Memory.get (Memory.writeList s.lcol 0 (lastColumn s.uList)) i =
      Memory.get s.u (((rotationOrder s.uList).getD i 0 + s.regN.toNat - 1) % s.regN.toNat) := by
  have hlen : i < (lastColumn s.uList).length := by simpa [lastColumn] using hi
  have hi' : i < (rotationOrder s.uList).length := by simpa using hi
  have hget := Memory.get_writeList_of_inside hwf 0 (lastColumn s.uList) hlen
  rw [Nat.zero_add] at hget
  rw [hget, List.getD_eq_getElem _ _ hi', ← lastSymbol_uList (by omega)]
  simp [lastColumn]

/-- Settles O37: P holds the offsets sorted by their keys, whose order is R231's. -/
theorem bwtStageSortsTheRotations : Obligations.BwtStageSortsTheRotations := by
  intro s hn hp hlcol n u
  refine ⟨_, rfl, rfl, ?_⟩
  dsimp only
  have hpos : 0 < s.uList.length := by rwa [length_uList]
  have hrow : originRow s.uList < s.regN.toNat := by simpa using originRow_lt hpos
  have horig : (BitVec.ofNat 24 (originRow s.uList)).toNat = originRow s.uList :=
    Nat.mod_eq_of_lt (by have := s.regN.isLt; omega)
  rw [offsets_writeList_rotationOrder hp, horig]
  refine ⟨?_, fun i j => rotationBefore_rotationOrder, fun i => get_lcol_writeList_lastColumn hlcol, hrow, ?_,
    fun j hj => ⟨?_, ?_⟩⟩
  · simpa using rotationOrder_perm s.uList
  · rw [List.getD_eq_getElem?_getD, getElem?_rotationOrder_originRow hpos]
    rfl
  · exact Memory.get_writeList_of_outside _ _ _ (.inr (by simpa using hj))
  · exact Memory.get_writeList_of_outside _ _ _ (.inr (by simpa [lastColumn] using hj))

end Sys2Proof.Machine
end

section
/-! PROOF. Symbol map, run coding and move-to-front, stages 4 and 5 (44_symmap_mtf.md R250 to R260). Run coding is
settled by what it does to one digit more; the coding of LCOL is said once as a relation, by induction on which its
symbols are read back. -/

namespace Sys2Proof.Machine

/-! ## Run coding (R258) -/

/-- Once it is enough, the bound on the number of digits does not matter. -/
theorem runDigits_eq_of_le {m n v : Nat} (hm : v ≤ m) (hn : v ≤ n) : runDigits m v = runDigits n v := by
  induction m generalizing n v with
  | zero =>
    obtain rfl : v = 0 := by omega
    cases n <;> rfl
  | succ m ih =>
    cases n with
    | zero =>
      obtain rfl : v = 0 := by omega
      rfl
    | succ n =>
      rw [runDigits, runDigits]
      split_ifs
      · rfl
      · rw [ih (n := n) (by omega) (by omega)]

theorem putRun_zero : putRun 0 = [] := rfl

/-- The lowest digit comes first. -/
theorem putRun_add_one_add_two_mul {d : Nat} (hd : d ≤ 1) (r : Nat) : putRun (d + 1 + 2 * r) = d :: putRun r := by
  have hnot : ¬ d + 1 + 2 * r + 1 ≤ 1 := by omega
  have hmod : (d + 1 + 2 * r + 1) % 2 = d := by omega
  have hdiv : (d + 1 + 2 * r + 1) / 2 = r + 1 := by omega
  rw [putRun, runDigits, if_neg hnot, hmod, hdiv, putRun, runDigits_eq_of_le (by omega) le_rfl]

theorem putRun_runValue {ds : List Nat} (h : ∀ d ∈ ds, d ≤ 1) : putRun (runValue ds) = ds := by
  induction ds with
  | nil => exact putRun_zero
  | cons d ds ih =>
    obtain ⟨hd, hds⟩ := List.forall_mem_cons.mp h
    rw [runValue, putRun_add_one_add_two_mul hd, ih hds]

/-- Every number is a digit and half of what is left. -/
theorem exists_runValue_eq (r : Nat) : ∃ ds : List Nat, (∀ d ∈ ds, d ≤ 1) ∧ runValue ds = r := by
  induction r using Nat.strong_induction_on with
  | h r ih =>
    obtain rfl | hr := Nat.eq_zero_or_pos r
    · exact ⟨[], by simp, rfl⟩
    · obtain ⟨ds, hds, hv⟩ := ih ((r - 1) / 2) (by omega)
      refine ⟨(r - 1) % 2 :: ds, List.forall_mem_cons.mpr ⟨by omega, hds⟩, ?_⟩
      rw [runValue, hv]
      omega

theorem le_one_of_mem_putRun {r d : Nat} (h : d ∈ putRun r) : d ≤ 1 := by
  obtain ⟨ds, hds, rfl⟩ := exists_runValue_eq r
  rw [putRun_runValue hds] at h
  exact hds d h

@[simp] theorem runValue_putRun (r : Nat) : runValue (putRun r) = r := by
  obtain ⟨ds, hds, rfl⟩ := exists_runValue_eq r
  rw [putRun_runValue hds]

theorem length_eq_log2_runValue {ds : List Nat} (h : ∀ d ∈ ds, d ≤ 1) :
    ds.length = Nat.log2 (runValue ds + 1) := by
  induction ds with
  | nil => rfl
  | cons d ds ih =>
    obtain ⟨hd, hds⟩ := List.forall_mem_cons.mp h
    have hhalf : (d + 1 + 2 * runValue ds + 1) / 2 = runValue ds + 1 := by omega
    rw [runValue, Nat.log2_def, if_pos (by omega), hhalf, ← ih hds, List.length_cons]

theorem length_putRun (r : Nat) : (putRun r).length = Nat.log2 (r + 1) := by
  rw [length_eq_log2_runValue fun _ => le_one_of_mem_putRun, runValue_putRun]

theorem length_putRun_le (r : Nat) : (putRun r).length ≤ r := by
  rw [length_putRun]
  exact Nat.le_of_lt_succ ((Nat.log2_lt (Nat.succ_ne_zero r)).mpr Nat.lt_two_pow_self)

theorem putRun_ne_nil {r : Nat} (h : r ≠ 0) : putRun r ≠ [] := fun hnil =>
  h (by rw [← runValue_putRun r, hnil]; rfl)

/-- Settles O40: every run length is the value of a digit list, and `put_run` writes that list. -/
theorem runCodingIsBijective : Obligations.RunCodingIsBijective :=
  ⟨fun r _ => ⟨fun _ => le_one_of_mem_putRun, runValue_putRun r, length_putRun r⟩, fun _ => putRun_runValue⟩

/-! ## One move-to-front step (R256) -/

theorem mtfStep_of_mem {l : List Byte} {x : Byte} (h : x ∈ l) :
    mtfStep l x = (l.idxOf x, x :: l.eraseIdx (l.idxOf x)) :=
  if_pos (List.idxOf_lt_length_iff.mpr h)

theorem eq_cons_of_idxOf_eq_zero {l : List Byte} {x : Byte} (hx : x ∈ l) (h : l.idxOf x = 0) : ∃ t, l = x :: t := by
  have hget := List.getElem?_idxOf hx
  rw [h, ← List.head?_eq_getElem?] at hget
  exact ⟨l.tail, (List.cons_head?_tail hget).symm⟩

/-- The symbol moves to the front, the entries before it one place down. -/
theorem mtfStep_moves {l : List Byte} {x : Byte} (hx : x ∈ l) :
    (mtfStep l x).1 = l.idxOf x ∧ (mtfStep l x).2 = x :: (l.take (l.idxOf x) ++ l.drop (l.idxOf x + 1))
      ∧ (l.idxOf x = 0 → (mtfStep l x).2 = l) := by
  rw [mtfStep_of_mem hx, List.eraseIdx_eq_take_drop_succ]
  refine ⟨rfl, rfl, fun hzero => ?_⟩
  obtain ⟨l, rfl⟩ := eq_cons_of_idxOf_eq_zero hx hzero
  simp

/-- Moving to the front only rearranges the list. -/
theorem cons_eraseIdx_perm {l : List Byte} {i : Nat} {x : Byte} (h : l[i]? = some x) :
    (x :: l.eraseIdx i).Perm l := by
  obtain ⟨hi, rfl⟩ := List.getElem?_eq_some_iff.mp h
  exact List.getElem_cons_eraseIdx_perm hi

/-! ## The symbols of LCOL (R257, R259) -/

/-- From the list `l` with a run of `zrun` behind it, the symbols `xs` are coded as `ys`, which leaves `l'`: a symbol
at the front makes the run longer, one further behind ends it. -/
inductive MtfCodes : (l : List Byte) → (zrun : Nat) → (xs : List Byte) → (ys : List Nat) → (l' : List Byte) → Prop
  | nil (l : List Byte) (zrun : Nat) : MtfCodes l zrun [] (putRun zrun) l
  | front {x : Byte} {l xs l' : List Byte} {zrun : Nat} {ys : List Nat}
      (tail : MtfCodes (x :: l) (zrun + 1) xs ys l') : MtfCodes (x :: l) zrun (x :: xs) ys l'
  | later {x : Byte} {l xs l' : List Byte} {m zrun : Nat} {ys : List Nat} (hx : l[m + 1]? = some x)
      (tail : MtfCodes (x :: l.eraseIdx (m + 1)) 0 xs ys l') :
      MtfCodes l zrun (x :: xs) (putRun zrun ++ (m + 2) :: ys) l'

theorem mtfCodes_mtfSymbols {l xs : List Byte} (h : ∀ x ∈ xs, x ∈ l) (zrun : Nat) :
    MtfCodes l zrun xs (mtfSymbols l zrun xs).1 (mtfSymbols l zrun xs).2 := by
  induction xs generalizing l zrun with
  | nil => exact .nil l zrun
  | cons x xs ih =>
    obtain ⟨hx, hxs⟩ := List.forall_mem_cons.mp h
    have hget : l[l.idxOf x]? = some x := List.getElem?_idxOf hx
    rw [mtfSymbols, mtfStep_of_mem hx]
    cases hm : l.idxOf x with
    | zero =>
      obtain ⟨l, rfl⟩ := eq_cons_of_idxOf_eq_zero hx hm
      exact .front (ih hxs (zrun + 1))
    | succ m =>
      rw [hm] at hget
      exact .later hget (ih (fun y hy => (cons_eraseIdx_perm hget).mem_iff.mpr (hxs y hy)) 0)

theorem MtfCodes.perm {l xs l' : List Byte} {zrun : Nat} {ys : List Nat} (h : MtfCodes l zrun xs ys l') :
    l'.Perm l := by
  induction h with
  | nil => exact .refl _
  | front _ ih => exact ih
  | later hx _ ih => exact ih.trans (cons_eraseIdx_perm hx)

/-- No symbol is as large as EOB, which the length of the list settles (R260). -/
theorem MtfCodes.le_length {l xs l' : List Byte} {zrun : Nat} {ys : List Nat} (h : MtfCodes l zrun xs ys l')
    (hl : l ≠ []) : ∀ y ∈ ys, y ≤ l.length := by
  have hrun : ∀ {l : List Byte} {r y : Nat}, l ≠ [] → y ∈ putRun r → y ≤ l.length := fun hl hy =>
    (le_one_of_mem_putRun hy).trans (List.length_pos_iff.mpr hl)
  induction h with
  | nil => exact fun y => hrun hl
  | front _ ih => exact ih hl
  | later hx _ ih =>
    have hlen := (cons_eraseIdx_perm hx).length_eq
    obtain ⟨hm, -⟩ := List.getElem?_eq_some_iff.mp hx
    intro y hy
    obtain hy | rfl | hy : y ∈ putRun _ ∨ y = _ ∨ y ∈ _ := by simpa using hy
    · exact hrun hl hy
    · exact hm
    · exact hlen ▸ ih (List.cons_ne_nil _ _) y hy

/-- EOB is the largest symbol. -/
theorem MtfCodes.stream_le {l xs l' : List Byte} {zrun : Nat} {ys : List Nat} (h : MtfCodes l zrun xs ys l')
    (hl : l ≠ []) : ∀ y ∈ ys ++ [l.length + 1], y ≤ l.length + 1 := by
  simpa [or_imp, forall_and] using fun y hy => (h.le_length hl y hy).trans (Nat.le_succ _)

theorem MtfCodes.length_le {l xs l' : List Byte} {zrun : Nat} {ys : List Nat} (h : MtfCodes l zrun xs ys l') :
    ys.length ≤ zrun + xs.length := by
  induction h with
  | nil l zrun => exact length_putRun_le zrun
  | front _ ih =>
    rw [List.length_cons]
    omega
  | @later _ _ _ _ _ zrun _ _ _ ih =>
    have hrun := length_putRun_le zrun
    simp only [List.length_append, List.length_cons]
    omega

theorem MtfCodes.ne_nil {l xs l' : List Byte} {zrun : Nat} {ys : List Nat} (h : MtfCodes l zrun xs ys l')
    (hsome : zrun ≠ 0 ∨ xs ≠ []) : ys ≠ [] := by
  induction h with
  | nil => exact putRun_ne_nil (by simpa using hsome)
  | front _ ih => exact ih (.inl (Nat.succ_ne_zero _))
  | later => simp

/-! ## Reading back (R256 to R260) -/

theorem mtfDecode_digits {ds : List Nat} (hds : ∀ d ∈ ds, d ≤ 1) (eob : Nat) (l : List Byte) (acc place : Nat)
    (ys : List Nat) :
    mtfDecode eob l acc place (ds ++ ys) = mtfDecode eob l (acc + place * runValue ds) (2 ^ ds.length * place) ys := by
  induction ds generalizing acc place with
  | nil => simp [runValue]
  | cons d ds ih =>
    obtain ⟨hd, htail⟩ := List.forall_mem_cons.mp hds
    rw [List.cons_append, mtfDecode, if_pos hd, ih htail, runValue, List.length_cons]
    congr 1 <;> ring

/-- A run is read back as its length; what the place is afterwards does not matter where no digit follows. -/
theorem mtfDecode_putRun (eob : Nat) (l : List Byte) (r : Nat) (ys : List Nat) :
    mtfDecode eob l 0 1 (putRun r ++ ys) = mtfDecode eob l r (2 ^ (putRun r).length) ys := by
  simp [mtfDecode_digits fun _ => le_one_of_mem_putRun]

theorem MtfCodes.decode {l xs l' : List Byte} {zrun : Nat} {ys : List Nat} (h : MtfCodes l zrun xs ys l')
    (hl : l ≠ []) :
    mtfDecode (l.length + 1) l 0 1 (ys ++ [l.length + 1]) = some (List.replicate zrun (l.headD 0) ++ xs) := by
  induction h with
  | nil l zrun =>
    have hpos := List.length_pos_iff.mpr hl
    rw [mtfDecode_putRun, mtfDecode, if_neg (by omega)]
    simp
  | front _ ih => simpa [List.replicate_succ'] using ih hl
  | later hx _ ih =>
    obtain ⟨hm, -⟩ := List.getElem?_eq_some_iff.mp hx
    have htail := ih (List.cons_ne_nil _ _)
    rw [(cons_eraseIdx_perm hx).length_eq] at htail
    rw [List.append_assoc, mtfDecode_putRun, List.cons_append, mtfDecode, if_neg (by omega), if_neg (by omega)]
    simp [hx, htail]

/-! ## Marks (R250) -/

@[simp] theorem length_usedMap (u : List Byte) : (usedMap u).length = 256 := by simp [usedMap]

theorem mark_eq_one (b : Bool) : decide ((if b then 1#1 else 0#1) = 1#1) = b := by cases b <;> rfl

/-- Stored at 0, the map marks the byte values that occur. -/
theorem marked_writeList_usedMap {m : Memory 1} (hwf : Memory.wf m = true) (u : List Byte) {x : Nat} (hx : x < 256) :
    decide (Memory.get (Memory.writeList m 0 (usedMap u)) x = 1#1) = u.contains (BitVec.ofNat 8 x) := by
  have hget := Memory.get_writeList_of_inside hwf 0 (usedMap u) (j := x) (by simpa using hx)
  rw [Nat.zero_add] at hget
  rw [hget]
  simp only [usedMap, List.getElem_map, List.getElem_range, mark_eq_one]

theorem usedCount_usedMap (u : List Byte) :
    usedCount (usedMap u) = ((List.range 256).filter fun x => u.contains (BitVec.ofNat 8 x)).length := by
  rw [usedCount, usedMap, List.count, List.countP_map, List.countP_eq_length_filter]
  exact congrArg _ (List.filter_congr fun x _ => mark_eq_one _)

theorem contains_uList_iff {s : State} {x : Nat} (hx : x < 256) :
    s.uList.contains (BitVec.ofNat 8 x) = true ↔ ∃ i, i < s.regN.toNat ∧ (Memory.get s.u i).toNat = x := by
  have hbyte : ∀ b : Byte, b = BitVec.ofNat 8 x ↔ b.toNat = x := fun b => by
    rw [← BitVec.toNat_inj, BitVec.toNat_ofNat, Nat.mod_eq_of_lt hx]
  simp only [uList_eq_map_range, List.contains_iff_mem, List.mem_map, List.mem_range, hbyte]

/-- Settles O38: a byte value is marked iff U contains it, and K is the number of those. -/
theorem symmapStageMarksTheSymbols : Obligations.SymmapStageMarksTheSymbols := by
  intro s hwf
  have hused := fun x => marked_writeList_usedMap hwf s.uList (x := x)
  have hcount := usedCount_usedMap s.uList
  have hlen := length_usedMap s.uList
  refine ⟨_, rfl, ?_⟩
  -- Only these three facts are about the map; kept closed, it is not evaluated.
  generalize usedMap s.uList = marks at hused hcount hlen ⊢
  refine ⟨rfl, fun x hx => ?_, ?_, fun j hj => Memory.get_writeList_of_outside _ _ _ (.inr (by omega))⟩
  · rw [State.used, hused x hx, contains_uList_iff hx]
  · have hle := List.length_filter_le (fun x => s.uList.contains (BitVec.ofNat 8 x)) (List.range 256)
    rw [← hcount, List.length_range] at hle
    rw [BitVec.toNat_ofNat, Nat.mod_eq_of_lt (by omega), hcount]
    exact congrArg _ (List.filter_congr fun x hx => (hused x (List.mem_range.mp hx)).symm)

/-! ## The initial list (R255) -/

/-- The marked byte values, in ascending order. -/
def State.usedBytes (s : State) : List Byte := ((List.range 256).filter s.used).map (BitVec.ofNat 8)

theorem initialList_inUseList (s : State) : initialList s.inUseList = s.usedBytes := by
  rw [initialList, State.usedBytes]
  refine congrArg _ (List.filter_congr fun x hx => ?_)
  have hlt : x < s.inUseList.length := by simpa [State.inUseList] using hx
  rw [List.getD_eq_getElem _ _ hlt, State.used]
  simp [State.inUseList, Memory.getElem_slice]

theorem mem_usedBytes {s : State} {x : Byte} (h : s.used x.toNat = true) : x ∈ s.usedBytes :=
  List.mem_map.mpr ⟨x.toNat, List.mem_filter.mpr ⟨List.mem_range.mpr x.isLt, h⟩, (x.ofNat_toNat 8).trans x.setWidth_eq⟩

theorem length_usedBytes (s : State) : s.usedBytes.length = ((List.range 256).filter s.used).length :=
  List.length_map _

theorem length_usedBytes_le (s : State) : s.usedBytes.length ≤ 256 := by
  have hle := List.length_filter_le s.used (List.range 256)
  rwa [List.length_range, ← length_usedBytes] at hle

/-! ## The stage (R257, R260) -/

/-- Numbers that fit the elements are read back as they were written. -/
theorem Memory.slice_writeList_ofNat {w : Nat} {m : Memory w} (hwf : Memory.wf m = true) {ys : List Nat}
    (h : ∀ y ∈ ys, y < 2 ^ w) :
    (Memory.slice (Memory.writeList m 0 (ys.map (BitVec.ofNat w))) 0 ys.length).map BitVec.toNat = ys := by
  have hslice := Memory.slice_writeList hwf 0 (ys.map (BitVec.ofNat w))
  rw [List.length_map] at hslice
  rw [hslice, List.map_map]
  exact (List.map_congr_left fun y hy => Nat.mod_eq_of_lt (h y hy)).trans (List.map_id _)

theorem symList_of_stored {s : State} {m : Memory 9} {ys : List Nat} (hwf : Memory.wf m = true)
    (hsym : s.sym = Memory.writeList m 0 (ys.map (BitVec.ofNat 9))) (hS : s.regS.toNat = ys.length)
    (hys : ∀ y ∈ ys, y < 2 ^ 9) : s.symList = ys := by
  rw [State.symList, hsym, hS, Memory.slice_writeList_ofNat hwf hys]

theorem execStMtf_eq (s : State) :
    execStMtf s = .next
      { s with
        mtfList := Memory.writeList s.mtfList 0 (mtfSymbols s.usedBytes 0 s.lcolList).2
        sym := Memory.writeList s.sym 0 ((symbolStream s.usedBytes s.regK.toNat s.lcolList).map (BitVec.ofNat 9))
        regS := BitVec.ofNat 20 (symbolStream s.usedBytes s.regK.toNat s.lcolList).length
        zRun := 0
        stage := 6#4 } := by
  rw [← initialList_inUseList]
  rfl

/-- Settles O39: SYM holds the code of LCOL from the initial list on, and then EOB; that this is short, below EOB and
reads back is said of every code. -/
theorem mtfStageReadsBackAsLcol : Obligations.MtfStageReadsBackAsLcol := by
  refine ⟨fun _ _ => mtfStep_moves, fun s hN hN' hsym hlist hK hused => ?_⟩
  rw [← length_usedBytes] at hK
  have hlcol : s.lcolList.length = s.regN.toNat := Memory.length_slice _ _ _
  have hne : s.lcolList ≠ [] := List.ne_nil_of_length_pos (hlcol ▸ hN)
  have hmem : ∀ x ∈ s.lcolList, x ∈ s.usedBytes := fun x hx => mem_usedBytes (hused x hx)
  have hinit : s.usedBytes ≠ [] :=
    have ⟨x, hx⟩ := List.exists_mem_of_ne_nil _ hne
    List.ne_nil_of_mem (hmem x hx)
  have hcodes := mtfCodes_mtfSymbols hmem 0
  refine ⟨_, execStMtf_eq s, rfl, ?_⟩
  rw [← State.usedBytes, hK, symbolStream]
  generalize (mtfSymbols s.usedBytes 0 s.lcolList).1 = ys at hcodes ⊢
  generalize (mtfSymbols s.usedBytes 0 s.lcolList).2 = l at hcodes ⊢
  have hpos := List.length_pos_iff.mpr (hcodes.ne_nil (.inr hne))
  have hle := hcodes.length_le
  have hl := hcodes.perm.length_eq
  have hS : (BitVec.ofNat 20 (ys ++ [s.usedBytes.length + 1]).length).toNat = ys.length + 1 := by
    rw [List.length_append, List.length_singleton]
    exact Nat.mod_eq_of_lt (by omega)
  have hfits : ∀ y ∈ ys ++ [s.usedBytes.length + 1], y < 2 ^ 9 := fun y hy => by
    have := hcodes.stream_le hinit y hy
    have := length_usedBytes_le s
    omega
  rw [symList_of_stored hsym rfl (by simpa using hS) hfits, hS]
  refine ⟨?_, by omega, by omega, ?_, List.getLast?_concat, ?_, fun j hj => ?_, fun j hj => ?_⟩
  · simpa using hcodes.decode hinit
  · simpa using hcodes.le_length hinit
  · rw [← hl, Memory.slice_writeList hlist]
    exact hcodes.perm
  · exact Memory.get_writeList_of_outside _ _ _ (.inr (by simpa using hj))
  · exact Memory.get_writeList_of_outside _ _ _ (.inr (by omega))

end Sys2Proof.Machine
end

section
/-! PROOF. Rows of FREQ, LEN and CODE (20_memory.md R70): what is read back after rows are stored, and what is kept. -/

namespace Sys2Proof.Machine

variable {w : Nat}

/-- An element of no stored row is kept. -/
theorem get_writeRows_of_outside (m : Memory w) {t a j : Nat} {rows : List (List Nat)}
    (hlen : ∀ row ∈ rows, row.length = a) (hj : ∀ i v, t ≤ i → i < t + rows.length → v < a → j ≠ 258 * i + v) :
    Memory.get (writeRows m t rows) j = Memory.get m j := by
  induction rows generalizing m t with
  | nil => rfl
  | cons row rows ih =>
    obtain ⟨hrow, hrows⟩ := List.forall_mem_cons.mp hlen
    have hrest : ∀ i v, t + 1 ≤ i → i < t + 1 + rows.length → v < a → j ≠ 258 * i + v := fun i v hi hi' =>
      hj i v (by omega) (by rw [List.length_cons]; omega)
    have hout : j < tableIndex t 0 ∨ tableIndex t 0 + (row.map (BitVec.ofNat w)).length ≤ j := by
      have hne := hj t (j - 258 * t) le_rfl (by rw [List.length_cons]; omega)
      rw [List.length_map, hrow]
      simp only [tableIndex, Config.maxAlphabet]
      omega
    rw [writeRows, ih _ hrows hrest, Memory.get_writeList_of_outside _ _ _ hout]

/-- A stored row of at most 258 elements is what its slice reads. -/
theorem slice_writeRows {m : Memory w} (hm : Memory.wf m = true) {t a i : Nat} {rows : List (List Nat)} (ha : a ≤ 258)
    (hlen : ∀ row ∈ rows, row.length = a) (hi : i < rows.length) :
    Memory.slice (writeRows m t rows) (tableIndex (t + i) 0) a = (rows.getD i []).map (BitVec.ofNat w) := by
  induction rows generalizing m t i with
  | nil => cases hi
  | cons row rows ih =>
    obtain ⟨hrow, hrows⟩ := List.forall_mem_cons.mp hlen
    have hm' := Memory.writeList_wf hm (tableIndex t 0) (row.map (BitVec.ofNat w))
    cases i with
    | zero =>
      have hkept : ∀ v, v < a → Memory.get (writeRows m t (row :: rows)) (tableIndex t 0 + v) =
          Memory.get (Memory.writeList m (tableIndex t 0) (row.map (BitVec.ofNat w))) (tableIndex t 0 + v) :=
        fun v hv => get_writeRows_of_outside _ hrows fun i u hi _ hu => by
          simp only [tableIndex, Config.maxAlphabet]
          omega
      have hrow' := Memory.slice_writeList hm (tableIndex t 0) (row.map (BitVec.ofNat w))
      rw [List.length_map, hrow] at hrow'
      rw [Nat.add_zero, Memory.slice_congr hkept, hrow', List.getD_cons_zero]
    | succ i =>
      rw [List.getD_cons_succ, ← ih hm' hrows (Nat.lt_of_succ_lt_succ hi) (t := t + 1), Nat.add_right_comm]
      rfl

/-- Rows that fit the elements are read back as they were written. -/
theorem slice_writeRows_toNat {m : Memory w} (hm : Memory.wf m = true) {a i : Nat} {rows : List (List Nat)}
    (ha : a ≤ 258) (hlen : ∀ row ∈ rows, row.length = a) (hfits : ∀ row ∈ rows, ∀ x ∈ row, x < 2 ^ w)
    (hi : i < rows.length) :
    (Memory.slice (writeRows m 0 rows) (tableIndex i 0) a).map BitVec.toNat = rows.getD i [] := by
  have hslice := slice_writeRows hm ha hlen hi (t := 0)
  rw [Nat.zero_add] at hslice
  rw [hslice, List.map_map, List.getD_eq_getElem rows [] hi]
  exact (List.map_congr_left fun x hx => Nat.mod_eq_of_lt (hfits _ (List.getElem_mem hi) x hx)).trans (List.map_id _)

theorem get_writeRows {m : Memory w} (hm : Memory.wf m = true) {a i v : Nat} {rows : List (List Nat)} (ha : a ≤ 258)
    (hlen : ∀ row ∈ rows, row.length = a) (hi : i < rows.length) (hv : v < a) :
    Memory.get (writeRows m 0 rows) (tableIndex i v) = BitVec.ofNat w ((rows.getD i []).getD v 0) := by
  have hslice := slice_writeRows hm ha hlen hi (t := 0)
  have hget := Memory.getElem_slice (writeRows m 0 rows) (tableIndex i 0) a v (by simpa using hv)
  have hrow : (rows.getD i []).length = a := List.getD_eq_getElem rows [] hi ▸ hlen _ (List.getElem_mem hi)
  rw [Nat.zero_add] at hslice
  simp only [hslice, List.getElem_map] at hget
  rw [List.getD_eq_getElem _ _ (hrow ▸ hv), hget]
  rfl

end Sys2Proof.Machine
end

section
/-! PROOF. Canonical codes, stage 7 (45_huffman.md R300, R301). The loop gives every symbol the closed form of its code;
left-aligned, that is the Kraft sum of the symbols before it, from which the laws follow. -/

namespace Sys2Proof.Machine

/-- The first code of length `n`: what the shorter codes leave free. -/
def firstCode (ls : List Nat) (n : Nat) : Nat := ((ls.filter fun l => decide (l < n)).map fun l => 2 ^ (n - l)).sum

theorem canonicalCode_eq (ls : List Nat) (v : Nat) :
    canonicalCode ls v = firstCode ls (ls.getD v 0) + (ls.take v).count (ls.getD v 0) := rfl

theorem firstCode_cons (l : Nat) (ls : List Nat) (n : Nat) :
    firstCode (l :: ls) n = (if l < n then 2 ^ (n - l) else 0) + firstCode ls n := by
  by_cases h : l < n <;> simp [firstCode, h]

theorem firstCode_succ (ls : List Nat) (n : Nat) : firstCode ls (n + 1) = (firstCode ls n + ls.count n) * 2 := by
  induction ls with
  | nil => rfl
  | cons l ls ih =>
    rw [firstCode_cons, firstCode_cons, ih, List.count_cons]
    obtain h | rfl | h := Nat.lt_trichotomy l n
    · rw [if_pos (by omega), if_pos h, if_neg (by simpa using h.ne), Nat.succ_sub h.le, pow_succ]
      ring
    · simp
      ring
    · rw [if_neg (by omega), if_neg (by omega), if_neg (by simpa using h.ne')]
      ring

theorem firstCode_eq_zero {ls : List Nat} {n : Nat} (h : ∀ l ∈ ls, n ≤ l) : firstCode ls n = 0 := by
  rw [firstCode, List.filter_eq_nil_iff.mpr fun l hl => by simpa using h l hl]
  rfl

/-! ## The loop (R300) -/

theorem assignLength_cons (n vec l c : Nat) (ls cs : List Nat) :
    assignLength n vec (l :: ls) (c :: cs) =
      if l = n then ((assignLength n (vec + 1) ls cs).1, vec :: (assignLength n (vec + 1) ls cs).2)
      else ((assignLength n vec ls cs).1, c :: (assignLength n vec ls cs).2) := rfl

theorem assignLengths_succ (ls : List Nat) (count n vec : Nat) (cs : List Nat) :
    assignLengths ls (count + 1) n vec cs =
      assignLengths ls count (n + 1) ((assignLength n vec ls cs).1 * 2) (assignLength n vec ls cs).2 := rfl

theorem assignLength_fst (n vec : Nat) (ls : List Nat) {cs : List Nat} (h : cs.length = ls.length) :
    (assignLength n vec ls cs).1 = vec + ls.count n := by
  induction ls generalizing vec cs with
  | nil => rfl
  | cons l ls ih =>
    obtain ⟨c, cs, rfl⟩ := List.exists_cons_of_length_eq_add_one h
    have hcs := Nat.succ.inj h
    rw [assignLength_cons]
    split_ifs with hl
    · rw [ih _ hcs, hl, List.count_cons_self]
      omega
    · rw [ih _ hcs, List.count_cons_of_ne hl]

theorem length_assignLength (n vec : Nat) (ls : List Nat) {cs : List Nat} (h : cs.length = ls.length) :
    (assignLength n vec ls cs).2.length = ls.length := by
  induction ls generalizing vec cs with
  | nil => exact h
  | cons l ls ih =>
    obtain ⟨c, cs, rfl⟩ := List.exists_cons_of_length_eq_add_one h
    rw [assignLength_cons]
    split_ifs <;> exact congrArg (· + 1) (ih _ (Nat.succ.inj h))

theorem getD_assignLength (n vec : Nat) {ls cs : List Nat} {v : Nat} (h : cs.length = ls.length) (hv : v < ls.length) :
    (assignLength n vec ls cs).2.getD v 0 =
      if ls.getD v 0 = n then vec + (ls.take v).count n else cs.getD v 0 := by
  induction ls generalizing vec cs v with
  | nil => cases hv
  | cons l ls ih =>
    obtain ⟨c, cs, rfl⟩ := List.exists_cons_of_length_eq_add_one h
    rw [assignLength_cons]
    cases v with
    | zero => by_cases hl : l = n <;> simp [hl]
    | succ v =>
      have hrec := fun vec => ih vec (Nat.succ.inj h) (Nat.lt_of_succ_lt_succ hv)
      simp only [List.take_succ_cons, List.getD_cons_succ]
      by_cases hl : l = n
      · rw [if_pos hl, List.getD_cons_succ, hrec, hl, List.count_cons_self, Nat.add_assoc, Nat.add_comm 1]
      · rw [if_neg hl, List.getD_cons_succ, hrec, List.count_cons_of_ne hl]

theorem length_assignLengths (ls : List Nat) (count n vec : Nat) {cs : List Nat} (h : cs.length = ls.length) :
    (assignLengths ls count n vec cs).length = ls.length := by
  induction count generalizing n vec cs with
  | zero => exact h
  | succ count ih => exact ih _ _ (length_assignLength _ _ _ h)

/-- The rounds from length `n` on, begun with the first code of that length, set the codes of the lengths they pass. -/
theorem getD_assignLengths {ls : List Nat} {v : Nat} (hv : v < ls.length) (count n : Nat) {cs : List Nat}
    (h : cs.length = ls.length) :
    (assignLengths ls count n (firstCode ls n) cs).getD v 0 =
      if n ≤ ls.getD v 0 ∧ ls.getD v 0 < n + count then canonicalCode ls v else cs.getD v 0 := by
  induction count generalizing n cs with
  | zero => exact (if_neg (by omega)).symm
  | succ count ih =>
    rw [assignLengths_succ, assignLength_fst _ _ _ h, ← firstCode_succ, ih _ (length_assignLength _ _ _ h),
      getD_assignLength _ _ h hv]
    by_cases heq : ls.getD v 0 = n
    · rw [if_neg (by omega), if_pos heq, if_pos (by omega), canonicalCode_eq, heq]
    · rw [if_neg heq]
      exact if_congr (by omega) rfl rfl

@[simp] theorem length_canonicalCodes (ls : List Nat) : (canonicalCodes ls).length = ls.length :=
  length_assignLengths _ _ _ _ (List.length_map _)

theorem getD_canonicalCodes {ls : List Nat} {v : Nat} (hv : v < ls.length) :
    (canonicalCodes ls).getD v 0 = canonicalCode ls v := by
  have hmem : ls.getD v 0 ∈ ls := List.getD_eq_getElem ls 0 hv ▸ List.getElem_mem hv
  have hmin : ∀ l ∈ ls, ls.foldr min (ls.foldr max 0) ≤ l := fun l hl => List.min_le_of_le' _ hl le_rfl
  have hmax : ls.getD v 0 ≤ ls.foldr max 0 := List.le_max_of_le' 0 hmem le_rfl
  have hloop := getD_assignLengths hv (ls.foldr max 0 + 1 - ls.foldr min (ls.foldr max 0))
    (ls.foldr min (ls.foldr max 0)) (List.length_map (as := ls) fun _ => 0)
  rw [firstCode_eq_zero hmin] at hloop
  have := hmin _ hmem
  exact hloop.trans (if_pos (by omega))

/-! ## The code of a symbol, left-aligned, is the Kraft sum of the symbols before it (R301) -/

/-- Symbol `u` comes before symbol `v` in the order of (length, symbol). -/
abbrev precedes (ls : List Nat) (u v : Nat) : Prop :=
  ls.getD u 0 < ls.getD v 0 ∨ (ls.getD u 0 = ls.getD v 0 ∧ u < v)

/-- The part of the Kraft sum that the symbols before `v` make up, in units of `2^(−d)`. -/
def kraftBefore (d : Nat) (ls : List Nat) (v : Nat) : Nat :=
  ∑ u ∈ Finset.range ls.length with precedes ls u v, 2 ^ (d - ls.getD u 0)

theorem kraftSum_eq_sum_range (d : Nat) (ls : List Nat) :
    kraftSum d ls = ∑ u ∈ Finset.range ls.length, 2 ^ (d - ls.getD u 0) := by
  induction ls with
  | nil => rfl
  | cons l ls ih =>
    rw [List.length_cons, Finset.sum_range_succ']
    exact (Nat.add_comm _ _).trans (congrArg (· + 2 ^ (d - l)) ih)

theorem two_pow_sub_mul {l n d : Nat} (hl : l ≤ n) (hn : n ≤ d) : 2 ^ (n - l) * 2 ^ (d - n) = 2 ^ (d - l) := by
  rw [← pow_add, Nat.add_comm, Nat.sub_add_sub_cancel hn hl]

/-- The symbols of shorter length, and those of length `n` below `v`, as one sum. -/
theorem firstCode_add_count_mul {d n : Nat} (hn : n ≤ d) (ls : List Nat) (v : Nat) :
    (firstCode ls n + (ls.take v).count n) * 2 ^ (d - n) =
      ∑ u ∈ Finset.range ls.length,
        if ls.getD u 0 < n ∨ (ls.getD u 0 = n ∧ u < v) then 2 ^ (d - ls.getD u 0) else 0 := by
  induction ls generalizing v with
  | nil => simp [firstCode]
  | cons l ls ih =>
    rw [List.length_cons, Finset.sum_range_succ', firstCode_cons]
    cases v with
    | zero =>
      have h0 := ih 0
      simp only [List.take_zero, List.count_nil, Nat.not_lt_zero, and_false, or_false, Nat.add_zero,
        List.getD_cons_succ, List.getD_cons_zero] at h0 ⊢
      rw [Nat.add_mul, h0, ite_mul, Nat.zero_mul, Nat.add_comm]
      exact congrArg _ (if_ctx_congr Iff.rfl (fun h => two_pow_sub_mul h.le hn) fun _ => rfl)
    | succ v =>
      have hv := ih v
      simp only [List.take_succ_cons, List.getD_cons_succ, List.getD_cons_zero, Nat.add_lt_add_iff_right,
        Nat.zero_lt_succ, and_true] at hv ⊢
      obtain h | rfl | h := Nat.lt_trichotomy l n
      · rw [← hv, if_pos h, if_pos (.inl h), List.count_cons_of_ne h.ne, ← two_pow_sub_mul h.le hn]
        ring
      · rw [← hv, if_neg (lt_irrefl l), if_pos (.inr rfl), List.count_cons_self]
        ring
      · rw [← hv, if_neg h.not_gt, if_neg (by omega), List.count_cons_of_ne h.ne', Nat.zero_add, Nat.add_zero]

theorem canonicalCode_mul {d : Nat} {ls : List Nat} {v : Nat} (hv : ls.getD v 0 ≤ d) :
    canonicalCode ls v * 2 ^ (d - ls.getD v 0) = kraftBefore d ls v := by
  rw [canonicalCode_eq, firstCode_add_count_mul hv, kraftBefore, Finset.sum_filter]

theorem sum_add_le_sum {s t : Finset ℕ} {u : ℕ} (f : ℕ → ℕ) (hu : u ∉ s) (hut : u ∈ t) (hst : s ⊆ t) :
    ∑ x ∈ s, f x + f u ≤ ∑ x ∈ t, f x := by
  rw [Nat.add_comm, ← Finset.sum_insert hu]
  exact Finset.sum_le_sum_of_subset (Finset.insert_subset hut hst)

theorem precedes_trans {ls : List Nat} {u v w : Nat} (huv : precedes ls u v) (hvw : precedes ls v w) :
    precedes ls u w := by
  unfold precedes at *
  omega

theorem precedes_or_precedes {ls : List Nat} {u v : Nat} (h : u ≠ v) : precedes ls u v ∨ precedes ls v u := by
  unfold precedes
  omega

theorem kraftBefore_add_le {d : Nat} {ls : List Nat} {u v : Nat} (hu : u < ls.length) (h : precedes ls u v) :
    kraftBefore d ls u + 2 ^ (d - ls.getD u 0) ≤ kraftBefore d ls v :=
  sum_add_le_sum (fun x => 2 ^ (d - ls.getD x 0)) (by simp)
    (Finset.mem_filter.mpr ⟨Finset.mem_range.mpr hu, h⟩)
    (Finset.monotone_filter_right _ fun _ _ hx => precedes_trans hx h)

theorem kraftBefore_add_le_kraftSum {d : Nat} {ls : List Nat} {v : Nat} (hv : v < ls.length) :
    kraftBefore d ls v + 2 ^ (d - ls.getD v 0) ≤ kraftSum d ls := by
  rw [kraftSum_eq_sum_range]
  exact sum_add_le_sum (fun x => 2 ^ (d - ls.getD x 0)) (by simp) (Finset.mem_range.mpr hv) (Finset.filter_subset _ _)

theorem kraftBefore_eq_zero {d : Nat} {ls : List Nat} {v : Nat} (h : ∀ u, u < ls.length → ¬ precedes ls u v) :
    kraftBefore d ls v = 0 := by
  rw [kraftBefore, Finset.filter_false_of_mem fun u hu => h u (Finset.mem_range.mp hu), Finset.sum_empty]

theorem kraftBefore_add_eq_kraftSum {d : Nat} {ls : List Nat} {v : Nat} (hv : v < ls.length)
    (h : ∀ u, u < ls.length → u ≠ v → precedes ls u v) :
    kraftBefore d ls v + 2 ^ (d - ls.getD v 0) = kraftSum d ls := by
  rw [kraftSum_eq_sum_range, ← Finset.sum_erase_add _ _ (Finset.mem_range.mpr hv), kraftBefore]
  congr 2
  ext u
  simp only [Finset.mem_filter, Finset.mem_erase, Finset.mem_range]
  constructor
  · rintro ⟨hu, hp⟩
    exact ⟨by rintro rfl; omega, hu⟩
  · exact fun ⟨hne, hu⟩ => ⟨hu, h u hu hne⟩

/-! ## The laws (R301) -/

section
variable {ls : List Nat} {d : Nat} (hd : ∀ l ∈ ls, 1 ≤ l ∧ l ≤ d)
include hd

theorem getD_le_of_forall {v : Nat} (hv : v < ls.length) : ls.getD v 0 ≤ d :=
  (hd _ (List.getD_eq_getElem ls 0 hv ▸ List.getElem_mem hv)).2

/-- Whoever comes before `v` leaves room: `v`'s code begins after all words that `u`'s code begins. -/
theorem succ_canonicalCode_mul_le {u v : Nat} (hu : u < ls.length) (hv : v < ls.length) (h : precedes ls u v) :
    (canonicalCode ls u + 1) * 2 ^ (d - ls.getD u 0) ≤ canonicalCode ls v * 2 ^ (d - ls.getD v 0) := by
  rw [Nat.add_mul, Nat.one_mul, canonicalCode_mul (getD_le_of_forall hd hu),
    canonicalCode_mul (getD_le_of_forall hd hv)]
  exact kraftBefore_add_le hu h

theorem succ_canonicalCode_mul_le_kraftSum {v : Nat} (hv : v < ls.length) :
    (canonicalCode ls v + 1) * 2 ^ (d - ls.getD v 0) ≤ kraftSum d ls := by
  rw [Nat.add_mul, Nat.one_mul, canonicalCode_mul (getD_le_of_forall hd hv)]
  exact kraftBefore_add_le_kraftSum hv

theorem canonicalCode_lt_two_pow (hk : kraftSum d ls ≤ 2 ^ d) {v : Nat} (hv : v < ls.length) :
    canonicalCode ls v < 2 ^ ls.getD v 0 := by
  have hle := (succ_canonicalCode_mul_le_kraftSum hd hv).trans hk
  rw [← pow_mul_pow_sub 2 (getD_le_of_forall hd hv)] at hle
  exact Nat.le_of_mul_le_mul_right hle (Nat.two_pow_pos _)

/-- Cut to the length of an earlier symbol's code, a code is beyond that code. -/
theorem canonicalCode_lt_div {u v : Nat} (hu : u < ls.length) (hv : v < ls.length) (h : precedes ls u v) :
    canonicalCode ls u < canonicalCode ls v / 2 ^ (ls.getD v 0 - ls.getD u 0) := by
  have hlen : ls.getD u 0 ≤ ls.getD v 0 := h.elim Nat.le_of_lt fun h => h.1.le
  have hle := succ_canonicalCode_mul_le hd hu hv h
  rw [← two_pow_sub_mul hlen (getD_le_of_forall hd hv), ← Nat.mul_assoc] at hle
  exact (Nat.le_div_iff_mul_le (Nat.two_pow_pos _)).mpr (Nat.le_of_mul_le_mul_right hle (Nat.two_pow_pos _))

theorem canonicalCode_eq_zero {v : Nat} (hv : v < ls.length) (h : ∀ u, u < ls.length → ¬ precedes ls u v) :
    canonicalCode ls v = 0 := by
  have hmul := canonicalCode_mul (getD_le_of_forall hd hv)
  rw [kraftBefore_eq_zero h] at hmul
  exact (Nat.mul_eq_zero.mp hmul).resolve_right (Nat.two_pow_pos _).ne'

theorem succ_canonicalCode_of_last (hk : kraftSum d ls = 2 ^ d) {v : Nat} (hv : v < ls.length)
    (h : ∀ u, u < ls.length → u ≠ v → precedes ls u v) : canonicalCode ls v + 1 = 2 ^ ls.getD v 0 := by
  have heq := (kraftBefore_add_eq_kraftSum hv h).trans hk
  rw [← canonicalCode_mul (getD_le_of_forall hd hv), ← Nat.succ_mul,
    ← pow_mul_pow_sub 2 (getD_le_of_forall hd hv)] at heq
  exact Nat.eq_of_mul_eq_mul_right (Nat.two_pow_pos _) heq

end

/-- Settles O47: each law compares, for two symbols, the parts of the Kraft sum before them. -/
theorem canonicalCodesArePrefixFree : Obligations.CanonicalCodesArePrefixFree := by
  intro ls d hd hk len code
  have hcode : ∀ v, v < ls.length → code v = canonicalCode ls v := fun _ => getD_canonicalCodes
  refine ⟨length_canonicalCodes ls, fun v hv => ?_, fun u v hu hv hne hle => ?_, fun u v hu hv h => ?_,
    fun v hv hmin hfirst => ?_, fun hk1 v hv hmax hlast => ?_⟩
  · rw [hcode v hv]
    exact canonicalCode_lt_two_pow hd hk hv
  · rw [hcode u hu, hcode v hv]
    obtain h | h := precedes_or_precedes (ls := ls) hne
    · exact (canonicalCode_lt_div hd hu hv h).ne'
    · have hsame : ls.getD v 0 = ls.getD u 0 := h.elim (fun hlt => absurd hlt (Nat.not_lt.mpr hle)) And.left
      have hlt := canonicalCode_lt_div hd hv hu h
      show canonicalCode ls v / 2 ^ (ls.getD v 0 - ls.getD u 0) ≠ canonicalCode ls u
      rw [hsame, Nat.sub_self, pow_zero, Nat.div_one] at hlt ⊢
      exact hlt.ne
  · rw [hcode u hu, hcode v hv]
    exact lt_of_lt_of_le ((Nat.mul_lt_mul_right (Nat.two_pow_pos _)).mpr (Nat.lt_succ_self _))
      (succ_canonicalCode_mul_le hd hu hv h)
  · rw [hcode v hv]
    exact canonicalCode_eq_zero hd hv fun u hu h => h.elim (Nat.not_lt.mpr (hmin u hu)) fun h => hfirst u h.2 h.1
  · rw [hcode v hv]
    refine Nat.eq_sub_of_add_eq (succ_canonicalCode_of_last hd hk1 hv fun u hu hne => ?_)
    refine (precedes_or_precedes hne).resolve_right fun h => ?_
    exact h.elim (Nat.not_lt.mpr (hmax u hu)) fun h => hlast u h.2 hu h.1.symm

/-! ## The stage (R300) -/

theorem exec_stCanon (s : State) :
    exec .stCanon s = .next
      { s with
        code := writeRows s.code 0 ((List.range s.regT.toNat).map fun t => canonicalCodes (s.lenRow t))
        stage := 8#4 } := rfl

@[simp] theorem length_lenRow (s : State) (t : Nat) : (s.lenRow t).length = s.regK.toNat + 2 :=
  (List.length_map _).trans (Memory.length_slice ..)

/-- Settles O46: the rows stored are the canonical codes of the rows of LEN, by the loop's equation. -/
theorem canonStageNumbersTheCodes : Obligations.CanonStageNumbersTheCodes := by
  intro s hK hwf
  have hlen : ∀ row ∈ (List.range s.regT.toNat).map fun t => canonicalCodes (s.lenRow t),
      row.length = s.regK.toNat + 2 := by simp
  refine ⟨_, exec_stCanon s, rfl, fun i v hi hv => ?_, fun j hj => ?_⟩
  · have hrow : ((List.range s.regT.toNat).map fun t => canonicalCodes (s.lenRow t)).getD i [] =
        canonicalCodes (s.lenRow i) := by simp [hi]
    rw [State.codeAt, get_writeRows hwf (by omega) hlen (by simpa using hi) hv, hrow,
      getD_canonicalCodes (by simpa using hv), BitVec.toNat_ofNat]
  · exact get_writeRows_of_outside _ hlen fun i v _ hi => hj i v (by simpa using hi)

end Sys2Proof.Machine
end

section
/-! PROOF. Table selection (45_huffman.md R282 to R287): the slices of the initial tables, the groups, and what one
round selects and counts. -/

namespace Sys2Proof.Machine

theorem sum_map_range (f : Nat → Nat) (n : Nat) : ((List.range n).map f).sum = ∑ i ∈ Finset.range n, f i := rfl

/-! ## The slices (R283) -/

/-- The weight of the symbols `lo` to `hi − 1`. -/
def sliceWeight (f : List Nat) (lo hi : Nat) : Nat := ((f.drop lo).take (hi - lo)).sum

theorem sliceWeight_self (f : List Nat) (lo : Nat) : sliceWeight f lo lo = 0 := by
  simp [sliceWeight]

theorem sliceWeight_succ (f : List Nat) {lo hi : Nat} (h : lo ≤ hi) :
    sliceWeight f lo (hi + 1) = sliceWeight f lo hi + f.getD hi 0 := by
  rw [sliceWeight, sliceWeight, Nat.succ_sub h, List.take_add_one, List.sum_append, List.getElem?_drop,
    Nat.add_sub_cancel' h, List.getD_eq_getElem?_getD]
  cases f[hi]? <;> simp

/-- A slice that has come to `h` ends where its weight first reaches the target, or with the alphabet. -/
theorem cutSlice_spec (f : List Nat) {a lo : Nat} (target fuel h : Nat) (hlo : lo ≤ h) (ha : h ≤ a)
    (hfuel : a ≤ h + fuel) :
    ∃ hi, cutSlice f a target fuel h (sliceWeight f lo h) = (hi, sliceWeight f lo hi) ∧ h ≤ hi ∧ hi ≤ a
      ∧ (target ≤ sliceWeight f lo hi ∨ hi = a) ∧ ∀ x, h ≤ x → x < hi → sliceWeight f lo x < target := by
  induction fuel generalizing h with
  | zero => exact ⟨h, rfl, le_rfl, ha, .inr (by omega), fun x hx hx' => absurd hx (by omega)⟩
  | succ fuel ih =>
    rw [cutSlice]
    split_ifs with hgo
    · obtain ⟨hi, heq, hle, hia, hend, hbelow⟩ := ih (h + 1) (by omega) (by omega) (by omega)
      refine ⟨hi, ?_, by omega, hia, hend, fun x hx hx' => ?_⟩
      · rw [← sliceWeight_succ f hlo, heq]
      · obtain rfl | hx := hx.eq_or_lt
        · exact hgo.1
        · exact hbelow x hx hx'
    · exact ⟨h, rfl, le_rfl, ha, by omega, fun x hx hx' => absurd hx (by omega)⟩

theorem initialTables_succ (f : List Nat) (a left rem lo : Nat) :
    initialTables f a (left + 1) rem lo =
      sliceLengths a lo (cutSlice f a (rem / (left + 1)) a lo 0).1
        :: initialTables f a left (rem - (cutSlice f a (rem / (left + 1)) a lo 0).2)
            (cutSlice f a (rem / (left + 1)) a lo 0).1 := rfl

/-- Settles O42: every table is the slice that `cutSlice` cuts. -/
theorem initialTablesAreSlices : Obligations.InitialTablesAreSlices := by
  refine ⟨fun _ _ => rfl, fun f a left rem lo _ hlo => ?_⟩
  obtain ⟨hi, heq, hle, hia, hend, hbelow⟩ := cutSlice_spec f (rem / (left + 1)) a lo le_rfl hlo (Nat.le_add_left a lo)
  rw [sliceWeight_self] at heq
  refine ⟨hi, hle, hia, hend, hbelow, ?_⟩
  rw [initialTables_succ, heq]
  rfl

/-! ## The least cost (R285, R286) -/

/-- `k` is the first of the least among the first `n` costs. -/
def IsFirstLeast (cs : List Nat) (n k : Nat) : Prop :=
  k < n ∧ (∀ t, t < n → cs.getD k 0 ≤ cs.getD t 0) ∧ ∀ t, t < k → cs.getD k 0 < cs.getD t 0

/-- One more cost takes the place of the least so far exactly if it is less. -/
theorem IsFirstLeast.succ {cs : List Nat} {n k : Nat} (h : IsFirstLeast cs n k) :
    IsFirstLeast cs (n + 1) (if cs.getD n 0 < cs.getD k 0 then n else k) := by
  obtain ⟨hk, hle, hlt⟩ := h
  split_ifs with hn
  · refine ⟨Nat.lt_succ_self n, fun t ht => ?_, fun t ht => lt_of_lt_of_le hn (hle t ht)⟩
    obtain ht | rfl := Nat.lt_succ_iff_lt_or_eq.mp ht
    · exact hn.le.trans (hle t ht)
    · exact le_rfl
  · refine ⟨Nat.lt_succ_of_lt hk, fun t ht => ?_, hlt⟩
    obtain ht | rfl := Nat.lt_succ_iff_lt_or_eq.mp ht
    · exact hle t ht
    · exact Nat.le_of_not_lt hn

theorem leastFrom_cons (best bestCost i c : Nat) (cs : List Nat) :
    leastFrom best bestCost i (c :: cs) =
      leastFrom (if c < bestCost then i else best) (if c < bestCost then c else bestCost) (i + 1) cs := by
  rw [leastFrom]
  split_ifs <;> rfl

/-- Going on from the first least of the first `i` costs gives the first least of all. -/
theorem leastFrom_isFirstLeast (cs : List Nat) {i best : Nat} {rest : List Nat} (hrest : cs.drop i = rest)
    (hi : i ≤ cs.length) (h : IsFirstLeast cs i best) :
    IsFirstLeast cs cs.length (leastFrom best (cs.getD best 0) i rest) := by
  induction rest generalizing i best with
  | nil =>
    rw [Nat.le_antisymm hi (List.drop_eq_nil_iff.mp hrest)] at h
    exact h
  | cons c rest ih =>
    have hlt : i < cs.length := by
      by_contra hn
      rw [List.drop_eq_nil_of_le (Nat.le_of_not_lt hn)] at hrest
      cases hrest
    rw [List.drop_eq_getElem_cons hlt] at hrest
    obtain ⟨hc, hrest⟩ := List.cons.inj hrest
    have hci : c = cs.getD i 0 := hc ▸ (List.getD_eq_getElem cs 0 hlt).symm
    rw [leastFrom_cons, hci, ← apply_ite (fun k => cs.getD k 0)]
    exact ih hrest hlt h.succ

theorem cheapest_isFirstLeast {cs : List Nat} (h : cs ≠ []) : IsFirstLeast cs cs.length (cheapest cs) := by
  cases cs with
  | nil => contradiction
  | cons c cs =>
    exact leastFrom_isFirstLeast (c :: cs) (i := 1) (best := 0) rfl (Nat.succ_le_succ (Nat.zero_le _))
      ⟨Nat.one_pos, fun t ht => by rw [Nat.lt_one_iff.mp ht], fun t ht => absurd ht (Nat.not_lt_zero t)⟩

/-! ## The selected groups (R285, R287) -/

theorem zip_eq_map_range {groups : List (List Nat)} {sels : List Nat} (h : sels.length = groups.length) :
    groups.zip sels = (List.range groups.length).map fun g => (groups.getD g [], sels.getD g 0) := by
  apply List.ext_getElem
  · simp [h]
  · intro g hg hg'
    have hgs : g < groups.length := by simpa using hg'
    simp [hgs, h]

theorem symbolsOf_eq {groups : List (List Nat)} {sels : List Nat} (h : sels.length = groups.length) (t : Nat) :
    symbolsOf groups sels t =
      ((List.range groups.length).filter fun g => decide (sels.getD g 0 = t)).flatMap fun g => groups.getD g [] := by
  rw [symbolsOf, zip_eq_map_range h, List.filter_map, List.flatMap_map]
  rfl

theorem sum_histogram (a : Nat) (ys : List Nat) : (histogram a ys).sum = ys.countP fun y => decide (y < a) := by
  rw [histogram, sum_map_range]
  induction ys with
  | nil => simp
  | cons y ys ih =>
    simp [List.count_cons, List.countP_cons, Finset.sum_add_distrib, ih]

theorem length_symbolsOf {groups : List (List Nat)} {sels : List Nat} (h : sels.length = groups.length) (t : Nat) :
    (symbolsOf groups sels t).length =
      ∑ g ∈ Finset.range groups.length with sels.getD g 0 = t, (groups.getD g []).length := by
  rw [symbolsOf_eq h, List.length_flatMap]
  rfl

theorem sum_length_eq_sum_range (groups : List (List Nat)) :
    (groups.map List.length).sum = ∑ g ∈ Finset.range groups.length, (groups.getD g []).length := by
  rw [Finset.sum_range, ← Fin.sum_univ_fun_getElem]
  simp

/-- The groups of the tables, table by table, are all groups. -/
theorem sum_length_symbolsOf {groups : List (List Nat)} {sels : List Nat} {n : Nat}
    (h : sels.length = groups.length) (hsel : ∀ g, g < groups.length → sels.getD g 0 < n) :
    ∑ t ∈ Finset.range n, (symbolsOf groups sels t).length = (groups.map List.length).sum := by
  rw [sum_length_eq_sum_range, Finset.sum_congr rfl fun t _ => length_symbolsOf h t]
  exact Finset.sum_fiberwise_of_maps_to
    (fun g hg => Finset.mem_range.mpr (hsel g (Finset.mem_range.mp hg))) _

theorem mem_of_mem_symbolsOf {groups : List (List Nat)} {sels : List Nat} {t y : Nat}
    (h : y ∈ symbolsOf groups sels t) : ∃ ys ∈ groups, y ∈ ys := by
  obtain ⟨gs, hgs, hy⟩ := List.mem_flatMap.mp h
  exact ⟨gs.1, (List.of_mem_zip (List.mem_filter.mp hgs).1).1, hy⟩

theorem getD_histogram {a v : Nat} (ys : List Nat) (h : v < a) : (histogram a ys).getD v 0 = ys.count v := by
  simp [histogram, h]

/-! ## One round (R285) -/

section
variable (huff : List Nat → List Nat) (a : Nat) (groups tables : List (List Nat))

theorem refine_sels :
    (refine huff a groups tables).sels = groups.map fun g => cheapest (groupCosts tables g) := rfl

theorem refine_freqs :
    (refine huff a groups tables).freqs =
      (List.range tables.length).map fun t => histogram a (symbolsOf groups (refine huff a groups tables).sels t) := rfl

theorem refine_lens : (refine huff a groups tables).lens = (refine huff a groups tables).freqs.map huff := rfl

@[simp] theorem length_refine_sels : (refine huff a groups tables).sels.length = groups.length := List.length_map _

@[simp] theorem length_refine_freqs : (refine huff a groups tables).freqs.length = tables.length := by
  rw [refine_freqs, List.length_map, List.length_range]

theorem getD_refine_freqs {t : Nat} (ht : t < tables.length) :
    (refine huff a groups tables).freqs.getD t [] =
      histogram a (symbolsOf groups (refine huff a groups tables).sels t) := by
  rw [refine_freqs]
  simp [ht]

theorem getD_groupCosts (ys : List Nat) {t : Nat} (ht : t < tables.length) :
    (groupCosts tables ys).getD t 0 = groupCost (tables.getD t []) ys := by
  simp [groupCosts, ht]

theorem getD_refine_sels {g : Nat} (hg : g < groups.length) :
    (refine huff a groups tables).sels.getD g 0 = cheapest (groupCosts tables (groups.getD g [])) := by
  rw [refine_sels]
  simp [hg]

variable {tables} (ht : tables ≠ [])
include ht

theorem getD_refine_sels_isFirstLeast {g : Nat} (hg : g < groups.length) :
    IsFirstLeast (groupCosts tables (groups.getD g [])) tables.length
      ((refine huff a groups tables).sels.getD g 0) := by
  have hfirst := cheapest_isFirstLeast (cs := groupCosts tables (groups.getD g [])) (by simpa [groupCosts] using ht)
  rwa [groupCosts, List.length_map, ← groupCosts, ← getD_refine_sels huff a groups tables hg] at hfirst

theorem sum_refine_freqs (h : ∀ ys ∈ groups, ∀ y ∈ ys, y < a) :
    ((refine huff a groups tables).freqs.map List.sum).sum = (groups.map List.length).sum := by
  have hsel := fun g hg => (getD_refine_sels_isFirstLeast huff a groups ht (g := g) hg).1
  rw [← sum_length_symbolsOf (length_refine_sels huff a groups tables) hsel, refine_freqs, List.map_map, sum_map_range]
  refine Finset.sum_congr rfl fun t _ => (sum_histogram a _).trans (List.countP_eq_length.mpr fun y hy => ?_)
  obtain ⟨ys, hys, hmem⟩ := mem_of_mem_symbolsOf hy
  exact decide_eq_true (h ys hys y hmem)

end

/-- Settles O43: a group's selection is the first least of its costs, and a table's symbols are those of its groups. -/
theorem roundSelectsTheCheapest : Obligations.RoundSelectsTheCheapest := by
  intro huff a groups tables ht r cost
  refine ⟨length_refine_sels .., length_refine_freqs .., fun g hg => ?_, fun t v ht hv => ?_, rfl,
    sum_refine_freqs huff a groups ht⟩
  · obtain ⟨hlt, hle, hless⟩ := getD_refine_sels_isFirstLeast huff a groups ht hg
    have hcost : ∀ t, t < tables.length → (groupCosts tables (groups.getD g [])).getD t 0 = cost t g := fun t ht =>
      getD_groupCosts tables _ ht
    refine ⟨hlt, fun t ht => ?_, fun t ht => ?_⟩
    · rw [← hcost _ hlt, ← hcost t ht]
      exact hle t ht
    · rw [← hcost _ hlt, ← hcost t (ht.trans hlt)]
      exact hless t ht
  · rw [getD_refine_freqs huff a groups tables ht, getD_histogram _ hv, symbolsOf_eq (length_refine_sels ..),
      List.count_flatMap]
    rfl

end Sys2Proof.Machine
end

section
/-! PROOF. How long the default's codes can be (45_huffman.md R291 to R294). A tree merged from the least nodes weighs
at least the Fibonacci number of its depth, so a bound on the weights is a bound on the lengths. -/

namespace Sys2Proof.Machine

/-! ## The order of the nodes (R292) -/

theorem HuffNode.before_iff (a b : HuffNode) : HuffNode.before a b = true ↔
    a.weight < b.weight ∨ (a.weight = b.weight ∧ (a.depth < b.depth ∨ (a.depth = b.depth ∧ a.id ≤ b.id))) := by
  simp [HuffNode.before]

theorem HuffNode.before_total (a b : HuffNode) : HuffNode.before a b = true ∨ HuffNode.before b a = true := by
  rw [HuffNode.before_iff, HuffNode.before_iff]
  omega

theorem HuffNode.before_trans (a b c : HuffNode) (hab : HuffNode.before a b = true) (hbc : HuffNode.before b c = true) :
    HuffNode.before a c = true := by
  rw [HuffNode.before_iff] at *
  omega

theorem HuffNode.weight_le_of_before {a b : HuffNode} (h : HuffNode.before a b = true) : a.weight ≤ b.weight := by
  rw [HuffNode.before_iff] at h
  omega

/-- Nodes in order, the least first. -/
abbrev NodesSorted (l : List HuffNode) : Prop := l.Pairwise fun a b => HuffNode.before a b = true

theorem insertNode_eq_orderedInsert (a : HuffNode) (l : List HuffNode) :
    insertNode a l = l.orderedInsert (fun a b => HuffNode.before a b = true) a := by
  induction l with
  | nil => rfl
  | cons b bs ih => rw [insertNode, List.orderedInsert_cons, ih]

theorem insertNode_perm (a : HuffNode) (l : List HuffNode) : (insertNode a l).Perm (a :: l) :=
  insertNode_eq_orderedInsert a l ▸ List.perm_orderedInsert _ a l

theorem insertNode_sorted (a : HuffNode) {l : List HuffNode} (h : NodesSorted l) : NodesSorted (insertNode a l) := by
  have : Std.Total fun a b => HuffNode.before a b = true := ⟨HuffNode.before_total⟩
  have : IsTrans HuffNode fun a b => HuffNode.before a b = true := ⟨HuffNode.before_trans⟩
  rw [insertNode_eq_orderedInsert]
  exact h.orderedInsert a l

theorem foldr_insertNode_perm (l : List HuffNode) : (l.foldr insertNode []).Perm l := by
  induction l with
  | nil => exact .nil
  | cons a l ih => exact (insertNode_perm a _).trans (ih.cons a)

theorem foldr_insertNode_sorted (l : List HuffNode) : NodesSorted (l.foldr insertNode []) := by
  induction l with
  | nil => exact .nil
  | cons a l ih => exact insertNode_sorted a ih

theorem leafNodes_perm (ws : List Nat) :
    (leafNodes ws).Perm (ws.zipIdx.map fun wv => HuffNode.mk wv.1 0 wv.2 (.leaf wv.2)) :=
  foldr_insertNode_perm _

theorem leafNodes_sorted (ws : List Nat) : NodesSorted (leafNodes ws) := foldr_insertNode_sorted _

theorem length_leafNodes (ws : List Nat) : (leafNodes ws).length = ws.length := by
  rw [(leafNodes_perm ws).length_eq, List.length_map, List.length_zipIdx]

theorem sum_weight_leafNodes (ws : List Nat) : ((leafNodes ws).map HuffNode.weight).sum = ws.sum := by
  rw [((leafNodes_perm ws).map _).sum_eq, List.map_map]
  exact congrArg List.sum (List.zipIdx_map_fst 0 ws)

/-! ## Merging (R292) -/

theorem mergeNodes_ne_nil (n next : Nat) {l : List HuffNode} (h : l ≠ []) : mergeNodes n next l ≠ [] := by
  fun_induction mergeNodes n next l with
  | case1 n next a b rest ih =>
    exact ih (List.ne_nil_of_mem ((insertNode_perm _ _).mem_iff.mpr List.mem_cons_self))
  | case2 => exact h

theorem sum_weight_mergeNodes (n next : Nat) (l : List HuffNode) :
    ((mergeNodes n next l).map HuffNode.weight).sum = (l.map HuffNode.weight).sum := by
  fun_induction mergeNodes n next l with
  | case1 n next a b rest ih =>
    rw [ih, ((insertNode_perm _ _).map _).sum_eq]
    exact Nat.add_assoc _ _ _
  | case2 => rfl

/-- A node of a forest whose nodes all weigh at least `m`: its own weight is at least the Fibonacci number of its
depth, that of its heavier child at most `m`, and no leaf of its tree lies deeper than its depth says. -/
structure HuffNode.Grown (m : Nat) (n : HuffNode) : Prop where
  le_weight : m ≤ n.weight
  fib_child_le : Nat.fib (n.depth + 1) ≤ m
  fib_le_weight : Nat.fib (n.depth + 2) ≤ n.weight
  leaves_le : ∀ d, ∀ p ∈ CodeTree.leaves d n.tree, p.2 ≤ d + n.depth

theorem HuffNode.grown_leaf {w : Nat} (hw : 1 ≤ w) (v : Nat) : HuffNode.Grown 1 ⟨w, 0, v, .leaf v⟩ :=
  ⟨hw, le_rfl, hw, fun d p hp => by rw [CodeTree.leaves, List.mem_singleton] at hp; rw [hp]; exact le_rfl⟩

theorem HuffNode.Grown.mono {m m' : Nat} {n : HuffNode} (h : n.Grown m) (hm : m ≤ m') (hn : m' ≤ n.weight) :
    n.Grown m' :=
  ⟨hn, h.fib_child_le.trans hm, h.fib_le_weight, h.leaves_le⟩

theorem HuffNode.grown_parentNode {m : Nat} {a b : HuffNode} (ha : a.Grown m) (hb : b.Grown m)
    (hab : a.weight ≤ b.weight) (next : Nat) : (parentNode a b next).Grown b.weight := by
  have hfib : Nat.fib (1 + max a.depth b.depth + 1) ≤ b.weight ∧
      Nat.fib (1 + max a.depth b.depth + 2) ≤ a.weight + b.weight := by
    rw [Nat.fib_add_two, Nat.add_comm 1]
    obtain hmax | hmax := le_total a.depth b.depth
    · rw [max_eq_right hmax]
      exact ⟨hb.fib_le_weight, Nat.add_le_add (hb.fib_child_le.trans ha.le_weight) hb.fib_le_weight⟩
    · rw [max_eq_left hmax, Nat.add_comm a.weight]
      exact ⟨ha.fib_le_weight.trans hab, Nat.add_le_add (ha.fib_child_le.trans hb.le_weight) ha.fib_le_weight⟩
  refine ⟨Nat.le_add_left _ _, hfib.1, hfib.2, fun d p hp => ?_⟩
  show p.2 ≤ d + (1 + max a.depth b.depth)
  obtain hp | hp := List.mem_append.mp hp
  · have := ha.leaves_le (d + 1) p hp
    omega
  · have := hb.leaves_le (d + 1) p hp
    omega

theorem mergeNodes_grown (n next : Nat) {l : List HuffNode} {m : Nat} (hs : NodesSorted l)
    (hl : ∀ x ∈ l, x.Grown m) : ∃ m', ∀ x ∈ mergeNodes n next l, x.Grown m' := by
  fun_induction mergeNodes n next l generalizing m with
  | case1 n next a b rest ih =>
    obtain ⟨ha, hb, hrest⟩ : a.Grown m ∧ b.Grown m ∧ ∀ x ∈ rest, x.Grown m := by simpa using hl
    obtain ⟨hle, hbs⟩ := List.pairwise_cons.mp hs
    obtain ⟨hble, hrs⟩ := List.pairwise_cons.mp hbs
    refine ih (m := b.weight) (insertNode_sorted _ hrs) fun x hx => ?_
    obtain rfl | hx := List.mem_cons.mp ((insertNode_perm _ _).mem_iff.mp hx)
    · exact HuffNode.grown_parentNode ha hb (HuffNode.weight_le_of_before (hle b List.mem_cons_self)) next
    · exact (hrest x hx).mono hb.le_weight (HuffNode.weight_le_of_before (hble x hx))
  | case2 => exact ⟨m, hl⟩

/-! ## The lengths (R292, R293) -/

theorem huffTree_eq_none_iff {ws : List Nat} : huffTree ws = none ↔ ws = [] := by
  constructor
  · intro h
    by_contra hne
    have hleaf : leafNodes ws ≠ [] := List.ne_nil_of_length_pos (length_leafNodes ws ▸ List.length_pos_iff.mpr hne)
    rw [huffTree, Option.map_eq_none_iff, List.head?_eq_none_iff] at h
    exact mergeNodes_ne_nil _ _ hleaf h
  · rintro rfl
    rfl

@[simp] theorem length_treeLengths (ws : List Nat) : (treeLengths ws).length = ws.length := by
  rw [treeLengths]
  split
  next h => rw [huffTree_eq_none_iff.mp h]
  next => rw [List.length_map, List.length_range]

/-- The weights bound the depth of every leaf. -/
theorem leaves_huffTree_le {ws : List Nat} {t : CodeTree} {n : Nat} (hpos : ∀ w ∈ ws, 1 ≤ w)
    (hsum : ws.sum < Nat.fib (n + 3)) (ht : huffTree ws = some t) : ∀ p ∈ CodeTree.leaves 0 t, p.2 ≤ n := by
  obtain ⟨x, hx, rfl⟩ := Option.map_eq_some_iff.mp ht
  have hmem := List.mem_of_mem_head? hx
  have hleaf : ∀ y ∈ leafNodes ws, y.Grown 1 := fun y hy => by
    obtain ⟨wv, hwv, rfl⟩ := List.mem_map.mp ((leafNodes_perm ws).mem_iff.mp hy)
    exact HuffNode.grown_leaf (hpos _ (List.fst_mem_of_mem_zipIdx hwv)) _
  obtain ⟨m, hgrown⟩ := mergeNodes_grown (ws.length - 1) ws.length (leafNodes_sorted ws) hleaf
  have hweight : x.weight ≤ ws.sum := by
    rw [← sum_weight_leafNodes, ← sum_weight_mergeNodes (ws.length - 1) ws.length]
    exact List.le_sum_of_mem (List.mem_map_of_mem hmem)
  have hdepth : x.depth + 2 < n + 3 :=
    Nat.fib_mono.reflect_lt (((hgrown x hmem).fib_le_weight.trans hweight).trans_lt hsum)
  intro p hp
  have := (hgrown x hmem).leaves_le 0 p hp
  omega

theorem treeLengths_le {ws : List Nat} {n : Nat} (hpos : ∀ w ∈ ws, 1 ≤ w) (hsum : ws.sum < Nat.fib (n + 3)) :
    ∀ l ∈ treeLengths ws, l ≤ n := by
  rw [treeLengths]
  split
  next => exact fun l hl => absurd hl List.not_mem_nil
  next t ht =>
    intro l hl
    obtain ⟨v, -, rfl⟩ := List.mem_map.mp hl
    cases hlook : (CodeTree.leaves 0 t).lookup v with
    | none => exact Nat.zero_le n
    | some d =>
      obtain ⟨l₁, l₂, heq, -⟩ := List.lookup_eq_some_iff.mp hlook
      exact leaves_huffTree_le hpos hsum ht (v, d) (heq ▸ List.mem_append_right _ List.mem_cons_self)

theorem sum_halved_le {ws : List Nat} (hpos : ∀ w ∈ ws, 1 ≤ w) : (ws.map fun w => 1 + w / 2).sum ≤ ws.sum := by
  have hle := List.sum_le_sum (g := id) (f := fun w => 1 + w / 2) fun w hw => by
    have := hpos w hw
    show 1 + w / 2 ≤ w
    omega
  rwa [List.map_id] at hle

@[simp] theorem length_limitLengths (fuel : Nat) (ws : List Nat) : (limitLengths fuel ws).length = ws.length := by
  fun_induction limitLengths fuel ws with
  | case1 ws => exact length_treeLengths ws
  | case2 fuel ws => exact length_treeLengths ws
  | case3 fuel ws _ ih => rw [ih, List.length_map]

theorem limitLengths_le {n : Nat} (fuel : Nat) {ws : List Nat} (hpos : ∀ w ∈ ws, 1 ≤ w)
    (hsum : ws.sum < Nat.fib (n + 3)) : ∀ l ∈ limitLengths fuel ws, l ≤ n := by
  fun_induction limitLengths fuel ws with
  | case1 ws => exact treeLengths_le hpos hsum
  | case2 fuel ws => exact treeLengths_le hpos hsum
  | case3 fuel ws _ ih => exact ih (by simp) ((sum_halved_le hpos).trans_lt hsum)

@[simp] theorem length_huffLengths (f : List Nat) : (huffLengths f).length = f.length := by
  rw [huffLengths, length_limitLengths, List.length_map]

theorem sum_max_one_le (f : List Nat) : (f.map fun x => max x 1).sum ≤ f.sum + f.length := by
  induction f with
  | nil => exact le_rfl
  | cons x f ih =>
    simp only [List.map_cons, List.sum_cons, List.length_cons]
    omega

theorem huffLengths_le {n : Nat} {f : List Nat} (h : f.sum + f.length < Nat.fib (n + 3)) :
    ∀ l ∈ huffLengths f, l ≤ n :=
  limitLengths_le 20 (by simp) ((sum_max_one_le f).trans_lt h)

@[simp] theorem length_codeLengths (table : List (List Nat × List Nat)) (f : List Nat) :
    (codeLengths table f).length = f.length := by
  obtain h | h := codeLengths_cases table f
  · exact ((lengthsLegal_iff f _).mp h).1
  · rw [h, length_huffLengths]

/-- The lengths of as many symbols as SYM can hold fit the elements of LEN. -/
theorem codeLengths_lt (table : List (List Nat × List Nat)) {f : List Nat} (h : f.sum + f.length < Nat.fib 34) :
    ∀ l ∈ codeLengths table f, l < 2 ^ 5 := by
  intro l hl
  obtain hc | hc := codeLengths_cases table f
  · exact lt_of_le_of_lt (((lengthsLegal_iff f _).mp hc).2.1 l hl).2 (by decide)
  · exact Nat.lt_succ_of_le (huffLengths_le (n := 31) h l (hc ▸ hl))

end Sys2Proof.Machine
end

section
/-! PROOF. Stage 6 as a whole (45_huffman.md R280 to R282): the numbers of tables and groups, the rounds, and what the
stage stores. -/

namespace Sys2Proof.Machine

/-! ## T and G (R281, R282) -/

theorem numTables_le_six (n : Nat) : numTables n ≤ 6 := by
  unfold numTables
  split_ifs <;> decide

theorem numTables_pos (n : Nat) : 0 < numTables n := by
  unfold numTables
  split_ifs <;> decide

theorem numGroups_eq (n : Nat) : numGroups n = (n + 49) / 50 := rfl

theorem symbolGroup_eq (ys : List Nat) (g : Nat) : symbolGroup ys g = (ys.drop (50 * g)).take 50 := rfl

@[simp] theorem length_symbolGroups (ys : List Nat) : (symbolGroups ys).length = numGroups ys.length := by
  simp [symbolGroups]

theorem flatten_map_symbolGroup (ys : List Nat) (n : Nat) :
    ((List.range n).map (symbolGroup ys)).flatten = ys.take (50 * n) := by
  induction n with
  | zero => rfl
  | succ n ih =>
    rw [List.range_succ, List.map_append, List.flatten_append, ih, Nat.mul_succ, List.take_add]
    simp [symbolGroup_eq]

/-- The groups one after another are the symbols. -/
theorem flatten_symbolGroups (ys : List Nat) : (symbolGroups ys).flatten = ys := by
  rw [symbolGroups, flatten_map_symbolGroup, numGroups_eq]
  exact List.take_of_length_le (by omega)

theorem sum_length_symbolGroups (ys : List Nat) : ((symbolGroups ys).map List.length).sum = ys.length := by
  rw [← List.length_flatten, flatten_symbolGroups]

/-! ## The rounds (R285) -/

theorem refineTimes_eq_iterate (huff : List Nat → List Nat) (a : Nat) (groups : List (List Nat)) (n : Nat) (r : Round) :
    refineTimes huff a groups n r = Nat.iterate (fun q => refine huff a groups q.lens) n r := by
  induction n generalizing r with
  | zero => rfl
  | succ n ih => exact ih _

@[simp] theorem length_initialTables (f : List Nat) (a n rem lo : Nat) : (initialTables f a n rem lo).length = n := by
  induction n generalizing rem lo with
  | zero => rfl
  | succ n ih => rw [initialTables_succ, List.length_cons, ih]

@[simp] theorem length_refine_lens (huff : List Nat → List Nat) (a : Nat) (groups tables : List (List Nat)) :
    (refine huff a groups tables).lens.length = tables.length := by
  rw [refine_lens, List.length_map, length_refine_freqs]

/-- The last of the rounds is a round from as many tables as there were at first. -/
theorem iterate_refine_eq {huff : List Nat → List Nat} {a n : Nat} {groups : List (List Nat)} (hn : 1 ≤ n) (r : Round) :
    ∃ tables : List (List Nat), tables.length = r.lens.length ∧
      Nat.iterate (fun q => refine huff a groups q.lens) n r = refine huff a groups tables := by
  obtain ⟨n, rfl⟩ := Nat.exists_eq_add_of_le' hn
  refine ⟨_, ?_, Function.iterate_succ_apply' _ n r⟩
  induction n with
  | zero => rfl
  | succ n ih => rw [Function.iterate_succ_apply', length_refine_lens, ih (Nat.le_add_left 1 n)]

section
variable (huff : List Nat → List Nat) (a : Nat) (groups tables : List (List Nat))

theorem length_refine_costs : (refine huff a groups tables).costs.length = tables.length := List.length_map _

variable {huff a groups tables}

theorem mem_refine_freqs {f : List Nat} (h : f ∈ (refine huff a groups tables).freqs) :
    ∃ t, t < tables.length ∧ f = histogram a (symbolsOf groups (refine huff a groups tables).sels t) := by
  obtain ⟨t, ht, rfl⟩ := List.mem_map.mp (refine_freqs huff a groups tables ▸ h)
  exact ⟨t, List.mem_range.mp ht, rfl⟩

theorem mem_refine_lens {row : List Nat} (h : row ∈ (refine huff a groups tables).lens) :
    ∃ f ∈ (refine huff a groups tables).freqs, row = huff f := by
  obtain ⟨f, hf, rfl⟩ := List.mem_map.mp (refine_lens huff a groups tables ▸ h)
  exact ⟨f, hf, rfl⟩

theorem length_of_mem_refine_freqs {f : List Nat} (h : f ∈ (refine huff a groups tables).freqs) : f.length = a := by
  obtain ⟨t, -, rfl⟩ := mem_refine_freqs h
  simp [histogram]

theorem sum_le_of_mem_refine_freqs {f : List Nat} (h : f ∈ (refine huff a groups tables).freqs) :
    f.sum ≤ (groups.map List.length).sum := by
  obtain ⟨t, -, rfl⟩ := mem_refine_freqs h
  rw [sum_histogram, sum_length_eq_sum_range]
  refine List.countP_le_length.trans ?_
  rw [length_symbolsOf (length_refine_sels ..)]
  exact Finset.sum_le_sum_of_subset (Finset.filter_subset _ _)

theorem lt_of_mem_refine_sels (ht : tables ≠ []) {k : Nat} (h : k ∈ (refine huff a groups tables).sels) :
    k < tables.length := by
  obtain ⟨g, hg, rfl⟩ := List.getElem_of_mem h
  rw [length_refine_sels] at hg
  rw [← List.getD_eq_getElem _ 0]
  exact (getD_refine_sels_isFirstLeast huff a groups ht hg).1

end

/-! ## The stage (R280) -/

@[simp] theorem length_symList (s : State) : s.symList.length = s.regS.toNat :=
  (List.length_map _).trans (Memory.length_slice ..)

/-- What the rounds leave in a state. -/
def State.rounds (s : State) : Round :=
  Nat.iterate (fun q => refine (codeLengths s.huffTable) (s.regK.toNat + 2) (symbolGroups s.symList) q.lens)
    s.iter.toNat (initialRound (s.regK.toNat + 2) s.symList)

/-- The state after the stage. -/
def State.selected (s : State) : State :=
  { s with
    regT := BitVec.ofNat 3 (numTables s.regS.toNat)
    regG := BitVec.ofNat 15 (numGroups s.regS.toNat)
    sel := Memory.writeList s.sel 0 (s.rounds.sels.map (BitVec.ofNat 3))
    freq := writeRows s.freq 0 s.rounds.freqs
    len := writeRows s.len 0 s.rounds.lens
    cost := Memory.writeList s.cost 0 (s.rounds.costs.map (BitVec.ofNat 10))
    stage := 7#4 }

theorem exec_stHsel (s : State) : exec .stHsel s = .next s.selected := by
  rw [State.selected, State.rounds, ← refineTimes_eq_iterate, ← length_symList]
  rfl

theorem toNat_regT_selected (s : State) : s.selected.regT.toNat = numTables s.regS.toNat :=
  Nat.mod_eq_of_lt ((numTables_le_six _).trans_lt (by decide))

theorem toNat_regG_selected (s : State) : s.selected.regG.toNat = numGroups s.regS.toNat :=
  Nat.mod_eq_of_lt (by have := s.regS.isLt; rw [numGroups_eq]; omega)

/-- The sizes of what the rounds leave: they are those of the memories, and every element fits. -/
structure Round.Fits (r : Round) (n a : Nat) : Prop where
  length_sels : r.sels.length = numGroups n
  sels_lt : ∀ k ∈ r.sels, k < numTables n
  length_costs : r.costs.length = numTables n
  length_freqs : r.freqs.length = numTables n
  length_freq : ∀ row ∈ r.freqs, row.length = a
  freq_lt : ∀ row ∈ r.freqs, ∀ x ∈ row, x < 2 ^ 20
  length_lens : r.lens.length = numTables n
  length_len : ∀ row ∈ r.lens, row.length = a
  len_lt : ∀ row ∈ r.lens, ∀ l ∈ row, l < 2 ^ 5

theorem State.rounds_fits {s : State} (hiter : 1 ≤ s.iter.toNat) (hK : s.regK.toNat ≤ 256) :
    s.rounds.Fits s.regS.toNat (s.regK.toNat + 2) := by
  obtain ⟨tables, htables, hr⟩ := iterate_refine_eq (huff := codeLengths s.huffTable) (a := s.regK.toNat + 2)
    (groups := symbolGroups s.symList) hiter (initialRound (s.regK.toNat + 2) s.symList)
  have hT : tables.length = numTables s.regS.toNat := by
    rw [htables, initialRound, length_initialTables, length_symList]
  have hne : tables ≠ [] := List.ne_nil_of_length_pos (hT ▸ numTables_pos _)
  rw [State.rounds, hr]
  have hS := s.regS.isLt
  have hsum : ∀ row ∈ (refine (codeLengths s.huffTable) (s.regK.toNat + 2) (symbolGroups s.symList) tables).freqs,
      row.sum ≤ s.regS.toNat := fun row hrow => by
    rw [← length_symList, ← sum_length_symbolGroups]
    exact sum_le_of_mem_refine_freqs hrow
  exact {
    length_sels := by rw [length_refine_sels, length_symbolGroups, length_symList]
    sels_lt := fun k hk => hT ▸ lt_of_mem_refine_sels hne hk
    length_costs := (length_refine_costs ..).trans hT
    length_freqs := (length_refine_freqs ..).trans hT
    length_freq := fun row => length_of_mem_refine_freqs
    freq_lt := fun row hrow x hx => ((List.le_sum_of_mem hx).trans (hsum row hrow)).trans_lt hS
    length_lens := (length_refine_lens ..).trans hT
    length_len := fun row hrow => by
      obtain ⟨f, hf, rfl⟩ := mem_refine_lens hrow
      rw [length_codeLengths, length_of_mem_refine_freqs hf]
    len_lt := fun row hrow => by
      obtain ⟨f, hf, rfl⟩ := mem_refine_lens hrow
      refine codeLengths_lt _ ?_
      have := hsum f hf
      rw [length_of_mem_refine_freqs hf]
      exact lt_of_lt_of_le (b := 2 ^ 20 + 258) (by omega) (by decide) }

theorem selList_selected {s : State} (hfit : s.rounds.Fits s.regS.toNat (s.regK.toNat + 2))
    (hsel : Memory.wf s.sel = true) : s.selected.selList = s.rounds.sels := by
  rw [State.selList, toNat_regG_selected, ← hfit.length_sels]
  exact Memory.slice_writeList_ofNat hsel fun k hk =>
    (hfit.sels_lt k hk).trans_le ((numTables_le_six _).trans (by decide))

/-- Settles O41: the stage stores what the rounds leave, and all of it fits the memories. -/
theorem hselStageRunsTheRounds : Obligations.HselStageRunsTheRounds := by
  intro s hS hiter hK hsel hfreq hlen
  have hfit := State.rounds_fits hiter hK
  have ha : s.regK.toNat + 2 ≤ 258 := Nat.add_le_add_right hK 2
  have hT := toNat_regT_selected s
  have hG := toNat_regG_selected s
  have hSel := selList_selected hfit hsel
  refine ⟨s.selected, exec_stHsel s, rfl, hT, hG, fun _ => ?_, symbolGroup_eq _, hSel, ?_, fun i hi => ⟨?_, ?_⟩,
    fun j hj => ?_, fun j hj => ?_, fun j hj => ⟨?_, ?_⟩⟩
  · rw [hG, numGroups_eq]
    omega
  · rw [hSel, hT]
    exact hfit.sels_lt
  · exact slice_writeRows_toNat hlen ha hfit.length_len hfit.len_lt (by rwa [hfit.length_lens, ← hT])
  · exact slice_writeRows_toNat hfreq ha hfit.length_freq hfit.freq_lt (by rwa [hfit.length_freqs, ← hT])
  · refine Memory.get_writeList_of_outside _ _ _ (.inr ?_)
    rwa [Nat.zero_add, List.length_map, hfit.length_sels, ← hG]
  · refine Memory.get_writeList_of_outside _ _ _ (.inr ?_)
    rwa [Nat.zero_add, List.length_map, hfit.length_costs, ← hT]
  · refine get_writeRows_of_outside _ hfit.length_len fun i v _ hi => hj i v ?_
    rwa [Nat.zero_add, hfit.length_lens, ← hT] at hi
  · refine get_writeRows_of_outside _ hfit.length_freq fun i v _ hi => hj i v ?_
    rwa [Nat.zero_add, hfit.length_freqs, ← hT] at hi

end Sys2Proof.Machine
end

section
/-! PROOF. The last stages of a closing (46_closeblock_emit.md R332, R340 to R354, 30_encoding.md R110 to R120): the bits
of the fields of a block of data, the selector ranks, that the sink operations of a block carry exactly its fields, how
many bits they are, and what stage 8 leaves on either sink. -/

namespace Sys2Proof.Machine

/-- Settles O36: the stage's own definition. -/
theorem crcfinStage : Obligations.CrcfinStage := fun _ => rfl

/-! ## The bits of a field (30_encoding.md R112 to R116) -/

/-- `n` ones and a zero are the field of rank `n` (R114). -/
theorem wireBits_unaryBits (n : Nat) : wireBits (n + 1) (unaryBits n) = List.replicate n true ++ [false] := by
  have hbits : unaryBits n = (2 ^ n - 1) * 2 ^ 1 + 0 := by
    rw [unaryBits, Nat.pow_succ]
    omega
  rw [hbits, ← wireBits_append n 1 _ 0 (by decide), wireBits_ones, wireBits_one_zero]

/-- `d` pairs and a zero are the field of `d` length steps (R115). -/
theorem wire_lenDeltaOps (down : Bool) (d : Nat) :
    (lenDeltaOps down d).flatMap SinkOp.wire = wireBits (2 * d + 1) (pairBits (if down then 3 else 2) d) := by
  have hpair : (if down then 3 else 2) ≤ 3 := by split <;> decide
  induction d with
  | zero => rfl
  | succ d ih =>
    rw [pairBits, show 2 * (d + 1) + 1 = 2 + (2 * d + 1) by omega,
      ← wireBits_append _ _ _ _ (Laws.CodeInRange.pairBits_lt hpair d), ← ih]
    rfl

/-- The sink operations that carry a field of a block of data write the bits of its encoding. -/
theorem wire_of_blockFieldOps {i : Instr} {ops : List SinkOp} (h : blockFieldOps i = some ops) :
    ops.flatMap SinkOp.wire = fieldWire (encode i) := by
  cases i
  case fBlockMagic =>
    cases h
    exact wireBits_append 24 24 _ _ (by decide)
  case fSelector rank =>
    cases h
    exact (List.flatMap_singleton _ _).trans (wireBits_unaryBits _).symm
  case fLenDelta down d =>
    cases h
    exact wire_lenDeltaOps down d.toNat
  case fBlockCrc | fRandomized | fOrigPtr | fBigMap | fGroupMap | fNTables | fNSelectors | fLenStart | fSymbol =>
    cases h
    exact List.flatMap_singleton _ _
  all_goals cases h

/-! ## The selector ranks (R347) -/

/-- The place of an entry lies within the list that is left when the entry is taken out and put in front. -/
theorem idxOf_le_length_erase (ord : List Nat) (t : Nat) : ord.idxOf t ≤ (ord.erase t).length := by
  by_cases ht : t ∈ ord
  · have hlt := List.idxOf_lt_length_iff.mpr ht
    rw [List.length_erase_of_mem ht]
    omega
  · rw [List.idxOf_eq_length ht, List.erase_of_not_mem ht]

@[simp] theorem length_selectorRanks (ord sels : List Nat) : (selectorRanks ord sels).length = sels.length := by
  induction sels generalizing ord with
  | nil => rfl
  | cons t ts ih => rw [selectorRanks, List.length_cons, ih, List.length_cons]

/-- In a list of different numbers below `n`, and for selectors below `n`, every rank is below `n`. -/
theorem lt_of_mem_selectorRanks {n : Nat} {ord sels : List Nat} (hnodup : ord.Nodup) (hord : ∀ t ∈ ord, t < n)
    (hsels : ∀ t ∈ sels, t < n) : ∀ r ∈ selectorRanks ord sels, r < n := by
  induction sels generalizing ord with
  | nil => exact nofun
  | cons t ts ih =>
    obtain ⟨ht, hts⟩ := List.forall_mem_cons.mp hsels
    have hnodup' : (t :: ord.erase t).Nodup := List.nodup_cons.mpr ⟨hnodup.not_mem_erase, hnodup.erase t⟩
    have hord' : ∀ x ∈ t :: ord.erase t, x < n :=
      List.forall_mem_cons.mpr ⟨ht, fun x hx => hord x (List.mem_of_mem_erase hx)⟩
    have hlen : (t :: ord.erase t).length ≤ n := by
      simpa using (hnodup'.subperm fun x hx => List.mem_range.mpr (hord' x hx)).length_le
    exact List.forall_mem_cons.mpr
      ⟨(Nat.lt_succ_of_le (idxOf_le_length_erase ord t)).trans_le hlen, ih hnodup' hord' hts⟩

/-- Read back by move-to-front, the ranks are the selectors. -/
theorem rankDecode_selectorRanks {ord sels : List Nat} (h : ∀ t ∈ sels, t ∈ ord) :
    rankDecode ord (selectorRanks ord sels) = sels := by
  induction sels generalizing ord with
  | nil => rfl
  | cons t ts ih =>
    obtain ⟨ht, hts⟩ := List.forall_mem_cons.mp h
    have hrest := ih fun x hx => (List.perm_cons_erase ht).subset (hts x hx)
    simp only [selectorRanks, rankDecode, List.getElem?_idxOf ht, ← List.erase_eq_eraseIdx_of_idxOf rfl, hrest]

/-- Three bits hold every rank, whatever SEL and T hold. -/
theorem rank_lt_eight {s : State} : ∀ r ∈ selectorRanks (List.range s.regT.toNat) s.selList, r < 8 := by
  refine lt_of_mem_selectorRanks List.nodup_range
    (fun t ht => (List.mem_range.mp ht).trans s.regT.isLt) fun t ht => ?_
  obtain ⟨x, -, rfl⟩ := List.mem_map.mp ht
  exact x.isLt

/-! ## The symbol maps (R344, 30_encoding.md R113) -/

theorem mapGroup_inUseList (s : State) {g : Nat} (hg : g < 16) :
    mapGroup s.inUseList g = Memory.slice s.inUse (16 * g) 16 := by
  have hsplit : 256 = 16 * g + (16 + (240 - 16 * g)) := by omega
  rw [mapGroup, State.inUseList, hsplit, Memory.slice_add, Memory.slice_add, Nat.zero_add,
    List.drop_left' (Memory.length_slice ..), List.take_left' (Memory.length_slice ..)]

theorem groupUsed_inUseList (s : State) {g : Nat} (hg : g < 16) : groupUsed s.inUseList g = s.usedGroup g := by
  rw [groupUsed, mapGroup_inUseList s hg, Bool.eq_iff_iff]
  simp [Memory.slice, State.usedGroup, State.used]

theorem filter_groupUsed (s : State) :
    (List.range 16).filter (groupUsed s.inUseList) = (List.range 16).filter s.usedGroup :=
  List.filter_congr fun _ hg => groupUsed_inUseList s (List.mem_range.mp hg)

theorem bigMapOf_inUseList (s : State) : bigMapOf s.inUseList = bitsToNat ((List.range 16).map s.usedGroup) :=
  congrArg bitsToNat (List.map_congr_left fun _ hg => groupUsed_inUseList s (List.mem_range.mp hg))

theorem groupMapOf_inUseList (s : State) {g : Nat} (hg : g < 16) :
    groupMapOf s.inUseList g = bitsToNat ((List.range 16).map fun j => s.used (16 * g + j)) := by
  rw [groupMapOf, mapGroup_inUseList s hg, Memory.slice, List.map_map]
  rfl

theorem bitsToNat_concat (bs : List Bool) (b : Bool) :
    bitsToNat (bs ++ [b]) = 2 * bitsToNat bs + if b then 1 else 0 := by
  simp [bitsToNat]

theorem bitsToNat_lt (bs : List Bool) : bitsToNat bs < 2 ^ bs.length := by
  induction bs using List.reverseRecOn with
  | nil => decide
  | append_singleton bs b ih =>
    rw [bitsToNat_concat, List.length_append, List.length_singleton, Nat.pow_succ]
    split <;> omega

/-- The first bit of a number is worth the most. -/
theorem bitsToNat_map_range (f : Nat → Bool) (n : Nat) :
    bitsToNat ((List.range n).map f) = ((List.range n).map fun g => if f g then 2 ^ (n - 1 - g) else 0).sum := by
  induction n with
  | zero => rfl
  | succ n ih =>
    have hdouble : ((List.range n).map fun g => if f g then 2 ^ (n - g) else 0)
        = (List.range n).map fun g => 2 * if f g then 2 ^ (n - 1 - g) else 0 := by
      refine List.map_congr_left fun g hg => ?_
      rw [List.mem_range] at hg
      rw [show n - g = n - 1 - g + 1 by omega, Nat.pow_succ, Nat.mul_comm, mul_ite, Nat.mul_zero]
    rw [List.range_succ, List.map_append, List.map_singleton, bitsToNat_concat, ih, List.map_append, List.sum_append,
      Nat.add_sub_cancel, hdouble, List.sum_map_mul_left]
    simp

theorem toNat_mapField (f : Nat → Bool) : (mapField f).toNat = bitsToNat ((List.range 16).map f) := by
  have hlt := bitsToNat_lt ((List.range 16).map f)
  rw [List.length_map, List.length_range] at hlt
  rw [mapField, ← bitsToNat_map_range f 16, BitVec.toNat_ofNat, Nat.mod_eq_of_lt hlt]

/-! ## A block as fields (30_encoding.md R112) -/

/-- These sink operations write the encodings of these fields, one after the other. -/
def Carry (ops : List SinkOp) (fields : List Instr) : Prop :=
  ops.flatMap SinkOp.wire = fields.flatMap fun i => fieldWire (encode i)

theorem Carry.field {i : Instr} {ops : List SinkOp} (h : blockFieldOps i = some ops) : Carry ops [i] :=
  (wire_of_blockFieldOps h).trans (List.flatMap_singleton _ _).symm

theorem Carry.append {ops ops' : List SinkOp} {is is' : List Instr} (h : Carry ops is) (h' : Carry ops' is') :
    Carry (ops ++ ops') (is ++ is') := by
  rw [Carry, List.flatMap_append, List.flatMap_append, h, h']

theorem Carry.flatMap {α : Type} {l : List α} {f : α → List SinkOp} {g : α → List Instr}
    (h : ∀ x ∈ l, Carry (f x) (g x)) : Carry (l.flatMap f) (l.flatMap g) := by
  rw [Carry, List.flatMap_assoc, List.flatMap_assoc]
  exact List.flatMap_congr h

/-- A list of which every member is carried as one field. -/
theorem Carry.map {α : Type} {l : List α} {f : α → List SinkOp} {g : α → Instr}
    (h : ∀ x ∈ l, blockFieldOps (g x) = some (f x)) : Carry (l.flatMap f) (l.map g) := by
  rw [List.map_eq_flatMap]
  exact .flatMap fun x hx => .field (h x hx)

theorem carry_symbolMapOps (s : State) :
    Carry (symbolMapOps s.inUseList)
      (.fBigMap (mapField s.usedGroup)
        :: ((List.range 16).filter s.usedGroup).map fun g => .fGroupMap (mapField fun j => s.used (16 * g + j))) := by
  rw [symbolMapOps, filter_groupUsed, bigMapOf_inUseList, ← toNat_mapField]
  refine Carry.append (.field rfl) (.map fun g hg => ?_)
  rw [groupMapOf_inUseList s (List.mem_range.mp (List.mem_of_mem_filter hg)), ← toNat_mapField]
  rfl

theorem carry_selectorListOps (s : State) :
    Carry (selectorListOps s.regT.toNat s.selList)
      ((selectorRanks (List.range s.regT.toNat) s.selList).map fun r => .fSelector (BitVec.ofNat 3 r)) :=
  .map fun r hr => by rw [blockFieldOps, BitVec.toNat_ofNat, Nat.mod_eq_of_lt (rank_lt_eight r hr), selectorOps]

/-- Five bits hold every step between lengths of five bits (R348). -/
theorem carry_lenDeltasOps {c : Nat} {lens : List Nat} (hc : c < 32) (hlens : ∀ l ∈ lens, l < 32) :
    Carry (lenDeltasOps c lens) (lenDeltaFields c lens) := by
  induction lens generalizing c with
  | nil => rfl
  | cons l ls ih =>
    obtain ⟨hl, hls⟩ := List.forall_mem_cons.mp hlens
    have hstep : (if l < c then c - l else l - c) < 2 ^ 5 := by split <;> omega
    refine Carry.append (.field ?_) (ih hl hls)
    rw [blockFieldOps, BitVec.toNat_ofNat, Nat.mod_eq_of_lt hstep, lenDeltaOps]

theorem carry_tableOps {lens : List Nat} (hlens : ∀ l ∈ lens, l < 32) : Carry (tableOps lens) (tableFields lens) := by
  have hhead : lens.headD 0 < 32 := by
    cases lens with
    | nil => decide
    | cons l ls => exact hlens l List.mem_cons_self
  refine Carry.append (.field ?_) (carry_lenDeltasOps hhead hlens)
  rw [blockFieldOps, BitVec.toNat_ofNat, Nat.mod_eq_of_lt hhead, lenStartOps]

theorem carry_tablesOps (s : State) :
    Carry (tablesOps s) ((List.range s.regT.toNat).flatMap fun t => tableFields (s.lenRow t)) :=
  .flatMap fun t _ => carry_tableOps fun l hl => by
    obtain ⟨x, -, rfl⟩ := List.mem_map.mp hl
    exact x.isLt

theorem carry_symbolStreamOps (s : State) :
    Carry (symbolStreamOps s)
      (s.symList.zipIdx.map fun vi =>
        .fSymbol (BitVec.ofNat 5 (s.lenAt (s.tableOf vi.2) vi.1)) (BitVec.ofNat 17 (s.codeAt (s.tableOf vi.2) vi.1))) :=
  .map fun vi _ => by
    simp only [blockFieldOps, State.lenAt, State.codeAt, BitVec.ofNat_toNat, BitVec.setWidth_eq]
    rfl

/-- What stage 8 writes is the block's fields, in their order. -/
theorem carry_blockOps (s : State) : Carry (blockOps s) (blockFields s) := by
  have hhead : Carry (magicOps ++ crcOps s.blockCrc.toNat ++ randomizedOps ++ origPtrOps s.origPtr.toNat)
      [.fBlockMagic, .fBlockCrc s.blockCrc, .fRandomized, .fOrigPtr s.origPtr] :=
    (((Carry.field rfl).append (.field rfl)).append (.field rfl)).append (.field rfl)
  have hcounts : Carry (nTablesOps s.regT.toNat ++ nSelectorsOps s.regG.toNat)
      [.fNTables s.regT, .fNSelectors s.regG] := (Carry.field rfl).append (.field rfl)
  have hblock := ((((hhead.append (carry_symbolMapOps s)).append hcounts).append (carry_selectorListOps s)).append
    (carry_tablesOps s)).append (carry_symbolStreamOps s)
  simpa [blockOps, blockFields] using hblock

/-! ## The length of a block (R354) -/

/-- How many bits these sink operations write. -/
def wireLength (ops : List SinkOp) : Nat := (ops.flatMap SinkOp.wire).length

theorem wireLength_singleton (o : SinkOp) : wireLength [o] = o.wire.length :=
  congrArg _ (List.flatMap_singleton _ _)

theorem wireLength_append (ops ops' : List SinkOp) : wireLength (ops ++ ops') = wireLength ops + wireLength ops' := by
  rw [wireLength, List.flatMap_append, List.length_append, wireLength, wireLength]

theorem wireLength_flatMap {α : Type} (l : List α) (f : α → List SinkOp) :
    wireLength (l.flatMap f) = (l.map fun x => wireLength (f x)).sum := by
  rw [wireLength, List.flatMap_assoc, List.length_flatMap]
  rfl

theorem wireLength_bits (w v : Nat) : wireLength [.bits w v] = w :=
  (wireLength_singleton _).trans (length_wireBits w v)

theorem wireLength_symbolMapOps (s : State) :
    wireLength (symbolMapOps s.inUseList) = 16 + 16 * ((List.range 16).filter s.usedGroup).length := by
  have hmap : ∀ m, wireLength (mapOps m) = 16 := wireLength_bits 16
  simp [symbolMapOps, filter_groupUsed, wireLength_append, wireLength_flatMap, hmap, Nat.mul_comm]

theorem wireLength_selectorListOps (n : Nat) (sels : List Nat) :
    wireLength (selectorListOps n sels) = ((selectorRanks (List.range n) sels).map fun r => r + 1).sum := by
  simp [selectorListOps, selectorOps, wireLength_flatMap, wireLength_singleton, SinkOp.wire]

theorem wireLength_lenDeltaOps (down : Bool) (d : Nat) : wireLength (lenDeltaOps down d) = 2 * d + 1 := by
  rw [wireLength, wire_lenDeltaOps, length_wireBits]

theorem wireLength_lenDeltasOps (c : Nat) (lens : List Nat) :
    wireLength (lenDeltasOps c lens) = ((lengthSteps c lens).map fun d => 2 * d + 1).sum := by
  induction lens generalizing c with
  | nil => rfl
  | cons l ls ih =>
    rw [lenDeltasOps, wireLength_append, wireLength_lenDeltaOps, ih, lengthSteps, List.map_cons, List.sum_cons]

theorem wireLength_tableOps (lens : List Nat) :
    wireLength (tableOps lens) = 5 + ((lengthSteps (lens.headD 0) lens).map fun d => 2 * d + 1).sum := by
  rw [tableOps, lenStartOps, wireLength_append, wireLength_bits, wireLength_lenDeltasOps]

theorem wireLength_symbolStreamOps (s : State) :
    wireLength (symbolStreamOps s) = (s.symList.zipIdx.map fun vi => s.lenAt (s.tableOf vi.2) vi.1).sum := by
  rw [symbolStreamOps, wireLength_flatMap]
  exact congrArg _ (List.map_congr_left fun vi _ => wireLength_bits _ _)

/-- Settles O49, field by field. -/
theorem blockLengthInBits : Obligations.BlockLengthInBits := by
  intro s
  have hmagic : wireLength magicOps = 48 := rfl
  have hcrc : wireLength (crcOps s.blockCrc.toNat) = 32 := (wireLength_singleton _).trans (length_wireBits 32 _)
  have hrandomized : wireLength randomizedOps = 1 := rfl
  have hpointer : wireLength (origPtrOps s.origPtr.toNat) = 24 := wireLength_bits _ _
  have htables : wireLength (nTablesOps s.regT.toNat) = 3 := wireLength_bits _ _
  have hselectors : wireLength (nSelectorsOps s.regG.toNat) = 15 := wireLength_bits _ _
  change wireLength (blockOps s) = _
  simp only [blockOps, tablesOps, wireLength_append, wireLength_flatMap, hmagic, hcrc, hrandomized, hpointer, htables,
    hselectors, wireLength_symbolMapOps, wireLength_selectorListOps, wireLength_tableOps, wireLength_symbolStreamOps]
  omega

/-! ## The stage (R340 to R353) -/

/-- When every write is done the closing ends with BLOCK_CRC as its response. -/
theorem exec_stEmit_of_done {s t : State} (h : runBound (blockOps s) s = .done t) :
    exec .stEmit s = .next ((endClose t).respond s.blockCrc) := by
  rw [exec, execStEmit, h]
  rfl

theorem exec_stEmit_real {s : State} (hlegal : ∀ o ∈ blockOps s, o.legal = true) (hsink : s.sinkSel = false)
    (hs : s.sinkOk) (hq : s.quiet) :
    ∃ t, exec .stEmit s = .next t
      ∧ t.bitSeq = s.bitSeq ++ (blockOps s).flatMap SinkOp.wire ∧ t.sinkOk
      ∧ t = { s with
          out := t.out, outErr := s.outErr.drop (t.out.length - s.out.length), rsPend := t.rsPend
          rsCnt := t.rsCnt, emitted := true, phase := .idle, stage := 0, resp := some ⟨0#8, s.blockCrc⟩ } := by
  obtain ⟨t, hdone, htook⟩ := runReal_writes hlegal hs hq
  rw [← runBound_real _ hsink] at hdone
  refine ⟨_, exec_stEmit_of_done hdone, htook.bitSeq, htook.sinkOk, ?_⟩
  have honly := htook.only
  conv_lhs => rw [honly]
  simp [endClose, State.respond, hsink]

theorem exec_stEmit_deferred {s : State} (hlegal : ∀ o ∈ blockOps s, o.legal = true) (hsink : s.sinkSel = true)
    (hroom : s.dsLogLen + ((blockOps s).flatMap SinkOp.records).length ≤ s.logCap) :
    ∃ t, exec .stEmit s = .next t
      ∧ s.loggedOnly t ((blockOps s).flatMap SinkOp.records)
      ∧ t = { s with
          dsLog := t.dsLog, dsLogLen := t.dsLogLen, dsCrc := s.blockCrc, dsSealed := true
          emitted := true, phase := .idle, stage := 0, resp := some ⟨0#8, s.blockCrc⟩ } := by
  have hrecords : ∀ r ∈ (blockOps s).flatMap SinkOp.records, recordLegal r :=
    List.forall_mem_flatMap.mpr fun o ho => SinkOp.records_legal (hlegal o ho)
  obtain ⟨t, hdone, hlogged, honly⟩ : ∃ t, runBound (blockOps s) s = .done t
      ∧ s.loggedOnly t ((blockOps s).flatMap SinkOp.records)
      ∧ t = { s with dsLog := t.dsLog, dsLogLen := t.dsLogLen } :=
    ⟨_, by rw [runBound_deferred _ hsink, runDeferred_eq, logRecords_room hroom], s.loggedOnly_withRecords hrecords, rfl⟩
  refine ⟨_, exec_stEmit_of_done hdone, hlogged, ?_⟩
  conv_lhs => rw [honly]
  simp [endClose, State.respond, hsink]

/-- Settles O48: the ranks by induction on the selectors; the writes are the block's fields, and each sink takes them
whole. -/
theorem emitStageWritesTheBlock : Obligations.EmitStageWritesTheBlock := by
  refine ⟨fun n sels hsels => ⟨length_selectorRanks _ _, ?_, ?_⟩, fun s hlegal => ⟨carry_blockOps s, ?_, ?_⟩⟩
  · exact lt_of_mem_selectorRanks List.nodup_range (fun _ => List.mem_range.mp) hsels
  · exact rankDecode_selectorRanks fun t ht => List.mem_range.mpr (hsels t ht)
  · intro hsink hs hq
    exact carry_blockOps s ▸ exec_stEmit_real hlegal hsink hs hq
  · exact exec_stEmit_deferred hlegal

end Sys2Proof.Machine
end

section
/-! PROOF. Exceptions (60_exceptions.md R370, R375, R380 to R383): the checks of PHASE and seal, HALTED, how the run of
an instruction can end, and what a fatal fault leaves. -/

namespace Sys2Proof.Machine

/-! ## BAD_PHASE (R375) -/

/-- HALTED and then PHASE or seal, the checks of a command that has no operand to check (R385). -/
theorem rejected_of_badPhase {s : State} {bad : Prop} [Decidable bad] (r : Result) (hf : s.fatal = false) (h : bad) :
    (if s.fatal then rejected s .halted else if bad then rejected s .badPhase else r) = s.rejectedWith 0x03#8 := by
  rw [hf, if_neg Bool.false_ne_true, if_pos h]
  rfl

/-- The operands are checked between the two (R385); legal ones leave PHASE and seal to decide. -/
theorem rejected_of_badPhase_of_legal {s : State} {illegal bad : Prop} [Decidable illegal] [Decidable bad] (r : Result)
    (hf : s.fatal = false) (hlegal : ¬illegal) (h : bad) :
    (if s.fatal then rejected s .halted
      else if illegal then rejected s .badOperand else if bad then rejected s .badPhase else r) =
      s.rejectedWith 0x03#8 := by
  rw [if_neg hlegal]
  exact rejected_of_badPhase r hf h

theorem exec_bclose_of_sealed {s : State} (hf : s.fatal = false) (hsealed : s.dsSealed = true)
    (hsink : s.sinkSel = true) : exec .bclose s = s.rejectedWith 0x03#8 := by
  by_cases hp : s.phase = .opened
  · rw [exec, execBclose, if_neg (not_not.mpr hp)]
    exact rejected_of_badPhase _ hf (by rw [hsink, hsealed, Bool.and_self])
  · exact rejected_of_badPhase _ hf hp

/-- Settles O25, by the check of each meaning; CSRW's stands in the register's write. -/
theorem badPhaseRejections : Obligations.BadPhaseRejections := by
  intro s a b hf
  refine ⟨fun hp => ⟨fun ha => ?blkopen, ?crcrst, fun hb => ?crcupd, ?crcget, ?level, fun h1 h255 => ?iter⟩,
    fun hp => ⟨fun hin => ?bwrite, ?bclose⟩,
    fun hsealed => ⟨fun hbits => ?wbits, fun hb => ?wbool, ?wunary, ?wu32, ?bcloseSealed⟩, fun hsealed => ?replay⟩
  case blkopen => exact rejected_of_badPhase_of_legal _ hf (Nat.not_lt.mpr ha) hp
  case crcrst => exact rejected_of_badPhase _ hf hp
  case crcupd => exact rejected_of_badPhase_of_legal _ hf (Nat.not_lt.mpr hb) hp
  case crcget => exact rejected_of_badPhase _ hf hp
  case level => rw [exec_csrw_some b hf (c := .level) rfl, writeCsr_level, if_pos hp]
  case iter => rw [exec_csrw_some b hf (c := .iter) rfl, writeCsr_iter, if_neg (not_not.mpr ⟨h1, h255⟩), if_pos hp]
  case bwrite => exact rejected_of_badPhase_of_legal _ hf (Nat.not_lt.mpr hin) hp
  case bclose => exact rejected_of_badPhase _ hf hp
  case wbits => exact rejected_of_badPhase_of_legal _ hf (ne_false_of_eq_true hbits) hsealed
  case wbool => exact rejected_of_badPhase_of_legal _ hf (Nat.not_lt.mpr hb) hsealed
  case wunary => exact rejected_of_badPhase _ hf hsealed
  case wu32 => exact rejected_of_badPhase _ hf hsealed
  case bcloseSealed => exact exec_bclose_of_sealed hf hsealed
  case replay => exact rejected_of_badPhase _ hf hsealed

/-! ## HALTED (R382) -/

/-- The port's first check: while FATAL = 1 the opcode alone decides. -/
theorem acceptCommand_of_fatal {w : CommandWord} (h1 : opOf w ≠ 0x01#8) (h3 : opOf w ≠ 0x03#8) :
    acceptCommand true w = .error .halted := by
  simp [acceptCommand, opActsWhenFatal, h1, h3]

/-- The first check of every meaning but RESET's and CSRR's. -/
theorem exec_of_fatal {i : Instr} {s : State} (hf : s.fatal = true) (hcommand : isCommand i = true)
    (hreset : i ≠ .reset) (hcsrr : ∀ a, i ≠ .csrr a) : exec i s = s.rejectedWith 0x08#8 := by
  cases i <;> cases hcommand
  case reset => exact absurd rfl hreset
  case csrr a => exact absurd rfl (hcsrr a)
  all_goals exact if_pos hf

/-- Settles O8: the port's check, the meanings' own, and CSRR, which has none. -/
theorem haltedAfterFatalFault : Obligations.HaltedAfterFatalFault := by
  refine ⟨fun s w rest hp hf hport h1 h3 => ?_, fun s i hf hcommand => exec_of_fatal hf hcommand, fun s a _ ha => ?_⟩
  · exact step_of_not_accepted hp hport (hf ▸ acceptCommand_of_fatal h1 h3)
  · cases h : csrOf a with
    | none => exact absurd (csrOf_eq_none_iff.mp h) (Nat.not_lt.mpr ha)
    | some c => exact ⟨_, exec_csrr_some c h rfl⟩

/-! ## What sink writes leave -/

/-- Nothing but the sinks differs; what they held stays, with bytes and records behind it. -/
def SinksGrew (s t : State) : Prop :=
  ∃ (cnt : BitVec 3) (pend : BitVec 7) (out : List Byte) (errs : List Bool) (log : Memory 29) (n : Nat),
    t = { s with rsCnt := cnt, rsPend := pend, out := out, outErr := errs, dsLog := log, dsLogLen := n }
      ∧ s.out <+: out ∧ s.dsLogLen ≤ n ∧ ∀ j, j < s.dsLogLen → Memory.get log j = Memory.get s.dsLog j

theorem RealOnly.sinksGrew {s t : State} (h : RealOnly s t) : SinksGrew s t := by
  obtain ⟨bs, k, pend, cnt, rfl⟩ := h
  exact ⟨_, _, _, _, _, _, rfl, List.prefix_append _ _, Nat.le_refl _, fun _ _ => rfl⟩

theorem LogOnly.sinksGrew {s t : State} (h : LogOnly s t) : SinksGrew s t := by
  obtain ⟨log, n, rfl, hn, hlog⟩ := h
  exact ⟨_, _, _, _, _, _, rfl, List.prefix_refl _, hn, hlog⟩

theorem runBound_sinksGrew (ops : List SinkOp) (s : State) : SinksGrew s (runBound ops s).state := by
  rcases runBound_oneSink ops s with ⟨-, h⟩ | ⟨-, h⟩
  · exact h.sinksGrew
  · exact h.sinksGrew

/-- FATAL and CAUSE are as before. -/
structure SameFault (s t : State) : Prop where
  fatal : t.fatal = s.fatal
  cause : t.cause = s.cause

theorem SinksGrew.sameFault {s t : State} (h : SinksGrew s t) : SameFault s t := by
  obtain ⟨_, _, _, _, _, _, rfl, -⟩ := h
  exact ⟨rfl, rfl⟩

theorem BlockOnly.sameFault {s t : State} (h : BlockOnly s t) : SameFault s t := by
  obtain ⟨_, _, _, _, _, _, _, rfl⟩ := h
  exact ⟨rfl, rfl⟩

theorem flushRun_sameFault (s : State) : SameFault s (flushRun s) := by
  obtain ⟨_, _, _, h⟩ := flushRun_spec s
  rw [h]
  exact ⟨rfl, rfl⟩

theorem flushRun_resp (s : State) : (flushRun s).resp = s.resp := by
  obtain ⟨_, _, _, h⟩ := flushRun_spec s
  rw [h]

theorem openBlock_sameFault (b : Bool) (s : State) : SameFault s (openBlock b s) := by
  rw [openBlock_spec]
  exact ⟨rfl, rfl⟩

/-! ## How the run of an instruction can end (R370) -/

/-- The ends of an instruction run in `s`, by what becomes of the response, FATAL and CAUSE. -/
inductive Ending (s : State) : Instr → State → Prop where
  | rejected {i : Instr} (c : RejectCode) : Ending s i (s.reject c)
  | done {i : Instr} (v : U32) {u : State} (h : SameFault s u) : Ending s i (u.respond v)
  | reset : Ending s .reset (s.restart.respond 0)
  /-- BCLOSE or a stage after which another is to come. -/
  | underWay {i : Instr} {t : State} (h : SameFault s t) (hresp : t.resp = s.resp) : Ending s i t
  | faulted {i : Instr} (c : FatalCode) {u : State} (h : SinksGrew s u) : Ending s i (u.takeFatal c)

theorem Ending.of_finish {i : Instr} {s t : State} {x : Io} {v : U32} (h : SinksGrew s x.state)
    (e : x.finish v = .next t) : Ending s i t := by
  cases x with
  | done u => cases e; exact .done v h.sameFault
  | failed c u => cases e; exact .faulted c h

theorem Effect.ending {i : Instr} {s t : State} (h : Effect s t) : Ending s i t := by
  cases h with
  | rejected c => exact .rejected c
  | real x v h _ e => exact .of_finish h.sinksGrew e
  | log x v h _ e => exact .of_finish h.sinksGrew e

theorem OwnEffect.ending {i : Instr} {s t : State} (h : OwnEffect s i t) : Ending s i t := by
  cases h with
  | rejected _ c => exact .rejected c
  | reset => exact .reset
  | blkopen a _ => exact .done _ (openBlock_sameFault _ s)
  | bwrite off len xs _ => exact .done _ (absorbAll_blockOnly xs s).sameFault
  | closedEmpty _ => exact .done _ ⟨(flushRun_sameFault s).fatal, (flushRun_sameFault s).cause⟩
  | rleflush _ => exact .underWay ⟨(flushRun_sameFault s).fatal, (flushRun_sameFault s).cause⟩ (flushRun_resp s)
  | emitted u h =>
    have hu := runBound_sinksGrew (blockOps s) s
    rw [h] at hu
    exact .done _ ⟨hu.sameFault.fatal, hu.sameFault.cause⟩
  | emitFailed c u h =>
    have hu := runBound_sinksGrew (blockOps s) s
    rw [h] at hu
    exact .faulted c hu
  | answered | level | iter | streamCrc | setcrc | logclr | crcrst | crcupd | crcfold => exact .done _ ⟨rfl, rfl⟩
  | bclose | crcfin | bwt | symmap | mtf | hsel | canon => exact .underWay ⟨rfl, rfl⟩ rfl

theorem exec_ending {i : Instr} {s t : State} (e : exec i s = .next t) : Ending s i t := by
  cases hi : onlyWritesSink i with
  | true => exact (exec_effect hi e).ending
  | false => exact (exec_ownEffect hi e).ending

theorem status_mem (c : RejectCode) : RejectCode.status c ∈ [0x01#8, 0x02#8, 0x03#8, 0x07#8, 0x08#8] := by
  cases c <;> decide

theorem cause_eq_four_or_five (c : FatalCode) : FatalCode.cause c = 4#8 ∨ FatalCode.cause c = 5#8 := by
  cases c
  · exact .inl rfl
  · exact .inr rfl

/-- Settles O9, by how the instruction ended. -/
theorem everyResponseHasItsClass : Obligations.EveryResponseHasItsClass := by
  intro i s t r hnone e hr
  cases exec_ending e with
  | rejected c =>
    cases hr
    exact .inr (.inl ⟨rfl, status_mem c, rfl⟩)
  | done v h =>
    cases hr
    exact .inl rfl
  | reset =>
    cases hr
    exact .inl rfl
  | underWay h hresp => cases hr.symm.trans (hresp.trans hnone)
  | faulted c h =>
    cases hr
    refine .inr (.inr ⟨rfl, ?_, rfl, fun hf => ?_⟩)
    · cases c <;> decide
    · rw [State.takeFatal_cause, if_neg (ne_true_of_eq_false (h.sameFault.fatal.trans hf))]
      cases c <;> decide

/-! ## Fatal entry (R380, R381, R383) -/

/-- Settles O10: with FATAL = 0 before, an end that leaves FATAL = 1 is the fatal entry; with FATAL = 1 before, every
end but RESET's keeps FATAL and CAUSE. -/
theorem fatalEntry : Obligations.FatalEntry := by
  refine ⟨fun i s t hf e ht => ?first, fun i s t hf e hreset => ?later⟩
  case first =>
    have notFatal {u : State} (h : u.fatal = s.fatal) : u.fatal ≠ true := ne_true_of_eq_false (h.trans hf)
    cases exec_ending e with
    | rejected c => exact absurd ht (notFatal rfl)
    | done v h => exact absurd ht (notFatal h.fatal)
    | reset => exact absurd ht Bool.false_ne_true
    | underWay h hresp => exact absurd ht (notFatal h.fatal)
    | faulted c h =>
      obtain ⟨cnt, pend, out, errs, log, n, rfl, hout, hn, hlog⟩ := h
      refine ⟨?_, fun hp => ?_, fun hp => ?_, ?_, hout, hn, hlog⟩
      · simpa [hf] using cause_eq_four_or_five c
      · simp [hp]
      · simp [hp]
      · simp [State.takeFatal, hf]
  case later =>
    cases exec_ending e with
    | rejected c => exact ⟨hf, rfl⟩
    | done v h => exact ⟨h.fatal.trans hf, h.cause⟩
    | reset => exact absurd rfl hreset
    | underWay h hresp => exact ⟨h.fatal.trans hf, h.cause⟩
    | faulted c h => exact ⟨rfl, (if_pos (h.sameFault.fatal.trans hf)).trans h.sameFault.cause⟩

end Sys2Proof.Machine
end

section
/-! PROOF. Reset and the held port (70_reset_and_hazards.md R410, R411, R441): what stands at the port has no part in
any sink write nor in any stage, and RESET gives the power-on registers. -/

namespace Sys2Proof.Machine

/-! ## Sink writes do not look at the port -/

/-- The state with these items at the port. -/
def State.withPort (s : State) (q : List Slot) : State := { s with port := q }

/-- The outcome with these items at the port. -/
def Io.withPort (x : Io) (q : List Slot) : Io :=
  match x with
  | .done s => .done (s.withPort q)
  | .failed c s => .failed c (s.withPort q)

/-- What stands at the port has no effect on the writes and is carried along. -/
def IgnoresPort (f : State → Io) : Prop := ∀ (s : State) (q : List Slot), f (s.withPort q) = (f s).withPort q

theorem IgnoresPort.done : IgnoresPort Io.done := fun _ _ => rfl

theorem IgnoresPort.bind {f g : State → Io} (hf : IgnoresPort f) (hg : IgnoresPort g) :
    IgnoresPort fun s => (f s).bind g := by
  intro s q
  simp only [hf s q]
  cases f s with
  | done t => exact hg t q
  | failed c t => rfl

theorem appendOut_ignoresPort (b : Byte) : IgnoresPort (appendOut b) := by
  intro s q
  simp only [appendOut, State.withPort]
  split <;> rfl

theorem appendAll_ignoresPort (bs : List Byte) : IgnoresPort (appendAll bs) := by
  induction bs with
  | nil => exact .done
  | cons b bs ih => exact (appendOut_ignoresPort b).bind ih

theorem rsBits_ignoresPort (w v : Nat) : IgnoresPort (rsBits w v) := fun s q =>
  (appendAll_ignoresPort (wholeBytes (s.rsPend.toNat * 2 ^ w + v) (s.rsCnt.toNat + w))).bind
    (g := fun t => .done { t with
      rsPend := BitVec.ofNat 7 ((s.rsPend.toNat * 2 ^ w + v) % 2 ^ ((s.rsCnt.toNat + w) % 8))
      rsCnt := BitVec.ofNat 3 ((s.rsCnt.toNat + w) % 8) }) (fun _ _ => rfl) s q

theorem rsOnes_ignoresPort (n : Nat) : IgnoresPort (rsOnes n) := by
  induction n with
  | zero => exact .done
  | succ n ih => exact (rsBits_ignoresPort 1 1).bind ih

theorem SinkOp.real_ignoresPort (o : SinkOp) : IgnoresPort o.real := by
  cases o with
  | bits w v => exact rsBits_ignoresPort w v
  | bool b => exact rsBits_ignoresPort 1 b
  | unary n => exact (rsOnes_ignoresPort n).bind (rsBits_ignoresPort 1 0)
  | u32 v => exact (rsBits_ignoresPort _ _).bind (rsBits_ignoresPort _ _)

theorem runReal_ignoresPort (ops : List SinkOp) : IgnoresPort (runReal ops) := by
  induction ops with
  | nil => exact .done
  | cons o ops ih => exact o.real_ignoresPort.bind ih

theorem logRecord_ignoresPort (r : BitVec 29) : IgnoresPort (logRecord r) := by
  intro s q
  by_cases hfull : s.dsLogLen = s.logCap
  · rw [logRecord, logRecord, if_pos hfull]
    exact if_pos hfull
  · rw [logRecord, logRecord, if_neg hfull]
    exact if_neg hfull

theorem logRecords_ignoresPort (rs : List (BitVec 29)) : IgnoresPort (logRecords rs) := by
  induction rs with
  | nil => exact .done
  | cons r rs ih => exact (logRecord_ignoresPort r).bind ih

theorem runBound_ignoresPort (ops : List SinkOp) : IgnoresPort (runBound ops) := by
  intro s q
  cases hsink : s.sinkSel with
  | false =>
    rw [runBound_real ops hsink, runBound_real (s := s.withPort q) ops hsink]
    exact runReal_ignoresPort ops s q
  | true =>
    rw [runBound_deferred ops hsink, runBound_deferred (s := s.withPort q) ops hsink, runDeferred_eq]
    exact logRecords_ignoresPort _ s q

/-! ## The stages do not look at the port (R441) -/

theorem flushRun_withPort (s : State) (q : List Slot) : flushRun (s.withPort q) = (flushRun s).withPort q := by
  by_cases hrun : s.rlRun = 0
  · rw [flushRun, flushRun, if_pos hrun]
    exact if_pos hrun
  · rw [flushRun, flushRun, if_neg hrun]
    exact if_neg hrun

theorem exec_stRleflush_withPort {s t : State} (q : List Slot) (e : exec .stRleflush s = .next t) :
    exec .stRleflush (s.withPort q) = .next (t.withPort q) := by
  simp only [exec, execStRleflush, flushRun_withPort] at e ⊢
  by_cases hempty : (flushRun s).regN = 0
  · rw [if_pos hempty] at e
    cases e
    exact if_pos hempty
  · rw [if_neg hempty] at e
    cases e
    exact if_neg hempty

theorem exec_stEmit_withPort {s t : State} (q : List Slot) (e : exec .stEmit s = .next t) :
    exec .stEmit (s.withPort q) = .next (t.withPort q) := by
  have hrun : runBound (blockOps (s.withPort q)) (s.withPort q) = (runBound (blockOps s) s).withPort q :=
    runBound_ignoresPort (blockOps s) s q
  simp only [exec, execStEmit, hrun] at e ⊢
  cases h : runBound (blockOps s) s with
  | done u => rw [h] at e; cases e; rfl
  | failed c u => rw [h] at e; cases e; rfl

theorem exec_stage_withPort {i : Instr} {st : BitVec 4} {s t : State} (q : List Slot) (hi : decodeStage st = some i)
    (e : exec i s = .next t) : exec i (s.withPort q) = .next (t.withPort q) := by
  unfold decodeStage at hi
  split at hi <;> cases hi
  case h_1 => exact exec_stRleflush_withPort q e
  case h_8 => exact exec_stEmit_withPort q e
  all_goals
    cases e
    dsimp only [State.withPort]
    rfl

/-! ## The step, by what is fetched -/

/-- While CLOSING it is a stage that runs (10_state.md R41). -/
theorem step_of_closing {s t : State} (hp : s.phase = .closing) (e : step s = .next t) :
    ∃ i, decodeStage s.stage = some i ∧ exec i s = .next t := by
  simp only [step, fetch, if_pos hp] at e
  cases hi : decodeStage s.stage with
  | none => rw [hi] at e; cases e
  | some i => rw [hi] at e; exact ⟨i, rfl, e⟩

/-- STAGE names the instruction, whatever stands at the port. -/
theorem step_of_stage {s : State} {i : Instr} (hp : s.phase = .closing) (hi : decodeStage s.stage = some i) :
    step s = exec i s := by
  simp only [step, fetch, if_pos hp, hi]

/-- An accepted word leaves the port and its command runs. -/
theorem step_of_accepted {s : State} {w : CommandWord} {rest : List Slot} {i : Instr} (hp : s.phase ≠ .closing)
    (hport : s.port = .command w :: rest) (h : acceptCommand s.fatal w = .ok i) :
    step s = exec i { s with port := rest, resp := none } := by
  simp only [step, fetch, if_neg hp, hport, fetchSlot, h]
  rfl

/-- A step while CLOSING is the same whatever stands at the port. -/
theorem step_withPort_of_closing {s t : State} (q : List Slot) (hp : s.phase = .closing) (e : step s = .next t) :
    step (s.withPort q) = .next (t.withPort q) := by
  obtain ⟨i, hi, e⟩ := step_of_closing hp e
  exact (step_of_stage (s := s.withPort q) hp hi).trans (exec_stage_withPort q hi e)

/-- So a step while CLOSING leaves the port alone: with the items that stand there put there, it is the same step. -/
theorem step_port_of_closing {s t : State} (hp : s.phase = .closing) (e : step s = .next t) : t.port = s.port := by
  have hsame : t = t.withPort s.port := Host.Outcome.next.inj (e.symm.trans (step_withPort_of_closing s.port hp e))
  exact (congrArg State.port hsame).trans rfl

/-- Settles O6: no stage looks at the port; afterwards the oldest word is accepted or rejected as the state says. -/
theorem portHeldWhileClosing : Obligations.PortHeldWhileClosing := by
  refine ⟨fun s t q hp e => ⟨step_withPort_of_closing q hp e, step_port_of_closing hp e⟩, fun s w rest hp hport => ?_⟩
  cases h : acceptCommand s.fatal w with
  | ok i => exact step_of_accepted hp hport h
  | error c => exact step_of_not_accepted hp hport h

/-! ## RESET (R410, R411) -/

/-- FATAL is cleared by RESET alone (R410, 60_exceptions.md R383). -/
theorem eq_reset_of_clears_fatal {i : Instr} {s t : State} (e : exec i s = .next t) (hs : s.fatal = true)
    (ht : t.fatal = false) : i = .reset := by
  by_contra hreset
  have hkept : t.fatal = true := (fatalEntry.2 i s t hs e hreset).1
  exact absurd (hkept.symm.trans ht) Bool.true_eq_false.mp

/-- Settles O11: RESET leaves the registers of power-on, every other instruction leaves FATAL set, and RESET, as any
word, is held while CLOSING. -/
theorem resetRestoresEveryRegister : Obligations.ResetRestoresEveryRegister := by
  refine ⟨fun s => ⟨s.restart.respond 0, rfl, rfl, fun r hr => ?_⟩, fun i s t e => eq_reset_of_clears_fatal e,
    fun s t => step_port_of_closing⟩
  rcases List.mem_pair.mp hr with rfl | rfl
  · and_intros <;> rfl
  · and_intros <;> rfl

end Sys2Proof.Machine
end

section
/-! PROOF. Encoding and decoding (30_encoding.md R100 to R119): the decoder on a command word, on a field and on a
stage, and that it and the encoder undo each other. -/

namespace Sys2Proof.Machine

open Laws.CodeInRange (opOf_commandWord)

/-! ## Command words (R100, R102, R106) -/

theorem aOf_commandWord (op : BitVec 8) (a b : U32) : aOf (commandWord op a b) = a := by
  rw [aOf, commandWord, BitVec.extractLsb'_append_eq_of_le le_rfl]
  exact BitVec.extractLsb'_append_eq_right

theorem bOf_commandWord (op : BitVec 8) (a b : U32) : bOf (commandWord op a b) = b :=
  BitVec.extractLsb'_append_eq_right

/-- A command word is made of its three parts. -/
theorem commandWord_parts (w : CommandWord) : commandWord (opOf w) (aOf w) (bOf w) = w := by
  have hhigh : opOf w ++ aOf w = w.extractLsb' 32 40 := BitVec.extractLsb'_append_extractLsb'_eq_extractLsb' rfl
  have hall : w.extractLsb' 32 40 ++ bOf w = w.extractLsb' 0 72 :=
    BitVec.extractLsb'_append_extractLsb'_eq_extractLsb' rfl
  rw [commandWord, hhigh, hall]
  exact BitVec.extractLsb'_eq_self

theorem decode_commandCode (op : BitVec 8) (a b : U32) :
    decode (commandCode op a b) = (decodeOp op.toNat a b).toOption := by
  simp only [commandCode, decode, decodeCommand, opOf_commandWord, aOf_commandWord, bOf_commandWord]

section
variable {op : BitVec 8} {a b : U32} {j : Instr}

theorem encode_of_noOperand {i : Instr} (hi : encode i = commandCode op 0 0) (h : noOperand i a b = .ok j) :
    encode j = commandCode op a b := by
  unfold noOperand at h
  split_ifs at h with hab
  cases h
  rw [hi, hab.1, hab.2]
  rfl

theorem encode_of_onlyA {i : U32 → Instr} (hi : ∀ x, encode (i x) = commandCode op x 0) (h : onlyA i a b = .ok j) :
    encode j = commandCode op a b := by
  unfold onlyA at h
  split_ifs at h with hb
  cases h
  rw [hi, hb]
  rfl

theorem encode_of_onlyB {i : U32 → Instr} (hi : ∀ x, encode (i x) = commandCode op 0 x) (h : onlyB i a b = .ok j) :
    encode j = commandCode op a b := by
  unfold onlyB at h
  split_ifs at h with ha
  cases h
  rw [hi, ha]
  rfl

end

/-- The opcode map is read backwards by the encoder. -/
theorem encode_of_decodeOp {op : Nat} {a b : U32} {i : Instr} (h : decodeOp op a b = .ok i) :
    encode i = commandCode (BitVec.ofNat 8 op) a b := by
  unfold decodeOp at h
  split at h
  case h_1 => exact encode_of_noOperand rfl h
  case h_2 => cases h; rfl
  case h_3 => exact encode_of_onlyA (fun _ => rfl) h
  case h_4 => cases h; rfl
  case h_5 => exact encode_of_onlyB (fun _ => rfl) h
  case h_6 => exact encode_of_onlyB (fun _ => rfl) h
  case h_7 => exact encode_of_onlyB (fun _ => rfl) h
  case h_8 => exact encode_of_noOperand rfl h
  case h_9 => cases h; rfl
  case h_10 => exact encode_of_onlyB (fun _ => rfl) h
  case h_11 => exact encode_of_onlyB (fun _ => rfl) h
  case h_12 => exact encode_of_onlyB (fun _ => rfl) h
  case h_13 => exact encode_of_noOperand rfl h
  case h_14 => exact encode_of_onlyB (fun _ => rfl) h
  case h_15 => exact encode_of_noOperand rfl h
  case h_16 => exact encode_of_noOperand rfl h
  case h_17 => exact encode_of_onlyA (fun _ => rfl) h
  case h_18 => exact encode_of_noOperand rfl h
  case h_19 => exact encode_of_onlyB (fun _ => rfl) h
  case h_20 => exact encode_of_noOperand rfl h
  case h_21 => exact encode_of_onlyB (fun _ => rfl) h
  case h_22 => exact encode_of_onlyA (fun _ => rfl) h
  case h_23 => cases h; rfl
  case h_24 => exact encode_of_noOperand rfl h
  case h_25 => cases h

/-- A word that decodes is the encoding of what it decodes to. -/
theorem encode_of_decodeCommand {w : CommandWord} {i : Instr} (h : decodeCommand w = .ok i) :
    encode i = .port (.command w) := by
  rw [encode_of_decodeOp h, BitVec.ofNat_toNat, BitVec.setWidth_eq, commandCode, commandWord_parts]

/-- A command's word is read by its opcode, whose arm gives the command back. -/
theorem decode_encode_of_isCommand {i : Instr} (h : isCommand i = true) : decode (encode i) = some i := by
  cases i <;> cases h <;> exact decode_commandCode _ _ _

/-! ## Stages (R104) -/

theorem encode_of_decodeStage {st : BitVec 4} {i : Instr} (h : decodeStage st = some i) : encode i = .stage st := by
  revert i
  revert st
  decide

/-! ## Fields (R111 to R119) -/

theorem numberField_toNat {w : Nat} (i : BitVec w → Instr) (x : BitVec w) : numberField i w x.toNat = some (i x) := by
  rw [numberField, if_pos ⟨rfl, x.isLt⟩, BitVec.ofNat_toNat, BitVec.setWidth_eq]

/-- The pairs of a length step tell its direction (R115). -/
theorem pairBits_two_lt_three {d : Nat} (h : d ≠ 0) : pairBits 2 d < pairBits 3 d := by
  have hmono : ∀ n, pairBits 2 n ≤ pairBits 3 n := fun n => by
    induction n with
    | zero => exact le_rfl
    | succ n ih => exact Nat.add_le_add (Nat.mul_le_mul_right _ (by norm_num)) ih
  obtain ⟨n, rfl⟩ := Nat.exists_eq_succ_of_ne_zero h
  exact Nat.add_lt_add_of_lt_of_le (Nat.mul_lt_mul_of_pos_right (by norm_num) (by positivity)) (hmono n)

theorem decodeLenDelta_pairBits {down : Bool} {d : BitVec 5} (h : d.toNat ≠ 0 ∨ down = false) :
    decodeLenDelta (2 * d.toNat + 1) (pairBits (if down then 3 else 2) d.toNat) = some (.fLenDelta down d) := by
  have hlt := d.isLt
  rw [decodeLenDelta, if_pos ⟨by omega, by omega⟩, show (2 * d.toNat + 1) / 2 = d.toNat by omega,
    BitVec.ofNat_toNat, BitVec.setWidth_eq]
  cases down with
  | false => exact if_pos rfl
  | true =>
    have hne := (pairBits_two_lt_three (h.resolve_right Bool.noConfusion)).ne'
    exact (if_neg hne).trans (if_pos rfl)

theorem decodeSelector_unaryBits (rank : BitVec 3) :
    decodeSelector (rank.toNat + 1) (unaryBits rank.toNat) = some (.fSelector rank) := by
  have hlt := rank.isLt
  rw [decodeSelector, Nat.add_sub_cancel, if_pos ⟨by omega, by omega, rfl⟩, BitVec.ofNat_toNat, BitVec.setWidth_eq]

theorem decodeSymbol_toNat {w : BitVec 5} {code : BitVec 17} (h1 : 1 ≤ w.toNat) (h17 : w.toNat ≤ 17)
    (hcode : code.toNat < 2 ^ w.toNat) : decodeSymbol w.toNat code.toNat = some (.fSymbol w code) := by
  rw [decodeSymbol, if_pos ⟨h1, h17, hcode⟩]
  simp only [BitVec.ofNat_toNat, BitVec.setWidth_eq]

theorem decodeHeader_level (level : BitVec 4) :
    decodeHeader 32 (0x425A6830 + level.toNat) = some (.fHeader level) := by
  revert level
  decide

theorem decodeLogRecord_packed (w : BitVec 5) (v : BitVec 24) :
    decodeLogRecord 29 (w.toNat * 2 ^ 24 + v.toNat) = some (.fLogRecord w v) := by
  have hw := w.isLt
  have hv := v.isLt
  rw [decodeLogRecord, if_pos ⟨rfl, by omega⟩]
  congr 2 <;> bv_omega

/-- A field in its ranges is what its own bits decode to. -/
theorem decode_encode_of_wf {i : Instr} (h : i.wf = true) : decode (encode i) = some i := by
  cases i
  case fHeader level => exact decodeHeader_level level
  case fBlockCrc | fOrigPtr | fBigMap | fGroupMap | fNTables | fNSelectors | fLenStart | fStreamCrc =>
    exact numberField_toNat _ _
  case fSelector rank => exact decodeSelector_unaryBits rank
  case fLenDelta down d =>
    simp only [Instr.wf, Bool.and_eq_true, Bool.or_eq_true, decide_eq_true_eq, Bool.not_eq_true'] at h
    exact decodeLenDelta_pairBits h.2
  case fSymbol w code =>
    simp only [Instr.wf, Bool.and_eq_true, decide_eq_true_eq] at h
    exact decodeSymbol_toNat h.1 h.2.1 h.2.2
  case fBlockMagic | fRandomized | fEndMarker | fPadding => rfl
  case fLogRecord w v => exact decodeLogRecord_packed w v
  case stRleflush | stCrcfin | stBwt | stSymmap | stMtf | stHsel | stCanon | stEmit => rfl
  all_goals exact decode_encode_of_isCommand rfl

/-- Settles O1. -/
theorem decodeEncodeAgree : Obligations.DecodeEncodeAgree := by
  rintro i (h | h)
  · exact decode_encode_of_isCommand h
  · exact decode_encode_of_wf h

/-! ## The other direction (R106, R117) -/

theorem encode_of_fixedField {f : FieldKind} {i j : Instr} {width value nbits bits : Nat}
    (hi : encode i = fieldCode f width value) (h : fixedField i width value nbits bits = some j) :
    encode j = fieldCode f nbits bits := by
  unfold fixedField at h
  split_ifs at h with hbits
  cases h
  rw [hi, hbits.1, hbits.2]

theorem encode_of_numberField {f : FieldKind} {w nbits bits : Nat} {i : BitVec w → Instr} {j : Instr}
    (hi : ∀ x, encode (i x) = fieldCode f w x.toNat) (h : numberField i nbits bits = some j) :
    encode j = fieldCode f nbits bits := by
  unfold numberField at h
  split_ifs at h with hbits
  cases h
  rw [hi, BitVec.toNat_ofNat, Nat.mod_eq_of_lt hbits.2, hbits.1]

theorem encode_of_decodeHeader {nbits bits : Nat} {j : Instr} (h : decodeHeader nbits bits = some j) :
    encode j = fieldCode .header nbits bits := by
  unfold decodeHeader at h
  split_ifs at h with hbits
  cases h
  have hnum : 0x425A6830 + bits % 2 ^ 4 = bits := by omega
  rw [encode, BitVec.toNat_ofNat, hnum, hbits.1]

theorem encode_of_decodeSelector {nbits bits : Nat} {j : Instr} (h : decodeSelector nbits bits = some j) :
    encode j = fieldCode .selector nbits bits := by
  unfold decodeSelector at h
  split_ifs at h with hbits
  cases h
  obtain ⟨h1, h8, rfl⟩ := hbits
  rw [encode, BitVec.toNat_ofNat, Nat.mod_eq_of_lt (by omega), Nat.sub_add_cancel h1]

theorem encode_of_decodeLenDelta {nbits bits : Nat} {j : Instr} (h : decodeLenDelta nbits bits = some j) :
    encode j = fieldCode .lenDelta nbits bits := by
  have hcode : ∀ down, nbits % 2 = 1 ∧ nbits ≤ 63 →
      encode (.fLenDelta down (BitVec.ofNat 5 (nbits / 2)))
        = fieldCode .lenDelta nbits (pairBits (if down then 3 else 2) (nbits / 2)) := fun down hn => by
    rw [encode, BitVec.toNat_ofNat, Nat.mod_eq_of_lt (by omega), show 2 * (nbits / 2) + 1 = nbits by omega]
  unfold decodeLenDelta at h
  split_ifs at h with hn hup hdown <;> cases h
  · rw [hcode false hn, hup]; rfl
  · rw [hcode true hn, hdown]; rfl

theorem encode_of_decodeSymbol {nbits bits : Nat} {j : Instr} (h : decodeSymbol nbits bits = some j) :
    encode j = fieldCode .symbol nbits bits := by
  unfold decodeSymbol at h
  split_ifs at h with hbits
  cases h
  obtain ⟨h1, h17, hlt⟩ := hbits
  have hbits17 : bits < 2 ^ 17 := hlt.trans_le (Nat.pow_le_pow_right (by norm_num) h17)
  rw [encode, BitVec.toNat_ofNat, BitVec.toNat_ofNat, Nat.mod_eq_of_lt hbits17, Nat.mod_eq_of_lt (by omega)]

theorem encode_of_decodeLogRecord {nbits bits : Nat} {j : Instr} (h : decodeLogRecord nbits bits = some j) :
    encode j = fieldCode .logRecord nbits bits := by
  unfold decodeLogRecord at h
  split_ifs at h with hbits
  cases h
  have hnum : bits / 2 ^ 24 % 2 ^ 5 * 2 ^ 24 + bits % 2 ^ 24 = bits := by omega
  rw [encode, BitVec.toNat_ofNat, BitVec.toNat_ofNat, hnum, hbits.1]

/-- A field that decodes is the encoding of what it decodes to, the padding apart. -/
theorem encode_of_decodeField {f : FieldKind} {nbits bits : Nat} {i : Instr} (h : decodeField f nbits bits = some i)
    (hpad : i ≠ .fPadding) : encode i = fieldCode f nbits bits := by
  cases f
  case header => exact encode_of_decodeHeader h
  case blockMagic | randomized | endMarker => exact encode_of_fixedField rfl h
  case blockCrc | origPtr | bigMap | groupMap | nTables | nSelectors | lenStart | streamCrc =>
    exact encode_of_numberField (fun _ => rfl) h
  case selector => exact encode_of_decodeSelector h
  case lenDelta => exact encode_of_decodeLenDelta h
  case symbol => exact encode_of_decodeSymbol h
  case logRecord => exact encode_of_decodeLogRecord h
  case padding =>
    simp only [decodeField, decodePadding] at h
    split_ifs at h
    exact absurd (Option.some.inj h).symm hpad

/-- Settles O2. -/
theorem everyEncodingHasOneReading : Obligations.EveryEncodingHasOneReading := by
  intro c i h hpad
  match c, h with
  | .port (.command w), h =>
    cases hw : decodeCommand w with
    | ok j =>
      simp only [decode, hw] at h
      cases h
      exact encode_of_decodeCommand hw
    | error e =>
      simp only [decode, hw] at h
      cases h
  | .port (.field f nbits bits), h => exact encode_of_decodeField h hpad
  | .stage st, h => exact encode_of_decodeStage h

/-! ## The bits of the host's fields (R111, R117, R119) -/

theorem wire_headerOps (level : BitVec 4) :
    (headerOps level.toNat).flatMap SinkOp.wire = fieldWire (encode (.fHeader level)) := by
  revert level
  decide

theorem wire_endMarkerOps : endMarkerOps.flatMap SinkOp.wire = fieldWire (encode .fEndMarker) := by decide

/-- Settles O3. -/
theorem emittedFieldsAreTheirEncodings : Obligations.EmittedFieldsAreTheirEncodings :=
  ⟨fun _ _ => wire_of_blockFieldOps, wire_headerOps, wire_endMarkerOps, fun _ => List.append_nil _,
    fun w v => (wireBits_append 5 24 w.toNat v.toNat v.isLt).symm⟩

/-- Settles O4: each word is written out, so the decoder is run on it. -/
theorem sampleWordsDecode : Obligations.SampleWordsDecode := by
  and_intros <;> rfl

end Sys2Proof.Machine
end

section
/-! PROOF. The default code lengths (45_huffman.md R290 to R294): the tree of the merges has every symbol as a leaf
once, so its lengths fill the Kraft sum, and the halving rounds bring every length down to 17. -/

namespace Sys2Proof.Machine

/-! ## The leaves of a tree (R292) -/

/-- The symbols of a tree's leaves. -/
def CodeTree.symbols (t : CodeTree) : List Nat := (t.leaves 0).map Prod.fst

theorem map_fst_leaves (t : CodeTree) (d e : Nat) : (t.leaves d).map Prod.fst = (t.leaves e).map Prod.fst := by
  induction t generalizing d e with
  | leaf v => rfl
  | node l r ihl ihr =>
    simp only [CodeTree.leaves, List.map_append]
    rw [ihl (d + 1) (e + 1), ihr (d + 1) (e + 1)]

theorem symbols_node (l r : CodeTree) : (CodeTree.node l r).symbols = l.symbols ++ r.symbols := by
  simp only [CodeTree.symbols, CodeTree.leaves, List.map_append]
  rw [map_fst_leaves l 1 0, map_fst_leaves r 1 0]

theorem leaves_ne_nil (t : CodeTree) (d : Nat) : t.leaves d ≠ [] := by
  induction t generalizing d with
  | leaf v => exact List.cons_ne_nil _ _
  | node l r ihl => exact List.append_ne_nil_of_left_ne_nil (ihl (d + 1)) _

/-- No leaf is above the root. -/
theorem le_of_mem_leaves {t : CodeTree} {e : Nat} {p : Nat × Nat} (hp : p ∈ t.leaves e) : e ≤ p.2 := by
  induction t generalizing e with
  | leaf v => rw [List.mem_singleton.mp hp]
  | node l r ihl ihr =>
    rcases List.mem_append.mp hp with hp | hp
    · exact (Nat.le_succ e).trans (ihl hp)
    · exact (Nat.le_succ e).trans (ihr hp)

/-- The leaves below a root at depth `e` weigh together what a leaf in its place would. -/
theorem sum_two_pow_leaves {d e : Nat} {t : CodeTree} (h : ∀ p ∈ t.leaves e, p.2 ≤ d) :
    ((t.leaves e).map fun p => 2 ^ (d - p.2)).sum = 2 ^ (d - e) := by
  induction t generalizing e with
  | leaf v => exact Nat.add_zero _
  | node l r ihl ihr =>
    have hl := ihl fun p hp => h p (List.mem_append_left _ hp)
    have hr := ihr fun p hp => h p (List.mem_append_right _ hp)
    have hlt : e + 1 ≤ d := by
      obtain ⟨p, hp⟩ := List.exists_mem_of_ne_nil _ (leaves_ne_nil l (e + 1))
      exact (le_of_mem_leaves hp).trans (h p (List.mem_append_left _ hp))
    rw [CodeTree.leaves, List.map_append, List.sum_append, hl, hr, ← two_mul, ← pow_succ']
    congr 1
    omega

/-! ## The leaves of the merged tree (R292) -/

/-- With merges enough, one node is left, and its tree has the symbols of all the nodes. -/
theorem symbols_mergeNodes {n next : Nat} {l : List HuffNode} (hne : l ≠ []) (hn : l.length ≤ n + 1) :
    ∃ x, mergeNodes n next l = [x] ∧ x.tree.symbols.Perm (l.flatMap fun y => y.tree.symbols) := by
  induction n generalizing next l with
  | zero =>
    obtain ⟨x, rfl⟩ := List.length_eq_one_iff.mp (le_antisymm hn (List.length_pos_iff.mpr hne))
    exact ⟨x, rfl, by simp⟩
  | succ n ih =>
    match l, hne, hn with
    | [x], _, _ => exact ⟨x, rfl, by simp⟩
    | a :: b :: rest, _, hn =>
      have hperm := insertNode_perm (parentNode a b next) rest
      have hlen : (insertNode (parentNode a b next) rest).length ≤ n + 1 := by
        rw [hperm.length_eq]
        exact Nat.le_of_succ_le_succ hn
      obtain ⟨x, hx, hsym⟩ := ih (next := next + 1)
        (List.ne_nil_of_length_pos (hperm.length_eq ▸ Nat.succ_pos _)) hlen
      refine ⟨x, hx, hsym.trans ((hperm.flatMap_right _).trans (List.Perm.of_eq ?_))⟩
      simp only [List.flatMap_cons, parentNode, symbols_node, List.append_assoc]

/-- Every symbol is a leaf of the finished tree, once. -/
theorem symbols_huffTree {ws : List Nat} {t : CodeTree} (ht : huffTree ws = some t) :
    t.symbols.Perm (List.range ws.length) := by
  have hne : leafNodes ws ≠ [] := fun h => by
    rw [huffTree_eq_none_iff.mpr (List.length_eq_zero_iff.mp (by rw [← length_leafNodes, h, List.length_nil]))] at ht
    cases ht
  obtain ⟨x, hx, hsym⟩ := symbols_mergeNodes (n := ws.length - 1) (next := ws.length) hne
    (by rw [length_leafNodes]; omega)
  rw [huffTree, hx] at ht
  cases ht
  refine hsym.trans (((leafNodes_perm ws).flatMap_right _).trans (List.Perm.of_eq ?_))
  calc (ws.zipIdx.map fun wv => HuffNode.mk wv.1 0 wv.2 (.leaf wv.2)).flatMap (fun y => y.tree.symbols)
      = ws.zipIdx.flatMap fun wv => [wv.2] := List.flatMap_map _ _ _
    _ = ws.zipIdx.map Prod.snd := List.flatMap_pure_eq_map _ _
    _ = List.range ws.length := by rw [List.zipIdx_map_snd, List.range_eq_range']

/-- Where no key comes twice, every entry is found by its key. -/
theorem lookup_of_mem {α β : Type} [DecidableEq α] {l : List (α × β)} (hnodup : (l.map Prod.fst).Nodup) {p : α × β}
    (hp : p ∈ l) : l.lookup p.1 = some p.2 := by
  obtain ⟨l₁, l₂, rfl⟩ := List.append_of_mem hp
  refine List.lookup_eq_some_iff.mpr ⟨l₁, l₂, rfl, fun q hq => ?_⟩
  rw [List.map_append, List.map_cons, List.nodup_append] at hnodup
  exact bne_iff_ne.mpr (hnodup.2.2 q.1 (List.mem_map_of_mem hq) p.1 List.mem_cons_self).symm

/-- The lengths are the depths of the leaves. -/
theorem treeLengths_perm {ws : List Nat} {t : CodeTree} (ht : huffTree ws = some t) :
    (treeLengths ws).Perm ((t.leaves 0).map Prod.snd) := by
  have hsym := symbols_huffTree ht
  have hnodup : t.symbols.Nodup := hsym.nodup_iff.mpr List.nodup_range
  have hdepth : (t.leaves 0).map Prod.snd = t.symbols.map fun v => ((t.leaves 0).lookup v).getD 0 := by
    rw [CodeTree.symbols, List.map_map]
    exact List.map_congr_left fun p hp => by
      rw [Function.comp_apply, lookup_of_mem hnodup hp, Option.getD_some]
  simp only [treeLengths, ht, hdepth]
  exact (hsym.map _).symm

/-- A tree is full. -/
theorem kraftSum_treeLengths {ws : List Nat} {d : Nat} (hne : ws ≠ []) (h : ∀ l ∈ treeLengths ws, l ≤ d) :
    kraftSum d (treeLengths ws) = 2 ^ d := by
  cases ht : huffTree ws with
  | none => exact absurd (huffTree_eq_none_iff.mp ht) hne
  | some t =>
    have hperm := treeLengths_perm ht
    calc kraftSum d (treeLengths ws) = (((t.leaves 0).map Prod.snd).map fun l => 2 ^ (d - l)).sum :=
          (hperm.map _).sum_eq
      _ = 2 ^ d := by
          rw [List.map_map]
          exact sum_two_pow_leaves fun p hp => h p.2 (hperm.mem_iff.mpr (List.mem_map_of_mem hp))

/-- With two symbols or more, no leaf is the root. -/
theorem one_le_treeLengths {ws : List Nat} (h2 : 2 ≤ ws.length) : ∀ l ∈ treeLengths ws, 1 ≤ l := by
  intro l hl
  cases ht : huffTree ws with
  | none =>
    rw [huffTree_eq_none_iff.mp ht] at h2
    exact absurd h2 (by decide)
  | some t =>
    obtain ⟨p, hp, rfl⟩ := List.mem_map.mp ((treeLengths_perm ht).mem_iff.mp hl)
    cases t with
    | leaf v =>
      have hlen := (symbols_huffTree ht).length_eq
      rw [List.length_range] at hlen
      exact absurd (hlen ▸ h2) (by simp [CodeTree.symbols, CodeTree.leaves])
    | node a b =>
      rcases List.mem_append.mp hp with hp | hp <;> exact le_of_mem_leaves hp

/-! ## The length limit (R293, R294) -/

/-- Whatever the rounds, the lengths are those of a tree over as many symbols. -/
theorem limitLengths_eq_treeLengths (fuel : Nat) (ws : List Nat) :
    ∃ ws', ws'.length = ws.length ∧ limitLengths fuel ws = treeLengths ws' := by
  fun_induction limitLengths fuel ws with
  | case1 ws => exact ⟨ws, rfl, rfl⟩
  | case2 fuel ws => exact ⟨ws, rfl, rfl⟩
  | case3 fuel ws _ ih =>
    obtain ⟨ws', hlen, h⟩ := ih
    exact ⟨ws', hlen.trans (List.length_map _), h⟩

theorem huffLengths_eq_treeLengths (f : List Nat) :
    ∃ ws, ws.length = f.length ∧ huffLengths f = treeLengths ws := by
  obtain ⟨ws, hlen, h⟩ := limitLengths_eq_treeLengths 20 (f.map fun x => max x 1)
  exact ⟨ws, hlen.trans (List.length_map _), h⟩

/-- Every round halves what the weights exceed 1 by; weights of 1 and 2 make no deep tree. -/
theorem limitLengths_le_17 (m : Nat) {ws : List Nat} (hpos : ∀ w ∈ ws, 1 ≤ w) (hle : ∀ w ∈ ws, w ≤ 2 ^ m + 1)
    (hlen : ws.length ≤ 258) : ∀ l ∈ limitLengths m ws, l ≤ 17 := by
  fun_induction limitLengths m ws with
  | case1 ws =>
    have hsum : ws.sum ≤ 258 * 2 := (List.sum_le_card_nsmul ws 2 hle).trans (Nat.mul_le_mul_right 2 hlen)
    exact treeLengths_le hpos (hsum.trans_lt (by decide))
  | case2 m ws h => exact fun l hl => of_decide_eq_true (List.all_eq_true.mp h l hl)
  | case3 m ws _ ih =>
    refine ih (by simp) (fun w hw => ?_) (by rwa [List.length_map])
    obtain ⟨x, hx, rfl⟩ := List.mem_map.mp hw
    have := hle x hx
    rw [pow_succ] at this
    omega

theorem huffLengths_le_17 {f : List Nat} (hlen : f.length ≤ 258) (hf : ∀ x ∈ f, x ≤ 900000) :
    ∀ l ∈ huffLengths f, l ≤ 17 := by
  refine limitLengths_le_17 20 (by simp) (fun w hw => ?_) (by rwa [List.length_map])
  obtain ⟨x, hx, rfl⟩ := List.mem_map.mp hw
  have := hf x hx
  omega

/-! ## The statements -/

theorem kraftSum_huffLengths {f : List Nat} {d : Nat} (hne : f ≠ []) (h : ∀ l ∈ huffLengths f, l ≤ d) :
    kraftSum d (huffLengths f) = 2 ^ d := by
  obtain ⟨ws, hlen, heq⟩ := huffLengths_eq_treeLengths f
  rw [heq] at h ⊢
  exact kraftSum_treeLengths (fun hnil => hne (List.length_eq_zero_iff.mp (by rw [← hlen, hnil, List.length_nil]))) h

/-- Settles O44: the tree has every symbol as a leaf once, so the lengths weigh what the root does. -/
theorem huffLengthsFillTheTree : Obligations.HuffLengthsFillTheTree :=
  fun f _ hne h => ⟨length_huffLengths f, kraftSum_huffLengths hne h⟩

/-- The default meets the contract. -/
theorem lengthsLegal_huffLengths {f : List Nat} (h2 : 2 ≤ f.length) (h258 : f.length ≤ 258)
    (hf : ∀ x ∈ f, x ≤ 900000) : lengthsLegal f (huffLengths f) = true := by
  have h17 := huffLengths_le_17 h258 hf
  refine (lengthsLegal_iff _ _).mpr ⟨length_huffLengths f, fun l hl => ⟨?_, h17 l hl⟩,
    (kraftSum_huffLengths (List.ne_nil_of_length_pos (by omega)) h17).le⟩
  obtain ⟨ws, hlen, heq⟩ := huffLengths_eq_treeLengths f
  exact one_le_treeLengths (hlen.symm ▸ h2) l (heq ▸ hl)

/-- Every machine's code-length function meets the contract. -/
theorem lengthsLegal_codeLengths (table : List (List Nat × List Nat)) {f : List Nat} (h2 : 2 ≤ f.length)
    (h258 : f.length ≤ 258) (hf : ∀ x ∈ f, x ≤ 900000) : lengthsLegal f (codeLengths table f) = true := by
  rcases codeLengths_cases table f with h | h
  · exact h
  · exact h ▸ lengthsLegal_huffLengths h2 h258 hf

/-- Settles O45: the default meets the contract; the table that lists a function's values is that function. -/
theorem huffLengthsMeetTheContract : Obligations.HuffLengthsMeetTheContract := by
  refine ⟨fun table f h3 h258 hf => ?_, fun g inputs hg => ?_, codeLengths_nil⟩
  · exact (lengthsLegal_iff f _).mp (lengthsLegal_codeLengths table (by omega) h258 hf)
  · refine ⟨inputs.map fun x => (x, g x), fun f hf => ?_⟩
    exact codeLengths_of_lookup (lookup_tabulate g inputs hf) ((lengthsLegal_iff f _).mpr (hg f hf))

end Sys2Proof.Machine
end

section
/-! PROOF. What an instruction changes (10_state.md R20 to R47): which sink it writes and how, said once for every
instruction; the frames and the legality of the log are read off. -/

namespace Sys2Proof.Machine

/-! ## What sink writes leave -/

/-- A write to the real sink: nothing else differs, and the pending bits stay below `2^RS.CNT`. -/
structure RealWrite (s q : State) : Prop where
  only : RealOnly s q
  sinkOk : s.sinkOk → q.sinkOk

/-- These records were appended to the log, which stays within LOGCAP. -/
structure LogWrite (rs : List (BitVec 29)) (s q : State) : Prop where
  eq : q = s.withRecords rs
  logOk : s.logOk → q.logOk

theorem withRecords_append (s : State) (rs rs' : List (BitVec 29)) :
    (s.withRecords rs).withRecords rs' = s.withRecords (rs ++ rs') := by
  have hmem : ∀ (m : Memory 29) (i : Nat), Memory.writeList (Memory.writeList m i rs) (i + rs.length) rs'
      = Memory.writeList m i (rs ++ rs') := by
    induction rs with
    | nil => exact fun m i => rfl
    | cons r rs ih =>
      intro m i
      rw [List.length_cons, ← Nat.succ_add_eq_add_succ]
      exact ih _ (i + 1)
  simp only [State.withRecords, hmem, List.length_append, Nat.add_assoc]

theorem LogWrite.logOnly {rs : List (BitVec 29)} {s q : State} (h : LogWrite rs s q) : LogOnly s q :=
  h.eq ▸ ⟨_, _, rfl, Nat.le_add_right _ _, fun _ hj => Memory.get_writeList_of_outside _ _ _ (.inl hj)⟩

/-- What is appended before an overflow is the first of the records. -/
theorem logRecords_logWrite (rs : List (BitVec 29)) (s : State) :
    ∃ n, LogWrite (rs.take n) s (logRecords rs s).state := by
  induction rs generalizing s with
  | nil => exact ⟨0, rfl, id⟩
  | cons r rs ih =>
    rw [logRecords, logRecord]
    split
    · exact ⟨0, rfl, id⟩
    next hroom =>
      obtain ⟨n, heq, hok⟩ := ih (s.withRecords [r])
      refine ⟨n + 1, heq.trans (withRecords_append s [r] _), fun h => hok ?_⟩
      exact Nat.succ_le_of_lt (lt_of_le_of_ne h hroom)

theorem runReal_realWrite (ops : List SinkOp) (s : State) : RealWrite s (runReal ops s).state :=
  ⟨runReal_realOnly ops s, runReal_sinkOk ops⟩

theorem rsFlush_realWrite (s : State) : RealWrite s (rsFlush s).state := ⟨rsFlush_realOnly s, rsFlush_sinkOk⟩

theorem SinkOp.real_realWrite (o : SinkOp) (s : State) : RealWrite s (o.real s).state :=
  ⟨o.real_realOnly s, o.real_sinkOk⟩

theorem replayFrom_sinkOk (i n : Nat) {s : State} (hs : s.sinkOk) : (replayFrom i n s).state.sinkOk := by
  induction n generalizing i s with
  | zero => exact hs
  | succ n ih => exact Io.bind_keeps (rsBits_sinkOk _ _ hs) fun _ => ih (i + 1)

/-- Writes to the bound sink, by which sink it is. -/
theorem runBound_write (ops : List SinkOp) (s : State) :
    (s.sinkSel = false ∧ RealWrite s (runBound ops s).state)
      ∨ (s.sinkSel = true ∧ ∃ n, LogWrite ((ops.flatMap SinkOp.records).take n) s (runBound ops s).state) := by
  cases h : s.sinkSel with
  | false => exact .inl ⟨rfl, by rw [runBound_real ops h]; exact runReal_realWrite ops s⟩
  | true => exact .inr ⟨rfl, by rw [runBound_deferred ops h, runDeferred_eq]; exact logRecords_logWrite _ s⟩

/-! ## Fields as instructions (log 9) -/

/-- The sink operations of the fields the host writes and of a log record (30_encoding.md R111, R117, R119). -/
def hostFieldOps : Instr → Option (List SinkOp)
  | .fHeader level => some (headerOps level.toNat)
  | .fEndMarker => some endMarkerOps
  | .fStreamCrc crc => some (crcOps crc.toNat)
  | .fLogRecord w v => some [.bits w.toNat v.toNat]
  | _ => none

theorem exec_blockField {i : Instr} {ops : List SinkOp} (h : blockFieldOps i = some ops) (s : State) :
    exec i s = boundField i.wf ops s := by
  cases i <;> cases h <;> rfl

theorem exec_hostField {i : Instr} {ops : List SinkOp} (h : hostFieldOps i = some ops) (s : State) :
    exec i s = realField i.wf ops s := by
  cases i <;> cases h <;> rfl

theorem bitsInRange_of_lt {w v : Nat} (h1 : 1 ≤ w) (h24 : w ≤ 24) (hv : v < 2 ^ w) : bitsInRange w v = true :=
  bitsInRange_iff.mpr ⟨h1, h24, hv⟩

theorem lenDeltaOps_legal (down : Bool) (d : Nat) : ∀ o ∈ lenDeltaOps down d, o.legal = true := by
  intro o ho
  rcases List.mem_append.mp ho with ho | ho
  · rw [List.eq_of_mem_replicate ho]
    cases down <;> decide
  · rw [List.mem_singleton.mp ho]
    rfl

/-- A field in its range makes legal writes. -/
theorem legal_of_blockFieldOps {i : Instr} {ops : List SinkOp} (h : blockFieldOps i = some ops) (hwf : i.wf = true) :
    ∀ o ∈ ops, o.legal = true := by
  cases i <;> cases h
  case fLenDelta down d => exact lenDeltaOps_legal down d.toNat
  case fBlockMagic => decide
  case fSymbol w code =>
    simp only [Instr.wf, Bool.and_eq_true, decide_eq_true_eq] at hwf
    exact List.forall_mem_singleton.mpr (bitsInRange_of_lt hwf.1 (hwf.2.1.trans (by decide)) hwf.2.2)
  case fBlockCrc crc => exact List.forall_mem_singleton.mpr (decide_eq_true crc.isLt)
  case fRandomized | fSelector => exact List.forall_mem_singleton.mpr rfl
  case fOrigPtr x | fBigMap x | fGroupMap x | fNTables x | fNSelectors x | fLenStart x =>
    exact List.forall_mem_singleton.mpr (bitsInRange_of_lt (by decide) (by decide) x.isLt)

theorem legal_of_hostFieldOps {i : Instr} {ops : List SinkOp} (h : hostFieldOps i = some ops) (hwf : i.wf = true) :
    ∀ o ∈ ops, o.legal = true := by
  cases i <;> cases h
  case fHeader level =>
    have := level.isLt
    have hlast : bitsInRange 8 (0x30 + level.toNat) = true := bitsInRange_of_lt (by decide) (by decide) (by omega)
    simp only [headerOps, List.forall_mem_cons]
    exact ⟨rfl, rfl, rfl, hlast, List.forall_mem_nil _⟩
  case fEndMarker => decide
  case fStreamCrc crc => exact List.forall_mem_singleton.mpr (decide_eq_true crc.isLt)
  case fLogRecord w v => exact List.forall_mem_singleton.mpr hwf

/-! ## Who writes a sink (R21 to R23) -/

/-- The instructions that write the real sink. -/
def WritesReal (s : State) (i : Instr) : Prop :=
  (∃ w v, i = .wbitsR w v) ∨ (∃ b, i = .wboolR b) ∨ (∃ n, i = .wunaryR n) ∨ (∃ v, i = .wu32R v) ∨ i = .flushR
    ∨ i = .replay
    ∨ (∃ level, i = .fHeader level) ∨ i = .fEndMarker ∨ (∃ crc, i = .fStreamCrc crc) ∨ i = .fPadding
    ∨ (∃ w v, i = .fLogRecord w v)
    ∨ (s.sinkSel = false ∧ (i = .stEmit ∨ ∃ ops, blockFieldOps i = some ops))

/-- The instructions that append to the log. -/
def WritesLog (s : State) (i : Instr) : Prop :=
  (∃ w v, i = .wbitsD w v) ∨ (∃ b, i = .wboolD b) ∨ (∃ n, i = .wunaryD n) ∨ (∃ v, i = .wu32D v)
    ∨ (s.sinkSel = true ∧ (i = .stEmit ∨ ∃ ops, blockFieldOps i = some ops))

theorem WritesReal.of_hostField {s : State} {i : Instr} {ops : List SinkOp} (h : hostFieldOps i = some ops) :
    WritesReal s i := by
  cases i <;> cases h <;> simp [WritesReal]

/-- How a command that wrote a sink ends. -/
inductive Ends (q : State) : State → Prop where
  | respond (v : U32) : Ends q (q.respond v)
  | takeFatal (c : FatalCode) : Ends q (q.takeFatal c)

theorem Ends.of_finish {x : Io} {v : U32} {t : State} (e : x.finish v = .next t) : Ends x.state t := by
  cases x <;> cases e
  · exact .respond v
  · exact .takeFatal _

/-- What an instruction that only writes a sink can come to. -/
inductive SinkChange (s : State) (i : Instr) : State → Prop where
  | rejected (c : RejectCode) : SinkChange s i (s.reject c)
  | real {q t : State} (hi : WritesReal s i) (hq : RealWrite s q) (ht : Ends q t) : SinkChange s i t
  | log {q t : State} {rs : List (BitVec 29)} (hi : WritesLog s i) (hrs : ∀ r ∈ rs, recordLegal r)
      (hq : LogWrite rs s q) (ht : Ends q t) : SinkChange s i t

section
variable {s t : State} {i : Instr}

theorem SinkChange.of_real {x : Io} {v : U32} (hi : WritesReal s i) (hx : RealWrite s x.state)
    (e : x.finish v = .next t) : SinkChange s i t :=
  .real hi hx (.of_finish e)

theorem SinkChange.of_records {rs : List (BitVec 29)} {v : U32} (hi : WritesLog s i) (hrs : ∀ r ∈ rs, recordLegal r)
    (e : (logRecords rs s).finish v = .next t) : SinkChange s i t := by
  obtain ⟨n, hq⟩ := logRecords_logWrite rs s
  exact .log hi (fun r hr => hrs r (List.mem_of_mem_take hr)) hq (.of_finish e)

theorem SinkChange.of_deferred {o : SinkOp} {v : U32} (hi : WritesLog s i) (ho : o.legal = true)
    (e : (o.deferred s).finish v = .next t) : SinkChange s i t :=
  .of_records hi (SinkOp.records_legal ho) (o.deferred_eq ▸ e)

/-- A check that fails rejects. -/
theorem SinkChange.guard {bad : Prop} [Decidable bad] {c : RejectCode} {r : Result}
    (h : ¬bad → r = .next t → SinkChange s i t) (e : (if bad then Machine.rejected s c else r) = .next t) :
    SinkChange s i t := by
  split at e
  · cases e
    exact .rejected c
  next hbad => exact h hbad e

theorem SinkChange.of_realField {ops : List SinkOp} (h : hostFieldOps i = some ops) (e : exec i s = .next t) :
    SinkChange s i t := by
  rw [exec_hostField h, realField] at e
  exact .guard (fun _ => .guard fun _ => .of_real (.of_hostField h) (runReal_realWrite ops s)) e

theorem records_legal_of_legal {ops : List SinkOp} (h : ∀ o ∈ ops, o.legal = true) :
    ∀ r ∈ ops.flatMap SinkOp.records, recordLegal r := by
  intro r hr
  obtain ⟨o, ho, hr⟩ := List.mem_flatMap.mp hr
  exact SinkOp.records_legal (h o ho) r hr

theorem SinkChange.of_boundField {ops : List SinkOp} (h : blockFieldOps i = some ops) (e : exec i s = .next t) :
    SinkChange s i t := by
  rw [exec_blockField h, boundField] at e
  refine .guard (fun _ => .guard fun hwf => .guard fun _ e => ?_) e
  have hlegal := legal_of_blockFieldOps h (Bool.eq_true_of_not_eq_false hwf)
  rcases runBound_write ops s with ⟨hsink, hq⟩ | ⟨hsink, n, hq⟩
  · exact .of_real (by simp [WritesReal, hsink, h]) hq e
  · exact .log (by simp [WritesLog, hsink, h])
      (fun r hr => records_legal_of_legal hlegal r (List.mem_of_mem_take hr)) hq (.of_finish e)

end

/-- An instruction that only writes a sink writes the one it belongs to. -/
theorem exec_sinkChange {i : Instr} {s t : State} (hi : onlyWritesSink i = true) (e : exec i s = .next t) :
    SinkChange s i t := by
  cases i <;> cases hi
  case wbitsR w v =>
    simp only [exec, execWbitsR] at e
    exact .guard (fun _ => .guard fun _ => .of_real (by simp [WritesReal]) (SinkOp.real_realWrite (.bits _ _) s)) e
  case wboolR b =>
    simp only [exec, execWboolR] at e
    exact .guard (fun _ => .guard fun _ => .of_real (by simp [WritesReal]) (SinkOp.real_realWrite (.bool _) s)) e
  case wunaryR n =>
    simp only [exec, execWunaryR] at e
    exact .guard (fun _ => .of_real (by simp [WritesReal]) (SinkOp.real_realWrite (.unary _) s)) e
  case wu32R v =>
    simp only [exec, execWu32R] at e
    exact .guard (fun _ => .of_real (by simp [WritesReal]) (SinkOp.real_realWrite (.u32 _) s)) e
  case flushR | fPadding =>
    simp only [exec, execFlushR, execFPadding] at e
    exact .guard (fun _ => .of_real (by simp [WritesReal]) (rsFlush_realWrite s)) e
  case replay =>
    simp only [exec, execReplay] at e
    exact .guard (fun _ => .guard fun _ =>
      .of_real (by simp [WritesReal]) ⟨replayFrom_realOnly _ _ s, replayFrom_sinkOk _ _⟩) e
  case wbitsD w v =>
    simp only [exec, execWbitsD] at e
    exact .guard (fun _ => .guard fun hwv => .guard fun _ =>
      .of_deferred (o := .bits w.toNat v.toNat) (by simp [WritesLog]) (Bool.eq_true_of_not_eq_false hwv)) e
  case wboolD b =>
    simp only [exec, execWboolD] at e
    exact .guard (fun _ => .guard fun hb => .guard fun _ =>
      .of_deferred (o := .bool b.toNat) (by simp [WritesLog]) (decide_eq_true (not_lt.mp hb))) e
  case wunaryD n =>
    simp only [exec, execWunaryD] at e
    exact .guard (fun _ => .guard fun _ => .of_deferred (o := .unary n.toNat) (by simp [WritesLog]) rfl) e
  case wu32D v =>
    simp only [exec, execWu32D] at e
    exact .guard (fun _ => .guard fun _ =>
      .of_deferred (o := .u32 v.toNat) (by simp [WritesLog]) (decide_eq_true v.isLt)) e
  case fHeader | fEndMarker | fStreamCrc | fLogRecord => exact .of_realField rfl e
  all_goals exact .of_boundField rfl e

/-- What an instruction can come to: writing its sink, or an effect of its own. -/
theorem exec_change {i : Instr} {s t : State} (e : exec i s = .next t) : SinkChange s i t ∨ OwnEffect s i t := by
  cases hi : onlyWritesSink i with
  | true => exact .inl (exec_sinkChange hi e)
  | false => exact .inr (exec_ownEffect hi e)

end Sys2Proof.Machine
end

section
/-! PROOF. Frames (10_state.md R20 to R47): the host's side, the position, the append-only sinks, FULL, and the writers of
every register. -/

namespace Sys2Proof.Machine

/-- What stage 8 wrote before it ended or failed. -/
theorem stEmit_writes {s : State} {x : Io} (h : runBound (blockOps s) s = x) :
    (s.sinkSel = false ∧ RealOnly s x.state) ∨ (s.sinkSel = true ∧ LogOnly s x.state) :=
  h ▸ runBound_oneSink (blockOps s) s

/-! ## The writers (R21 to R36, R40 to R47) -/

/-- Settles O59: each effect names what it changes, and whose effect it is. -/
theorem registersChangeByTheirWritersOnly : Obligations.RegistersChangeByTheirWritersOnly := by
  intro i s t e hreset
  rcases exec_change e with h | h
  · cases h with
    | rejected c => simp
    | real hi hq ht =>
      obtain ⟨bs, k, p, c, rfl⟩ := hq.only
      refine ⟨fun _ => hi, ?_⟩
      cases ht with
      | respond v => simp
      | takeFatal c => by_cases hp : s.phase = .closing <;> cases hf : s.fatal <;> simp [hp]
    | log hi hrs hq ht =>
      obtain ⟨m, n, rfl, -, -⟩ := hq.logOnly
      have hlen := hi.imp_right fun h => h.imp_right fun h => h.imp_right fun h => h.imp_right fun h =>
        (.inr (.inr h) : i = .logclr ∨ (∃ a, i = .blkopen a) ∨ _)
      refine ⟨?_, fun _ => hi, fun _ => hlen, ?_⟩
      · cases ht <;> simp
      cases ht with
      | respond v => simp
      | takeFatal c => by_cases hp : s.phase = .closing <;> cases hf : s.fatal <;> simp [hp]
  · cases h with
    | rejected | answered => simp
    | reset => exact absurd rfl hreset
    | level a b hp | iter a b hp => simp [hp]
    | streamCrc | setcrc | logclr | crcrst | crcupd | crcfold => simp [clearLog]
    | blkopen a hp => simp [openBlock_spec]
    | bwrite off len xs hp =>
      obtain ⟨u, n, last, run, crc, raw, full, hq⟩ := absorbAll_blockOnly xs s
      rw [hq]
      simp
    | bclose => simp
    | closedEmpty =>
      obtain ⟨u, n, r, hq⟩ := flushRun_spec s
      simp [hq, encode]
    | rleflush =>
      obtain ⟨u, n, r, hq⟩ := flushRun_spec s
      simp [hq, encode]
    | crcfin | bwt | symmap | mtf | hsel | canon => simp [encode]
    | emitted q hrun =>
      rcases stEmit_writes hrun with ⟨hsink, bs, k, p, c, rfl⟩ | ⟨hsink, m, n, rfl, -, -⟩
      · simp [hsink, endClose, encode]
      · simp [hsink, endClose, encode]
    | emitFailed c q hrun =>
      rcases stEmit_writes hrun with ⟨hsink, bs, k, p, c, rfl⟩ | ⟨hsink, m, n, rfl, -, -⟩
      · cases hf : s.fatal <;> simp [hsink, encode]
      · cases hf : s.fatal <;> simp [hsink, encode]

/-! ## The host's side (R20, 70_reset_and_hazards.md R412) -/

/-- The fields of the host's side are the same, but for answers of the platform used up. -/
def HostSame (s t : State) : Prop :=
  t.inMem = s.inMem ∧ t.logCap = s.logCap ∧ t.inSize = s.inSize ∧ t.huffTable = s.huffTable ∧ t.port = s.port
    ∧ ∃ k, t.outErr = s.outErr.drop k

theorem RealOnly.hostSame {s t : State} (h : RealOnly s t) : HostSame s t := by
  obtain ⟨bs, k, p, c, rfl⟩ := h
  exact ⟨rfl, rfl, rfl, rfl, rfl, k, rfl⟩

theorem LogOnly.hostSame {s t : State} (h : LogOnly s t) : HostSame s t := by
  obtain ⟨m, n, rfl, -, -⟩ := h
  exact ⟨rfl, rfl, rfl, rfl, rfl, 0, rfl⟩

theorem BlockOnly.hostSame {s t : State} (h : BlockOnly s t) : HostSame s t := by
  obtain ⟨u, n, last, run, crc, raw, full, rfl⟩ := h
  exact ⟨rfl, rfl, rfl, rfl, rfl, 0, rfl⟩

theorem flushRun_hostSame (s : State) : HostSame s (flushRun s) := by
  obtain ⟨u, n, r, hq⟩ := flushRun_spec s
  rw [hq]
  exact ⟨rfl, rfl, rfl, rfl, rfl, 0, rfl⟩

theorem Ends.hostSame {s q t : State} (ht : Ends q t) (hq : HostSame s q) : HostSame s t := by
  cases ht <;> exact hq

theorem runBound_hostSame (ops : List SinkOp) (s : State) : HostSame s (runBound ops s).state := by
  rcases runBound_oneSink ops s with ⟨-, h⟩ | ⟨-, h⟩
  · exact h.hostSame
  · exact h.hostSame

/-- Settles O58. -/
theorem hostSideIsNeverWritten : Obligations.HostSideIsNeverWritten := by
  intro i s t e
  rcases exec_change e with h | h
  · cases h with
    | rejected c => exact ⟨rfl, rfl, rfl, rfl, rfl, 0, rfl⟩
    | real _ hq ht => exact ht.hostSame hq.only.hostSame
    | log _ _ hq ht => exact ht.hostSame hq.logOnly.hostSame
  · cases h with
    | blkopen a => rw [openBlock_spec]; exact ⟨rfl, rfl, rfl, rfl, rfl, 0, rfl⟩
    | bwrite off len xs => exact (absorbAll_blockOnly xs s).hostSame
    | closedEmpty | rleflush => exact flushRun_hostSame s
    | emitted q h | emitFailed c q h =>
      have hq := runBound_hostSame (blockOps s) s
      rw [h] at hq
      exact hq
    | _ => exact ⟨rfl, rfl, rfl, rfl, rfl, 0, rfl⟩

/-! ## The position (R41) -/

/-- Settles O57: of the instructions outside the stages, RESET, BLKOPEN and BCLOSE alone set the position, and a fault
moves it while CLOSING only. -/
theorem phaseMovesOnlyAsListed : Obligations.PhaseMovesOnlyAsListed := by
  intro i s t hstage hphase e
  rcases exec_change e with h | h
  · left
    cases h with
    | rejected c => exact ⟨rfl, rfl⟩
    | real _ hq ht =>
      obtain ⟨bs, k, p, c, rfl⟩ := hq.only
      cases ht <;> simp [hphase]
    | log _ _ hq ht =>
      obtain ⟨m, n, rfl, -, -⟩ := hq.logOnly
      cases ht <;> simp [hphase]
  · cases h with
    | reset => exact .inr (.inl ⟨rfl, rfl, rfl⟩)
    | blkopen a hp =>
      rw [openBlock_spec]
      exact .inr (.inr (.inl ⟨⟨a, rfl⟩, hp, rfl, rfl⟩))
    | bclose hf hp hs => exact .inr (.inr (.inr ⟨rfl, hp, rfl, rfl⟩))
    | bwrite off len xs =>
      obtain ⟨u, n, last, run, crc, raw, full, hq⟩ := absorbAll_blockOnly xs s
      exact .inl (by rw [hq]; exact ⟨rfl, rfl⟩)
    | closedEmpty | rleflush | crcfin | bwt | symmap | mtf | hsel | canon | emitted | emitFailed =>
      exact absurd rfl (hstage _)
    | _ => exact .inl ⟨rfl, rfl⟩

/-! ## The sinks (R22, R23, 40_bitsink.md R161) -/

/-- Nothing that was in OUT or in the log has changed. -/
structure Appended (s t : State) : Prop where
  out : s.out <+: t.out
  length_le : s.dsLogLen ≤ t.dsLogLen
  records : ∀ j, j < s.dsLogLen → Memory.get t.dsLog j = Memory.get s.dsLog j

theorem SinksGrew.appended {s t : State} (h : SinksGrew s t) : Appended s t := by
  obtain ⟨cnt, pend, out, errs, log, n, rfl, hout, hn, hlog⟩ := h
  exact ⟨hout, hn, hlog⟩

theorem BlockOnly.appended {s t : State} (h : BlockOnly s t) : Appended s t := by
  obtain ⟨u, n, last, run, crc, raw, full, rfl⟩ := h
  exact ⟨List.prefix_refl _, le_rfl, fun _ _ => rfl⟩

theorem flushRun_appended (s : State) : Appended s (flushRun s) := by
  obtain ⟨u, n, r, hq⟩ := flushRun_spec s
  rw [hq]
  exact ⟨List.prefix_refl _, le_rfl, fun _ _ => rfl⟩

theorem Ends.appended {s q t : State} (ht : Ends q t) (hq : Appended s q) : Appended s t := by
  cases ht <;> exact ⟨hq.out, hq.length_le, hq.records⟩

theorem exec_appended {i : Instr} {s t : State} (e : exec i s = .next t) (hreset : i ≠ .reset) (hclr : i ≠ .logclr)
    (hopen : ∀ a, i ≠ .blkopen a) : Appended s t := by
  rcases exec_change e with h | h
  · cases h with
    | rejected c => exact ⟨List.prefix_refl _, le_rfl, fun _ _ => rfl⟩
    | real _ hq ht => exact ht.appended hq.only.sinksGrew.appended
    | log _ _ hq ht => exact ht.appended hq.logOnly.sinksGrew.appended
  · cases h with
    | reset => exact absurd rfl hreset
    | logclr => exact absurd rfl hclr
    | blkopen a => exact absurd rfl (hopen a)
    | bwrite off len xs => exact (Ends.respond _).appended (absorbAll_blockOnly xs s).appended
    | closedEmpty | rleflush =>
      have hq := flushRun_appended s
      exact ⟨hq.out, hq.length_le, hq.records⟩
    | emitted q h | emitFailed c q h =>
      have hq := (runBound_sinksGrew (blockOps s) s).appended
      rw [h] at hq
      exact ⟨hq.out, hq.length_le, hq.records⟩
    | _ => exact ⟨List.prefix_refl _, le_rfl, fun _ _ => rfl⟩

/-- Settles O56. -/
theorem sinksAreAppendOnly : Obligations.SinksAreAppendOnly := by
  intro i s t e hreset
  refine ⟨?_, fun hclr hopen => ?_⟩
  · by_contra hout
    have hne : t.out ≠ s.out := fun h => hout (h ▸ List.prefix_refl _)
    have hwriter := (registersChangeByTheirWritersOnly i s t e hreset).1 (.inr (.inr hne))
    refine hout (exec_appended e hreset ?_ ?_).out
    · rintro rfl
      simp [blockFieldOps] at hwriter
    · rintro a rfl
      simp [blockFieldOps] at hwriter
  · have h := exec_appended e hreset hclr hopen
    exact ⟨h.length_le, h.records⟩

/-! ## FULL (R42, 42_rle1.md R209) -/

/-- BWRITE never clears FULL. -/
theorem exec_bwrite_full {s t : State} {off len : U32} (e : exec (.bwrite off len) s = .next t) (h : s.full = true) :
    t.full = true := by
  cases exec_ownEffect rfl e with
  | bwrite _ _ xs => exact absorbAll_full xs s h
  | _ => exact h

/-- BLKOPEN never sets FULL. -/
theorem exec_blkopen_full {s t : State} {a : U32} (e : exec (.blkopen a) s = .next t) (h : s.full = false) :
    t.full = false := by
  cases exec_ownEffect rfl e with
  | blkopen => rfl
  | _ => exact h

theorem absorbAll_of_full (xs : List Byte) {s : State} (h : s.full = true) : absorbAll xs s = (0, s) := by
  cases xs with
  | nil => rfl
  | cons x xs => exact absorbAll_cons_refused xs (absorb_of_full x h)

/-- Settles O31: of the writers of FULL, BWRITE does not clear it and BLKOPEN does not set it. -/
theorem refusedByteSticks : Obligations.RefusedByteSticks := by
  have hwriters : ∀ {i s t}, exec i s = .next t → i ≠ .reset → t.full ≠ s.full →
      (∃ a, i = .blkopen a) ∨ ∃ off len, i = .bwrite off len := fun {i s t} e hreset hne => by
    obtain ⟨-, -, -, -, -, -, hfull, -⟩ := registersChangeByTheirWritersOnly i s t e hreset
    exact hfull hne
  refine ⟨fun s off len hf hp hin h => ?_, fun i s t e hs ht => ?_, fun i s t e hs ht => ?_⟩
  · rw [exec_bwrite hf hin, if_pos hp, absorbAll_of_full _ h]
    rfl
  · refine or_iff_not_imp_left.mpr fun hreset => ?_
    refine (hwriters e hreset (by simp [hs, ht])).resolve_right ?_
    rintro ⟨off, len, rfl⟩
    simp [exec_bwrite_full e hs] at ht
  · have hreset : i ≠ .reset := by
      rintro rfl
      cases e
      cases ht
    refine (hwriters e hreset (by simp [hs, ht])).resolve_left ?_
    rintro ⟨a, rfl⟩
    simp [exec_blkopen_full e hs] at ht

/-! ## The records of the log (R23) -/

theorem LogWrite.legal {rs : List (BitVec 29)} {s q : State} (h : LogWrite rs s q) (hrs : ∀ r ∈ rs, recordLegal r)
    (hs : ∀ r ∈ s.logList, recordLegal r) : ∀ r ∈ q.logList, recordLegal r := by
  rw [h.eq, (s.loggedOnly_withRecords hrs).1]
  exact fun r hr => (List.mem_append.mp hr).elim (hs r) (hrs r)

theorem RealOnly.logList {s q : State} (h : RealOnly s q) : q.logList = s.logList := by
  obtain ⟨bs, k, p, c, rfl⟩ := h
  rfl

theorem Ends.logList {q t : State} (ht : Ends q t) : t.logList = q.logList := by
  cases ht <;> rfl

/-- Legal writes to the bound sink leave a log of legal records. -/
theorem runBound_records_legal {ops : List SinkOp} (hops : ∀ o ∈ ops, o.legal = true) {s : State}
    (hs : ∀ r ∈ s.logList, recordLegal r) : ∀ r ∈ (runBound ops s).state.logList, recordLegal r := by
  rcases runBound_write ops s with ⟨-, h⟩ | ⟨-, n, h⟩
  · rwa [h.only.logList]
  · exact h.legal (fun r hr => records_legal_of_legal hops r (List.mem_of_mem_take hr)) hs

/-- Settles O23. -/
theorem appendsKeepRecordsLegal : Obligations.AppendsKeepRecordsLegal := by
  intro i s t hemit hs e
  rcases exec_change e with h | h
  · cases h with
    | rejected c => exact hs
    | real _ hq ht => rwa [ht.logList, hq.only.logList]
    | log _ hrs hq ht =>
      rw [ht.logList]
      exact hq.legal hrs hs
  · cases h with
    | reset | logclr => exact fun r hr => absurd hr List.not_mem_nil
    | blkopen a =>
      rw [openBlock_spec]
      cases decide (a = 1#32)
      · exact hs
      · exact fun r hr => absurd hr List.not_mem_nil
    | bwrite off len xs =>
      obtain ⟨u, n, last, run, crc, raw, full, hq⟩ := absorbAll_blockOnly xs s
      rw [hq]
      exact hs
    | closedEmpty | rleflush =>
      obtain ⟨u, n, r, hq⟩ := flushRun_spec s
      rw [hq]
      exact hs
    | emitted q h | emitFailed c q h =>
      have hq := runBound_records_legal (hemit rfl) hs
      rw [h] at hq
      exact hq
    | _ => exact hs

end Sys2Proof.Machine
end

section
/-! PROOF. Commands and fields one by one: the commands of the log, BLKOPEN and BCLOSE (40_bitsink.md R154 to R158,
42_rle1.md R201, 46_closeblock_emit.md R330), the fields on the sinks (30_encoding.md R111 to R120; log 9, 10, 11), an
output error (40_bitsink.md R147), and the step. -/

namespace Sys2Proof.Machine

/-! ## The commands of the log (40_bitsink.md R154 to R158) -/

theorem recordResponse_eq (r : BitVec 29) :
    recordResponse r = BitVec.ofNat 32 (recordWidth r * 2 ^ 24 + recordValue r) := by
  have hlt := r.isLt
  have hparts : recordWidth r * 2 ^ 24 + recordValue r = r.toNat := by
    simp only [recordWidth, recordValue, BitVec.extractLsb'_toNat, Nat.shiftRight_eq_div_pow]
    omega
  rw [hparts, recordResponse, BitVec.ofNat_toNat]

/-- Settles O20. -/
theorem logCommands : Obligations.LogCommands := by
  intro s hf
  refine ⟨?_, fun v => ?_, ?_, fun i hi => ?_, fun i hi => ?_⟩
  · simp [exec, execFlushD, hf, done_eq]
  · simp [exec, execSetcrc, hf, done_eq]
  · simp [exec, execLogclr, hf, done_eq, clearLog]
  · exact rejected_of_badOperand _ hf hi
  · simp [exec, execLogrd, hf, Nat.not_le.mpr hi, done_eq, recordResponse_eq]

/-! ## Opening and closing a block -/

/-- Settles O28. -/
theorem blkopenOpensTheBlock : Obligations.BlkopenOpensTheBlock := by
  intro s a hf
  refine ⟨fun ha => rejected_of_badOperand _ hf ha, fun ha hp => ?_, fun ha hp => ?_⟩
  · exact rejected_of_badPhase_of_legal _ hf (not_lt.mpr ha) hp
  · have hone : a = 1#32 ↔ a.toNat = 1 := ⟨fun h => h ▸ rfl, fun h => BitVec.eq_of_toNat_eq h⟩
    simp [exec, execBlkopen, hf, not_lt.mpr ha, hp, openBlock_spec, done_eq, hone]

/-- Settles O33. -/
theorem bcloseStartsTheStages : Obligations.BcloseStartsTheStages := by
  intro s hf
  refine ⟨fun h => ?_, fun hp hs => ?_⟩
  · rcases h with hp | ⟨hsink, hsealed⟩
    · exact rejected_of_badPhase _ hf hp
    · exact exec_bclose_of_sealed hf hsealed hsink
  · have hopen : (s.sinkSel && s.dsSealed) = false := Bool.and_eq_false_iff.mpr hs
    simp [exec, execBclose, hf, hp, hopen]

/-! ## The fields of the bitstream (log 9, 10, 11) -/

theorem boundField_of_fatal {s : State} (legal : Bool) (ops : List SinkOp) (hf : s.fatal = true) :
    boundField legal ops s = s.rejectedWith 0x08#8 := by
  rw [boundField, if_pos hf]
  rfl

theorem realField_of_fatal {s : State} (legal : Bool) (ops : List SinkOp) (hf : s.fatal = true) :
    realField legal ops s = s.rejectedWith 0x08#8 := by
  rw [realField, if_pos hf]
  rfl

/-- A legal field on a sink that takes it writes its operations. -/
theorem boundField_of_legal {s : State} (ops : List SinkOp) (hf : s.fatal = false)
    (hopen : s.sinkSel = false ∨ s.dsSealed = false) : boundField true ops s = (runBound ops s).finish 0 := by
  have hseal : (s.sinkSel && s.dsSealed) = false := Bool.and_eq_false_iff.mpr hopen
  simp [boundField, hf, hseal]

theorem realField_of_legal {s : State} (ops : List SinkOp) (hf : s.fatal = false) :
    realField true ops s = (runReal ops s).finish 0 := by
  simp [realField, hf]

/-- A legal field of the host writes its bits. -/
theorem exec_hostField_writes {i : Instr} {ops : List SinkOp} {s : State} (h : hostFieldOps i = some ops)
    (hwf : i.wf = true) (hf : s.fatal = false) (hs : s.sinkOk) (hq : s.quiet) :
    ∃ t, exec i s = .next t ∧ s.wroteReal t (ops.flatMap SinkOp.wire) 0 := by
  rw [exec_hostField h, hwf, realField_of_legal ops hf]
  obtain ⟨t, ht, hwrote, -⟩ := (runReal_writes (legal_of_hostFieldOps h hwf) hs hq).finish 0
  exact ⟨t, ht, hwrote⟩

/-- Away from a byte boundary, flushing is a write of the zero bits that are missing. -/
theorem rsFlush_eq_rsBits {s : State} (hcnt : s.rsCnt ≠ 0) : rsFlush s = rsBits (8 - s.rsCnt.toNat) 0 s := by
  have hlt := s.rsCnt.isLt
  have hwidth : s.rsCnt.toNat + (8 - s.rsCnt.toNat) = 8 := by omega
  have hbyte : wholeBytes (s.rsPend.toNat * 2 ^ (8 - s.rsCnt.toNat) + 0) 8
      = [BitVec.ofNat 8 (s.rsPend.toNat * 2 ^ (8 - s.rsCnt.toNat))] := by simp [wholeBytes]
  rw [rsFlush, if_neg hcnt, rsBits]
  simp only [hwidth, hbyte, appendAll, Io.bind_assoc]
  simp [Nat.mod_one]

/-- The zero bits of the padding reach the byte boundary (R117, 40_bitsink.md R145). -/
theorem rsFlush_writes {s : State} (hs : s.sinkOk) (hq : s.quiet) :
    (rsFlush s).Writes s (List.replicate ((8 - s.rsCnt.toNat) % 8) false) := by
  by_cases hcnt : s.rsCnt = 0
  · simpa [rsFlush, hcnt] using Io.Writes.refl hs hq
  · have hlt := s.rsCnt.isLt
    have hpos : s.rsCnt.toNat ≠ 0 := fun h => hcnt (BitVec.eq_of_toNat_eq h)
    have hzeros : wireBits (8 - s.rsCnt.toNat) 0 = List.replicate ((8 - s.rsCnt.toNat) % 8) false := by
      rw [Nat.mod_eq_of_lt (by omega)]
      simp [wireBits]
    rw [rsFlush_eq_rsBits hcnt, ← hzeros]
    exact rsBits_writes (by positivity) hs hq

/-- Settles O51. -/
theorem hostFieldsOnTheRealSink : Obligations.HostFieldsOnTheRealSink := by
  intro s
  refine ⟨fun hf i hi => ?_, fun hf => ⟨fun i hi hwf hs hq => ?_, fun w v hwf hs hq => ?_, fun hs hq => ?_,
    fun i hi hwf => ?_⟩⟩
  · rcases hi with ⟨level, rfl⟩ | rfl | ⟨crc, rfl⟩ | rfl | ⟨w, v, rfl⟩
    case inr.inr.inr.inl => simp [exec, execFPadding, hf, rejected_eq, RejectCode.status]
    all_goals exact realField_of_fatal _ _ hf
  · rcases hi with ⟨level, rfl⟩ | rfl | ⟨crc, rfl⟩
    · exact wire_headerOps level ▸ exec_hostField_writes rfl hwf hf hs hq
    · exact wire_endMarkerOps ▸ exec_hostField_writes rfl hwf hf hs hq
    · exact emittedFieldsAreTheirEncodings.2.2.2.1 crc ▸ exec_hostField_writes rfl hwf hf hs hq
  · have hwire : [SinkOp.bits w.toNat v.toNat].flatMap SinkOp.wire = wireBits w.toNat v.toNat := List.append_nil _
    exact hwire ▸ exec_hostField_writes rfl hwf hf hs hq
  · obtain ⟨t, ht, hwrote, -, hcnt⟩ := (rsFlush_writes hs hq).finish 0
    have hexec : exec .fPadding s = (rsFlush s).finish 0 := by simp [exec, execFPadding, hf]
    refine ⟨t, hexec.trans ht, hwrote, BitVec.eq_of_toNat_eq ?_⟩
    rw [hcnt, List.length_replicate]
    show (s.rsCnt.toNat + (8 - s.rsCnt.toNat) % 8) % 8 = 0
    have hlt := s.rsCnt.isLt
    omega
  · rcases hi with ⟨level, rfl⟩ | ⟨w, v, rfl⟩
    · exact rejected_of_badOperand _ hf hwf
    · exact rejected_of_badOperand _ hf hwf

/-- Settles O52. -/
theorem blockFieldsOnTheBoundSink : Obligations.BlockFieldsOnTheBoundSink := by
  intro s i ops h
  rw [exec_blockField h]
  refine ⟨fun hf => boundField_of_fatal _ _ hf, fun hf => ⟨fun hwf => rejected_of_badOperand _ hf hwf,
    fun hwf hsink hs hq => ?_, fun hwf hsink hseal => ?_, fun hwf hsink hseal hroom => ?_⟩⟩
  · rw [hwf, boundField_of_legal ops hf (.inl hsink), runBound_real ops hsink, ← wire_of_blockFieldOps h]
    obtain ⟨t, ht, hwrote, -⟩ := (runReal_writes (legal_of_blockFieldOps h hwf) hs hq).finish 0
    exact ⟨t, ht, hwrote⟩
  · exact rejected_of_badPhase_of_legal _ hf (by simp [hwf]) (by simp [hsink, hseal])
  · rw [hwf, boundField_of_legal ops hf (.inr hseal), runBound_deferred ops hsink, runDeferred_eq,
      logRecords_room hroom]
    have hrs := records_legal_of_legal (legal_of_blockFieldOps h hwf)
    exact ⟨_, rfl, s.loggedOnly_withRecords hrs, rfl⟩

/-! ## An output error (40_bitsink.md R147, 60_exceptions.md R378) -/

/-- The platform asserts `out_err` against append number `k` of those to come. -/
def State.FailsAt (s : State) (k : Nat) (rest : List Bool) : Prop :=
  s.outErr = List.replicate k false ++ true :: rest

/-- The `k` bytes before the refused one are appended. -/
theorem appendAll_of_failsAt {bs : List Byte} {s : State} {k : Nat} {rest : List Bool} (h : s.FailsAt k rest)
    (hk : k < bs.length) :
    appendAll bs s = .failed .ioError { s with out := s.out ++ bs.take k, outErr := rest } := by
  induction bs generalizing s k with
  | nil => exact absurd hk (Nat.not_lt_zero k)
  | cons b bs ih =>
    cases k with
    | zero =>
      have hcons : s.outErr = true :: rest := h
      simp [appendAll, appendOut, hcons]
    | succ k =>
      have hcons : s.outErr = false :: (List.replicate k false ++ true :: rest) := h
      simp only [appendAll, appendOut, hcons, Io.bind_done]
      refine (ih (k := k) (by exact rfl) (Nat.lt_of_succ_lt_succ hk)).trans ?_
      simp

/-- Fewer bytes than that are all appended. -/
theorem appendAll_before_failure {bs : List Byte} {s : State} {k : Nat} {rest : List Bool} (h : s.FailsAt k rest)
    (hk : bs.length ≤ k) :
    appendAll bs s = .done
      { s with out := s.out ++ bs, outErr := List.replicate (k - bs.length) false ++ true :: rest } := by
  induction bs generalizing s k with
  | nil =>
    have heq : s.outErr = List.replicate k false ++ true :: rest := h
    simp [appendAll, ← heq]
  | cons b bs ih =>
    obtain ⟨n, rfl⟩ := Nat.exists_eq_add_of_lt (Nat.lt_of_lt_of_le (Nat.succ_pos _) hk)
    have hcons : s.outErr = false :: (List.replicate n false ++ true :: rest) := by
      rw [h, Nat.zero_add]
      rfl
    have hn : bs.length ≤ n := by
      rw [List.length_cons] at hk
      omega
    simp only [appendAll, appendOut, hcons, Io.bind_done]
    refine (ih (k := n) (by exact rfl) hn).trans ?_
    simp

theorem take_wholeBytes {k c : Nat} (t : Nat) (hk : k ≤ c / 8) :
    (wholeBytes t c).take k = (List.range k).map fun j => BitVec.ofNat 8 (t / 2 ^ (c - 8 * (j + 1))) :=
  take_map_range _ hk

/-- `rs_bits` up to the refused append. -/
theorem rsBits_of_failsAt {w v k : Nat} {s : State} {rest : List Bool} (h : s.FailsAt k rest)
    (hk : k < (s.rsCnt.toNat + w) / 8) :
    rsBits w v s = .failed .ioError { s with
      out := s.out ++ (List.range k).map fun j =>
        BitVec.ofNat 8 ((s.rsPend.toNat * 2 ^ w + v) / 2 ^ (s.rsCnt.toNat + w - 8 * (j + 1)))
      outErr := rest } := by
  rw [rsBits, appendAll_of_failsAt h (by rwa [length_wholeBytes]), take_wholeBytes _ hk.le]
  rfl

/-- `rs_bits` before the refused append uses up as many answers as it appends bytes. -/
theorem outErr_of_rsBits_done {w v k : Nat} {s t : State} {rest : List Bool} (h : s.FailsAt k rest)
    (hk : (s.rsCnt.toNat + w) / 8 ≤ k) (hdone : rsBits w v s = .done t) :
    t.FailsAt (k - (s.rsCnt.toNat + w) / 8) rest := by
  rw [rsBits, appendAll_before_failure h (by rwa [length_wholeBytes]), Io.bind_done] at hdone
  cases hdone
  rw [length_wholeBytes]
  rfl

/-- An IO_ERROR outside BCLOSE, FATAL having been 0. -/
theorem finish_ioError {x : Io} {t : State} (v : U32) (hx : x = .failed .ioError t) (hf : t.fatal = false)
    (hp : t.phase ≠ .closing) : x.finish v = t.fatalWith 0x05#8 := by
  rw [hx, Io.finish_failed, takeFatal_eq _ hf hp]
  rfl

theorem exec_wbitsR_of_legal {s : State} {w v : U32} (hf : s.fatal = false)
    (h : bitsInRange w.toNat v.toNat = true) : exec (.wbitsR w v) s = (rsBits w.toNat v.toNat s).finish 0 := by
  simp [exec, execWbitsR, hf, h]

/-- Settles O17. -/
theorem outputErrorStopsTheWrite : Obligations.OutputErrorStopsTheWrite := by
  intro s k rest hf hp herr
  have h : s.FailsAt k rest := herr
  refine ⟨fun w v hwv hk => ?_, fun v hk => ?_, fun v s' h2 h4 hdone => ?_, fun hk hcnt => ?_⟩
  · exact (exec_wbitsR_of_legal hf hwv).trans (finish_ioError 0 (rsBits_of_failsAt h hk) hf hp)
  · have hexec : exec (.wu32R v) s = (rsU32 v.toNat s).finish 0 := by simp [exec, execWu32R, hf]
    refine hexec.trans (finish_ioError 0 ?_ hf hp)
    rw [rsU32, rsBits_of_failsAt h (by omega)]
    rfl
  · have hlow : (BitVec.ofNat 32 (v.toNat % 2 ^ 16)).toNat = v.toNat % 2 ^ 16 := by
      rw [BitVec.toNat_ofNat]
      omega
    have hrange : bitsInRange 16 (v.toNat % 2 ^ 16) = true :=
      bitsInRange_of_lt (by decide) (by decide) (Nat.mod_lt _ (by decide))
    have hf' : s'.fatal = false := by
      have hsame := (rsBits_realOnly 16 (v.toNat / 2 ^ 16) s).sinksGrew.sameFault.fatal
      rwa [hdone, hf] at hsame
    refine ⟨?_, ?_⟩
    · have hsecond := exec_wbitsR_of_legal (w := 16) hf' (hlow.symm ▸ hrange)
      rw [hsecond, hlow, exec, execWu32R, hf, rsU32, hdone]
      rfl
    · have hbytes : (s.rsCnt.toNat + 16) / 8 = 2 := by omega
      have hleft := outErr_of_rsBits_done h (by omega) hdone
      rwa [hbytes] at hleft
  · subst hk
    have hcons : s.outErr = true :: rest := h
    have hexec : exec .flushR s = (rsFlush s).finish 0 := by simp [exec, execFlushR, hf]
    refine hexec.trans (finish_ioError 0 ?_ hf hp)
    rw [rsFlush, if_neg hcnt]
    simp [appendOut, hcons]

end Sys2Proof.Machine
end

section
/-! PROOF. The step and the closing (10_state.md R41, 46_closeblock_emit.md R330, 70_reset_and_hazards.md R440, R441): what a
step runs, that it goes on, and the stages one after the other. -/

namespace Sys2Proof.Machine

/-! ## What a step runs -/

theorem decodeCommand_of_decode {w : CommandWord} {i : Instr} (h : decode (.port (.command w)) = some i) :
    decodeCommand w = .ok i := by
  rw [decode] at h
  cases hw : decodeCommand w with
  | ok j => rw [hw] at h; cases h; rfl
  | error c => rw [hw] at h; cases h

/-- A word is read when FATAL is 0, RESET and CSRR always (60_exceptions.md R382). -/
theorem acceptCommand_eq {fatal : Bool} {w : CommandWord} (h : fatal = false ∨ opOf w = 0x01#8 ∨ opOf w = 0x03#8) :
    acceptCommand fatal w = decodeCommand w := by
  rw [acceptCommand]
  rcases h with h | h | h <;> simp [h, opActsWhenFatal]

theorem step_of_field {s : State} {f : FieldKind} {nbits bits : Nat} {rest : List Slot} {i : Instr}
    (hp : s.phase ≠ .closing) (hport : s.port = .field f nbits bits :: rest) (h : decodeField f nbits bits = some i) :
    step s = exec i { s with port := rest, resp := none } := by
  simp only [step, fetch, if_neg hp, hport, fetchSlot, h]
  rfl

theorem step_of_input {s : State} {off : Nat} {bytes : List Byte} {rest : List Slot} (hp : s.phase ≠ .closing)
    (hport : s.port = .input off bytes :: rest) : step s = .next { s.supply off bytes with port := rest } := by
  simp only [step, fetch, if_neg hp, hport, fetchSlot]

theorem step_of_empty_port {s : State} (hp : s.phase ≠ .closing) (hport : s.port = []) : step s = .next s := by
  simp only [step, fetch, if_neg hp, hport]

/-- The host's bytes stand where they were put, as far as IN reaches (R430). -/
theorem get_supply (s : State) (off : Nat) (bytes : List Byte) (hwf : Memory.wf s.inMem = true) (j : Nat) :
    Memory.get (s.supply off bytes).inMem j =
      if off ≤ j ∧ j < off + bytes.length ∧ j < s.inSize then bytes.getD (j - off) 0 else Memory.get s.inMem j := by
  have hlen : (bytes.take (s.inSize - off)).length = min (s.inSize - off) bytes.length := List.length_take
  split
  next h =>
    obtain ⟨h1, h2, h3⟩ := h
    obtain ⟨n, rfl⟩ := Nat.exists_eq_add_of_le h1
    have hn : n < (bytes.take (s.inSize - off)).length := by omega
    rw [State.supply_inMem, Memory.get_writeList_of_inside hwf off _ hn, List.getElem_take, Nat.add_sub_cancel_left,
      List.getD_eq_getElem _ _ (by omega)]
  next h => exact Memory.get_writeList_of_outside _ _ _ (by omega)

/-- Settles O5. -/
theorem stepRunsTheDecodedInstruction : Obligations.StepRunsTheDecodedInstruction := by
  refine ⟨fun s w rest i hp hport hdec hacts => ?_, fun s f nbits bits rest i hp hport hdec => ?_,
    fun s i hp hdec => step_of_stage hp hdec, fun s off bytes rest hp hport hwf => ?_⟩
  · exact step_of_accepted hp hport ((acceptCommand_eq hacts).trans (decodeCommand_of_decode hdec))
  · exact step_of_field hp hport hdec
  · exact ⟨_, step_of_input hp hport, Memory.writeList_wf hwf _ _, get_supply s off bytes hwf⟩

/-- What a step outside a closing can come to. -/
inductive OpenStep (s : State) : State → Prop where
  | wait : OpenStep s s
  | supplied (off : Nat) (bytes : List Byte) (rest : List Slot) : OpenStep s { s.supply off bytes with port := rest }
  | bad (rest : List Slot) (c : RejectCode) : OpenStep s ((s.taken rest).reject c)
  /-- A command or a field, which no STAGE names, has run. -/
  | ran (rest : List Slot) {i : Instr} {t : State} (hi : ∀ st, encode i ≠ .stage st)
      (e : exec i (s.taken rest) = .next t) : OpenStep s t

theorem encode_ne_stage_of_port {i : Instr} {x : Slot} (h : encode i = .port x) : ∀ st, encode i ≠ .stage st :=
  fun _ hst => Code.noConfusion (h.symm.trans hst)

theorem encode_decodeField_ne_stage {f : FieldKind} {nbits bits : Nat} {i : Instr}
    (h : decodeField f nbits bits = some i) : ∀ st, encode i ≠ .stage st := by
  by_cases hpad : i = .fPadding
  · subst hpad
    exact encode_ne_stage_of_port rfl
  · exact encode_ne_stage_of_port (encode_of_decodeField h hpad)

theorem decodeCommand_of_accepted {fatal : Bool} {w : CommandWord} {i : Instr} (h : acceptCommand fatal w = .ok i) :
    decodeCommand w = .ok i := by
  rw [acceptCommand] at h
  split at h
  · cases h
  · exact h

theorem openStep_of_step {s t : State} (hp : s.phase ≠ .closing) (e : step s = .next t) : OpenStep s t := by
  cases hport : s.port with
  | nil =>
    rw [step_of_empty_port hp hport] at e
    cases e
    exact .wait
  | cons x rest =>
    cases x with
    | command w =>
      cases h : acceptCommand s.fatal w with
      | ok i =>
        rw [step_of_accepted hp hport h] at e
        exact .ran rest (encode_ne_stage_of_port (encode_of_decodeCommand (decodeCommand_of_accepted h))) e
      | error c =>
        rw [step_of_not_accepted hp hport h] at e
        cases e
        exact .bad rest c
    | field f nbits bits =>
      cases h : decodeField f nbits bits with
      | some i =>
        rw [step_of_field hp hport h] at e
        exact .ran rest (encode_decodeField_ne_stage h) e
      | none => simp [step, fetch, hp, hport, fetchSlot, h] at e
    | input off bytes =>
      rw [step_of_input hp hport] at e
      cases e
      exact .supplied off bytes rest

/-! ## The block goes on -/

theorem exists_decodeStage {st : BitVec 4} (h1 : 1 ≤ st.toNat) (h8 : st.toNat ≤ 8) : ∃ i, decodeStage st = some i := by
  have hall : ∀ st : BitVec 4, 1 ≤ st.toNat → st.toNat ≤ 8 → (decodeStage st).isSome = true := by decide
  exact Option.isSome_iff_exists.mp (hall st h1 h8)

/-- Settles O55. -/
theorem noStopUnderTheInvariant : Obligations.NoStopUnderTheInvariant := by
  intro s hinv hfield
  obtain ⟨-, -, -, -, hseq, -⟩ := hinv
  rcases hseq with ⟨hp, h1, h8⟩ | ⟨hp, -⟩
  · obtain ⟨i, hi⟩ := exists_decodeStage h1 h8
    rw [step_of_stage hp hi]
    exact exec_goes_on i s
  · cases hport : s.port with
    | nil => exact ⟨s, step_of_empty_port hp hport⟩
    | cons x rest =>
      cases x with
      | command w =>
        cases h : acceptCommand s.fatal w with
        | ok i =>
          rw [step_of_accepted hp hport h]
          exact exec_goes_on i _
        | error c => exact ⟨_, step_of_not_accepted hp hport h⟩
      | field f nbits bits =>
        obtain ⟨i, hi⟩ := Option.isSome_iff_exists.mp (hfield f nbits bits rest hport)
        rw [step_of_field hp hport hi]
        exact exec_goes_on i _
      | input off bytes => exact ⟨_, step_of_input hp hport⟩

/-! ## The stages one after the other (R330) -/

/-- STAGE stands at `n` in a closing. -/
structure State.AtStage (s : State) (n : Nat) : Prop where
  phase : s.phase = .closing
  stage : s.stage = BitVec.ofNat 4 n

/-- The closing is over, and the host has its response. -/
structure State.Closed (s : State) : Prop where
  phase : s.phase = .idle
  stage : s.stage = 0
  resp : ∃ r, s.resp = some r

theorem step_at_stage {s : State} {n : Nat} (h : s.AtStage n) {i : Instr}
    (hi : decodeStage (BitVec.ofNat 4 n) = some i) : step s = exec i s :=
  step_of_stage h.phase (h.stage ▸ hi)

theorem flushRun_phase (s : State) : (flushRun s).phase = s.phase := by
  obtain ⟨u, n, r, h⟩ := flushRun_spec s
  rw [h]

theorem exec_stRleflush_moves {s : State} (hp : s.phase = .closing) :
    ∃ t, exec .stRleflush s = .next t ∧ (t.AtStage 2 ∨ t.Closed) := by
  by_cases h : (flushRun s).regN = 0
  · exact ⟨_, exec_stRleflush_empty h, .inr ⟨rfl, rfl, _, rfl⟩⟩
  · exact ⟨_, exec_stRleflush_nonempty h, .inl ⟨(flushRun_phase s).trans hp, rfl⟩⟩

theorem exec_stEmit_closes {s : State} (hp : s.phase = .closing) : ∃ t, exec .stEmit s = .next t ∧ t.Closed := by
  have hgrew := runBound_sinksGrew (blockOps s) s
  cases h : runBound (blockOps s) s with
  | done q => exact ⟨_, exec_stEmit_of_done h, rfl, rfl, _, rfl⟩
  | failed c q =>
    rw [h] at hgrew
    obtain ⟨cnt, pend, out, errs, log, n, rfl, -⟩ := hgrew
    refine ⟨_, by rw [exec, execStEmit, h], ?_, ?_, _, rfl⟩ <;> simp [hp]

/-- A step of a closing goes on to the next stage or ends the closing. -/
theorem step_closing {s : State} {n : Nat} (h : s.AtStage n) (h1 : 1 ≤ n) (h8 : n ≤ 8) :
    ∃ t, step s = .next t ∧ ((n < 8 ∧ t.AtStage (n + 1)) ∨ t.Closed) := by
  obtain rfl | rfl | ⟨h2, h7⟩ : n = 1 ∨ n = 8 ∨ 2 ≤ n ∧ n ≤ 7 := by omega
  · obtain ⟨t, ht, hmoves⟩ := exec_stRleflush_moves h.phase
    exact ⟨t, (step_at_stage h rfl).trans ht, hmoves.imp_left fun ht => ⟨by decide, ht⟩⟩
  · obtain ⟨t, ht, hclosed⟩ := exec_stEmit_closes h.phase
    exact ⟨t, (step_at_stage h rfl).trans ht, .inr hclosed⟩
  · interval_cases n <;> exact ⟨_, (step_at_stage h rfl).trans rfl, .inl ⟨by decide, h.phase, rfl⟩⟩

theorem run_succ {s t : State} (h : step s = .next t) (k : Nat) : core.run (k + 1) s = core.run k t := by
  simp only [Host.Core.run, Host.Check.core_step, h]

/-- From stage `n` the closing ends within the stages that are left, one stage a step. -/
theorem closing_ends {m n : Nat} (hmn : m + n = 9) (h1 : 1 ≤ n) (h8 : n ≤ 8) {s : State} (h : s.AtStage n) :
    ∃ k t, 1 ≤ k ∧ k ≤ m ∧ (∀ j, j < k → ∃ u, core.run j s = .next u ∧ u.AtStage (n + j))
      ∧ core.run k s = .next t ∧ t.Closed ∧ t.port = s.port := by
  induction m generalizing n s with
  | zero => omega
  | succ m ih =>
    obtain ⟨t, ht, hnext | hclosed⟩ := step_closing h h1 h8
    · obtain ⟨hlt, hstage⟩ := hnext
      obtain ⟨k, q, hk1, hkm, hrun, hend, hq, hport⟩ := ih (n := n + 1) (by omega) (by omega) hlt hstage
      refine ⟨k + 1, q, by omega, by omega, fun j hj => ?_, (run_succ ht k).trans hend, hq,
        hport.trans (step_port_of_closing h.phase ht)⟩
      cases j with
      | zero => exact ⟨s, rfl, h⟩
      | succ j =>
        obtain ⟨u, hu, hat⟩ := hrun j (by omega)
        exact ⟨u, (run_succ ht j).trans hu, by rwa [Nat.add_assoc, Nat.add_comm 1] at hat⟩
    · refine ⟨1, t, le_rfl, by omega, fun j hj => ?_, (run_succ ht 0).trans rfl, hclosed,
        step_port_of_closing h.phase ht⟩
      obtain rfl : j = 0 := by omega
      exact ⟨s, rfl, h⟩

/-- Settles O34. -/
theorem closingEnds : Obligations.ClosingEnds := by
  intro s hp hst
  obtain ⟨k, t, h1, h8, hrun, hend, hclosed, hport⟩ := closing_ends (m := 8) (n := 1) rfl le_rfl (by decide) ⟨hp, hst⟩
  refine ⟨k, t, h1, h8, fun j hj => ?_, hend, hclosed.phase, hclosed.stage, hport, hclosed.resp⟩
  obtain ⟨u, hu, hat⟩ := hrun j hj
  exact ⟨u, hu, hat.phase, by rw [hat.stage, Nat.add_comm]⟩

end Sys2Proof.Machine
end

section
/-! PROOF. The invariant (10_state.md R21 to R47, 42_rle1.md R208, 46_closeblock_emit.md R333): reset has it and every step
keeps it, kind of effect by kind of effect. -/

namespace Sys2Proof.Machine

/-- Settles O53: every clause is a comparison of reset values. -/
theorem invariantAtReset : Obligations.InvariantAtReset := by
  unfold Obligations.InvariantAtReset
  decide

/-! ## RAWCNT (R38) -/

/-- A run written to U pays for its raw bytes. -/
theorem le_mul_pendingCost {r : Nat} (h : r ≤ 255) : r ≤ 51 * pendingCost r := by
  rw [pendingCost]
  split <;> omega

/-- What a byte adds to RAWCNT, its run step adds to the bound. -/
theorem runStep_raw {last x : Byte} {run : Nat} (h : run ≤ 254) :
    run + 1 ≤ 51 * pendingCost (runStep last run x).written + (runStep last run x).run := by
  rw [runStep]
  split_ifs with h0 hx hmax
  · simp [h0]
  · obtain rfl : run = 254 := hmax
    simp [pendingCost, Config.maxRun]
  · simp
  · have := le_mul_pendingCost (h.trans (by decide))
    show run + 1 ≤ 51 * pendingCost run + 1
    omega

theorem rawCnt_bounds {s : State} (hrange : s.rangesOk) (hraw : s.rawOk) :
    s.rawCnt.toNat ≤ 255 * ((s.regN.toNat + pendingCost s.rlRun.toNat + 4) / 5) ∧ s.rawCnt.toNat ≤ 45900153 := by
  obtain ⟨hn, hrun, -⟩ := hrange
  have hraw : s.rawCnt.toNat ≤ 51 * s.regN.toNat + s.rlRun.toNat := hraw
  have hcost := le_mul_pendingCost (hrun.trans (by decide))
  constructor <;> omega

/-! ## The end of a command -/

theorem inv_respond {s : State} (h : s.inv) (v : U32) : (s.respond v).inv := h

/-- Fatal entry leaves CLOSING, whose clauses ask nothing then (60_exceptions.md R380). -/
theorem inv_takeFatal {s : State} (h : s.inv) (c : FatalCode) : (s.takeFatal c).inv := by
  obtain ⟨hmem, hsink, hlog, hcfg, hseq, hcause, hfill, hseal, hrange, hraw⟩ := h
  have hcode : FatalCode.cause c = 4#8 ∨ FatalCode.cause c = 5#8 := cause_eq_four_or_five c
  have hphase : (s.takeFatal c).phase ≠ .closing := by
    rw [State.takeFatal_phase]
    split
    · exact Phase.noConfusion
    · assumption
  refine ⟨hmem, hsink, hlog, hcfg, .inr ⟨hphase, ?_⟩, .inr ⟨rfl, ?_, hphase⟩, ⟨fun hc => ?_, fun hc => ?_⟩,
    fun hc => absurd hc hphase, hrange, hraw⟩
  · rw [State.takeFatal_stage]
    split
    · rfl
    next hp => exact (hseq.resolve_left fun hc => hp hc.1).2
  · rw [State.takeFatal_cause]
    split
    next hf => exact (hcause.resolve_left fun hc => by simp [hf] at hc).2.1
    · exact hcode
  · have hopen : (s.takeFatal c).phase = .opened := hc.resolve_right fun hc => hphase hc.1
    rw [State.takeFatal_phase] at hopen
    split at hopen
    · cases hopen
    · exact hfill.1 (.inl hopen)
  · exact absurd hc.1 hphase

theorem Ends.inv {q t : State} (ht : Ends q t) (hq : q.inv) : t.inv := by
  cases ht with
  | respond v => exact hq
  | takeFatal c => exact inv_takeFatal hq c

/-! ## Sink writes -/

theorem RealWrite.inv {s q : State} (hq : RealWrite s q) (h : s.inv) : q.inv := by
  obtain ⟨hmem, hsink, hrest⟩ := h
  have hok := hq.sinkOk hsink
  obtain ⟨bs, k, p, c, rfl⟩ := hq.only
  exact ⟨hmem, hok, hrest⟩

theorem LogWrite.inv {rs : List (BitVec 29)} {s q : State} (hq : LogWrite rs s q) (h : s.inv) : q.inv := by
  obtain ⟨⟨hdsLog, hmem⟩, hsink, hlog, hrest⟩ := h
  have hok := hq.logOk hlog
  obtain rfl := hq.eq
  exact ⟨⟨Memory.writeList_wf hdsLog _ _, hmem⟩, hsink, hok, hrest⟩

theorem runBound_inv (ops : List SinkOp) {s : State} (h : s.inv) : (runBound ops s).state.inv := by
  rcases runBound_write ops s with ⟨-, hq⟩ | ⟨-, n, hq⟩
  · exact hq.inv h
  · exact hq.inv h

/-! ## Absorbing (42_rle1.md R205, R208) -/

theorem State.Filling.of_inv {s : State} (h : s.inv) (hp : s.phase = .opened) : s.Filling := by
  obtain ⟨hmem, -, -, hcfg, -, -, hfill, -⟩ := h
  exact ⟨hcfg, (hfill.1 (.inl hp)).2, (hfill.1 (.inl hp)).1, hmem.2.1⟩

/-- The invariant of an open block asks of the block what `Filling` and the bound on RAWCNT say. -/
theorem BlockOnly.inv {s t : State} (hst : BlockOnly s t) (h : s.inv) (hp : s.phase = .opened) (ht : t.Filling)
    (hraw : t.rawOk) : t.inv := by
  obtain ⟨u, n, last, run, crc, raw, full, rfl⟩ := hst
  obtain ⟨⟨hdsLog, -, hmem⟩, hsink, hlog, hcfg, hseq, hcause, -, hseal, hrange, -⟩ := h
  have hlimit := limit_lt hcfg
  have hle : n.toNat + pendingCost run.toNat ≤ s.limit := ht.fill_le
  obtain ⟨-, -, hrange⟩ := hrange
  refine ⟨⟨hdsLog, ht.u_wf, hmem⟩, hsink, hlog, hcfg, hseq, hcause, ⟨fun _ => ⟨hle, ht.run_le⟩, fun hc => ?_⟩, hseal,
    ⟨Nat.le_of_lt_succ (hle.trans_lt hlimit), ht.run_le, hrange⟩, hraw⟩
  exact absurd (hp.symm.trans hc.1) Phase.noConfusion

theorem takeByte_rawOk {s : State} {x : Byte} (hs : s.Filling) (hraw : s.rawOk)
    (hfill : fillAfter s.regN.toNat (s.runStep x) ≤ s.limit) : (takeByte x (s.runStep x) s).rawOk := by
  have hraw : s.rawCnt.toNat ≤ 51 * s.regN.toNat + s.rlRun.toNat := hraw
  have hstep := runStep_raw (last := s.rlLast) (x := x) hs.run_le
  have hcnt : (takeByte x (s.runStep x) s).rawCnt.toNat = s.rawCnt.toNat + 1 := by
    have hlt := hs.regN_lt
    have hrun := hs.run_le
    rw [takeByte_eq]
    show (s.rawCnt + 1).toNat = s.rawCnt.toNat + 1
    rw [BitVec.toNat_add]
    exact Nat.mod_eq_of_lt (by show s.rawCnt.toNat + 1 < 2 ^ 32; omega)
  show _ ≤ _
  rw [hcnt, hs.toNat_rlRun_takeByte x, toNat_regN_takeByte x hs.config hfill]
  show s.rawCnt.toNat + 1 ≤ 51 * (s.regN.toNat + pendingCost (Machine.runStep s.rlLast s.rlRun.toNat x).written)
    + (Machine.runStep s.rlLast s.rlRun.toNat x).run
  omega

theorem absorb_inv {s : State} (h : s.inv) (hp : s.phase = .opened) (x : Byte) : (absorb x s).2.inv := by
  have hs := State.Filling.of_inv h hp
  have honly := absorb_blockOnly x s
  rcases absorb_cases x s with hx | ⟨hfill, hx⟩
  · rw [hx]
    exact h
  · rw [hx] at honly ⊢
    obtain ⟨-, -, -, -, -, -, -, -, -, hraw⟩ := id h
    exact honly.inv h hp (hs.takeByte hfill) (takeByte_rawOk hs hraw hfill)

theorem absorbAll_inv (xs : List Byte) {s : State} (h : s.inv) (hp : s.phase = .opened) : (absorbAll xs s).2.inv := by
  induction xs generalizing s with
  | nil => exact h
  | cons x xs ih =>
    have hx := absorb_inv h hp x
    have honly := absorb_blockOnly x s
    rcases hax : absorb x s with ⟨taken, s'⟩
    rw [hax] at hx honly
    cases taken with
    | false => rwa [absorbAll_cons_refused xs hax]
    | true =>
      rw [absorbAll_cons_taken xs hax]
      obtain ⟨u, n, last, run, crc, raw, full, rfl⟩ := honly
      exact ih hx hp

/-! ## Commands and fields -/

theorem clampLevel_range (b : U32) : 1 ≤ (clampLevel b).toNat ∧ (clampLevel b).toNat ≤ 9 := by
  rw [clampLevel, BitVec.toNat_ofNat]
  omega

theorem toNat_setWidth_iter {b : U32} (h : iterInRange b = true) : 1 ≤ (b.setWidth 8).toNat := by
  have hb := iterInRange_iff.mp h
  rw [BitVec.toNat_setWidth, Nat.mod_eq_of_lt (by omega)]
  exact hb.1

theorem restart_inv {s : State} (h : s.inv) : s.restart.inv := by
  obtain ⟨⟨-, -, -, -, -, -, -, -, -, -, -, -, hin⟩, -⟩ := h
  obtain ⟨⟨h1, h2, h3, h4, h5, h6, h7, h8, h9, h10, h11, h12, -⟩, hsink, -, hrest⟩ := invariantAtReset
  exact ⟨⟨h1, h2, h3, h4, h5, h6, h7, h8, h9, h10, h11, h12, hin⟩, hsink, Nat.zero_le _, hrest⟩

theorem clearLog_inv {s : State} (h : s.inv) : (clearLog s).inv := by
  obtain ⟨hmem, hsink, -, hcfg, hseq, hcause, hfill, -, hrest⟩ := h
  exact ⟨hmem, hsink, Nat.zero_le _, hcfg, hseq, hcause, hfill, fun _ _ => rfl, hrest⟩

/-- A fresh block is empty. -/
theorem openBlock_inv {s : State} (b : Bool) (h : s.inv) (hp : s.phase = .idle) : (openBlock b s).inv := by
  have hlog : s.logOk → (if b then 0 else s.dsLogLen) ≤ s.logCap := fun h => by
    split
    · exact Nat.zero_le _
    · exact h
  obtain ⟨hmem, hsink, hok, hcfg, hseq, hcause, -⟩ := h
  rw [openBlock_spec]
  have hstage : s.stage = 0 := (hseq.resolve_left fun hc => by simp [hp] at hc).2
  have hranges : State.reset.rangesOk := by decide
  refine ⟨hmem, hsink, hlog hok, hcfg, .inr ⟨Phase.noConfusion, hstage⟩, ?_, ⟨fun _ => ?_, fun hc => ?_⟩,
    fun hc => Phase.noConfusion hc, hranges, Nat.zero_le _⟩
  · exact hcause.imp_right fun hc => ⟨hc.1, hc.2.1, Phase.noConfusion⟩
  · exact ⟨Nat.zero_le _, Nat.zero_le _⟩
  · exact Phase.noConfusion hc.1

theorem bclose_inv {s : State} (h : s.inv) (hf : s.fatal = false) (hp : s.phase = .opened)
    (hs : (s.sinkSel && s.dsSealed) = false) : ({ s with phase := .closing, stage := 1#4 } : State).inv := by
  obtain ⟨hmem, hsink, hlog, hcfg, -, hcause, hfill, -, hrest⟩ := h
  have hone : 1 ≤ (1#4).toNat ∧ (1#4).toNat ≤ 8 := by decide
  refine ⟨hmem, hsink, hlog, hcfg, .inl ⟨rfl, hone.1, hone.2⟩, .inl ⟨hf, ?_⟩,
    ⟨fun _ => hfill.1 (.inl hp), fun hc => absurd rfl hc.2⟩, fun _ hsel => ?_, hrest⟩
  · exact (hcause.resolve_right fun hc => by simp [hf] at hc).2
  · exact (Bool.and_eq_false_iff.mp hs).resolve_left fun h => Bool.noConfusion (h.symm.trans hsel)

/-- Outside the stages every instruction keeps the invariant. -/
theorem exec_inv {i : Instr} {s t : State} (h : s.inv) (hp : s.phase ≠ .closing) (hi : ∀ st, encode i ≠ .stage st)
    (e : exec i s = .next t) : t.inv := by
  rcases exec_change e with hc | hc
  · cases hc with
    | rejected c => exact h
    | real _ hq ht => exact ht.inv (hq.inv h)
    | log _ _ hq ht => exact ht.inv (hq.inv h)
  · cases hc with
    | rejected | answered | streamCrc | crcrst | crcupd | crcfold => exact h
    | reset => exact inv_respond (restart_inv h) 0
    | level a b hp =>
      obtain ⟨hmem, hsink, hlog, hcfg, hseq, hcause, hfill, hrest⟩ := h
      refine ⟨hmem, hsink, hlog, ⟨(clampLevel_range b).1, (clampLevel_range b).2, hcfg.2.2⟩, hseq, hcause, ?_, hrest⟩
      constructor <;> intro hc <;> simp [hp] at hc
    | iter a b hp hb =>
      obtain ⟨hmem, hsink, hlog, hcfg, hrest⟩ := h
      exact ⟨hmem, hsink, hlog, ⟨hcfg.1, hcfg.2.1, toNat_setWidth_iter hb⟩, hrest⟩
    | setcrc v =>
      obtain ⟨hmem, hsink, hlog, hcfg, hseq, hcause, hfill, -, hrest⟩ := h
      exact ⟨hmem, hsink, hlog, hcfg, hseq, hcause, hfill, fun hc => absurd hc hp, hrest⟩
    | logclr => exact inv_respond (clearLog_inv h) 0
    | blkopen a hp => exact inv_respond (openBlock_inv _ h hp) 0
    | bwrite off len xs hp => exact inv_respond (absorbAll_inv xs h hp) _
    | bclose hf hp hs => exact bclose_inv h hf hp hs
    | closedEmpty | rleflush | crcfin | bwt | symmap | mtf | hsel | canon | emitted | emitFailed =>
      exact absurd rfl (hi _)

/-! ## The stages -/

theorem flushRun_inv {s : State} (h : s.inv) (hs : s.AtStage 1) : (flushRun s).rangesOk ∧ (flushRun s).rawOk
    ∧ (flushRun s).regN.toNat ≤ s.limit := by
  obtain ⟨-, -, -, hcfg, -, -, hfill, -, ⟨-, -, hrange⟩, hraw⟩ := h
  obtain ⟨hle, hrun⟩ := hfill.1 (.inr ⟨hs.phase, hs.stage⟩)
  have hlimit := limit_lt hcfg
  have hraw : s.rawCnt.toNat ≤ 51 * s.regN.toNat + s.rlRun.toNat := hraw
  have hn : (flushRun s).regN.toNat = s.regN.toNat + pendingCost s.rlRun.toNat := toNat_regN_flushRun (by omega)
  have hcost := le_mul_pendingCost (hrun.trans (by decide))
  obtain ⟨u, n, heq⟩ : ∃ u n, flushRun s = { s with u := u, regN := n, rlRun := 0 } := ⟨_, _, flushRun_eq s⟩
  rw [heq] at hn ⊢
  have hn : n.toNat = s.regN.toNat + pendingCost s.rlRun.toNat := hn
  refine ⟨⟨?_, Nat.zero_le _, hrange⟩, ?_, hn.trans_le hle⟩
  · show n.toNat + 0 ≤ 899999
    omega
  · show s.rawCnt.toNat ≤ 51 * n.toNat + 0
    omega

/-- Stage 1 keeps the invariant, whether the block is empty or not. -/
theorem exec_stRleflush_inv {s t : State} (h : s.inv) (hs : s.AtStage 1) (e : exec .stRleflush s = .next t) :
    t.inv := by
  obtain ⟨hrange, hraw, hlimit⟩ := flushRun_inv h hs
  obtain ⟨⟨hdsLog, hu, hmem⟩, hsink, hlog, hcfg, -, hcause, -, hseal, -⟩ := h
  have hfatal : s.fatal = false ∧ s.cause = 0 := hcause.resolve_right fun hc => hc.2.2 hs.phase
  have huf : Memory.wf (flushRun s).u = true := by
    rw [flushRun_eq]
    exact Memory.writeList_wf hu _ _
  have heq : flushRun s = { s with u := (flushRun s).u, regN := (flushRun s).regN, rlRun := 0 } := by
    conv_lhs => rw [flushRun_eq]
    rw [flushRun_eq]
    rfl
  by_cases hn : (flushRun s).regN = 0
  · rw [exec_stRleflush_empty hn] at e
    cases e
    rw [heq] at hrange hraw ⊢
    exact ⟨⟨hdsLog, huf, hmem⟩, hsink, hlog, hcfg, .inr ⟨Phase.noConfusion, rfl⟩, .inl hfatal,
      ⟨fun hc => by simp at hc, fun hc => by simp at hc⟩, fun hc => Phase.noConfusion hc, hrange, hraw⟩
  · rw [exec_stRleflush_nonempty hn] at e
    cases e
    have hpos : 1 ≤ (flushRun s).regN.toNat := Nat.pos_of_ne_zero fun h0 => hn (BitVec.eq_of_toNat_eq h0)
    have htwo : 1 ≤ (2#4).toNat ∧ (2#4).toNat ≤ 8 := by decide
    rw [heq] at hrange hraw ⊢
    exact ⟨⟨hdsLog, huf, hmem⟩, hsink, hlog, hcfg, .inl ⟨hs.phase, htwo⟩, .inl hfatal,
      ⟨fun hc => by simp [hs.phase] at hc, fun _ => ⟨hpos, hlimit, rfl⟩⟩, hseal, hrange, hraw⟩

theorem State.AtStage.stage_ne_one {s : State} {n : Nat} (hs : s.AtStage n) (h2 : 2 ≤ n) (h8 : n ≤ 8) :
    s.stage ≠ 1 := by
  intro h1
  have hsn : s.stage.toNat = n := by
    rw [hs.stage, BitVec.toNat_ofNat]
    omega
  rw [h1] at hsn
  exact absurd (hsn.symm ▸ h2) (by decide)

/-- The position and the fill of the next stage. -/
theorem seqOk_fillOk_of_stage {s t : State} {n : Nat} (h : s.inv) (hs : s.AtStage n) (h2 : 2 ≤ n) (h7 : n ≤ 7)
    (hp : t.phase = s.phase) (hst : t.stage = BitVec.ofNat 4 (n + 1)) (hn : t.regN = s.regN) (hl : t.level = s.level)
    (hr : t.rlRun = s.rlRun) : t.seqOk ∧ t.fillOk := by
  obtain ⟨-, -, -, -, -, -, hfill, -⟩ := h
  have htn : t.stage.toNat = n + 1 := by
    rw [hst, BitVec.toNat_ofNat]
    omega
  have hs1 := hs.stage_ne_one h2 (h7.trans (by decide))
  have hfill2 := hfill.2 ⟨hs.phase, hs1⟩
  have hlimit : t.limit = s.limit := by rw [State.limit, hl, ← State.limit]
  rw [← hn, ← hr, ← hlimit] at hfill2
  refine ⟨.inl ⟨hp.trans hs.phase, by omega, by omega⟩, fun hc => ?_, fun _ => hfill2⟩
  rcases hc with hc | ⟨-, hc⟩
  · rw [hp, hs.phase] at hc
    cases hc
  · rw [hc] at htn
    exact absurd htn (by simp; omega)

/-- No stage starts on an empty block, but the first. -/
theorem regN_bounds_of_stage {s : State} {n : Nat} (h : s.inv) (hs : s.AtStage n) (h2 : 2 ≤ n) (h8 : n ≤ 8) :
    1 ≤ s.regN.toNat ∧ s.regN.toNat ≤ 899999 := by
  obtain ⟨-, -, -, hcfg, -, -, hfill, -⟩ := h
  have hs1 := hs.stage_ne_one h2 h8
  have hlimit := limit_lt hcfg
  obtain ⟨hpos, hle, -⟩ := hfill.2 ⟨hs.phase, hs1⟩
  exact ⟨hpos, by omega⟩

theorem writeRows_wf {w : Nat} {m : Memory w} (h : Memory.wf m = true) (t : Nat) (rows : List (List Nat)) :
    Memory.wf (writeRows m t rows) = true := by
  induction rows generalizing m t with
  | nil => exact h
  | cons row rows ih => exact ih (Memory.writeList_wf h _ _) (t + 1)

/-- A byte makes at most one symbol, whatever the list (44_symmap_mtf.md R257). -/
theorem length_mtfSymbols_le (l : List Byte) (zrun : Nat) (xs : List Byte) :
    (mtfSymbols l zrun xs).1.length ≤ zrun + xs.length := by
  induction xs generalizing l zrun with
  | nil => exact length_putRun_le zrun
  | cons x xs ih =>
    rw [mtfSymbols, List.length_cons]
    rcases mtfStep l x with ⟨m, l'⟩
    cases m with
    | zero =>
      have := ih l' (zrun + 1)
      show (mtfSymbols l' (zrun + 1) xs).1.length ≤ _
      omega
    | succ m =>
      have := ih l' 0
      have := length_putRun_le zrun
      show (putRun zrun ++ (m + 2) :: (mtfSymbols l' 0 xs).1).length ≤ _
      rw [List.length_append, List.length_cons]
      omega

theorem two_le_numTables (n : Nat) : 2 ≤ numTables n := by
  unfold numTables
  split_ifs <;> decide

theorem length_lcolList (s : State) : s.lcolList.length = s.regN.toNat := Memory.length_slice ..

theorem toNat_ofNat_le {w x m : Nat} (h : x ≤ m) : (BitVec.ofNat w x).toNat ≤ m := by
  rw [BitVec.toNat_ofNat]
  exact (Nat.mod_le _ _).trans h

/-- Stage 4 stores marks and their number (44_symmap_mtf.md R250). -/
theorem exec_stSymmap_stores {s t : State} (e : exec .stSymmap s = .next t) :
    ∃ (marks : List (BitVec 1)) (k : BitVec 9), k.toNat ≤ 256
      ∧ t = { s with inUse := Memory.writeList s.inUse 0 marks, regK := k, stage := 5#4 } := by
  have hcount : usedCount (usedMap s.uList) ≤ (usedMap s.uList).length := List.count_le_length
  rw [length_usedMap] at hcount
  exact ⟨usedMap s.uList, _, toNat_ofNat_le hcount, (Host.Outcome.next.inj e).symm⟩

/-- Stages 2 to 7 keep the invariant: they store results within their ranges. -/
theorem exec_middleStage_inv {s t : State} {n : Nat} {i : Instr} (h : s.inv) (hs : s.AtStage n) (h2 : 2 ≤ n)
    (h7 : n ≤ 7) (hi : decodeStage (BitVec.ofNat 4 n) = some i) (e : exec i s = .next t) : t.inv := by
  have hnext := seqOk_fillOk_of_stage (t := t) h hs h2 h7
  obtain ⟨hpos, hle⟩ := regN_bounds_of_stage h hs h2 (h7.trans (by decide))
  obtain ⟨⟨wlog, wu, wp, wl, wi, wm, wsym, wsel, wf, wlen, wcode, wcost, win⟩, hsink, hlog, hcfg, -, hcause, -, hseal,
    ⟨hn, hrun, horig, hk, hS, hT, hT1, hG, hz⟩, hraw⟩ := h
  interval_cases n <;> cases hi
  · -- Stage 2.
    cases e
    obtain ⟨hseq, hfill⟩ := hnext rfl rfl rfl rfl rfl
    exact ⟨⟨wlog, wu, wp, wl, wi, wm, wsym, wsel, wf, wlen, wcode, wcost, win⟩, hsink, hlog, hcfg, hseq, hcause, hfill,
      hseal, ⟨hn, hrun, horig, hk, hS, hT, hT1, hG, hz⟩, hraw⟩
  · -- Stage 3.
    cases e
    obtain ⟨hseq, hfill⟩ := hnext rfl rfl rfl rfl rfl
    have hrow : originRow s.uList < s.regN.toNat := length_uList s ▸ originRow_lt (by rw [length_uList]; exact hpos)
    have horig : (BitVec.ofNat 24 (originRow s.uList)).toNat ≤ 899998 := by
      rw [BitVec.toNat_ofNat, Nat.mod_eq_of_lt (by omega)]
      omega
    exact ⟨⟨wlog, wu, Memory.writeList_wf wp _ _, Memory.writeList_wf wl _ _, wi, wm, wsym, wsel, wf, wlen, wcode,
      wcost, win⟩, hsink, hlog, hcfg, hseq, hcause, hfill, hseal, ⟨hn, hrun, horig, hk, hS, hT, hT1, hG, hz⟩, hraw⟩
  · -- Stage 4.
    obtain ⟨marks, k, hk, rfl⟩ := exec_stSymmap_stores e
    obtain ⟨hseq, hfill⟩ := hnext rfl rfl rfl rfl rfl
    exact ⟨⟨wlog, wu, wp, wl, Memory.writeList_wf wi _ _, wm, wsym, wsel, wf, wlen, wcode, wcost, win⟩, hsink, hlog,
      hcfg, hseq, hcause, hfill, hseal, ⟨hn, hrun, horig, hk, hS, hT, hT1, hG, hz⟩, hraw⟩
  · -- Stage 5.
    cases e
    obtain ⟨hseq, hfill⟩ := hnext rfl rfl rfl rfl rfl
    have hS : (BitVec.ofNat 20 (symbolStream (initialList s.inUseList) s.regK.toNat s.lcolList).length).toNat
        ≤ 900000 := by
      have hlen := length_mtfSymbols_le (initialList s.inUseList) 0 s.lcolList
      rw [length_lcolList] at hlen
      refine toNat_ofNat_le ?_
      rw [symbolStream, List.length_append, List.length_singleton]
      omega
    exact ⟨⟨wlog, wu, wp, wl, wi, Memory.writeList_wf wm _ _, Memory.writeList_wf wsym _ _, wsel, wf, wlen, wcode,
      wcost, win⟩, hsink, hlog, hcfg, hseq, hcause, hfill, hseal, ⟨hn, hrun, horig, hk, hS, hT, hT1, hG, rfl⟩, hraw⟩
  · -- Stage 6.
    rw [exec_stHsel] at e
    cases e
    obtain ⟨hseq, hfill⟩ := hnext rfl rfl rfl rfl rfl
    have hregT := toNat_regT_selected s
    have hT : s.selected.regT.toNat ≤ 6 := hregT ▸ numTables_le_six _
    have hT1 : s.selected.regT.toNat ≠ 1 := hregT ▸ (Nat.lt_of_lt_of_le Nat.one_lt_two (two_le_numTables _)).ne'
    have hG : s.selected.regG.toNat ≤ 18000 := by
      rw [toNat_regG_selected, numGroups_eq]
      omega
    exact ⟨⟨wlog, wu, wp, wl, wi, wm, wsym, Memory.writeList_wf wsel _ _, writeRows_wf wf _ _, writeRows_wf wlen _ _,
      wcode, Memory.writeList_wf wcost _ _, win⟩, hsink, hlog, hcfg, hseq, hcause, hfill, hseal,
      ⟨hn, hrun, horig, hk, hS, hT, hT1, hG, hz⟩, hraw⟩
  · -- Stage 7.
    cases e
    obtain ⟨hseq, hfill⟩ := hnext rfl rfl rfl rfl rfl
    exact ⟨⟨wlog, wu, wp, wl, wi, wm, wsym, wsel, wf, wlen, writeRows_wf wcode _ _, wcost, win⟩, hsink, hlog, hcfg,
      hseq, hcause, hfill, hseal, ⟨hn, hrun, horig, hk, hS, hT, hT1, hG, hz⟩, hraw⟩

/-- The end actions leave CLOSING. -/
theorem endClose_inv {s : State} (h : s.inv) (hp : s.phase = .closing) : (endClose s).inv := by
  obtain ⟨hmem, hsink, hlog, hcfg, -, hcause, -, -, hrange, hraw⟩ := h
  have hfatal : s.fatal = false ∧ s.cause = 0 := hcause.resolve_right fun hc => hc.2.2 hp
  exact ⟨hmem, hsink, hlog, hcfg, .inr ⟨Phase.noConfusion, rfl⟩, .inl hfatal,
    ⟨fun hc => by simp [endClose] at hc, fun hc => by simp [endClose] at hc⟩, fun hc => Phase.noConfusion hc,
    hrange, hraw⟩

theorem exec_stEmit_inv {s t : State} (h : s.inv) (hs : s.AtStage 8) (e : exec .stEmit s = .next t) : t.inv := by
  have hinv := runBound_inv (blockOps s) h
  have hgrew := runBound_sinksGrew (blockOps s) s
  cases hrun : runBound (blockOps s) s with
  | done q =>
    rw [hrun] at hinv hgrew
    rw [exec_stEmit_of_done hrun] at e
    cases e
    obtain ⟨cnt, pend, out, errs, log, n, rfl, -⟩ := hgrew
    exact inv_respond (endClose_inv hinv hs.phase) _
  | failed c q =>
    rw [hrun] at hinv
    rw [exec, execStEmit, hrun] at e
    cases e
    exact inv_takeFatal hinv c

theorem atStage_of_seqOk {s : State} (h : s.seqOk) (hp : s.phase = .closing) :
    ∃ n, 1 ≤ n ∧ n ≤ 8 ∧ s.AtStage n := by
  obtain ⟨-, h1, h8⟩ := h.resolve_right fun hc => hc.1 hp
  exact ⟨s.stage.toNat, h1, h8, hp, by rw [BitVec.ofNat_toNat, BitVec.setWidth_eq]⟩

/-! ## Every step -/

theorem step_closing_inv {s t : State} (h : s.inv) (hp : s.phase = .closing) (e : step s = .next t) : t.inv := by
  obtain ⟨-, -, -, -, hseq, -⟩ := id h
  obtain ⟨n, h1, h8, hs⟩ := atStage_of_seqOk hseq hp
  obtain ⟨i, hi, e⟩ := step_of_closing hp e
  rw [hs.stage] at hi
  rcases Nat.lt_or_ge 1 n with h2 | hone
  · rcases Nat.lt_or_ge n 8 with h7 | height
    · exact exec_middleStage_inv h hs h2 (Nat.le_of_lt_succ h7) hi e
    · obtain rfl := le_antisymm h8 height
      cases hi
      exact exec_stEmit_inv h hs e
  · obtain rfl := le_antisymm hone h1
    cases hi
    exact exec_stRleflush_inv h hs e

theorem step_open_inv {s t : State} (h : s.inv) (hp : s.phase ≠ .closing) (e : step s = .next t) : t.inv := by
  cases openStep_of_step hp e with
  | wait => exact h
  | supplied off bytes rest =>
    obtain ⟨⟨h1, h2, h3, h4, h5, h6, h7, h8, h9, h10, h11, h12, hin⟩, hrest⟩ := h
    exact ⟨⟨h1, h2, h3, h4, h5, h6, h7, h8, h9, h10, h11, h12, Memory.writeList_wf hin _ _⟩, hrest⟩
  | bad rest c => exact h
  | ran rest hi e => exact exec_inv (s := s.taken rest) h hp hi e

theorem step_inv {s t : State} (h : s.inv) (e : step s = .next t) : t.inv := by
  by_cases hp : s.phase = .closing
  · exact step_closing_inv h hp e
  · exact step_open_inv h hp e

/-- Settles O54. -/
theorem stepKeepsTheInvariant : Obligations.StepKeepsTheInvariant := by
  refine ⟨fun s t h e => step_inv h e, fun s h => ?_⟩
  obtain ⟨-, -, -, -, -, -, -, -, hrange, hraw⟩ := h
  exact rawCnt_bounds hrange hraw

end Sys2Proof.Machine
end

section
/-! PROOF. The closing as a whole (46_closeblock_emit.md R330 to R333): what each stage leaves, said through what the later
ones read, and that stage 8 finds legal writes to make. -/

namespace Sys2Proof.Machine

/-! ## What each stage leaves -/

/-- Stage 1 on a block that is not empty: the pending run is in U. -/
structure State.Flushed (s t : State) : Prop where
  step : step s = .next t
  frame : t = { s with u := t.u, regN := t.regN, rlRun := 0, stage := 2#4 }
  regN : t.regN = s.regN + BitVec.ofNat 20 (pendingCost s.rlRun.toNat)
  uList : t.uList = s.uList ++ runSymbols s.rlLast s.rlRun.toNat

/-- Stage 2: BLOCK_CRC. -/
structure State.Summed (s t : State) : Prop where
  step : step s = .next t
  frame : t = { s with blockCrc := s.crcAcc ^^^ 0xFFFFFFFF#32, stage := 3#4 }

/-- Stage 3: LCOL and ORIG_PTR are functions of U. -/
structure State.Sorted (s t : State) : Prop where
  step : step s = .next t
  frame : t = { s with p := t.p, lcol := t.lcol, origPtr := t.origPtr, stage := 4#4 }
  origPtr : t.origPtr = BitVec.ofNat 24 (originRow s.uList)
  lcolList : t.lcolList = lastColumn s.uList

/-- Stage 4: INUSE and K are functions of U. -/
structure State.Mapped (s t : State) : Prop where
  step : step s = .next t
  frame : t = { s with inUse := t.inUse, regK := t.regK, stage := 5#4 }
  inUseList : t.inUseList = usedMap s.uList
  regK : t.regK = BitVec.ofNat 9 (usedCount (usedMap s.uList))

/-- SYM as stage 5 writes it. -/
def State.codedSymbols (s : State) : List Nat := symbolStream (initialList s.inUseList) s.regK.toNat s.lcolList

/-- Stage 5: SYM and S are functions of INUSE, K and LCOL. -/
structure State.Coded (s t : State) : Prop where
  step : step s = .next t
  frame : t = { s with mtfList := t.mtfList, sym := t.sym, regS := t.regS, zRun := 0, stage := 6#4 }
  symList : t.symList = (s.codedSymbols.map (BitVec.ofNat 9)).map BitVec.toNat
  regS : t.regS = BitVec.ofNat 20 s.codedSymbols.length

/-- Stage 6: SEL and LEN are what the rounds leave, T and G functions of S. -/
structure State.Tabled (s t : State) : Prop where
  step : step s = .next t
  frame : t = { s with
    regT := t.regT, regG := t.regG, sel := t.sel, freq := t.freq, len := t.len, cost := t.cost, stage := 7#4 }
  regT : t.regT = BitVec.ofNat 3 (numTables s.regS.toNat)
  regG : t.regG = BitVec.ofNat 15 (numGroups s.regS.toNat)
  selList : t.selList = s.rounds.sels
  lenRow : ∀ i, i < numTables s.regS.toNat → t.lenRow i = s.rounds.lens.getD i []

/-- Stage 7: CODE is a function of LEN. -/
structure State.Numbered (s t : State) : Prop where
  step : step s = .next t
  frame : t = { s with code := t.code, stage := 8#4 }
  codeAt : ∀ i v, i < s.regT.toNat → v < s.regK.toNat + 2 → t.codeAt i v = canonicalCode (s.lenRow i) v % 2 ^ 17

theorem exists_flushed {s : State} (h : s.inv) (hs : s.AtStage 1) (hn : (flushRun s).regN ≠ 0) :
    ∃ t, s.Flushed t := by
  obtain ⟨⟨-, hu, -⟩, -, -, -, -, -, -, -, ⟨hle, -⟩, -⟩ := h
  have heq := flushRun_eq s
  refine ⟨{ flushRun s with stage := 2#4 }, (step_at_stage hs rfl).trans (exec_stRleflush_nonempty hn), ?_, ?_, ?_⟩
  · rw [heq]
    rfl
  · rw [heq]
    rfl
  · exact uList_flushRun hu (by omega)

theorem exists_summed {s : State} (hs : s.AtStage 2) : ∃ t, s.Summed t := ⟨_, step_at_stage hs rfl, rfl⟩

theorem exists_sorted {s : State} (h : s.inv) (hs : s.AtStage 3) : ∃ t, s.Sorted t := by
  obtain ⟨⟨-, -, -, hwf, -⟩, -⟩ := h
  have hlen : (lastColumn s.uList).length = s.regN.toNat := by
    rw [lastColumn, List.length_map, length_rotationOrder, length_uList]
  have hslice := Memory.slice_writeList hwf 0 (lastColumn s.uList)
  rw [hlen] at hslice
  exact ⟨_, step_at_stage hs rfl, rfl, rfl, hslice⟩

theorem exists_mapped {s : State} (h : s.inv) (hs : s.AtStage 4) : ∃ t, s.Mapped t := by
  obtain ⟨⟨-, -, -, -, hwf, -⟩, -⟩ := h
  have hstep : step s = execStSymmap s := step_at_stage hs rfl
  have hlen := length_usedMap s.uList
  unfold execStSymmap at hstep
  -- Kept closed, the map is not evaluated.
  generalize hm : usedMap s.uList = marks at hstep hlen
  have hslice := Memory.slice_writeList hwf 0 marks
  rw [hlen] at hslice
  exact ⟨_, hstep, rfl, hslice.trans hm.symm, by rw [hm]⟩

/-- The number of symbols stage 5 makes (44_symmap_mtf.md R257). -/
theorem length_codedSymbols_le (s : State) : s.codedSymbols.length ≤ s.regN.toNat + 1 := by
  have hlen := length_mtfSymbols_le (initialList s.inUseList) 0 s.lcolList
  rw [length_lcolList] at hlen
  rw [State.codedSymbols, symbolStream, List.length_append, List.length_singleton]
  omega

theorem exists_coded {s : State} (h : s.inv) (hs : s.AtStage 5) : ∃ t, s.Coded t := by
  obtain ⟨⟨-, -, -, -, -, -, hwf, -⟩, -, -, -, -, -, -, -, ⟨hle, -⟩, -⟩ := h
  have hlen : (BitVec.ofNat 20 s.codedSymbols.length).toNat = (s.codedSymbols.map (BitVec.ofNat 9)).length := by
    have := length_codedSymbols_le s
    rw [BitVec.toNat_ofNat, List.length_map]
    omega
  have hslice := Memory.slice_writeList hwf 0 (s.codedSymbols.map (BitVec.ofNat 9))
  rw [← hlen] at hslice
  exact ⟨_, step_at_stage hs rfl, rfl, congrArg (List.map BitVec.toNat) hslice, rfl⟩

theorem exists_tabled {s : State} (h : s.inv) (hs : s.AtStage 6) : ∃ t, s.Tabled t := by
  obtain ⟨⟨-, -, -, -, -, -, -, wsel, -, wlen, -⟩, -, -, hcfg, -, -, -, -, ⟨-, -, -, hK, -⟩, -⟩ := h
  have hfit := State.rounds_fits hcfg.2.2 hK
  refine ⟨s.selected, (step_at_stage hs rfl).trans (exec_stHsel s), rfl, rfl, rfl, selList_selected hfit wsel,
    fun i hi => ?_⟩
  exact slice_writeRows_toNat wlen (Nat.add_le_add_right hK 2) hfit.length_len hfit.len_lt (by rwa [hfit.length_lens])

theorem exists_numbered {s : State} (h : s.inv) (hs : s.AtStage 7) : ∃ t, s.Numbered t := by
  obtain ⟨⟨-, -, -, -, -, -, -, -, -, -, hwf, -⟩, -, -, -, -, -, -, -, ⟨-, -, -, hK, -⟩, -⟩ := h
  obtain ⟨t, ht, hframe, hcode, -⟩ := canonStageNumbersTheCodes s hK hwf
  exact ⟨t, (step_at_stage hs rfl).trans ht, hframe, hcode⟩

/-! ## What stage 8 finds (R333) -/

/-- The preconditions of stage 8. -/
structure State.EmitReady (t : State) : Prop where
  origPtr_lt : t.origPtr.toNat < t.regN.toNat
  one_le_regK : 1 ≤ t.regK.toNat
  regK_le : t.regK.toNat ≤ 256
  two_le_regS : 2 ≤ t.regS.toNat
  regS_le : t.regS.toNat ≤ t.regN.toNat + 1
  two_le_regT : 2 ≤ t.regT.toNat
  regT_le : t.regT.toNat ≤ 6
  regG : t.regG.toNat = (t.regS.toNat + 49) / 50
  sel_lt : ∀ g ∈ t.selList, g < t.regT.toNat
  sym_lt : ∀ y ∈ t.symList, y < t.regK.toNat + 2
  len_bounds : ∀ i v, i < t.regT.toNat → v < t.regK.toNat + 2 → 1 ≤ t.lenAt i v ∧ t.lenAt i v ≤ 17
  code_lt : ∀ i v, i < t.regT.toNat → v < t.regK.toNat + 2 → t.codeAt i v < 2 ^ t.lenAt i v

section
variable {a b c d e t : State}

theorem State.Sorted.inv (h : a.Sorted b) (ha : a.inv) : b.inv := step_inv ha h.step
theorem State.Mapped.inv (h : a.Mapped b) (ha : a.inv) : b.inv := step_inv ha h.step
theorem State.Coded.inv (h : a.Coded b) (ha : a.inv) : b.inv := step_inv ha h.step
theorem State.Tabled.inv (h : a.Tabled b) (ha : a.inv) : b.inv := step_inv ha h.step

theorem State.Flushed.atStage (h : a.Flushed b) (ha : a.AtStage 1) : b.AtStage 2 :=
  ⟨(congrArg State.phase h.frame).trans ha.phase, congrArg State.stage h.frame⟩
theorem State.Summed.atStage (h : a.Summed b) (ha : a.AtStage 2) : b.AtStage 3 :=
  ⟨(congrArg State.phase h.frame).trans ha.phase, congrArg State.stage h.frame⟩
theorem State.Sorted.atStage (h : a.Sorted b) (ha : a.AtStage 3) : b.AtStage 4 :=
  ⟨(congrArg State.phase h.frame).trans ha.phase, congrArg State.stage h.frame⟩
theorem State.Mapped.atStage (h : a.Mapped b) (ha : a.AtStage 4) : b.AtStage 5 :=
  ⟨(congrArg State.phase h.frame).trans ha.phase, congrArg State.stage h.frame⟩
theorem State.Coded.atStage (h : a.Coded b) (ha : a.AtStage 5) : b.AtStage 6 :=
  ⟨(congrArg State.phase h.frame).trans ha.phase, congrArg State.stage h.frame⟩
theorem State.Tabled.atStage (h : a.Tabled b) (ha : a.AtStage 6) : b.AtStage 7 :=
  ⟨(congrArg State.phase h.frame).trans ha.phase, congrArg State.stage h.frame⟩
theorem State.Numbered.atStage (h : a.Numbered b) (ha : a.AtStage 7) : b.AtStage 8 :=
  ⟨(congrArg State.phase h.frame).trans ha.phase, congrArg State.stage h.frame⟩

/-- The row of offset 0 is a row. -/
theorem State.Sorted.origPtr_lt (h : a.Sorted b) (ha : a.inv) (hs : a.AtStage 3) :
    b.origPtr.toNat < b.regN.toNat := by
  obtain ⟨hpos, hle⟩ := regN_bounds_of_stage ha hs (by decide) (by decide)
  have hrow : originRow a.uList < a.regN.toNat := length_uList a ▸ originRow_lt (by rwa [length_uList])
  have hN : b.regN = a.regN := (congrArg State.regN h.frame).trans rfl
  rw [h.origPtr, hN]
  exact (toNat_ofNat_le le_rfl).trans_lt hrow

/-- LCOL holds symbols of U only. -/
theorem mem_of_mem_lastColumn {u : List Byte} {x : Byte} (hx : x ∈ lastColumn u) : x ∈ u := by
  obtain ⟨a, ha, rfl⟩ := List.mem_map.mp hx
  have hpos : 0 < u.length := (Nat.zero_le a).trans_lt (mem_rotationOrder.mp ha)
  have hlt := Nat.mod_lt (a + u.length - 1) hpos
  rw [lastSymbol, List.getD_eq_getElem _ _ hlt]
  exact List.getElem_mem hlt

/-- A byte is marked iff U contains it, and K counts the marks. -/
theorem State.Mapped.marks (h : b.Mapped c) (hb : b.inv) (hs : b.AtStage 4) :
    (∀ x : Byte, c.used x.toNat = true ↔ x ∈ b.uList)
      ∧ c.regK.toNat = ((List.range 256).filter c.used).length := by
  obtain ⟨⟨-, -, -, -, hwf, -⟩, -⟩ := hb
  obtain ⟨t, ht, -, hused, hK, -⟩ := symmapStageMarksTheSymbols b hwf
  obtain rfl : c = t := Host.Outcome.next.inj (h.step.symm.trans ((step_at_stage hs rfl).trans ht))
  refine ⟨fun x => ?_, hK⟩
  rw [hused _ x.isLt, ← contains_uList_iff x.isLt, List.contains_iff_mem, BitVec.ofNat_toNat, BitVec.setWidth_eq]

/-- Stage 5 finds every symbol of LCOL marked. -/
theorem State.Sorted.lcol_used (h : a.Sorted b) (hm : b.Mapped c) (hb : b.inv) (hs : b.AtStage 4) :
    ∀ x ∈ c.lcolList, c.used x.toNat = true := by
  have hcol : c.lcolList = lastColumn a.uList := (congrArg State.lcolList hm.frame).trans h.lcolList
  have hu : b.uList = a.uList := (congrArg State.uList h.frame).trans rfl
  intro x hx
  rw [hcol] at hx
  exact ((hm.marks hb hs).1 x).mpr (hu ▸ mem_of_mem_lastColumn hx)

theorem State.Mapped.one_le_regK (h : b.Mapped c) (hb : b.inv) (hs : b.AtStage 4) : 1 ≤ c.regK.toNat := by
  obtain ⟨hpos, -⟩ := regN_bounds_of_stage hb hs (by decide) (by decide)
  obtain ⟨x, hx⟩ := List.exists_mem_of_length_pos (l := b.uList) (by rwa [length_uList])
  obtain ⟨hused, hK⟩ := h.marks hb hs
  rw [hK]
  exact List.length_pos_of_mem (List.mem_filter.mpr ⟨List.mem_range.mpr x.isLt, (hused x).mpr hx⟩)

/-- The symbols stage 5 writes: 2 to N + 1 of them, EOB the largest. -/
theorem State.Coded.symbols (h : c.Coded d) (hc : c.inv) (hs : c.AtStage 5)
    (hK : c.regK.toNat = ((List.range 256).filter c.used).length) (hcol : ∀ x ∈ c.lcolList, c.used x.toNat = true) :
    2 ≤ d.regS.toNat ∧ d.regS.toNat ≤ c.regN.toNat + 1 ∧ ∀ y ∈ d.symList, y < c.regK.toNat + 2 := by
  obtain ⟨hpos, hle⟩ := regN_bounds_of_stage hc hs (by decide) (by decide)
  obtain ⟨⟨-, -, -, -, -, wmtf, wsym, -⟩, -⟩ := hc
  obtain ⟨t, ht, -, -, h2, hS, hinit, hlast, -⟩ := mtfStageReadsBackAsLcol.2 c hpos hle wsym wmtf hK hcol
  obtain rfl : d = t := Host.Outcome.next.inj (h.step.symm.trans ((step_at_stage hs rfl).trans ht))
  refine ⟨h2, hS, fun y hy => ?_⟩
  obtain ⟨init, hsplit⟩ := List.getLast?_eq_some_iff.mp hlast
  rw [hsplit, List.dropLast_concat] at hinit
  rw [hsplit] at hy
  rcases List.mem_append.mp hy with hy | hy
  · have := hinit y hy
    omega
  · rw [List.mem_singleton.mp hy]
    omega

/-- Every row the rounds leave meets the contract of the code lengths (45_huffman.md R290). -/
theorem legal_of_mem_rounds_lens {s : State} (hiter : 1 ≤ s.iter.toNat) (hK1 : 1 ≤ s.regK.toNat)
    (hK : s.regK.toNat ≤ 256) (hS : s.regS.toNat ≤ 900000) {row : List Nat} (hrow : row ∈ s.rounds.lens) :
    row.length = s.regK.toNat + 2 ∧ (∀ l ∈ row, 1 ≤ l ∧ l ≤ 17) ∧ kraftSum 17 row ≤ 2 ^ 17 := by
  obtain ⟨tables, -, hr⟩ := iterate_refine_eq (huff := codeLengths s.huffTable) (a := s.regK.toNat + 2)
    (groups := symbolGroups s.symList) hiter (initialRound (s.regK.toNat + 2) s.symList)
  rw [State.rounds, hr] at hrow
  obtain ⟨f, hf, rfl⟩ := mem_refine_lens hrow
  have hlen := length_of_mem_refine_freqs hf
  have hsum := sum_le_of_mem_refine_freqs hf
  rw [sum_length_symbolGroups, length_symList] at hsum
  have hlegal := lengthsLegal_codeLengths s.huffTable (f := f) (by omega) (by omega)
    fun x hx => (List.le_sum_of_mem hx).trans (hsum.trans hS)
  rw [← hlen]
  exact (lengthsLegal_iff _ _).mp hlegal

theorem lenAt_eq_getD (s : State) {i v : Nat} (hv : v < s.regK.toNat + 2) : s.lenAt i v = (s.lenRow i).getD v 0 := by
  rw [List.getD_eq_getElem _ _ (by rwa [length_lenRow])]
  simp [State.lenRow, State.lenAt, Memory.getElem_slice, tableIndex]

theorem State.Tabled.row_legal (h : d.Tabled e) (hd : d.inv) (hK1 : 1 ≤ d.regK.toNat) {i : Nat}
    (hi : i < e.regT.toNat) :
    (e.lenRow i).length = d.regK.toNat + 2 ∧ (∀ l ∈ e.lenRow i, 1 ≤ l ∧ l ≤ 17) ∧ kraftSum 17 (e.lenRow i) ≤ 2 ^ 17 := by
  obtain ⟨-, -, -, hcfg, -, -, -, -, ⟨-, -, -, hK, hS, -⟩, -⟩ := hd
  have hT : i < numTables d.regS.toNat := hi.trans_le (h.regT ▸ toNat_ofNat_le le_rfl)
  have hfit := State.rounds_fits hcfg.2.2 hK
  rw [h.lenRow i hT]
  refine legal_of_mem_rounds_lens hcfg.2.2 hK1 hK hS ?_
  rw [List.getD_eq_getElem _ _ (hfit.length_lens.symm ▸ hT)]
  exact List.getElem_mem _

end

/-- The stages 2 to 7, from `s` to `t`, with the states between. -/
structure State.Prepared (s a b c d e t : State) : Prop where
  summed : s.Summed a
  sorted : a.Sorted b
  mapped : b.Mapped c
  coded : c.Coded d
  tabled : d.Tabled e
  numbered : e.Numbered t
  inv : a.inv ∧ b.inv ∧ c.inv ∧ d.inv ∧ e.inv ∧ t.inv
  stages : a.AtStage 3 ∧ b.AtStage 4 ∧ c.AtStage 5 ∧ d.AtStage 6 ∧ e.AtStage 7 ∧ t.AtStage 8

theorem exists_prepared {s : State} (h : s.inv) (hs : s.AtStage 2) : ∃ a b c d e t, s.Prepared a b c d e t := by
  obtain ⟨a, ha⟩ := exists_summed hs
  have ia := step_inv h ha.step
  have sa := ha.atStage hs
  obtain ⟨b, hb⟩ := exists_sorted ia sa
  have ib := step_inv ia hb.step
  have sb := hb.atStage sa
  obtain ⟨c, hc⟩ := exists_mapped ib sb
  have ic := step_inv ib hc.step
  have sc := hc.atStage sb
  obtain ⟨d, hd⟩ := exists_coded ic sc
  have id' := step_inv ic hd.step
  have sd := hd.atStage sc
  obtain ⟨e, he⟩ := exists_tabled id' sd
  have ie := step_inv id' he.step
  have se := he.atStage sd
  obtain ⟨t, ht⟩ := exists_numbered ie se
  exact ⟨a, b, c, d, e, t, ha, hb, hc, hd, he, ht, ⟨ia, ib, ic, id', ie, step_inv ie ht.step⟩,
    ⟨sa, sb, sc, sd, se, ht.atStage se⟩⟩

section
variable {s a b c d e t : State}

theorem State.Prepared.run (h : s.Prepared a b c d e t) (k : Nat) : core.run (k + 6) s = core.run k t :=
  calc core.run (k + 6) s
    _ = core.run (k + 5) a := run_succ h.summed.step _
    _ = core.run (k + 4) b := run_succ h.sorted.step _
    _ = core.run (k + 3) c := run_succ h.mapped.step _
    _ = core.run (k + 2) d := run_succ h.coded.step _
    _ = core.run (k + 1) e := run_succ h.tabled.step _
    _ = core.run k t := run_succ h.numbered.step _

/-- What the stages leave meets the preconditions of stage 8. -/
theorem State.Prepared.emitReady (h : s.Prepared a b c d e t) : t.EmitReady := by
  obtain ⟨-, hb, hc, hd, he, ht, ⟨ia, ib, ic, id', ie, -⟩, ⟨sa, sb, sc, sd, se, -⟩⟩ := h
  have hN : t.regN = c.regN := by rw [ht.frame, he.frame, hd.frame]
  have hNb : c.regN = b.regN := by rw [hc.frame]
  have horig : t.origPtr = b.origPtr := by rw [ht.frame, he.frame, hd.frame, hc.frame]
  have hK : t.regK = c.regK := by rw [ht.frame, he.frame, hd.frame]
  have hKe : e.regK = c.regK := by rw [he.frame, hd.frame]
  have hKd : d.regK = c.regK := by rw [hd.frame]
  have hS : t.regS = d.regS := by rw [ht.frame, he.frame]
  have hT : t.regT = e.regT := by rw [ht.frame]
  have hG : t.regG = e.regG := by rw [ht.frame]
  have hsel : t.selList = e.selList := by rw [ht.frame]; rfl
  have hsym : t.symList = d.symList := by rw [ht.frame, he.frame]; rfl
  have hlenAt : ∀ i v, t.lenAt i v = e.lenAt i v := fun i v => by rw [ht.frame]; rfl
  obtain ⟨-, hcount⟩ := hc.marks ib sb
  obtain ⟨h2S, hSle, hsymlt⟩ := hd.symbols ic sc hcount (hb.lcol_used hc ib sb)
  have hK1 := hc.one_le_regK ib sb
  have hrow := fun i (hi : i < e.regT.toNat) => he.row_legal id' (hKd ▸ hK1) hi
  obtain ⟨-, -, -, hcfg, -, -, -, -, ⟨-, -, -, hK256, -⟩, -⟩ := id'
  have hfit := State.rounds_fits hcfg.2.2 hK256
  have hregT : e.regT.toNat = numTables d.regS.toNat := by
    rw [he.regT]
    exact toNat_regT_selected d
  have hregG : e.regG.toNat = numGroups d.regS.toNat := by
    rw [he.regG]
    exact toNat_regG_selected d
  have hlen : ∀ i v, v < t.regK.toNat + 2 → t.lenAt i v = (e.lenRow i).getD v 0 := fun i v hv =>
    (hlenAt i v).trans (lenAt_eq_getD e (hKe.symm ▸ hK ▸ hv))
  exact {
    origPtr_lt := by
      rw [horig, hN, hNb]
      exact hb.origPtr_lt ia sa
    one_le_regK := hK ▸ hK1
    regK_le := by
      rw [hK, ← hKd]
      exact hK256
    two_le_regS := hS ▸ h2S
    regS_le := by
      rw [hS, hN]
      exact hSle
    two_le_regT := by
      rw [hT, hregT]
      exact two_le_numTables _
    regT_le := by
      rw [hT, hregT]
      exact numTables_le_six _
    regG := by rw [hG, hregG, hS, numGroups_eq]
    sel_lt := by
      rw [hsel, he.selList, hT, hregT]
      exact hfit.sels_lt
    sym_lt := by
      rw [hsym, hK]
      exact hsymlt
    len_bounds := fun i v hi hv => by
      obtain ⟨hlength, hbounds, -⟩ := hrow i (hT ▸ hi)
      have hv' : v < (e.lenRow i).length := by rwa [hlength, hKd, ← hK]
      rw [hlen i v hv, List.getD_eq_getElem _ _ hv']
      exact hbounds _ (List.getElem_mem hv')
    code_lt := fun i v hi hv => by
      obtain ⟨hlength, hbounds, hkraft⟩ := hrow i (hT ▸ hi)
      have hv' : v < (e.lenRow i).length := by rwa [hlength, hKd, ← hK]
      rw [hlen i v hv, ht.codeAt i v (hT ▸ hi) (hKe.symm ▸ hK ▸ hv)]
      exact (Nat.mod_le _ _).trans_lt (canonicalCode_lt_two_pow hbounds hkraft hv') }

end

end Sys2Proof.Machine
end

section
/-! PROOF. What stage 8 finds makes its writes legal (46_closeblock_emit.md R333, R340 to R349). -/

namespace Sys2Proof.Machine

/-! ## The writes of a block, field by field -/

theorem symbolMapOps_legal (s : State) : ∀ o ∈ symbolMapOps s.inUseList, o.legal = true := by
  have hmap : ∀ f : Nat → Bool, bitsInRange 16 (bitsToNat ((List.range 16).map f)) = true := fun f => by
    have hlt := bitsToNat_lt ((List.range 16).map f)
    rw [List.length_map, List.length_range] at hlt
    exact bitsInRange_of_lt (by decide) (by decide) hlt
  intro o ho
  rcases List.mem_append.mp ho with ho | ho
  · rw [List.mem_singleton.mp ho, bigMapOf_inUseList]
    exact hmap _
  · obtain ⟨g, hg, ho⟩ := List.mem_flatMap.mp ho
    rw [List.mem_singleton.mp ho, groupMapOf_inUseList s (List.mem_range.mp (List.mem_of_mem_filter hg))]
    exact hmap _

theorem selectorListOps_legal (n : Nat) (sels : List Nat) : ∀ o ∈ selectorListOps n sels, o.legal = true := by
  intro o ho
  obtain ⟨r, -, ho⟩ := List.mem_flatMap.mp ho
  rw [List.mem_singleton.mp ho]
  rfl

theorem lenDeltasOps_legal (c : Nat) (lens : List Nat) : ∀ o ∈ lenDeltasOps c lens, o.legal = true := by
  induction lens generalizing c with
  | nil => exact nofun
  | cons l ls ih => exact List.forall_mem_append.mpr ⟨lenDeltaOps_legal _ _, ih l⟩

theorem tablesOps_legal (s : State) : ∀ o ∈ tablesOps s, o.legal = true := by
  intro o ho
  obtain ⟨t, -, ho⟩ := List.mem_flatMap.mp ho
  refine List.forall_mem_append.mpr ⟨List.forall_mem_singleton.mpr ?_, lenDeltasOps_legal _ _⟩ o ho
  refine bitsInRange_of_lt (by decide) (by decide) ?_
  cases hrow : s.lenRow t with
  | nil => decide
  | cons l ls =>
    obtain ⟨x, -, rfl⟩ := List.mem_map.mp (hrow ▸ List.mem_cons_self : l ∈ s.lenRow t)
    exact x.isLt

section
variable {t : State} (h : t.EmitReady)
include h

/-- The table of every symbol is one of the block's. -/
theorem State.EmitReady.tableOf_lt (i : Nat) : t.selList.getD (i / Config.groupSize) 0 < t.regT.toNat := by
  have h2 := h.two_le_regT
  rcases Nat.lt_or_ge (i / Config.groupSize) t.selList.length with hi | hi
  · rw [List.getD_eq_getElem _ _ hi]
    exact h.sel_lt _ (List.getElem_mem hi)
  · rw [List.getD_eq_default _ _ hi]
    omega

theorem State.EmitReady.symbolStreamOps_legal : ∀ o ∈ symbolStreamOps t, o.legal = true := by
  intro o ho
  obtain ⟨⟨v, i⟩, hvi, ho⟩ := List.mem_flatMap.mp ho
  have hv := h.sym_lt v (List.fst_mem_of_mem_zipIdx hvi)
  obtain ⟨h1, h17⟩ := h.len_bounds _ v (h.tableOf_lt i) hv
  rw [List.mem_singleton.mp ho]
  exact bitsInRange_of_lt h1 (h17.trans (by decide)) (h.code_lt _ v (h.tableOf_lt i) hv)

/-- Every write of stage 8 is legal (R333). -/
theorem State.EmitReady.blockOps_legal : ∀ o ∈ blockOps t, o.legal = true := by
  have hmagic : ∀ o ∈ magicOps, o.legal = true := by decide
  have hcrc : ∀ o ∈ crcOps t.blockCrc.toNat, o.legal = true :=
    List.forall_mem_singleton.mpr (decide_eq_true t.blockCrc.isLt)
  have hrandom : ∀ o ∈ randomizedOps, o.legal = true := List.forall_mem_singleton.mpr rfl
  have hbits : ∀ {w : Nat} (x : BitVec w), 1 ≤ w → w ≤ 24 → ∀ o ∈ [SinkOp.bits w x.toNat], o.legal = true :=
    fun x h1 h24 => List.forall_mem_singleton.mpr (bitsInRange_of_lt h1 h24 x.isLt)
  simp only [blockOps, List.forall_mem_append]
  exact ⟨⟨⟨⟨⟨⟨⟨⟨⟨hmagic, hcrc⟩, hrandom⟩, hbits t.origPtr (by decide) (by decide)⟩, symbolMapOps_legal t⟩,
    hbits t.regT (by decide) (by decide)⟩, hbits t.regG (by decide) (by decide)⟩, selectorListOps_legal _ _⟩,
    tablesOps_legal t⟩, h.symbolStreamOps_legal⟩

end

/-! ## The way to stage 8 -/

/-- STAGE moves up by one step at a time. -/
theorem step_stage_le {s t : State} (h : s.inv) (e : step s = .next t) : t.stage.toNat ≤ s.stage.toNat + 1 := by
  obtain ⟨-, -, -, -, hseq, -⟩ := h
  by_cases hp : s.phase = .closing
  · obtain ⟨n, h1, h8, hs⟩ := atStage_of_seqOk hseq hp
    obtain ⟨q, hq, hnext⟩ := step_closing hs h1 h8
    obtain rfl : t = q := Host.Outcome.next.inj (e.symm.trans hq)
    have hn : s.stage.toNat = n := by
      rw [hs.stage]
      exact Nat.mod_eq_of_lt (by omega)
    rcases hnext with ⟨-, ht⟩ | ht
    · rw [ht.stage, hn]
      exact toNat_ofNat_le le_rfl
    · rw [ht.stage]
      exact Nat.zero_le _
  · cases openStep_of_step hp e with
    | wait => exact Nat.le_succ _
    | supplied off bytes rest => exact Nat.le_succ _
    | bad rest c => exact Nat.le_succ _
    | @ran rest i _ hi e =>
      rcases phaseMovesOnlyAsListed i (s.taken rest) t hi hp e with
        ⟨-, hst⟩ | ⟨-, -, hst⟩ | ⟨-, -, -, hst⟩ | ⟨-, -, -, hst⟩
      · rw [hst]
        exact Nat.le_succ _
      · rw [hst]
        exact Nat.zero_le _
      · rw [hst]
        exact Nat.le_succ _
      · rw [hst]
        exact Nat.le_add_left _ _

theorem run_succ_eq_next {s t : State} {k : Nat} (h : core.run (k + 1) s = .next t) :
    ∃ u, step s = .next u ∧ core.run k u = .next t := by
  cases e : step s with
  | next u => exact ⟨u, rfl, (run_succ e k).symm.trans h⟩
  | fault r => simp [Host.Core.run, Host.Check.core_step, e] at h
  | refused r => simp [Host.Core.run, Host.Check.core_step, e] at h

theorem run_stage_le {k : Nat} {s t : State} (h : s.inv) (e : core.run k s = .next t) :
    t.stage.toNat ≤ s.stage.toNat + k := by
  induction k generalizing s with
  | zero =>
    cases e
    exact le_rfl
  | succ k ih =>
    obtain ⟨u, hu, e⟩ := run_succ_eq_next e
    have hle := step_stage_le h hu
    have hrest := ih (step_inv h hu) e
    omega

/-- What stands at stage 8, seven steps after stage 1, meets the preconditions of stage 8. -/
theorem emitReady_of_run {s t : State} (h : s.inv) (hs : s.AtStage 1) (e : core.run 7 s = .next t)
    (ht : t.stage = 8#4) : t.EmitReady := by
  by_cases hn : (flushRun s).regN = 0
  · obtain ⟨u, hu, e⟩ := run_succ_eq_next e
    have hstep : step s = exec .stRleflush s := step_at_stage hs rfl
    rw [exec_stRleflush_empty hn] at hstep
    have hzero : u.stage = 0 := congrArg State.stage (Host.Outcome.next.inj (hu.symm.trans hstep))
    have hle := run_stage_le (step_inv h hu) e
    rw [ht, hzero] at hle
    exact absurd hle (by decide)
  · obtain ⟨s₂, hs₂⟩ := exists_flushed h hs hn
    obtain ⟨a, b, c, d, e', q, hprep⟩ := exists_prepared (step_inv h hs₂.step) (hs₂.atStage hs)
    rw [run_succ hs₂.step, hprep.run 0] at e
    obtain rfl := Host.Outcome.next.inj e
    exact hprep.emitReady

/-- Settles O50. -/
theorem stageEightIsLegal : Obligations.StageEightIsLegal := by
  intro s t hinv hp hs e _ ht
  have h := emitReady_of_run hinv ⟨hp, hs⟩ e ht
  exact ⟨h.origPtr_lt, h.one_le_regK, h.regK_le, h.two_le_regS, h.regS_le, h.two_le_regT, h.regT_le, h.regG, h.sel_lt,
    lt_of_mem_selectorRanks List.nodup_range (fun _ => List.mem_range.mp) h.sel_lt,
    fun i v hi hv => ⟨(h.len_bounds i v hi hv).1, (h.len_bounds i v hi hv).2, h.code_lt i v hi hv⟩, h.blockOps_legal⟩

end Sys2Proof.Machine
end

section
/-! PROOF. Old memory content does not matter (70_reset_and_hazards.md R412): two closings from states that differ in it
only run side by side, each stage storing the same function of what both hold. -/

namespace Sys2Proof.Machine

/-! ## States up to the content of the memories -/

/-- The state without the content of the block's memories. -/
def State.forget (s : State) : State :=
  { s with
    u := [], p := [], lcol := [], inUse := [], mtfList := [], sym := []
    sel := [], freq := [], len := [], code := [], cost := [], dsLog := [] }

/-- The registers agree, and so do U below N and the log. -/
structure State.Alike (s s' : State) : Prop where
  forget : s.forget = s'.forget
  uList : s.uList = s'.uList
  logList : s.logList = s'.logList

/-- What does not look at the memories agrees. -/
theorem reg_eq_of_forget_eq {α : Type} {s s' : State} (h : s.forget = s'.forget) (f : State → α)
    (hf : ∀ q : State, f q.forget = f q := by intro _; rfl) : f s = f s' :=
  (hf s).symm.trans ((congrArg f h).trans (hf s'))

/-- States that agree without their memories differ in the memories only. -/
theorem eq_of_forget_eq {s s' : State} (h : s.forget = s'.forget) :
    s' = { s with
      u := s'.u, p := s'.p, lcol := s'.lcol, inUse := s'.inUse, mtfList := s'.mtfList, sym := s'.sym
      sel := s'.sel, freq := s'.freq, len := s'.len, code := s'.code, cost := s'.cost, dsLog := s'.dsLog } :=
  congrArg (fun q : State => { q with
    u := s'.u, p := s'.p, lcol := s'.lcol, inUse := s'.inUse, mtfList := s'.mtfList, sym := s'.sym
    sel := s'.sel, freq := s'.freq, len := s'.len, code := s'.code, cost := s'.cost, dsLog := s'.dsLog }) h.symm

/-! ## Sink writes do not look at the memories -/

/-- The outcome without the content of the memories. -/
def Io.forget : Io → Io
  | .done s => .done s.forget
  | .failed c s => .failed c s.forget

theorem Io.state_forget (x : Io) : x.forget.state = x.state.forget := by cases x <;> rfl

/-- Up to the content of the memories, the outcome does not depend on it. -/
def Blind (f : State → Io) : Prop := ∀ s, (f s).forget = (f s.forget).forget

theorem Blind.done : Blind Io.done := fun _ => rfl

theorem Blind.congr {f : State → Io} (hf : Blind f) {s s' : State} (h : s.forget = s'.forget) :
    (f s).forget = (f s').forget := by rw [hf s, hf s', h]

theorem Blind.bind {f g : State → Io} (hf : Blind f) (hg : Blind g) : Blind fun s => (f s).bind g := by
  intro s
  have h := hf s
  show ((f s).bind g).forget = ((f s.forget).bind g).forget
  cases hs : f s <;> cases ht : f s.forget <;> rw [hs, ht] at h
  case done.done t t' => exact hg.congr (Io.done.inj h)
  case failed.failed => exact h
  all_goals exact Io.noConfusion h

theorem appendOut_blind (b : Byte) : Blind (appendOut b) := by
  intro s
  simp only [appendOut, State.forget]
  split <;> rfl

theorem appendAll_blind (bs : List Byte) : Blind (appendAll bs) := by
  induction bs with
  | nil => exact .done
  | cons b bs ih => exact (appendOut_blind b).bind ih

theorem rsBits_blind (w v : Nat) : Blind (rsBits w v) := fun s =>
  (appendAll_blind (wholeBytes (s.rsPend.toNat * 2 ^ w + v) (s.rsCnt.toNat + w))).bind
    (g := fun t => .done { t with
      rsPend := BitVec.ofNat 7 ((s.rsPend.toNat * 2 ^ w + v) % 2 ^ ((s.rsCnt.toNat + w) % 8))
      rsCnt := BitVec.ofNat 3 ((s.rsCnt.toNat + w) % 8) }) (fun _ => rfl) s

theorem rsOnes_blind (n : Nat) : Blind (rsOnes n) := by
  induction n with
  | zero => exact .done
  | succ n ih => exact (rsBits_blind 1 1).bind ih

theorem SinkOp.real_blind (o : SinkOp) : Blind o.real := by
  cases o with
  | bits w v => exact rsBits_blind w v
  | bool b => exact rsBits_blind 1 b
  | unary n => exact (rsOnes_blind n).bind (rsBits_blind 1 0)
  | u32 v => exact (rsBits_blind _ _).bind (rsBits_blind _ _)

theorem runReal_blind (ops : List SinkOp) : Blind (runReal ops) := by
  induction ops with
  | nil => exact .done
  | cons o ops ih => exact o.real_blind.bind ih

theorem logRecord_blind (r : BitVec 29) : Blind (logRecord r) := by
  intro s
  by_cases hfull : s.dsLogLen = s.logCap
  · rw [logRecord, logRecord, if_pos hfull, if_pos (show s.forget.dsLogLen = s.forget.logCap from hfull)]
    rfl
  · rw [logRecord, logRecord, if_neg hfull, if_neg (show ¬s.forget.dsLogLen = s.forget.logCap from hfull)]
    rfl

theorem logRecords_blind (rs : List (BitVec 29)) : Blind (logRecords rs) := by
  induction rs with
  | nil => exact .done
  | cons r rs ih => exact (logRecord_blind r).bind ih

theorem runBound_blind (ops : List SinkOp) : Blind (runBound ops) := by
  intro s
  cases hsink : s.sinkSel with
  | false =>
    rw [runBound_real ops hsink, runBound_real (s := s.forget) ops hsink]
    exact runReal_blind ops s
  | true =>
    rw [runBound_deferred ops hsink, runBound_deferred (s := s.forget) ops hsink, runDeferred_eq]
    exact logRecords_blind _ s

/-- How far the log has grown says which records were appended. -/
theorem logList_runBound {ops : List SinkOp} (hops : ∀ o ∈ ops, o.legal = true) (s : State) :
    (runBound ops s).state.logList =
      s.logList ++ (ops.flatMap SinkOp.records).take ((runBound ops s).state.dsLogLen - s.dsLogLen) := by
  rcases runBound_write ops s with ⟨-, h⟩ | ⟨-, n, h⟩
  · obtain ⟨bs, k, p, c, hq⟩ := h.only
    have hlen : (runBound ops s).state.dsLogLen = s.dsLogLen := (congrArg State.dsLogLen hq).trans rfl
    rw [h.only.logList, hlen, Nat.sub_self, List.take_zero, List.append_nil]
  · have hlen : (runBound ops s).state.dsLogLen - s.dsLogLen = ((ops.flatMap SinkOp.records).take n).length := by
      rw [h.eq]
      exact Nat.add_sub_cancel_left ..
    rw [hlen, h.eq, (s.loggedOnly_withRecords fun r hr => records_legal_of_legal hops r (List.mem_of_mem_take hr)).1,
      List.length_take, List.take_eq_take_min.symm]

theorem uList_runBound (ops : List SinkOp) (s : State) : (runBound ops s).state.uList = s.uList := by
  obtain ⟨cnt, pend, out, errs, log, n, h, -⟩ := runBound_sinksGrew ops s
  exact (congrArg State.uList h).trans rfl

/-- The same legal writes from states that agree end in states that agree. -/
theorem runBound_alike {ops : List SinkOp} (hops : ∀ o ∈ ops, o.legal = true) {s s' : State} (h : s.Alike s') :
    (runBound ops s).forget = (runBound ops s').forget
      ∧ (runBound ops s).state.Alike (runBound ops s').state := by
  have hrun := (runBound_blind ops).congr h.forget
  have hstate : (runBound ops s).state.forget = (runBound ops s').state.forget := by
    rw [← Io.state_forget, hrun, Io.state_forget]
  have hlen := reg_eq_of_forget_eq h.forget State.dsLogLen
  have hlen' := reg_eq_of_forget_eq hstate State.dsLogLen
  refine ⟨hrun, hstate, ?_, ?_⟩
  · rw [uList_runBound, uList_runBound, h.uList]
  · rw [logList_runBound hops, logList_runBound hops, h.logList, hlen, hlen']

/-! ## The stages side by side -/

/-- U and the log are as they were. -/
structure State.Keeps (s t : State) : Prop where
  uList : t.uList = s.uList
  logList : t.logList = s.logList

/-- Where both runs keep U and the log, the registers are left to compare. -/
theorem State.Alike.of_keeps {s t s' t' : State} (hs : s.Alike s') (h : s.Keeps t) (h' : s'.Keeps t')
    (hforget : t.forget = t'.forget) : t.Alike t' :=
  ⟨hforget, by rw [h.uList, h'.uList, hs.uList], by rw [h.logList, h'.logList, hs.logList]⟩

section
variable {s a b c d e t s' a' b' c' d' e' t' : State}

theorem State.Summed.keeps (h : s.Summed a) : s.Keeps a :=
  ⟨(congrArg State.uList h.frame).trans rfl, (congrArg State.logList h.frame).trans rfl⟩

theorem State.Summed.forget_eq (h : s.Summed a) :
    a.forget = { s.forget with blockCrc := s.crcAcc ^^^ 0xFFFFFFFF#32, stage := 3#4 } :=
  congrArg State.forget h.frame

theorem State.Sorted.keeps (h : a.Sorted b) : a.Keeps b :=
  ⟨(congrArg State.uList h.frame).trans rfl, (congrArg State.logList h.frame).trans rfl⟩

theorem State.Sorted.forget_eq (h : a.Sorted b) :
    b.forget = { a.forget with origPtr := b.origPtr, stage := 4#4 } :=
  congrArg State.forget h.frame

theorem State.Mapped.keeps (h : b.Mapped c) : b.Keeps c :=
  ⟨(congrArg State.uList h.frame).trans rfl, (congrArg State.logList h.frame).trans rfl⟩

theorem State.Mapped.forget_eq (h : b.Mapped c) :
    c.forget = { b.forget with regK := c.regK, stage := 5#4 } :=
  congrArg State.forget h.frame

theorem State.Coded.keeps (h : c.Coded d) : c.Keeps d :=
  ⟨(congrArg State.uList h.frame).trans rfl, (congrArg State.logList h.frame).trans rfl⟩

theorem State.Coded.forget_eq (h : c.Coded d) :
    d.forget = { c.forget with regS := d.regS, zRun := 0, stage := 6#4 } :=
  congrArg State.forget h.frame

theorem State.Tabled.keeps (h : d.Tabled e) : d.Keeps e :=
  ⟨(congrArg State.uList h.frame).trans rfl, (congrArg State.logList h.frame).trans rfl⟩

theorem State.Tabled.forget_eq (h : d.Tabled e) :
    e.forget = { d.forget with regT := e.regT, regG := e.regG, stage := 7#4 } :=
  congrArg State.forget h.frame

theorem State.Numbered.keeps (h : e.Numbered t) : e.Keeps t :=
  ⟨(congrArg State.uList h.frame).trans rfl, (congrArg State.logList h.frame).trans rfl⟩

theorem State.Numbered.forget_eq (h : e.Numbered t) :
    t.forget = { e.forget with stage := 8#4 } :=
  congrArg State.forget h.frame

theorem State.Summed.alike (h : s.Summed a) (h' : s'.Summed a') (hs : s.Alike s') : a.Alike a' :=
  hs.of_keeps h.keeps h'.keeps <| by
    rw [h.forget_eq, h'.forget_eq, hs.forget, reg_eq_of_forget_eq hs.forget State.crcAcc]

theorem State.Sorted.alike (h : a.Sorted b) (h' : a'.Sorted b') (ha : a.Alike a') :
    b.Alike b' ∧ b.lcolList = b'.lcolList := by
  refine ⟨ha.of_keeps h.keeps h'.keeps ?_, ?_⟩
  · rw [h.forget_eq, h'.forget_eq, ha.forget, h.origPtr, h'.origPtr, ha.uList]
  · rw [h.lcolList, h'.lcolList, ha.uList]

theorem State.Mapped.alike (h : b.Mapped c) (h' : b'.Mapped c') (hb : b.Alike b') (hl : b.lcolList = b'.lcolList) :
    c.Alike c' ∧ c.inUseList = c'.inUseList ∧ c.lcolList = c'.lcolList := by
  have hcol : ∀ {b c : State}, b.Mapped c → c.lcolList = b.lcolList := fun h =>
    (congrArg State.lcolList h.frame).trans rfl
  have hK : c.regK = c'.regK := by rw [h.regK, h'.regK, hb.uList]
  refine ⟨hb.of_keeps h.keeps h'.keeps ?_, ?_, ?_⟩
  · rw [h.forget_eq, h'.forget_eq, hb.forget, hK]
  · rw [h.inUseList, h'.inUseList, hb.uList]
  · rw [hcol h, hcol h', hl]

theorem State.Coded.alike (h : c.Coded d) (h' : c'.Coded d') (hc : c.Alike c') (hm : c.inUseList = c'.inUseList)
    (hl : c.lcolList = c'.lcolList) : d.Alike d' ∧ d.symList = d'.symList := by
  have hcoded : c.codedSymbols = c'.codedSymbols := by
    rw [State.codedSymbols, State.codedSymbols, hm, hl, reg_eq_of_forget_eq hc.forget State.regK]
  refine ⟨hc.of_keeps h.keeps h'.keeps ?_, ?_⟩
  · rw [h.forget_eq, h'.forget_eq, hc.forget, h.regS, h'.regS, hcoded]
  · rw [h.symList, h'.symList, hcoded]

/-- The rounds look at SYM, K, ITER and the code-length function only. -/
theorem rounds_congr (hd : d.Alike d') (hsym : d.symList = d'.symList) : d.rounds = d'.rounds := by
  rw [State.rounds, State.rounds, hsym, reg_eq_of_forget_eq hd.forget State.regK,
    reg_eq_of_forget_eq hd.forget State.iter, reg_eq_of_forget_eq hd.forget State.huffTable]

theorem State.Tabled.alike (h : d.Tabled e) (h' : d'.Tabled e') (hd : d.Alike d') (hsym : d.symList = d'.symList) :
    e.Alike e' ∧ e.selList = e'.selList ∧ ∀ i, i < e.regT.toNat → e.lenRow i = e'.lenRow i := by
  have hS := reg_eq_of_forget_eq hd.forget State.regS
  have hr := rounds_congr hd hsym
  refine ⟨hd.of_keeps h.keeps h'.keeps ?_, ?_, fun i hi => ?_⟩
  · rw [h.forget_eq, h'.forget_eq, hd.forget, h.regT, h'.regT, h.regG, h'.regG, hS]
  · rw [h.selList, h'.selList, hr]
  · have hi' : i < numTables d.regS.toNat := hi.trans_le (h.regT ▸ toNat_ofNat_le le_rfl)
    rw [h.lenRow i hi', h'.lenRow i (hS ▸ hi'), hr]

theorem State.Numbered.alike (h : e.Numbered t) (h' : e'.Numbered t') (he : e.Alike e')
    (hrow : ∀ i, i < e.regT.toNat → e.lenRow i = e'.lenRow i) :
    t.Alike t' ∧ ∀ i v, i < t.regT.toNat → v < t.regK.toNat + 2 → t.codeAt i v = t'.codeAt i v := by
  have hT : t.regT = e.regT := (congrArg State.regT h.frame).trans rfl
  have hK : t.regK = e.regK := (congrArg State.regK h.frame).trans rfl
  refine ⟨he.of_keeps h.keeps h'.keeps (by rw [h.forget_eq, h'.forget_eq, he.forget]), fun i v hi hv => ?_⟩
  rw [hT] at hi
  rw [hK] at hv
  rw [h.codeAt i v hi hv, h'.codeAt i v (reg_eq_of_forget_eq he.forget State.regT ▸ hi)
    (reg_eq_of_forget_eq he.forget State.regK ▸ hv), hrow i hi]

/-! ## Stage 8 side by side -/

theorem State.Prepared.inUseList_eq (h : s.Prepared a b c d e t) : t.inUseList = c.inUseList := by
  rw [h.numbered.frame, h.tabled.frame, h.coded.frame]
  rfl

theorem State.Prepared.symList_eq (h : s.Prepared a b c d e t) : t.symList = d.symList := by
  rw [h.numbered.frame, h.tabled.frame]
  rfl

theorem State.Prepared.selList_eq (h : s.Prepared a b c d e t) : t.selList = e.selList := by
  rw [h.numbered.frame]
  rfl

theorem State.Prepared.lenRow_eq (h : s.Prepared a b c d e t) (i : Nat) : t.lenRow i = e.lenRow i := by
  rw [h.numbered.frame]
  rfl

/-- What stage 8 reads agrees. -/
structure State.SameBlock (t t' : State) : Prop where
  alike : t.Alike t'
  inUseList : t.inUseList = t'.inUseList
  symList : t.symList = t'.symList
  selList : t.selList = t'.selList
  lenRow : ∀ i, i < t.regT.toNat → t.lenRow i = t'.lenRow i
  codeAt : ∀ i v, i < t.regT.toNat → v < t.regK.toNat + 2 → t.codeAt i v = t'.codeAt i v

theorem State.Prepared.sameBlock (h : s.Prepared a b c d e t) (h' : s'.Prepared a' b' c' d' e' t') (hs : s.Alike s') :
    t.SameBlock t' := by
  have ha := h.summed.alike h'.summed hs
  obtain ⟨hb, hl⟩ := h.sorted.alike h'.sorted ha
  obtain ⟨hc, hm, hl⟩ := h.mapped.alike h'.mapped hb hl
  obtain ⟨hd, hsym⟩ := h.coded.alike h'.coded hc hm hl
  obtain ⟨he, hsel, hrow⟩ := h.tabled.alike h'.tabled hd hsym
  obtain ⟨ht, hcode⟩ := h.numbered.alike h'.numbered he hrow
  have hT : t.regT = e.regT := (congrArg State.regT h.numbered.frame).trans rfl
  exact ⟨ht, h.inUseList_eq.trans (hm.trans h'.inUseList_eq.symm), h.symList_eq.trans (hsym.trans h'.symList_eq.symm),
    h.selList_eq.trans (hsel.trans h'.selList_eq.symm),
    fun i hi => (h.lenRow_eq i).trans ((hrow i (hT ▸ hi)).trans (h'.lenRow_eq i).symm), hcode⟩

/-- Stage 8 writes the same. -/
theorem State.SameBlock.blockOps_eq (h : t.SameBlock t') (hr : t.EmitReady) : blockOps t = blockOps t' := by
  have hreg := fun {α : Type} (f : State → α) hf => reg_eq_of_forget_eq h.alike.forget f hf
  have hT : t.regT = t'.regT := hreg State.regT fun _ => rfl
  have hK : t.regK = t'.regK := hreg State.regK fun _ => rfl
  have htables : tablesOps t = tablesOps t' := by
    rw [tablesOps, tablesOps, ← hT]
    exact List.flatMap_congr fun i hi => by rw [h.lenRow i (List.mem_range.mp hi)]
  have hstream : symbolStreamOps t = symbolStreamOps t' := by
    rw [symbolStreamOps, symbolStreamOps, ← h.symList, ← h.selList]
    refine List.flatMap_congr fun ⟨v, i⟩ hvi => ?_
    have hv := hr.sym_lt v (List.fst_mem_of_mem_zipIdx hvi)
    have hi := hr.tableOf_lt i
    rw [symbolAtOps, symbolAtOps, h.codeAt _ v hi hv, lenAt_eq_getD t hv, lenAt_eq_getD t' (hK ▸ hv), h.lenRow _ hi]
  rw [blockOps, blockOps, htables, hstream, h.inUseList, h.selList, hT, hreg State.blockCrc fun _ => rfl,
    hreg State.origPtr fun _ => rfl, hreg State.regG fun _ => rfl]

/-- Stage 8 ends in states that agree. -/
theorem State.SameBlock.exec_stEmit (h : t.SameBlock t') (hr : t.EmitReady) :
    ∃ q q', exec .stEmit t = .next q ∧ exec .stEmit t' = .next q' ∧ q.Alike q' := by
  obtain ⟨hrun, hend⟩ := runBound_alike hr.blockOps_legal h.alike
  have hblock := reg_eq_of_forget_eq h.alike.forget State.blockCrc
  have hsame := h.blockOps_eq hr
  cases hq : runBound (blockOps t) t <;> cases hq' : runBound (blockOps t) t' <;> rw [hq, hq'] at hrun hend
  case done.done q q' =>
    refine ⟨_, _, exec_stEmit_of_done hq, exec_stEmit_of_done (hsame ▸ hq'), ?_, hend.uList, hend.logList⟩
    exact hblock ▸ congrArg (fun x => ((endClose x).respond t.blockCrc)) hend.forget
  case failed.failed c q c' q' =>
    obtain rfl : c = c' := (Io.failed.inj hrun).1
    refine ⟨q.takeFatal c, q'.takeFatal c, by rw [exec, execStEmit, hq], by rw [exec, execStEmit, ← hsame, hq'], ?_,
      hend.uList, hend.logList⟩
    exact congrArg (fun x => x.takeFatal c) hend.forget
  all_goals exact Io.noConfusion hrun

end

/-! ## Stage 1 side by side, and the whole closing -/

theorem flushRun_alike {s s' : State} (hi : s.inv) (hi' : s'.inv) (h : s.Alike s') :
    (flushRun s).Alike (flushRun s') := by
  have hf : ∀ s : State, (flushRun s).forget =
      { s.forget with regN := s.regN + BitVec.ofNat 20 (pendingCost s.rlRun.toNat), rlRun := 0 } := fun s => by
    rw [flushRun_eq]
    rfl
  have hu : ∀ {s : State}, s.inv → (flushRun s).uList = s.uList ++ runSymbols s.rlLast s.rlRun.toNat := fun hi => by
    obtain ⟨⟨-, hwf, -⟩, -, -, -, -, -, -, -, ⟨hle, -⟩, -⟩ := hi
    exact uList_flushRun hwf (by omega)
  have hl : ∀ s : State, (flushRun s).logList = s.logList := fun s => by
    rw [flushRun_eq]
    rfl
  have hrun := reg_eq_of_forget_eq h.forget State.rlRun
  have hlast := reg_eq_of_forget_eq h.forget State.rlLast
  have hN := reg_eq_of_forget_eq h.forget State.regN
  refine ⟨?_, ?_, ?_⟩
  · rw [hf, hf, h.forget, hrun, hN]
  · rw [hu hi, hu hi', h.uList, hrun, hlast]
  · rw [hl, hl, h.logList]

/-- With nothing at the port a block at rest stays as it is. -/
theorem run_of_empty_port {s : State} (hp : s.phase ≠ .closing) (hport : s.port = []) (k : Nat) :
    core.run k s = .next s := by
  induction k with
  | zero => rfl
  | succ k ih => exact (run_succ (step_of_empty_port hp hport) k).trans ih

/-- The closing of a block that is not empty, up to its end. -/
theorem run_of_prepared {s₁ s a b c d e t q : State} (hs : step s₁ = .next s) (hprep : s.Prepared a b c d e t)
    (hq : exec .stEmit t = .next q) : core.run 8 s₁ = .next q := by
  obtain ⟨-, -, -, -, -, ht⟩ := hprep.stages
  rw [run_succ hs, hprep.run 1, run_succ ((step_at_stage ht rfl).trans hq)]
  rfl

/-- The block with stage 1 done and nothing to close (R331). -/
def State.closedEmpty (s : State) : State :=
  { flushRun s with emitted := false, phase := .idle, stage := 0, resp := some ⟨0#8, 0⟩ }

theorem run_of_empty_block {s : State} (hs : s.AtStage 1) (hport : s.port = []) (hn : (flushRun s).regN = 0) :
    core.run 8 s = .next s.closedEmpty := by
  have hstep : step s = .next s.closedEmpty := (step_at_stage hs rfl).trans (exec_stRleflush_empty hn)
  have hidle : s.closedEmpty.phase ≠ .closing := by
    show Phase.idle ≠ .closing
    decide
  rw [run_succ hstep]
  exact run_of_empty_port hidle ((step_port_of_closing hs.phase hstep).trans hport) 7

theorem closing_alike {s s' : State} (hi : s.inv) (hi' : s'.inv) (hs : s.AtStage 1) (hport : s.port = [])
    (h : s.Alike s') : ∃ t t', core.run 8 s = .next t ∧ core.run 8 s' = .next t' ∧ t.Alike t' := by
  have hs' : s'.AtStage 1 :=
    ⟨reg_eq_of_forget_eq h.forget State.phase ▸ hs.phase, reg_eq_of_forget_eq h.forget State.stage ▸ hs.stage⟩
  have hport' : s'.port = [] := reg_eq_of_forget_eq h.forget State.port ▸ hport
  have hflush := flushRun_alike hi hi' h
  have hN := reg_eq_of_forget_eq hflush.forget State.regN
  by_cases hn : (flushRun s).regN = 0
  · refine ⟨_, _, run_of_empty_block hs hport hn, run_of_empty_block hs' hport' (hN ▸ hn), ?_, hflush.uList,
      hflush.logList⟩
    exact congrArg (fun x : State =>
      { x with emitted := false, phase := .idle, stage := 0, resp := some ⟨0#8, 0⟩ }) hflush.forget
  · have hstep := (step_at_stage hs rfl).trans (exec_stRleflush_nonempty hn)
    have hstep' := (step_at_stage hs' rfl).trans (exec_stRleflush_nonempty (hN ▸ hn))
    have h₂ : State.Alike { flushRun s with stage := 2#4 } { flushRun s' with stage := 2#4 } :=
      ⟨congrArg (fun x : State => { x with stage := 2#4 }) hflush.forget, hflush.uList, hflush.logList⟩
    obtain ⟨a, b, c, d, e, t, hprep⟩ := exists_prepared (step_inv hi hstep) ⟨(flushRun_phase s).trans hs.phase, rfl⟩
    obtain ⟨a', b', c', d', e', t', hprep'⟩ :=
      exists_prepared (step_inv hi' hstep') ⟨(flushRun_phase s').trans hs'.phase, rfl⟩
    obtain ⟨q, q', hq, hq', hend⟩ := (hprep.sameBlock hprep' h₂).exec_stEmit hprep.emitReady
    exact ⟨q, q', run_of_prepared hstep hprep hq, run_of_prepared hstep' hprep' hq', hend⟩

/-- Settles O60. -/
theorem oldMemoryContentDoesNotMatter : Obligations.OldMemoryContentDoesNotMatter := by
  intro s s' hi hi' hp hst hport hsame hu hl
  have hforget : s'.forget = s.forget := (congrArg State.forget hsame).trans rfl
  obtain ⟨t, t', ht, ht', h⟩ := closing_alike hi hi' ⟨hp, hst⟩ hport ⟨hforget.symm, hu.symm, hl.symm⟩
  exact ⟨t, t', ht, ht', eq_of_forget_eq h.forget, h.uList.symm, h.logList.symm⟩

end Sys2Proof.Machine
end
